-- ==== Sys2Proof/Word.lean ====
section
/-! DEFINITION. The byte that crosses a port (R180) and the plain numbers of the manual.
Keys, generations, leases, apply numbers, limits and lengths are numbers that the manual counts and
compares, so they are `Nat`; what it shifts, masks or sends as bits is a `BitVec`. -/

namespace Sys2Proof

/-- One byte on a port's serial line, or of a TEXT value (R21, R180). -/
abbrev Byte := BitVec 8

/-- A 32-bit word: the content of an INTEGER or a FLAGS value (R21). -/
abbrev Word32 := BitVec 32

end Sys2Proof
end

