-- ==== Sys2Proof/Syntax.lean ====
section
/-! DEFINITION. The commands and happenings of the part: one constructor of `Instr` per row of
spec/opcode_table.json. A host's command reaches its owning block in two happenings (R184, R185): the
COMMAND_FRAME row carries the bytes of the frame, code, tag and parameters among them, and the
command's own row is the owning block taking the command that the port has passed on. So the operand of a
command's own row is the port alone; its parameters stand in the port's command state. -/

namespace Sys2Proof

/-- The three host ports. -/
inductive Port
  | p0
  | p1
  | p2
deriving DecidableEq, Repr

/-- How a frame, or a part of one, reaches a port (R180, R181). `whole` is the usual case: nothing else is
taken between the fall and the rise of CSn. `first`, `next` and `last` cut a frame into pieces so that
other happenings may be taken while the port is COLLECTING. The bytes are whole bytes sent by the
host; `partialByte` says that further rising edges of SCK came before CSn rose. -/
inductive FramePart
  | whole (bytes : List Byte) (partialByte : Bool)
  | first (bytes : List Byte)
  | next (bytes : List Byte)
  | last (bytes : List Byte) (partialByte : Bool)
deriving DecidableEq, Repr

/-- What the NV Array does with a phase that ends (R137) or is cut (R138): the effect the phase is meant to
have, the cell as before, or the cell left erased or corrupt. Which results are possible for which
phase, and how the others are read, is stated where the result is used. -/
inductive NvResult
  | asMeant
  | asBefore
  | erased
  | corrupt
deriving DecidableEq, Repr

/-- Where a tick is taken (R83): at every claim entry in use and at the pause limit in one step, or at one
of them as the separate happening that it is. -/
inductive TickTarget
  | all
  | claim (key : Nat)
  | pauseLimit
deriving DecidableEq, Repr

/-- The rows of spec/opcode_table.json, in the table's order. -/
inductive Instr
  /-- POLL (R186): the host sends 0x00 and then the bytes of the part. -/
  | poll (p : Port) (part : FramePart)
  /-- FETCH (R187): the host sends 0x05 and then the bytes of the part. -/
  | fetch (p : Port) (part : FramePart)
  /-- COMMAND_FRAME (R182 to R184): the host sends the bytes of the part. -/
  | commandFrame (p : Port) (part : FramePart)
  /-- BAD_COMMAND (R185). -/
  | badCommand (p : Port)
  /-- IDENT (R192). -/
  | ident (p : Port)
  /-- STATUS (R193). -/
  | status (p : Port)
  /-- ACK (R190). -/
  | ack (p : Port)
  /-- DETACH (R191). -/
  | detach (p : Port)
  /-- GET (R15). -/
  | get (p : Port)
  /-- GETDEF (R16). -/
  | getdef (p : Port)
  /-- FIND (R17). -/
  | find (p : Port)
  /-- CLAIMINFO (R96). -/
  | claiminfo (p : Port)
  /-- BEGIN (R42). -/
  | beginChangeset (p : Port)
  /-- SET (R45, R56). -/
  | set (p : Port)
  /-- CREATE (R48, R56). -/
  | create (p : Port)
  /-- RETIRE (R49, R56). -/
  | retire (p : Port)
  /-- DEFAULT (R46, R56). -/
  | default (p : Port)
  /-- REVERT (R47, R56). -/
  | revert (p : Port)
  /-- COMMIT (R52). -/
  | commit (p : Port)
  /-- ABANDON (R54). -/
  | abandon (p : Port)
  /-- CLAIM (R86, R87). -/
  | claim (p : Port)
  /-- RELEASE (R88). -/
  | release (p : Port)
  /-- WATCH (R119). -/
  | watch (p : Port)
  /-- UNWATCH (R120). -/
  | unwatch (p : Port)
  /-- WATCHCLASS (R121). -/
  | watchclass (p : Port)
  /-- UNWATCHCLASS (R121). -/
  | unwatchclass (p : Port)
  /-- NEXTNOTICE (R130). -/
  | nextnotice (p : Port)
  /-- SYNC (R160). -/
  | sync (p : Port)
  /-- PAUSE (R153). -/
  | pause (p : Port)
  /-- RESUME (R154). -/
  | resume (p : Port)
  /-- CLEARFAULT (R158). -/
  | clearfault (p : Port)
  /-- SETQUOTA (R14). -/
  | setquota (p : Port)
  /-- SETROLE (R102). -/
  | setrole (p : Port)
  /-- WINDOW (R108). -/
  | window (p : Port)
  /-- UNWINDOW (R109). -/
  | unwindow (p : Port)
  /-- FREEZE (R112). -/
  | freeze (p : Port)
  /-- WINDOWINFO (R110). -/
  | windowinfo (p : Port)
  /-- RESTART (R165); `cut` is what the NV Array leaves of the phase in flight (R138). -/
  | restart (p : Port) (cut : NvResult)
  /-- TICK (R83, R85, R155). -/
  | tick (target : TickTarget)
  /-- CLAIM_EXPIRY (R90): the tick that finds the remaining lease of the claim on `key` at 1. -/
  | claimExpiry (key : Nat)
  /-- PAUSE_LIMIT_EXPIRY (R155): the tick that finds the remaining limit at 1. -/
  | pauseLimitExpiry
  /-- PHASE_END (R148): a phase other than the last of its attempt ends with `result` (R137). -/
  | phaseEnd (result : NvResult)
  /-- WRITE_COMPLETION (R149). -/
  | writeCompletion
  /-- ERASE_COMPLETION (R150). -/
  | eraseCompletion
  /-- FREEZE_JOB_END (R147). -/
  | freezeJobEnd
  /-- VERIFY_MISMATCH (R151). -/
  | verifyMismatch
  /-- POWER_UP (R164). -/
  | powerUp (cut : NvResult)
  /-- POWER_LOSS (R164). -/
  | powerLoss (cut : NvResult)
  /-- RESETN_ASSERT (R164). -/
  | resetnAssert (cut : NvResult)
  /-- RESETN_RELEASE (R164). -/
  | resetnRelease
  /-- READY (R176). -/
  | ready
deriving DecidableEq, Repr

end Sys2Proof
end

