-- ==== Sys2Proof/Decode.lean ====
section
/-! DEFINITION. The word that a row of spec/opcode_table.json spells by the table's bits. The table gives no
row any bits ("fields": [] in every row and no "fixed"), so no word spells a command here. The bytes of
the command frames of chapter 10 are read by the port (Machine/Wire.lean) and by the owning blocks
(Machine/Operands.lean), as R182 and R194 say. -/

namespace Sys2Proof

/-- No row of the table has bits, so no word spells a command. -/
def decodeTableWord (_nbits _w : Nat) : Option Instr := none

end Sys2Proof
end

