-- ==== Sys2Proof/Config.lean ====
section
/-! DEFINITION. The capacities and limits of the part, each a constant of the manual (R192 reports most of
them in the IDENT answer). The manual leaves no value of the part to the implementation that a result
depends on, so this file holds no free value: what the NV Array does is an operand of the happening
(`NvResult` in Syntax.lean). -/

namespace Sys2Proof.Config

/-- Slots of the Record Table, and cell pairs of the NV Array (R1, R135). -/
abbrev slotCount : Nat := 384
/-- Class descriptors (R13). -/
abbrev classCount : Nat := 16
/-- Protection windows and one-time entries (R107, R111). -/
abbrev windowCount : Nat := 6
/-- Staged entries in the shared pool (R39). -/
abbrev poolSize : Nat := 64
/-- Deepest changeset stack of a port (R37). -/
abbrev maxDepth : Nat := 4
/-- Claim entries of the Claim Table (R84). -/
abbrev claimEntries : Nat := 24
/-- Notices a port's queue holds (R126). -/
abbrev noticeQueueSize : Nat := 16
/-- Places for persist jobs (R139). -/
abbrev persistPlaces : Nat := 32
/-- Clean-up jobs that the scan queues itself (R172). -/
abbrev scanCleanups : Nat := 24
/-- Largest parameter length of a command frame (R182). -/
abbrev maxParams : Nat := 80
/-- Largest class quota (R13). -/
abbrev maxQuota : Nat := 384
/-- Longest lease of a claim, in ticks (R86). -/
abbrev maxLease : Nat := 60000
/-- Longest pause limit, in ticks (R153). -/
abbrev maxPause : Nat := 10000
/-- Highest apply number (R61). -/
abbrev maxApplyNumber : Nat := 4294967295
/-- Highest key (R4). -/
abbrev maxKey : Nat := 65534
/-- Highest generation and cell sequence number; the next one is 1 (R7, R136). -/
abbrev maxGeneration : Nat := 65535
/-- Longest TEXT value of a record (R22). -/
abbrev maxText : Nat := 32

end Sys2Proof.Config
end

