-- ==== Sys2Proof/Machine/State.lean ====
section
/-! DEFINITION. The state of the AZ-4160, block by block, as plain data, and the state after a start-up.
Each structure cites the rule that names its fields. What the manual computes and does not store (a
port's view, the PENDING reading, an effective right, the status byte, the ATTNn lines, the free pool
entries) is no field: Machine/Ops.lean and Machine/Flags.lean compute it. -/

namespace Sys2Proof.Machine

/-- A slot of the Record Table, and the cell pair of the same number (R1, R135). -/
abbrev SlotId := Fin Config.slotCount
/-- A class number (R13). -/
abbrev ClassId := Fin Config.classCount
/-- A protection window, and the one-time entry of the same number (R107, R111). -/
abbrev WindowId := Fin Config.windowCount

/-- One value of a kind for each host port. -/
structure PortMap (α : Type) where
  p0 : α
  p1 : α
  p2 : α
deriving DecidableEq, Repr

/-- A subset of the ports, such as a watch set (R118). -/
abbrev PortSet := PortMap Bool

/-! ## Values, definitions and records -/

/-- The four types (R21). -/
inductive ValueType
  | integer
  | enum
  | flags
  | text
deriving DecidableEq, Repr

/-- A value held with its type (R21). An INTEGER is a signed number in 32 bits, read by `BitVec.toInt`. -/
inductive Value
  | integer (v : Word32)
  | enum (code : Byte)
  | flags (bits : Word32)
  | text (bytes : List Byte)
deriving DecidableEq, Repr

/-- The constraints of a type (R22). The constructor is the type of the record. -/
inductive Constraints
  | integer (min max : Word32) (step : Option Nat)
  | enum (codes : List Byte)
  | flags (writable : Word32)
  | text (maxLength : Nat)
deriving DecidableEq, Repr

/-- LASTING or TRANSIENT, of a record (R5) and of an apply (R79). -/
inductive Persistence
  | lasting
  | transient
deriving DecidableEq, Repr

/-- A record's definition, fixed at its creation (R5). -/
structure Definition where
  cls : ClassId
  persistence : Persistence
  constraints : Constraints
  default : Option Value
deriving DecidableEq, Repr

/-- A record (R5). -/
structure Record where
  key : Nat
  defn : Definition
  live : Value
  stored : Option Value
  generation : Nat
  overridden : Bool
  stale : Bool
  watchers : PortSet
deriving DecidableEq, Repr

/-- A slot and what it holds (R1). -/
inductive Slot
  | free
  | live (r : Record)
  | draining (key : Option Nat)
  | broken
deriving DecidableEq, Repr

/-- A class descriptor (R13). -/
structure ClassDesc where
  quota : Nat
  count : Nat
  watchers : PortSet
deriving DecidableEq, Repr

/-! ## Staging -/

/-- The change a staged entry makes (R38). -/
inductive Change
  | set (v : Value) (expect : Option Nat)
  | create (d : Definition) (v : Value)
  | retire (expect : Option Nat)
deriving DecidableEq, Repr

/-- A staged entry: one change of one key (R38). -/
structure Entry where
  key : Nat
  change : Change
deriving DecidableEq, Repr

/-- A changeset: its entries in the order in which they were first placed (R37). -/
abbrev Changeset := List Entry

/-- A changeset stack, the top changeset first; level 1 is the last (R37). -/
abbrev Stack := List Changeset

/-! ## Claims -/

/-- A port waiting for a claim, with its requested lease (R84). -/
structure Waiter where
  port : Port
  lease : Nat
deriving DecidableEq, Repr

/-- A claim entry in use (R84). -/
structure ClaimEntry where
  key : Nat
  holder : Port
  remaining : Nat
  waiters : List Waiter
deriving DecidableEq, Repr

/-! ## Rights -/

/-- A port's role (R101). -/
inductive Role
  | admin
  | editor
  | reader
deriving DecidableEq, Repr

/-- The four rights, in rising order (R104). -/
inductive Right
  | none
  | read
  | stage
  | full
deriving DecidableEq, Repr

/-- The definition of a protection window (R107). -/
structure WindowDef where
  lo : Nat
  hi : Nat
  invert : Bool
  rights : PortMap Right
deriving DecidableEq, Repr

/-- A protection window: its state, and its definition in every state but UNUSED (R107). -/
inductive Window
  | unused
  | active (d : WindowDef)
  | freezing (d : WindowDef)
  | frozen (d : WindowDef)
deriving DecidableEq, Repr

/-- The state of a one-time entry as the Rights Unit holds it (R111). -/
inductive EntryState
  | unwritten
  | valid
  | spoiled
deriving DecidableEq, Repr

/-- The Rights Unit (R101, R107, R111). -/
structure Rights where
  roles : PortMap Role
  windows : Vector Window Config.windowCount
  entries : Vector EntryState Config.windowCount
deriving DecidableEq, Repr

/-! ## Notices -/

/-- The kinds of job that a fault record and an ENGINE_FAULT notice can name (R123, R156). -/
inductive JobKind
  | write
  | erase
deriving DecidableEq, Repr

/-- Why a pause ended with a notice (R123). -/
inductive PauseReason
  | limit
  | fault
deriving DecidableEq, Repr

/-- The thirteen kinds of notice, each with the fields it carries (R123). -/
inductive Notice
  | changed (key generation : Nat)
  | created (key : Nat)
  | retired (key : Nat)
  | claimGranted (key : Nat)
  | claimExpired (key : Nat)
  | claimVoid (key : Nat)
  | durable (mark : Nat)
  | notDurable (mark : Nat)
  | pauseEnded (reason : PauseReason)
  | engineFault (kind : JobKind) (slot : SlotId)
  | freezeDone (window : WindowId)
  | freezeFailed (window : WindowId)
  | resync
deriving DecidableEq, Repr

/-- A notice queue: NORMAL with its notices, oldest first, or RESYNC with the single RESYNC notice (R126). -/
inductive NoticeQueue
  | normal (notices : List Notice)
  | resync
deriving DecidableEq, Repr

/-! ## The NV Array -/

/-- What a written record cell with a matching check holds (R135). Persistence is not kept in a cell. -/
structure CellCopy where
  seq : Nat
  key : Nat
  cls : ClassId
  constraints : Constraints
  default : Option Value
  value : Value
deriving DecidableEq, Repr

/-- A record cell (R135, R136). `written` is a cell whose check matches, valid while its void mark is clear
and void once it is set; `corrupt` is a written cell whose check does not match, of which no other field
is ever used (R136). -/
inductive Cell
  | erased
  | written (voidMark : Bool) (copy : CellCopy)
  | corrupt
deriving DecidableEq, Repr

/-- The two cells of a slot (R135). -/
structure CellPair where
  a : Cell
  b : Cell
deriving DecidableEq, Repr

/-- Names a cell of a pair. -/
inductive CellName
  | a
  | b
deriving DecidableEq, Repr

/-- A one-time entry of the NV Array (R111). -/
inductive OneTime
  | unwritten
  | valid (d : WindowDef)
  | spoiled
deriving DecidableEq, Repr

/-- The NV Array: 768 record cells in 384 pairs, and six one-time entries (R135). -/
structure NvArray where
  cells : Vector CellPair Config.slotCount
  entries : Vector OneTime Config.windowCount
deriving DecidableEq, Repr

/-! ## The Persist Engine -/

/-- A WRITE job: its slot and key, the snapshot it programs, and its apply numbers (R140). -/
structure WriteJob where
  slot : SlotId
  key : Nat
  defn : Definition
  value : Value
  first : Nat
  last : Nat
deriving DecidableEq, Repr

/-- An ERASE job; key and apply numbers (first, last) are present for a retire and absent for a clean-up
(R140). -/
structure EraseJob where
  slot : SlotId
  key : Option Nat
  applies : Option (Nat × Nat)
deriving DecidableEq, Repr

/-- A job on the record cells of a slot: the jobs that can fault the engine (R156). -/
inductive SlotJob
  | write (w : WriteJob)
  | erase (e : EraseJob)
deriving DecidableEq, Repr

/-- A persist job (R140). -/
inductive Job
  | slot (j : SlotJob)
  | freeze (window : WindowId) (d : WindowDef)
deriving DecidableEq, Repr

/-- A phase of an attempt at the NV Array (R140, R145, R146, R147). The target cell and the sequence number
of a WRITE, and the cells still to be marked by an ERASE, are worked out at the start of the attempt and
stand in its phases. -/
inductive Phase
  | eraseTarget (cell : CellName) (seq : Nat)
  | program (cell : CellName) (seq : Nat)
  | verify (cell : CellName) (seq : Nat)
  | mark (cell : CellName) (later : List CellName)
  | eraseA
  | eraseB
  | verifyErased
  | programEntry
  | verifyEntry
deriving DecidableEq, Repr

/-- The job in flight with its attempt, 1 to 3, and the phase that is running (R140). -/
structure Flight where
  job : Job
  attempt : Nat
  phase : Phase
deriving DecidableEq, Repr

/-- The next step of a job waiting in PAUSED (R143): a phase of its attempt, or the first phase of its next
attempt. -/
inductive NextStep
  | phase (ph : Phase)
  | nextAttempt
deriving DecidableEq, Repr

/-- A job in flight that waits between phases in PAUSED (R143). -/
structure Waiting where
  job : Job
  attempt : Nat
  next : NextStep
deriving DecidableEq, Repr

/-- The pause holder and the remaining pause limit in ticks (R153). -/
structure Pause where
  holder : Port
  limit : Nat
deriving DecidableEq, Repr

/-- The engine state with the job in flight, the pause holder and the fault record, each where R143 says it
is present. -/
inductive Engine
  | idle
  | busy (f : Flight)
  | pausing (f : Flight) (pause : Pause)
  | paused (job : Option Waiting) (pause : Pause)
  | faulted (job : SlotJob)
deriving DecidableEq, Repr

/-- The Persist Engine: the queue, oldest job first (R139), the engine state (R143), the durable mark
(R159) and a durability request per port (R160). -/
structure Persist where
  queue : List Job
  engine : Engine
  mark : Nat
  requests : PortMap (Option Nat)
deriving DecidableEq, Repr

/-! ## Start-up -/

/-- The start-up state (R164). -/
inductive StartupState
  | held
  | scanning
  | running
deriving DecidableEq, Repr

/-- The cause of a start-up (R164). -/
inductive Cause
  | power
  | pin
  | command
deriving DecidableEq, Repr

/-- The Start-up Controller (R164, R173). -/
structure Startup where
  state : StartupState
  cause : Cause
  backlog : List SlotId
deriving DecidableEq, Repr

/-! ## Host ports -/

/-- The result codes (section 10.8). -/
inductive Result
  | ok
  | waiting
  | empty
  | noResponse
  | badCommand
  | badParam
  | denied
  | notFound
  | alreadyExists
  | keyDraining
  | keyPending
  | type
  | range
  | notAllowed
  | fixedBits
  | tooLong
  | noDefault
  | noStored
  | badDefinition
  | depth
  | stageFull
  | noChangeset
  | generation
  | claimed
  | notHeld
  | claimFull
  | quota
  | tableFull
  | persistFull
  | persistFault
  | mode
  | pauseHeld
  | notPaused
  | frozen
  | oneTimeUsed
  | notFaulted
  | belowCount
  | notAdmin
deriving DecidableEq, Repr

/-- What an owning block answers: a result code and data (R195). -/
structure Reply where
  result : Result
  data : List Byte
deriving DecidableEq, Repr

/-- The command state with the response buffer and the fetched flag (R179). IDLE: the buffer is empty.
WORKING: the buffer is empty and the port holds the tag, code and parameters it has passed on (R184).
ANSWERED: the buffer holds the answer, and the flag says whether it has been fetched. -/
inductive CommandState
  | idle
  | working (tag code : Byte) (params : List Byte)
  | answered (tag : Byte) (reply : Reply) (fetched : Bool)
deriving DecidableEq, Repr

/-- What a FETCH frame sends in bytes 1 to m + 4, fixed at the end of its byte 0, and whether that is an
answer or NO_RESPONSE (R187). -/
structure FetchContent where
  bytes : List Byte
  isAnswer : Bool
deriving DecidableEq, Repr

/-- A frame being collected while CSn is low (R179 to R183): the whole bytes received, the byte being sent,
the content of a FETCH, and whether a start-up has begun, or VDD was lost, since the fall of CSn. -/
structure Line where
  received : List Byte
  sending : Byte
  content : Option FetchContent
  startup : Bool
deriving DecidableEq, Repr

/-- A host port (R179). `line` is the frame state: `none` is IDLE (CSn high), `some` is COLLECTING (CSn low); it
follows CSn with VDD and without. `sdo` is
the model's own field: the whole bytes that SDO has carried in the frame being collected, or in the last
frame of the port when none is. -/
structure PortState where
  line : Option Line
  command : CommandState
  frameErr : Bool
  refused : Bool
  started : Bool
  sdo : List Byte
deriving DecidableEq, Repr

/-! ## The part -/

/-- The state of the part. `vdd` says that VDD is in its operating range and `resetnLow` that RESETn is low
(R164). `pending` is the queue of commands and happenings that wait, first in, first out: the model's own
field, no state of the part. -/
structure State where
  nv : NvArray
  slots : Vector Slot Config.slotCount
  classes : Vector ClassDesc Config.classCount
  staged : PortMap Stack
  applyNumber : Nat
  claims : List ClaimEntry
  rights : Rights
  notices : PortMap NoticeQueue
  persist : Persist
  startup : Startup
  ports : PortMap PortState
  vdd : Bool
  resetnLow : Bool
  pending : List Instr
deriving DecidableEq, Repr

/-- The part has no fault that stops it: every command is answered or carried out, and an engine fault (R156)
is a state of the Persist Engine. So this type has no constructor. -/
inductive Fault : Type
deriving DecidableEq, Repr

/-- Why a command has no meaning in the model. -/
inductive Refusal
  /-- Raised by `exec` for a row of the opcode table that has no meaning yet. No row is in this case. Safe:
  the model stops where the part goes on. -/
  | notModelled (mnemonic : String)
deriving DecidableEq, Repr

/-! ## The state after a start-up -/

/-- The same value for every port. -/
def PortMap.all {α : Type} (x : α) : PortMap α := ⟨x, x, x⟩

/-- An NV Array in which nothing has been written. The manual gives the array no contents as delivered
(DESIGN CHOICE, log entry 1). -/
def NvArray.blank : NvArray where
  cells := Vector.replicate _ ⟨.erased, .erased⟩
  entries := Vector.replicate _ .unwritten

/-- The Rights Unit with no window defined and no entry written: the roles every start-up sets (R116). -/
def Rights.initial : Rights where
  roles := ⟨.admin, .editor, .editor⟩
  windows := Vector.replicate _ .unused
  entries := Vector.replicate _ .unwritten

/-- A class descriptor after a start-up with no record of the class (R13). -/
def ClassDesc.initial : ClassDesc := ⟨Config.maxQuota, 0, .all false⟩

/-- The engine with no job (R162). -/
def Persist.initial : Persist := ⟨[], .idle, 0, .all none⟩

/-- A port from the clearing of a start-up onward (R179), with CSn high. The frame state follows CSn, and R179 gives no level
of CSn after a start-up: that State.reset has CSn high on every port is log entry 2 (DESIGN CHOICE). -/
def PortState.initial : PortState := ⟨none, .idle, false, false, true, []⟩

/-- The part at READY of its first POWER start-up (the table of R176), with a blank NV Array. That READY is
the point meant by "after reset" is said in log entry 2. -/
def State.reset : State where
  nv := .blank
  slots := Vector.replicate _ .free
  classes := Vector.replicate _ .initial
  staged := .all []
  applyNumber := 0
  claims := []
  rights := .initial
  notices := .all (.normal [])
  persist := .initial
  startup := ⟨.running, .power, []⟩
  ports := .all .initial
  vdd := true
  resetnLow := false
  pending := []

end Sys2Proof.Machine
end

