-- ==== Sys2Proof/WellFormed.lean ====
section
/-! DEFINITION. Which terms of `Instr` stand for a happening that can be sent to the part. A POLL or FETCH
row brings its own code byte, so every byte list fits it; a COMMAND_FRAME row must not begin with one of
the two codes that make another kind of frame (R181); the key of a claim is 1 to 65534 (R84). `exec` is
total and gives ill-formed terms a meaning as well: the code on the wire decides the kind of frame. -/

namespace Sys2Proof

/-- The frame codes that never form a command frame (R181). -/
def isPollOrFetchCode (c : Byte) : Bool := c == 0x00#8 || c == 0x05#8

/-- The first bytes of a command frame do not name another kind of frame (R181). -/
def FramePart.commandForm : FramePart → Bool
  | .whole (c :: _) _ => !isPollOrFetchCode c
  | .first (c :: _) => !isPollOrFetchCode c
  | _ => true

/-- A key that a claim can name (R84). -/
def validKey (k : Nat) : Bool := 1 ≤ k && k ≤ Config.maxKey

/-- The happening is one that the manual describes. -/
def Instr.wellFormed : Instr → Bool
  | .poll _ _ => true
  | .fetch _ _ => true
  | .commandFrame _ part => part.commandForm
  | .badCommand _ => true
  | .ident _ => true
  | .status _ => true
  | .ack _ => true
  | .detach _ => true
  | .get _ => true
  | .getdef _ => true
  | .find _ => true
  | .claiminfo _ => true
  | .beginChangeset _ => true
  | .set _ => true
  | .create _ => true
  | .retire _ => true
  | .default _ => true
  | .revert _ => true
  | .commit _ => true
  | .abandon _ => true
  | .claim _ => true
  | .release _ => true
  | .watch _ => true
  | .unwatch _ => true
  | .watchclass _ => true
  | .unwatchclass _ => true
  | .nextnotice _ => true
  | .sync _ => true
  | .pause _ => true
  | .resume _ => true
  | .clearfault _ => true
  | .setquota _ => true
  | .setrole _ => true
  | .window _ => true
  | .unwindow _ => true
  | .freeze _ => true
  | .windowinfo _ => true
  | .restart _ _ => true
  | .tick (.claim k) => validKey k
  | .tick .all => true
  | .tick .pauseLimit => true
  | .claimExpiry k => validKey k
  | .pauseLimitExpiry => true
  | .phaseEnd _ => true
  | .writeCompletion => true
  | .eraseCompletion => true
  | .freezeJobEnd => true
  | .verifyMismatch => true
  | .powerUp _ => true
  | .powerLoss _ => true
  | .resetnAssert _ => true
  | .resetnRelease => true
  | .ready => true

end Sys2Proof
end

