-- ==== Sys2Proof/Machine/Operands.lean ====
section
/-! DEFINITION. What crosses a port, as section 10.8 lays it out: multi-byte fields (big-endian), codes,
value encodings, the parameters of each command and the data of each answer. A reader of parameters
answers `none` exactly where the form of the parameters gives BAD_PARAM (R194, R31, R43 step 1). -/

namespace Sys2Proof.Machine

/-! ## Fields -/

/-- A 2-byte field, big-endian (convention 9). -/
def u16 (hi lo : Byte) : Nat := hi.toNat * 256 + lo.toNat

/-- A 4-byte field, big-endian (convention 9). -/
def u32 (b3 b2 b1 b0 : Byte) : Nat := u16 b3 b2 * 65536 + u16 b1 b0

/-- A number in one byte. -/
def enc8 (n : Nat) : List Byte := [BitVec.ofNat 8 n]

/-- A number in two bytes, big-endian. -/
def enc16 (n : Nat) : List Byte := [BitVec.ofNat 8 (n / 256), BitVec.ofNat 8 n]

/-- A number in four bytes, big-endian. -/
def enc32 (n : Nat) : List Byte := enc16 (n / 65536) ++ enc16 n

/-- A count, 1 to 65535, that goes on from 65535 to 1: the generation and the cell sequence number
(convention 6). -/
def successor (n : Nat) : Nat := if n = Config.maxGeneration then 1 else n + 1

/-! ## Codes (section 10.8) -/

def Result.code : Result → Byte
  | .ok => 0x00#8
  | .waiting => 0x01#8
  | .empty => 0x02#8
  | .noResponse => 0x03#8
  | .badCommand => 0x04#8
  | .badParam => 0x05#8
  | .denied => 0x06#8
  | .notFound => 0x07#8
  | .alreadyExists => 0x08#8
  | .keyDraining => 0x09#8
  | .keyPending => 0x0A#8
  | .type => 0x0B#8
  | .range => 0x0C#8
  | .notAllowed => 0x0D#8
  | .fixedBits => 0x0E#8
  | .tooLong => 0x0F#8
  | .noDefault => 0x10#8
  | .noStored => 0x11#8
  | .badDefinition => 0x12#8
  | .depth => 0x13#8
  | .stageFull => 0x14#8
  | .noChangeset => 0x15#8
  | .generation => 0x16#8
  | .claimed => 0x17#8
  | .notHeld => 0x18#8
  | .claimFull => 0x19#8
  | .quota => 0x1A#8
  | .tableFull => 0x1B#8
  | .persistFull => 0x1C#8
  | .persistFault => 0x1D#8
  | .mode => 0x1E#8
  | .pauseHeld => 0x1F#8
  | .notPaused => 0x20#8
  | .frozen => 0x21#8
  | .oneTimeUsed => 0x22#8
  | .notFaulted => 0x23#8
  | .belowCount => 0x24#8
  | .notAdmin => 0x25#8

def portCode : Port → Byte
  | .p0 => 0x00#8
  | .p1 => 0x01#8
  | .p2 => 0x02#8

def readPort (b : Byte) : Option Port :=
  if b = 0x00#8 then some .p0 else if b = 0x01#8 then some .p1 else if b = 0x02#8 then some .p2 else none

/-- A port code, or 0xFF for none where an answer allows it. -/
def portOrNone : Option Port → Byte
  | some p => portCode p
  | none => 0xFF#8

def readRole (b : Byte) : Option Role :=
  if b = 0x01#8 then some .admin else if b = 0x02#8 then some .editor else if b = 0x03#8 then some .reader
  else none

def Right.code : Right → Byte
  | .none => 0x00#8
  | .read => 0x01#8
  | .stage => 0x02#8
  | .full => 0x03#8

def readRight (b : Byte) : Option Right :=
  if b = 0x00#8 then some .none else if b = 0x01#8 then some .read else if b = 0x02#8 then some .stage
  else if b = 0x03#8 then some .full else none

def readInvert (b : Byte) : Option Bool :=
  if b = 0x00#8 then some false else if b = 0x01#8 then some true else none

def Persistence.code : Persistence → Byte
  | .lasting => 0x01#8
  | .transient => 0x02#8

def readPersistence (b : Byte) : Option Persistence :=
  if b = 0x01#8 then some .lasting else if b = 0x02#8 then some .transient else none

def ValueType.code : ValueType → Byte
  | .integer => 0x01#8
  | .enum => 0x02#8
  | .flags => 0x03#8
  | .text => 0x04#8

def readType (b : Byte) : Option ValueType :=
  if b = 0x01#8 then some .integer else if b = 0x02#8 then some .enum else if b = 0x03#8 then some .flags
  else if b = 0x04#8 then some .text else none

def Engine.code : Engine → Byte
  | .idle => 0x00#8
  | .busy _ => 0x01#8
  | .pausing _ _ => 0x02#8
  | .paused _ _ => 0x03#8
  | .faulted _ => 0x04#8

def JobKind.code : JobKind → Byte
  | .write => 0x01#8
  | .erase => 0x02#8

def Window.code : Window → Byte
  | .unused => 0x00#8
  | .active _ => 0x01#8
  | .freezing _ => 0x02#8
  | .frozen _ => 0x03#8

def EntryState.code : EntryState → Byte
  | .unwritten => 0x00#8
  | .valid => 0x01#8
  | .spoiled => 0x02#8

def Cause.code : Cause → Byte
  | .power => 0x01#8
  | .pin => 0x02#8
  | .command => 0x03#8

def PauseReason.code : PauseReason → Byte
  | .limit => 0x01#8
  | .fault => 0x02#8

def readClass (b : Byte) : Option ClassId :=
  if h : b.toNat < Config.classCount then some ⟨b.toNat, h⟩ else none

def readWindow (b : Byte) : Option WindowId :=
  if h : b.toNat < Config.windowCount then some ⟨b.toNat, h⟩ else none

/-- A 2-byte key field: 0 and 65535 are refused by every command that carries a key (R4). -/
def readKey (hi lo : Byte) : Option Nat :=
  if validKey (u16 hi lo) then some (u16 hi lo) else none

/-! ## Values (R21) -/

def Value.type : Value → ValueType
  | .integer _ => .integer
  | .enum _ => .enum
  | .flags _ => .flags
  | .text _ => .text

def Constraints.type : Constraints → ValueType
  | .integer _ _ _ => .integer
  | .enum _ => .enum
  | .flags _ => .flags
  | .text _ => .text

/-- The encoding of a value, with no type code. -/
def Value.encode : Value → List Byte
  | .integer v => enc32 v.toNat
  | .enum c => [c]
  | .flags f => enc32 f.toNat
  | .text bytes => BitVec.ofNat 8 bytes.length :: bytes

/-- The value that an encoding of exactly the right size stands for, and `none` for an encoding whose size does
not suit the type (R24 step 1). A TEXT length byte above 32 is no error here. -/
def decodeValue : ValueType → List Byte → Option Value
  | .integer, [b3, b2, b1, b0] => some (.integer (BitVec.ofNat 32 (u32 b3 b2 b1 b0)))
  | .enum, [c] => some (.enum c)
  | .flags, [b3, b2, b1, b0] => some (.flags (BitVec.ofNat 32 (u32 b3 b2 b1 b0)))
  | .text, n :: bytes => if bytes.length = n.toNat then some (.text bytes) else none
  | _, _ => none

/-- Reads a value of a type from the front of the bytes, as the default of a CREATE is read (R31): `none` where
the bytes end before it is complete. -/
def takeValue : ValueType → List Byte → Option (Value × List Byte)
  | .integer, b3 :: b2 :: b1 :: b0 :: rest => some (.integer (BitVec.ofNat 32 (u32 b3 b2 b1 b0)), rest)
  | .enum, c :: rest => some (.enum c, rest)
  | .flags, b3 :: b2 :: b1 :: b0 :: rest => some (.flags (BitVec.ofNat 32 (u32 b3 b2 b1 b0)), rest)
  | .text, n :: rest =>
    if n.toNat ≤ rest.length then some (.text (rest.take n.toNat), rest.drop n.toNat) else none
  | _, _ => none

/-! ## Parameters -/

/-- GET: the key and the two options, which may be omitted. Both options together are BAD_PARAM (R15). -/
structure GetParams where
  key : Nat
  view : Bool
  stored : Bool
deriving DecidableEq, Repr

def readGet : List Byte → Option GetParams
  | [k1, k0] => (readKey k1 k0).map fun k => ⟨k, false, false⟩
  | [k1, k0, o] =>
    if o = 0x00#8 then (readKey k1 k0).map fun k => ⟨k, false, false⟩
    else if o = 0x01#8 then (readKey k1 k0).map fun k => ⟨k, true, false⟩
    else if o = 0x02#8 then (readKey k1 k0).map fun k => ⟨k, false, true⟩
    else none
  | _ => none

/-- The commands that carry a key alone (R16, R46, R47, R88, R96, R119, R120). -/
def readKeyAlone : List Byte → Option Nat
  | [k1, k0] => readKey k1 k0
  | _ => none

/-- FIND: the starting key and the class, which may be omitted (R17). -/
def readFind : List Byte → Option (Nat × Option ClassId)
  | [k1, k0] => (readKey k1 k0).map fun k => (k, none)
  | [k1, k0, c] => (readKey k1 k0).bind fun k => (readClass c).map fun c => (k, some c)
  | _ => none

/-- WATCHCLASS and UNWATCHCLASS: the class (R121). -/
def readClassAlone : List Byte → Option ClassId
  | [c] => readClass c
  | _ => none

/-- The option byte and the expected generation of a SET or RETIRE, and the bytes that follow (R44). An
expected generation of 0 is BAD_PARAM (R43). -/
def readExpect : List Byte → Option (Option Nat × List Byte)
  | o :: rest =>
    if o = 0x00#8 then some (none, rest)
    else if o = 0x01#8 then
      match rest with
      | g1 :: g0 :: rest' => if u16 g1 g0 = 0 then none else some (some (u16 g1 g0), rest')
      | _ => none
    else none
  | [] => none

/-- SET: the key, the expected generation and the value offered. `offered` is `none` where the encoding has the
wrong size, which is TYPE at the value check and not BAD_PARAM (R43). -/
structure SetParams where
  key : Nat
  expect : Option Nat
  offered : Option Value
deriving DecidableEq, Repr

def readSet : List Byte → Option SetParams
  | k1 :: k0 :: rest =>
    (readKey k1 k0).bind fun k =>
      match readExpect rest with
      | some (expect, t :: encoding) => (readType t).map fun ty => ⟨k, expect, decodeValue ty encoding⟩
      | _ => none
  | _ => none

/-- RETIRE: the key and the expected generation (R49). -/
def readRetire : List Byte → Option (Nat × Option Nat)
  | k1 :: k0 :: rest =>
    (readKey k1 k0).bind fun k =>
      match readExpect rest with
      | some (expect, []) => some (k, expect)
      | _ => none
  | _ => none

/-- Reads the constraints of a type from the front of the bytes. The count of an ENUM list and the maximum length
of a TEXT are not judged here (R31). -/
def takeConstraints (ty : ValueType) (hasStep : Bool) (bytes : List Byte) : Option (Constraints × List Byte) :=
  match ty with
  | .integer =>
    match bytes with
    | a3 :: a2 :: a1 :: a0 :: b3 :: b2 :: b1 :: b0 :: rest =>
      if hasStep then
        match rest with
        | s1 :: s0 :: rest' =>
          some (.integer (BitVec.ofNat 32 (u32 a3 a2 a1 a0)) (BitVec.ofNat 32 (u32 b3 b2 b1 b0))
            (some (u16 s1 s0)), rest')
        | _ => none
      else some (.integer (BitVec.ofNat 32 (u32 a3 a2 a1 a0)) (BitVec.ofNat 32 (u32 b3 b2 b1 b0)) none, rest)
    | _ => none
  | .enum =>
    match bytes with
    | n :: rest => if n.toNat ≤ rest.length then some (.enum (rest.take n.toNat), rest.drop n.toNat) else none
    | [] => none
  | .flags =>
    match bytes with
    | m3 :: m2 :: m1 :: m0 :: rest => some (.flags (BitVec.ofNat 32 (u32 m3 m2 m1 m0)), rest)
    | _ => none
  | .text =>
    match bytes with
    | n :: rest => some (.text n.toNat, rest)
    | [] => none

/-- CREATE: the key, the definition, and the bytes of the initial value when one is given (R31). -/
structure CreateParams where
  key : Nat
  defn : Definition
  initial : Option (List Byte)
deriving DecidableEq, Repr

/-- Reads the default of a CREATE where its option bit is set. -/
def takeDefault (ty : ValueType) (present : Bool) (bytes : List Byte) : Option (Option Value × List Byte) :=
  if present then (takeValue ty bytes).map fun x => (some x.1, x.2) else some (none, bytes)

/-- What remains after the definition: the initial value where its option bit is set, and otherwise nothing. -/
def takeInitial (present : Bool) (bytes : List Byte) : Option (Option (List Byte)) :=
  if present then some (some bytes) else if bytes = [] then some none else none

def readCreate : List Byte → Option CreateParams
  | k1 :: k0 :: c :: t :: ps :: o :: rest =>
    (readKey k1 k0).bind fun k =>
    (readClass c).bind fun cls =>
    (readType t).bind fun ty =>
    (readPersistence ps).bind fun pers =>
    if 8 ≤ o.toNat || (o.getLsbD 2 && ty != .integer) then none
    else
      (takeConstraints ty (o.getLsbD 2) rest).bind fun cons =>
      (takeDefault ty (o.getLsbD 0) cons.2).bind fun dflt =>
      (takeInitial (o.getLsbD 1) dflt.2).map fun initial =>
        ⟨k, ⟨cls, pers, cons.1, dflt.1⟩, initial⟩
  | _ => none

/-- COMMIT: the mode, LASTING when it is omitted (R52). -/
def readCommit : List Byte → Option Persistence
  | [] => some .lasting
  | [m] => readPersistence m
  | _ => none

/-- CLAIM: the key, the lease and WAIT, which may be omitted (R86). -/
structure ClaimParams where
  key : Nat
  lease : Nat
  wait : Bool
deriving DecidableEq, Repr

/-- A lease of 1 to 60000 ticks (R86). -/
def readLease (hi lo : Byte) : Option Nat :=
  if 1 ≤ u16 hi lo ∧ u16 hi lo ≤ Config.maxLease then some (u16 hi lo) else none

def readClaim : List Byte → Option ClaimParams
  | [k1, k0, l1, l0] => (readKey k1 k0).bind fun k => (readLease l1 l0).map fun l => ⟨k, l, false⟩
  | [k1, k0, l1, l0, o] =>
    (readKey k1 k0).bind fun k => (readLease l1 l0).bind fun l =>
      if o = 0x00#8 then some ⟨k, l, false⟩ else if o = 0x01#8 then some ⟨k, l, true⟩ else none
  | _ => none

/-- SYNC: the apply number (R160). -/
def readSync : List Byte → Option Nat
  | [n3, n2, n1, n0] => some (u32 n3 n2 n1 n0)
  | _ => none

/-- PAUSE: a limit of 1 to 10000 ticks (R153). -/
def readPause : List Byte → Option Nat
  | [l1, l0] => if 1 ≤ u16 l1 l0 ∧ u16 l1 l0 ≤ Config.maxPause then some (u16 l1 l0) else none
  | _ => none

/-- SETQUOTA: the class and a quota of 0 to 384 (R14). -/
def readQuota : List Byte → Option (ClassId × Nat)
  | [c, q1, q0] =>
    if u16 q1 q0 ≤ Config.maxQuota then (readClass c).map fun c => (c, u16 q1 q0) else none
  | _ => none

/-- SETROLE: a port other than P0, and a role (R102). -/
def readSetrole : List Byte → Option (Port × Role)
  | [p, r] =>
    (readPort p).bind fun p => (readRole r).bind fun r => if p = .p0 then none else some (p, r)
  | _ => none

/-- WINDOW: the index and the definition (R108). -/
def readWindowDef : List Byte → Option (WindowId × WindowDef)
  | [i, l1, l0, h1, h0, inv, r0, r1, r2] =>
    (readWindow i).bind fun i =>
    (readKey l1 l0).bind fun lo =>
    (readKey h1 h0).bind fun hi =>
    (readInvert inv).bind fun inv =>
    (readRight r0).bind fun r0 =>
    (readRight r1).bind fun r1 =>
    (readRight r2).bind fun r2 =>
      if lo ≤ hi then some (i, ⟨lo, hi, inv, ⟨r0, r1, r2⟩⟩) else none
  | _ => none

/-- UNWINDOW, FREEZE and WINDOWINFO: the index (R109, R112, R110). -/
def readWindowAlone : List Byte → Option WindowId
  | [i] => readWindow i
  | _ => none

/-! ## Answers -/

/-- OK with its data. -/
def Reply.ok (data : List Byte) : Reply := ⟨.ok, data⟩

/-- An answer with no data: a refusal, EMPTY or BAD_COMMAND (R195). -/
def Reply.bare (r : Result) : Reply := ⟨r, []⟩

/-- The refusal of an apply with its entry index (R62, R195). -/
def Reply.refusedAt (r : Result) (index : Nat) : Reply := ⟨r, enc8 index⟩

/-- The entry index of a refusal of the changeset as a whole, and of two entries that vanish (R62, R43). -/
def wholeIndex : Nat := 255

def Constraints.encode : Constraints → List Byte
  | .integer mn mx none => enc32 mn.toNat ++ enc32 mx.toNat
  | .integer mn mx (some step) => enc32 mn.toNat ++ enc32 mx.toNat ++ enc16 step
  | .enum codes => enc8 codes.length ++ codes
  | .flags mask => enc32 mask.toNat
  | .text n => enc8 n

/-- Whether the step of an INTEGER is present (R16). -/
def Constraints.hasStep : Constraints → Bool
  | .integer _ _ (some _) => true
  | _ => false

/-- The option byte of a GETDEF answer: bit 0 default present, bit 2 step present (section 10.8). -/
def Definition.options (d : Definition) : Byte :=
  (if d.default.isSome then 0x01#8 else 0x00#8) ||| (if d.constraints.hasStep then 0x04#8 else 0x00#8)

/-- The definition layout of a GETDEF answer (section 10.8). -/
def encodeDefinition (key : Nat) (d : Definition) : List Byte :=
  enc16 key ++ enc8 d.cls.val ++ [d.constraints.type.code, d.persistence.code, d.options] ++
    d.constraints.encode ++ (match d.default with | some v => v.encode | none => [])

/-- A window's definition in a WINDOWINFO answer (section 10.8). -/
def WindowDef.encode (d : WindowDef) : List Byte :=
  enc16 d.lo ++ enc16 d.hi ++ [if d.invert then 0x01#8 else 0x00#8, d.rights.p0.code, d.rights.p1.code,
    d.rights.p2.code]

/-- A window's definition, absent in UNUSED (R107). -/
def Window.definition : Window → Option WindowDef
  | .unused => none
  | .active d => some d
  | .freezing d => some d
  | .frozen d => some d

/-- The 8 bytes of a notice: kind, key, number field, extra (R196). -/
def Notice.encode : Notice → List Byte
  | .changed k g => 0x01#8 :: enc16 k ++ enc32 g ++ [0x00#8]
  | .created k => 0x02#8 :: enc16 k ++ enc32 0 ++ [0x00#8]
  | .retired k => 0x03#8 :: enc16 k ++ enc32 0 ++ [0x00#8]
  | .claimGranted k => 0x04#8 :: enc16 k ++ enc32 0 ++ [0x00#8]
  | .claimExpired k => 0x05#8 :: enc16 k ++ enc32 0 ++ [0x00#8]
  | .claimVoid k => 0x06#8 :: enc16 k ++ enc32 0 ++ [0x00#8]
  | .durable m => 0x07#8 :: enc16 0 ++ enc32 m ++ [0x00#8]
  | .notDurable m => 0x08#8 :: enc16 0 ++ enc32 m ++ [0x00#8]
  | .pauseEnded r => 0x09#8 :: enc16 0 ++ enc32 0 ++ [r.code]
  | .engineFault kind slot => 0x0A#8 :: enc16 0 ++ enc32 slot.val ++ [kind.code]
  | .freezeDone w => 0x0B#8 :: enc16 0 ++ enc32 0 ++ enc8 w.val
  | .freezeFailed w => 0x0C#8 :: enc16 0 ++ enc32 0 ++ enc8 w.val
  | .resync => 0x0D#8 :: enc16 0 ++ enc32 0 ++ [0x00#8]

/-- The 14 bytes of the IDENT answer (section 10.8). -/
def identData : List Byte :=
  [0xA7#8] ++ enc16 0x4160 ++ [0x01#8] ++ enc16 Config.slotCount ++ enc8 Config.classCount ++
    enc8 Config.poolSize ++ enc8 Config.maxDepth ++ enc8 Config.claimEntries ++
    enc8 Config.noticeQueueSize ++ enc8 Config.persistPlaces ++ enc8 Config.windowCount ++
    enc8 Config.maxParams

/-! ## CRC-8 (R182) -/

/-- One shift of the CRC register: polynomial 0x07, most significant bit first. -/
def crcShift (r : Byte) : Byte := if r.msb then (r <<< 1) ^^^ 0x07#8 else r <<< 1

/-- One byte taken into the CRC register. -/
def crcByte (r b : Byte) : Byte :=
  crcShift (crcShift (crcShift (crcShift (crcShift (crcShift (crcShift (crcShift (r ^^^ b))))))))

/-- The CRC-8 of a frame: initial value 0xFF, no reflection, no final inversion. -/
def crc8 (bytes : List Byte) : Byte := bytes.foldl crcByte 0xFF#8

end Sys2Proof.Machine
end

