-- ==== Sys2Proof/Machine/Ops.lean ====
section
/-! DEFINITION. The shared operations on the blocks that every family uses: ports and their answers, the
Record Table, the value check, rights, and notices. The Persist Engine's are in Machine/Engine.lean, the
Claim Table's in Machine/ClaimTable.lean, the Staging Unit's in Machine/Changeset.lean. -/

namespace Sys2Proof.Machine

/-! ## Port maps -/

/-- The value for a port. -/
def PortMap.get {α : Type} (m : PortMap α) : Port → α
  | .p0 => m.p0
  | .p1 => m.p1
  | .p2 => m.p2

/-- The map with another value for one port. -/
def PortMap.set {α : Type} (m : PortMap α) (p : Port) (x : α) : PortMap α :=
  match p with
  | .p0 => { m with p0 := x }
  | .p1 => { m with p1 := x }
  | .p2 => { m with p2 := x }

/-- The map of a function over every port. -/
def PortMap.map {α β : Type} (m : PortMap α) (f : α → β) : PortMap β := ⟨f m.p0, f m.p1, f m.p2⟩

/-- Applies `f p` for each port in turn. -/
def eachPort {σ : Type} (f : Port → σ → σ) (x : σ) : σ := f .p2 (f .p1 (f .p0 x))

/-! ## Ports and answers -/

/-- The state of a port. -/
def State.port (s : State) (p : Port) : PortState := s.ports.get p

/-- The state with another state of one port. -/
def State.setPort (s : State) (p : Port) (x : PortState) : State := { s with ports := s.ports.set p x }

/-- Places a block's answer in the port's response buffer: the recorded tag, unfetched, ANSWERED (R185). -/
def State.placeAnswer (s : State) (p : Port) (tag : Byte) (r : Reply) : State :=
  s.setPort p { s.port p with command := .answered tag r false }

/-- The owning block takes the command that port `p` has passed on, when it is the command with this code: `act`
gives the command's effect and answer from its parameters, and the answer is placed in the same happening
(R185). A port that has passed on no such command leaves the state as it was: no block takes anything (log
entry 5). -/
def State.serve (s : State) (p : Port) (code : Byte) (act : List Byte → State × Reply) : State :=
  match (s.port p).command with
  | .working tag c params =>
    if c = code then ((act params).1).placeAnswer p tag (act params).2 else s
  | _ => s

/-- The NOT_ADMIN check that stands before every other check of an admin-only command (R103). -/
def State.adminOnly (s : State) (p : Port) (act : State × Reply) : State × Reply :=
  if s.rights.roles.get p = .admin then act else (s, .bare .notAdmin)

/-! ## The Record Table -/

/-- The record of a LIVE slot. -/
def Slot.record : Slot → Option Record
  | .live r => some r
  | _ => none

def Slot.isFree : Slot → Bool
  | .free => true
  | _ => false

def Slot.isLive : Slot → Bool
  | .live _ => true
  | _ => false

def Slot.isDraining : Slot → Bool
  | .draining _ => true
  | _ => false

def Slot.isBroken : Slot → Bool
  | .broken => true
  | _ => false

/-- The slot is LIVE with a record of this key. -/
def Slot.holds (k : Nat) : Slot → Bool
  | .live r => r.key == k
  | _ => false

/-- The slot is DRAINING with this key (R1). -/
def Slot.drains (k : Nat) : Slot → Bool
  | .draining (some k') => k' == k
  | _ => false

/-- What slot `i` holds. -/
def State.slot (s : State) (i : SlotId) : Slot := s.slots[i.val]

/-- The state with something else in slot `i`. -/
def State.setSlot (s : State) (i : SlotId) (x : Slot) : State := { s with slots := s.slots.set i.val x }

/-- The lowest-numbered slot of which `f` holds. -/
def lowestSlot (slots : Vector Slot Config.slotCount) (f : Slot → Bool) : Option SlotId :=
  (slots.toList.findIdx? f).bind fun n => if h : n < Config.slotCount then some ⟨n, h⟩ else none

/-- The LIVE record holding a key, with its slot. Keys are unique (R4); the lowest slot is taken. -/
def State.liveRecord (s : State) (k : Nat) : Option (SlotId × Record) :=
  (lowestSlot s.slots (Slot.holds k)).bind fun i => (s.slot i).record.map fun r => (i, r)

/-- A DRAINING slot holds the key (R4). -/
def State.keyDraining (s : State) (k : Nat) : Bool := (lowestSlot s.slots (Slot.drains k)).isSome

/-- The number of slots of which `f` holds (R193, R69). -/
def State.countSlots (s : State) (f : Slot → Bool) : Nat := s.slots.toList.countP f

/-- The class descriptor of a class. -/
def State.classDesc (s : State) (c : ClassId) : ClassDesc := s.classes[c.val]

/-- The state with another descriptor of a class. -/
def State.setClass (s : State) (c : ClassId) (x : ClassDesc) : State :=
  { s with classes := s.classes.set c.val x }

/-! ## The value check (R24 to R28) -/

/-- The 32 bits of a FLAGS value; a value of another type has none to keep. -/
def Value.bits : Value → Word32
  | .flags f => f
  | _ => 0#32

/-- An INTEGER within min and max and, where a step is present, on the grid from min. The difference is exact
(R25). -/
def integerPasses (mn mx : Word32) (step : Option Nat) (v : Word32) : Bool :=
  decide (mn.toInt ≤ v.toInt) && decide (v.toInt ≤ mx.toInt) &&
    (match step with
     | none => true
     | some n => (v.toInt - mn.toInt) % (n : Int) == 0)

/-- The value check of a value against constraints, with the value whose fixed bits a FLAGS value must keep
(R24): `none` when it passes, and otherwise the code of the first step that fails. -/
def checkValue (c : Constraints) (reference : Value) (v : Value) : Option Result :=
  match c, v with
  | .integer mn mx step, .integer x => if integerPasses mn mx step x then none else some .range
  | .enum codes, .enum x => if x ∈ codes then none else some .notAllowed
  | .flags writable, .flags f =>
    if (f ^^^ reference.bits) &&& ~~~writable = 0#32 then none else some .fixedBits
  | .text n, .text bytes => if bytes.length ≤ n then none else some .tooLong
  | _, _ => some .type

/-- The value check of an encoding that was offered: one of the wrong size is TYPE (R24 step 1). -/
def checkOffered (c : Constraints) (reference : Value) : Option Value → Option Result
  | none => some .type
  | some v => checkValue c reference v

/-- The FLAGS reference value of a CREATE: its default where it has one, and otherwise the value itself (R29,
R34). -/
def Definition.reference (d : Definition) (v : Value) : Value := d.default.getD v

/-- Constraints that make sense on their own (R32). -/
def Constraints.consistent : Constraints → Bool
  | .integer mn mx step => decide (mn.toInt ≤ mx.toInt) && decide (step ≠ some 0)
  | .enum codes => decide (1 ≤ codes.length) && decide (codes.length ≤ 8) && decide codes.Nodup
  | .flags _ => true
  | .text n => decide (1 ≤ n) && decide (n ≤ Config.maxText)

/-- The consistency of a definition: its constraints, and its default against itself (R32). -/
def Definition.consistent (d : Definition) : Bool :=
  d.constraints.consistent &&
    (match d.default with
     | none => true
     | some v => checkValue d.constraints v v == none)

/-- The value of a new record before its check: the initial value's encoding read in the record's type, else the
default (R33). `none` is NO_DEFAULT; `some none` is an encoding of the wrong size. -/
def CreateParams.choice (c : CreateParams) : Option (Option Value) :=
  match c.initial with
  | some bytes => some (decodeValue c.defn.constraints.type bytes)
  | none => c.defn.default.map some

/-! ## Rights (R101 to R105) -/

/-- The place of a right in the order NONE, READ, STAGE, FULL (R104). -/
def Right.level : Right → Nat
  | .none => 0
  | .read => 1
  | .stage => 2
  | .full => 3

/-- The right is `need` or higher. -/
def Right.atLeast (r need : Right) : Bool := decide (need.level ≤ r.level)

/-- The lower of two rights. -/
def Right.lower (a b : Right) : Right := if a.level ≤ b.level then a else b

/-- The role cap (R101). -/
def Role.cap : Role → Right
  | .admin => .full
  | .editor => .full
  | .reader => .read

/-- A window's coverage of a key (R105). -/
def WindowDef.covers (d : WindowDef) (k : Nat) : Bool :=
  if d.invert then decide (k < d.lo) || decide (d.hi < k) else decide (d.lo ≤ k) && decide (k ≤ d.hi)

/-- A right lowered by a window, where the window covers the key; an UNUSED window covers none (R105). -/
def Window.limit (w : Window) (p : Port) (k : Nat) (r : Right) : Right :=
  match w.definition with
  | none => r
  | some d => if d.covers k then r.lower (d.rights.get p) else r

/-- The effective right of a port on a key: the lowest of its role cap and the rights of the windows that cover
the key (R105). -/
def Rights.effective (r : Rights) (p : Port) (k : Nat) : Right :=
  r.windows.toList.foldl (fun acc w => w.limit p k acc) (r.roles.get p).cap

/-- The port has the right on the key, or a higher one (R104). -/
def Rights.allows (r : Rights) (p : Port) (k : Nat) (need : Right) : Bool := (r.effective p k).atLeast need

/-! ## Notices (R123 to R129) -/

/-- The key that a notice carries (R123). -/
def Notice.key : Notice → Option Nat
  | .changed k _ => some k
  | .created k => some k
  | .retired k => some k
  | .claimGranted k => some k
  | .claimExpired k => some k
  | .claimVoid k => some k
  | _ => none

/-- The key for which a notice coalesces with a queued CHANGED: only a CHANGED or a RETIRED does (R126). -/
def Notice.coalescesFor : Notice → Option Nat
  | .changed k _ => some k
  | .retired k => some k
  | _ => none

/-- The notice is a CHANGED for the key. -/
def Notice.isChangedFor (k : Nat) : Notice → Bool
  | .changed k' _ => k' == k
  | _ => false

/-- A notice posted to a queue that has found no CHANGED to coalesce with: appended, or the overflow (R126,
R129). -/
def appendNotice (l : List Notice) (n : Notice) : NoticeQueue :=
  if l.length < Config.noticeQueueSize then .normal (l ++ [n]) else .resync

/-- A notice posted to a queue (R126 to R129). -/
def NoticeQueue.post : NoticeQueue → Notice → NoticeQueue
  | .resync, _ => .resync
  | .normal l, n =>
    match n.coalescesFor with
    | none => appendNotice l n
    | some k =>
      if l.any (Notice.isChangedFor k) then .normal (l.map fun m => if m.isChangedFor k then n else m)
      else appendNotice l n

/-- The queue is non-empty: ATTNn is low and the ATTN bit reads 1 (R131). -/
def NoticeQueue.attn : NoticeQueue → Bool
  | .normal l => !l.isEmpty
  | .resync => true

/-- The rights filter on a posting: a notice about a key needs READ (R125). -/
def Rights.admits (r : Rights) (p : Port) (n : Notice) : Bool :=
  match n.key with
  | none => true
  | some k => r.allows p k .read

/-- A notice posted to a port, subject to the rights filter (R124, R125). -/
def State.deliver (s : State) (p : Port) (n : Notice) : State :=
  if s.rights.admits p n then { s with notices := s.notices.set p ((s.notices.get p).post n) } else s

/-- A notice posted to each port of a set (R124). -/
def State.deliverSet (s : State) (set : PortSet) (n : Notice) : State :=
  eachPort (fun p s => if set.get p then s.deliver p n else s) s

/-- A notice posted to each port whose role is ADMIN (R124). -/
def State.deliverAdmins (s : State) (n : Notice) : State :=
  eachPort (fun p s => if s.rights.roles.get p = .admin then s.deliver p n else s) s

/-- The members of either of two sets. -/
def PortSet.union (a b : PortSet) : PortSet := ⟨a.p0 || b.p0, a.p1 || b.p1, a.p2 || b.p2⟩

end Sys2Proof.Machine
end

