-- ==== Sys2Proof/Machine/ClaimTable.lean ====
section
/-! DEFINITION. The shared operations of the Claim Table (chapter 5). The list `State.claims` holds the entries
in use, oldest first: entries are not numbered to hosts (R84). -/

namespace Sys2Proof.Machine

/-- The claim entry for a key. -/
def State.claimOn (s : State) (k : Nat) : Option ClaimEntry := s.claims.find? fun e => e.key == k

/-- The Claim Table with the entry for a key replaced, or freed by `none`. -/
def replaceClaim (claims : List ClaimEntry) (k : Nat) (new : Option ClaimEntry) : List ClaimEntry :=
  claims.filterMap fun e => if e.key = k then new else some e

/-- The state with the entry for a key replaced, or freed by `none`. -/
def State.setClaim (s : State) (k : Nat) (new : Option ClaimEntry) : State :=
  { s with claims := replaceClaim s.claims k new }

/-- The entry after a hand-over: the first waiter becomes holder with its requested lease; with no waiter the
entry is freed (R89). -/
def ClaimEntry.handOn (e : ClaimEntry) : Option ClaimEntry :=
  match e.waiters with
  | [] => none
  | w :: rest => some ⟨e.key, w.port, w.lease, rest⟩

/-- The claim on `e.key` is handed on, with CLAIM_GRANTED to the new holder, or freed (R89). -/
def State.handOn (s : State) (e : ClaimEntry) : State :=
  match e.handOn with
  | none => s.setClaim e.key none
  | some e' => (s.setClaim e.key (some e')).deliver e'.holder (.claimGranted e.key)

/-- The expiry of a claim (R90). -/
def State.expireClaim (s : State) (e : ClaimEntry) : State :=
  (s.deliver e.holder (.claimExpired e.key)).handOn e

/-- The place of a port in a waiter list, counted from 1 (R87). -/
def waiterPosition (ws : List Waiter) (p : Port) : Option Nat :=
  (ws.findIdx? fun w => w.port == p).map (· + 1)

/-- The waiter list without a port. -/
def dropWaiter (ws : List Waiter) (p : Port) : List Waiter := ws.filter fun w => w.port != p

/-- A tick reaches the claim entry for a key (R85). A lease of 1 runs out at the tick whether it has counted down to 1 or
was set to 1 just before the tick, by a renewal or by the grant to a waiter that asked for 1: R85 is followed.
R92's words that a renewed lease does not run out at this tick, and those of R91 and R98 that the same waiter
ends as holder in both orders, are read of greater leases (DEDUCED, log entry 26). -/
def State.tickClaim (s : State) (k : Nat) : State :=
  match s.claimOn k with
  | none => s
  | some e =>
    if e.remaining = 1 then s.expireClaim e
    else s.setClaim k (some { e with remaining := e.remaining - 1 })

/-- A claim on a retired key is voided: the entry is freed, with CLAIM_VOID to the holder and then to each waiter
(R93). -/
def State.voidClaim (s : State) (k : Nat) : State :=
  match s.claimOn k with
  | none => s
  | some e =>
    e.waiters.foldl (fun s w => s.deliver w.port (.claimVoid k))
      ((s.setClaim k none).deliver e.holder (.claimVoid k))

/-- DETACH's part in one claim entry (R98). -/
def State.detachClaim (p : Port) (s : State) (e : ClaimEntry) : State :=
  if e.holder = p then s.handOn e
  else s.setClaim e.key (some { e with waiters := dropWaiter e.waiters p })

/-- DETACH's part in the Claim Table (R98). -/
def State.detachClaims (s : State) (p : Port) : State := s.claims.foldl (State.detachClaim p) s

end Sys2Proof.Machine
end

