-- ==== Sys2Proof/Machine/Engine.lean ====
section
/-! DEFINITION. The shared operations of the Persist Engine and the NV Array (chapter 8). -/

namespace Sys2Proof.Machine

/-! ## Cells (R135 to R138) -/

/-- The copy of a valid cell: written, check matching, void mark clear (R136). -/
def Cell.validCopy : Cell → Option CellCopy
  | .written false c => some c
  | _ => none

/-- The cell of a pair. -/
def CellPair.get (pr : CellPair) : CellName → Cell
  | .a => pr.a
  | .b => pr.b

/-- The pair with another content of one cell. -/
def CellPair.set (pr : CellPair) (c : CellName) (x : Cell) : CellPair :=
  match c with
  | .a => { pr with a := x }
  | .b => { pr with b := x }

/-- The partner of a cell. -/
def CellName.other : CellName → CellName
  | .a => .b
  | .b => .a

/-- The newest valid copy of a pair and the cell that holds it (R136): of two valid cells, the one whose sequence
number is the successor of the other's, and cell A when neither is. -/
def CellPair.newest (pr : CellPair) : Option (CellName × CellCopy) :=
  match pr.a.validCopy, pr.b.validCopy with
  | none, none => none
  | some x, none => some (.a, x)
  | none, some y => some (.b, y)
  | some x, some y => if y.seq = successor x.seq then some (.b, y) else some (.a, x)

/-- The target cell and the sequence number of a WRITE attempt (R145). -/
def CellPair.writeTarget (pr : CellPair) : CellName × Nat :=
  match pr.newest with
  | none => (.a, 1)
  | some (c, copy) => (c.other, successor copy.seq)

/-- The cells that an ERASE attempt marks, in order: the older valid copy, then the newest (R146). -/
def CellPair.marks (pr : CellPair) : List CellName :=
  match pr.newest with
  | none => []
  | some (c, _) => if (pr.get c.other).validCopy.isSome then [c.other, c] else [c]

/-- The cell pair of a slot. -/
def NvArray.pair (nv : NvArray) (i : SlotId) : CellPair := nv.cells[i.val]

/-- The array with another content of one cell. -/
def NvArray.setCell (nv : NvArray) (i : SlotId) (c : CellName) (x : Cell) : NvArray :=
  { nv with cells := nv.cells.set i.val ((nv.pair i).set c x) }

/-- The one-time entry of a window. -/
def NvArray.entry (nv : NvArray) (i : WindowId) : OneTime := nv.entries[i.val]

/-- The array with another content of one one-time entry. -/
def NvArray.setEntry (nv : NvArray) (i : WindowId) (x : OneTime) : NvArray :=
  { nv with entries := nv.entries.set i.val x }

/-- The copy that a WRITE job programs with a sequence number (R140, R145). -/
def WriteJob.copy (w : WriteJob) (seq : Nat) : CellCopy :=
  ⟨seq, w.key, w.defn.cls, w.defn.constraints, w.defn.default, w.value⟩

/-! ### A phase that ends (R137) -/

/-- ERASE: erased, or where it fails as before or corrupt. -/
def erasedCell (c : Cell) : NvResult → Cell
  | .asMeant => .erased
  | .asBefore => c
  | .erased => .erased
  | .corrupt => .corrupt

/-- PROGRAM: the copy, or where it fails erased or corrupt; on a cell that is not erased, corrupt, whether it fails or not
(log entry 15). -/
def programmedCell (c : Cell) (copy : CellCopy) (r : NvResult) : Cell :=
  match c, r with
  | .erased, .asMeant => .written false copy
  | .erased, .asBefore => .erased
  | .erased, .erased => .erased
  | _, _ => .corrupt

/-- The cell with its void mark set; only a written cell has one. -/
def Cell.setVoid : Cell → Cell
  | .written _ copy => .written true copy
  | c => c

/-- MARK: the mark set, or where it fails as before. -/
def markedCell (c : Cell) : NvResult → Cell
  | .asMeant => c.setVoid
  | _ => c

/-- PROGRAM of a one-time entry: the definition, or where it fails SPOILED; on an entry that is written, SPOILED (log
entry 15). -/
def programmedEntry (e : OneTime) (d : WindowDef) (r : NvResult) : OneTime :=
  match e, r with
  | .unwritten, .asMeant => .valid d
  | _, _ => .spoiled

/-- What the end of the running phase leaves in the NV Array (R137). -/
def NvArray.endPhase (nv : NvArray) (f : Flight) (r : NvResult) : NvArray :=
  match f.job, f.phase with
  | .slot (.write w), .eraseTarget c _ => nv.setCell w.slot c (erasedCell ((nv.pair w.slot).get c) r)
  | .slot (.write w), .program c seq =>
    nv.setCell w.slot c (programmedCell ((nv.pair w.slot).get c) (w.copy seq) r)
  | .slot (.erase e), .mark c _ => nv.setCell e.slot c (markedCell ((nv.pair e.slot).get c) r)
  | .slot (.erase e), .eraseA => nv.setCell e.slot .a (erasedCell ((nv.pair e.slot).get .a) r)
  | .slot (.erase e), .eraseB => nv.setCell e.slot .b (erasedCell ((nv.pair e.slot).get .b) r)
  | .freeze i d, .programEntry => nv.setEntry i (programmedEntry (nv.entry i) d r)
  | _, _ => nv

/-! ### A phase that is cut (R138) -/

/-- A cut PROGRAM of a cell leaves it erased or corrupt. -/
def cutProgram : NvResult → Cell
  | .corrupt => .corrupt
  | _ => .erased

/-- A cut MARK leaves the mark set or not. -/
def cutMark (c : Cell) : NvResult → Cell
  | .asMeant => c.setVoid
  | _ => c

/-- A cut PROGRAM of a one-time entry leaves it as it was, UNWRITTEN, or SPOILED. -/
def cutEntry (e : OneTime) : NvResult → OneTime
  | .asBefore => e
  | _ => .spoiled

/-- What the cut of the running phase leaves in the NV Array (R138). -/
def NvArray.cutPhase (nv : NvArray) (f : Flight) (r : NvResult) : NvArray :=
  match f.job, f.phase with
  | .slot (.write w), .eraseTarget c _ => nv.setCell w.slot c (erasedCell ((nv.pair w.slot).get c) r)
  | .slot (.write w), .program c _ => nv.setCell w.slot c (cutProgram r)
  | .slot (.erase e), .mark c _ => nv.setCell e.slot c (cutMark ((nv.pair e.slot).get c) r)
  | .slot (.erase e), .eraseA => nv.setCell e.slot .a (erasedCell ((nv.pair e.slot).get .a) r)
  | .slot (.erase e), .eraseB => nv.setCell e.slot .b (erasedCell ((nv.pair e.slot).get .b) r)
  | .freeze i _, .programEntry => nv.setEntry i (cutEntry (nv.entry i) r)
  | _, _ => nv

/-- The phase running at the NV Array: one runs in BUSY and PAUSING and in no other state (R143). -/
def Engine.running : Engine → Option Flight
  | .busy f => some f
  | .pausing f _ => some f
  | _ => none

/-- The NV Array after the cut of the phase in flight, if any (R138, R166). -/
def State.cutNv (s : State) (r : NvResult) : NvArray :=
  match s.persist.engine.running with
  | none => s.nv
  | some f => s.nv.cutPhase f r

/-! ## Phases and attempts (R145 to R148) -/

/-- The first phase of an attempt, after reading the cells (R145, R146, R147). -/
def firstPhase (nv : NvArray) : Job → Phase
  | .slot (.write w) => .eraseTarget ((nv.pair w.slot).writeTarget).1 ((nv.pair w.slot).writeTarget).2
  | .slot (.erase e) =>
    match (nv.pair e.slot).marks with
    | [] => .eraseA
    | c :: later => .mark c later
  | .freeze _ _ => .programEntry

/-- An attempt begins. -/
def startAttempt (nv : NvArray) (j : Job) (attempt : Nat) : Flight := ⟨j, attempt, firstPhase nv j⟩

/-- The phase after a phase of an attempt; the VERIFY phases are the last of theirs. -/
def Phase.next : Phase → Option Phase
  | .eraseTarget c seq => some (.program c seq)
  | .program c seq => some (.verify c seq)
  | .verify _ _ => none
  | .mark _ (c :: later) => some (.mark c later)
  | .mark _ [] => some .eraseA
  | .eraseA => some .eraseB
  | .eraseB => some .verifyErased
  | .verifyErased => none
  | .programEntry => some .verifyEntry
  | .verifyEntry => none

/-- Whether the last phase of the attempt, which is running, matches (R145, R146, R147). `none`: the phase is
not the last of its attempt. -/
def verifyOutcome (nv : NvArray) (f : Flight) : Option Bool :=
  match f.job, f.phase with
  | .slot (.write w), .verify c seq => some ((nv.pair w.slot).get c == .written false (w.copy seq))
  | .slot (.erase e), .verifyErased => some ((nv.pair e.slot).a == .erased && (nv.pair e.slot).b == .erased)
  | .freeze i d, .verifyEntry => some (nv.entry i == .valid d)
  | _, _ => none

/-! ## The queue and its places (R139 to R142) -/

/-- The job in flight (R143). -/
def Engine.job : Engine → Option Job
  | .idle => none
  | .busy f => some f.job
  | .pausing f _ => some f.job
  | .paused none _ => none
  | .paused (some w) _ => some w.job
  | .faulted _ => none

/-- The job held in the fault record (R156). -/
def Engine.faultRecord : Engine → Option SlotJob
  | .faulted j => some j
  | _ => none

/-- The pause holder and limit (R143). -/
def Engine.pause : Engine → Option Pause
  | .pausing _ pz => some pz
  | .paused _ pz => some pz
  | _ => none

/-- The engine with another pause limit: a renewal or a tick (R153, R155). -/
def Engine.setLimit (e : Engine) (limit : Nat) : Engine :=
  match e with
  | .pausing f pz => .pausing f { pz with limit := limit }
  | .paused w pz => .paused w { pz with limit := limit }
  | e => e

def Engine.isFaulted (e : Engine) : Bool := e.faultRecord.isSome

/-- Every job that holds a place: queued, in flight, or in the fault record (R139). -/
def Persist.jobs (pe : Persist) : List Job :=
  pe.queue ++ pe.engine.job.toList ++ (pe.engine.faultRecord.map Job.slot).toList

/-- The number of free places (R139). -/
def Persist.freePlaces (pe : Persist) : Nat := Config.persistPlaces - pe.jobs.length

/-- The WRITE of a slot that a job is, if it is one. -/
def Job.writeFor (i : SlotId) : Job → Option WriteJob
  | .slot (.write w) => if w.slot = i then some w else none
  | _ => none

/-- The not-started WRITE of a slot (R139). -/
def Persist.queuedWrite (pe : Persist) (i : SlotId) : Option WriteJob := pe.queue.findSome? (Job.writeFor i)

/-- A WRITE of the slot is in flight. -/
def Persist.writeInFlight (pe : Persist) (i : SlotId) : Bool :=
  match pe.engine.job with
  | some j => (j.writeFor i).isSome
  | none => false

/-- The PENDING reading of a slot (R10). -/
def Persist.pending (pe : Persist) (i : SlotId) : Bool := (pe.queuedWrite i).isSome || pe.writeInFlight i

/-- The engine takes the head job of the queue, or is IDLE where there is none (R144). -/
def Persist.takeHead (nv : NvArray) (pe : Persist) : Persist :=
  match pe.queue with
  | [] => { pe with engine := .idle }
  | j :: rest => { pe with queue := rest, engine := .busy (startAttempt nv j 1) }

/-- A job joins the queue at the tail; an IDLE engine takes the head job at once (R139, R144). -/
def Persist.enqueue (nv : NvArray) (pe : Persist) (j : Job) : Persist :=
  match pe.engine with
  | .idle => ({ pe with queue := pe.queue ++ [j] }).takeHead nv
  | _ => { pe with queue := pe.queue ++ [j] }

/-- A LASTING-mode SET coalesces into the not-started WRITE of its slot (R141). -/
def Job.coalesce (i : SlotId) (v : Value) (n : Nat) : Job → Job
  | .slot (.write w) => if w.slot = i then .slot (.write { w with value := v, last := n }) else .slot (.write w)
  | j => j

def Persist.coalesce (pe : Persist) (i : SlotId) (v : Value) (n : Nat) : Persist :=
  { pe with queue := pe.queue.map (Job.coalesce i v n) }

/-- A RETIRE cancels the not-started WRITE of its slot (R141). -/
def Persist.cancelWrite (pe : Persist) (i : SlotId) : Persist :=
  { pe with queue := pe.queue.filter fun j => (j.writeFor i).isNone }

/-- The clean-up ERASE job of a slot (R140, R172). -/
def cleanupJob (i : SlotId) : Job := .slot (.erase ⟨i, none, none⟩)

/-- A released place goes to the clean-up backlog where it is not empty (R142). -/
def State.fillPlace (s : State) : State :=
  match s.startup.backlog with
  | [] => s
  | i :: rest =>
    { s with
      persist := { s.persist with queue := s.persist.queue ++ [cleanupJob i] }
      startup := { s.startup with backlog := rest } }

/-! ## The durable mark (R159, R161) -/

/-- The first apply number of a job, where it carries one (R140). -/
def Job.firstApply : Job → Option Nat
  | .slot (.write w) => some w.first
  | .slot (.erase e) => e.applies.map Prod.fst
  | .freeze _ _ => none

/-- The durable mark as the jobs and the apply number give it (R159). -/
def Persist.computedMark (pe : Persist) (applyNumber : Nat) : Nat :=
  match (pe.jobs.filterMap Job.firstApply).min? with
  | none => applyNumber
  | some n => n - 1

/-- A port's durability request is reached by the mark, where it has one (R161). -/
def Persist.due (pe : Persist) (p : Port) : Bool :=
  match pe.requests.get p with
  | some n => decide (n ≤ pe.mark)
  | none => false

/-- DURABLE to a port whose request the mark has reached, and the request ends (R161). -/
def State.releaseRequest (p : Port) (s : State) : State :=
  if s.persist.due p then
    ({ s with persist := { s.persist with requests := s.persist.requests.set p none } }).deliver p
      (.durable s.persist.mark)
  else s

/-- The durable mark is recomputed and the requests it reaches are released (R159, R161). -/
def State.remark (s : State) : State :=
  eachPort State.releaseRequest
    { s with persist := { s.persist with mark := s.persist.computedMark s.applyNumber } }

/-! ## The end of a job (R142, R144, R149, R150) -/

/-- The engine with its job ended and the next not yet taken. -/
def Engine.dropJob : Engine → Engine
  | .busy _ => .idle
  | .pausing _ pz => .paused none pz
  | e => e

/-- An IDLE engine takes the next job, if there is one (R144). -/
def State.goOn (s : State) : State :=
  match s.persist.engine with
  | .idle => { s with persist := s.persist.takeHead s.nv }
  | _ => s

/-- The job in flight ends: its place is released and offered to the backlog, the mark is recomputed where the
job carried an apply number, and the engine takes the next job or goes IDLE or PAUSED (R149 steps 2 to 4,
R150). -/
def State.endJob (s : State) (marks : Bool) : State :=
  let t := ({ s with persist := { s.persist with engine := s.persist.engine.dropJob } }).fillPlace
  (if marks then t.remark else t).goOn

/-! ## The end of a pause (R154) -/

/-- The flight of a waiting job whose recorded step begins (R154). -/
def Waiting.resume (nv : NvArray) (w : Waiting) : Flight :=
  match w.next with
  | .phase ph => ⟨w.job, w.attempt, ph⟩
  | .nextAttempt => startAttempt nv w.job (w.attempt + 1)

/-- The pause ends: by RESUME, by its limit or by DETACH (R154). -/
def Persist.endPause (nv : NvArray) (pe : Persist) : Persist :=
  match pe.engine with
  | .pausing f _ => { pe with engine := .busy f }
  | .paused (some w) _ => { pe with engine := .busy (w.resume nv) }
  | .paused none _ => pe.takeHead nv
  | _ => pe

/-- The state with the pause ended. -/
def State.endPause (s : State) : State := { s with persist := s.persist.endPause s.nv }

/-- A tick reaches the pause limit (R155). A limit of 1 runs out at the tick whether it has counted down to 1 or was set to
1 by a PAUSE or a renewal just before the tick: R155's words that after a renewal the pause goes on are read
of a renewal with a greater limit (DEDUCED, log entry 26). -/
def State.tickPause (s : State) : State :=
  match s.persist.engine.pause with
  | none => s
  | some pz =>
    if pz.limit = 1 then s.endPause.deliver pz.holder (.pauseEnded .limit)
    else { s with persist := { s.persist with engine := s.persist.engine.setLimit (pz.limit - 1) } }

/-! ## An engine fault (R156) -/

/-- The kind of a job that faults the engine. -/
def SlotJob.kind : SlotJob → JobKind
  | .write _ => .write
  | .erase _ => .erase

/-- The slot of a job that faults the engine. -/
def SlotJob.slot : SlotJob → SlotId
  | .write w => w.slot
  | .erase e => e.slot

/-- The key that a fault record reports, absent for a clean-up (R156). -/
def SlotJob.key : SlotJob → Option Nat
  | .write w => some w.key
  | .erase e => e.key

/-- The first and last apply numbers of a job, each 0 where it carries none (R158). -/
def SlotJob.applies : SlotJob → Nat × Nat
  | .write w => (w.first, w.last)
  | .erase e => e.applies.getD (0, 0)

/-- PAUSE_ENDED with reason FAULT to the former holder, if a pause was held (R156 step 3). -/
def State.faultPause (s : State) (pz : Option Pause) : State :=
  match pz with
  | none => s
  | some pz => s.deliver pz.holder (.pauseEnded .fault)

/-- NOT_DURABLE to a port with a durability request, and the request ends (R156 step 5). -/
def State.failRequest (p : Port) (s : State) : State :=
  if (s.persist.requests.get p).isSome then
    ({ s with persist := { s.persist with requests := s.persist.requests.set p none } }).deliver p
      (.notDurable s.persist.mark)
  else s

/-- The engine faults with a job (R156). -/
def State.engineFault (s : State) (j : SlotJob) : State :=
  let pz := s.persist.engine.pause
  eachPort State.failRequest
    (((({ s with persist := { s.persist with engine := .faulted j } }).faultPause pz)).deliverAdmins
      (.engineFault j.kind j.slot))

end Sys2Proof.Machine
end

