-- ==== Sys2Proof/Machine/Flags.lean ====
section
/-! DEFINITION. The flags the part computes: the status byte of a port (R189), its ATTNn output (R131), and the
flags and readings of a GET answer (R10, R15). -/

namespace Sys2Proof.Machine

/-- A bit of a byte: `mask` while the condition holds. -/
def flag (condition : Bool) (mask : Byte) : Byte := if condition then mask else 0x00#8

/-- The command state is WORKING (R179). -/
def CommandState.isWorking : CommandState → Bool
  | .working _ _ _ => true
  | _ => false

/-- The command state is ANSWERED and the fetched flag is clear (R179). -/
def CommandState.isUnfetched : CommandState → Bool
  | .answered _ _ false => true
  | _ => false

/-- The start-up state is RUNNING: READY reads 1 (R189). -/
def State.running (s : State) : Bool := s.startup.state == .running

/-- The ATTNn output of a port is driven low (R131). -/
def State.attn (s : State) (p : Port) : Bool := (s.notices.get p).attn

/-- The status byte of a port as it stands (R189). -/
def State.statusByte (s : State) (p : Port) : Byte :=
  flag s.running 0x80#8 |||
  flag (s.port p).command.isWorking 0x40#8 |||
  flag (s.port p).command.isUnfetched 0x20#8 |||
  flag (s.attn p) 0x10#8 |||
  flag (s.port p).frameErr 0x08#8 |||
  flag (s.port p).refused 0x04#8 |||
  flag (s.port p).started 0x02#8 |||
  flag s.persist.engine.isFaulted 0x01#8

/-- The record is LASTING. -/
def Record.isLasting (r : Record) : Bool := r.defn.persistence == .lasting

/-- The flags of a GET answer for the record of a slot, with PENDING as it reads now (R10, R15). -/
def State.recordFlags (s : State) (i : SlotId) (r : Record) : Byte :=
  flag r.isLasting 0x01#8 ||| flag r.overridden 0x02#8 ||| flag r.stale 0x04#8 |||
  flag (s.persist.pending i) 0x08#8 ||| flag r.stored.isSome 0x10#8

/-- The claim holder reading of a key (R10). -/
def State.claimHolder (s : State) (k : Nat) : Option Port := (s.claimOn k).map ClaimEntry.holder

/-- The GET answer for a LIVE record with the value that the options select (R15). -/
def State.getLive (s : State) (i : SlotId) (r : Record) (v : Value) : Reply :=
  .ok (enc16 r.key ++ enc16 r.generation ++ [s.recordFlags i r, portOrNone (s.claimHolder r.key), v.type.code] ++
    v.encode)

/-- The GET answer for a record that stands only in the port's changesets: generation 0, every flag clear except
LASTING as defined, no claim holder (R15). -/
def getStaged (k : Nat) (d : Definition) (v : Value) : Reply :=
  .ok (enc16 k ++ enc16 0 ++ [flag (d.persistence == .lasting) 0x01#8, portOrNone none, v.type.code] ++ v.encode)

/-- The fault record in a STATUS answer: job kind, slot and key, zero where absent (section 10.8). -/
def faultData : Option SlotJob → List Byte
  | none => 0x00#8 :: (enc16 0 ++ enc16 0)
  | some j => j.kind.code :: (enc16 j.slot.val ++ enc16 (j.key.getD 0))

/-- The free entries of the staging pool: 64 less the entries held in all changesets (R39). -/
def stackEntries (st : Stack) : Nat := (st.map List.length).sum

def State.heldEntries (s : State) : Nat :=
  stackEntries s.staged.p0 + stackEntries s.staged.p1 + stackEntries s.staged.p2

def State.freeEntries (s : State) : Nat := Config.poolSize - s.heldEntries

/-- The 29 bytes of a STATUS answer (R193, section 10.8). -/
def State.statusData (s : State) : List Byte :=
  enc16 (s.countSlots Slot.isLive) ++ enc16 (s.countSlots Slot.isFree) ++
  enc16 (s.countSlots Slot.isDraining) ++ enc16 (s.countSlots Slot.isBroken) ++
  enc8 s.freeEntries ++ enc8 s.claims.length ++ enc8 s.persist.queue.length ++
  enc16 s.startup.backlog.length ++
  [s.persist.engine.code, portOrNone (s.persist.engine.pause.map Pause.holder)] ++
  faultData s.persist.engine.faultRecord ++
  enc32 s.applyNumber ++ enc32 s.persist.mark ++ [s.startup.cause.code]

end Sys2Proof.Machine
end

