-- ==== Sys2Proof/Machine/Changeset.lean ====
section
/-! DEFINITION. The shared operations of the Staging Unit (chapter 3): the view, placing and combining entries,
and the merge. -/

namespace Sys2Proof.Machine

/-- The changeset stack of a port, top first. -/
def State.stack (s : State) (p : Port) : Stack := s.staged.get p

/-- The state with another changeset stack of one port. -/
def State.setStack (s : State) (p : Port) (st : Stack) : State := { s with staged := s.staged.set p st }

/-- The depth of a port (R37). -/
def State.depth (s : State) (p : Port) : Nat := (s.stack p).length

/-- The entry of a changeset for a key: at most one (R37). -/
def Changeset.entryFor (c : Changeset) (k : Nat) : Option Entry := List.find? (fun e => e.key == k) c

/-- The topmost entry for a key, with the changesets below the one that holds it (R40). -/
def topmost : Stack → Nat → Option (Change × Stack)
  | [], _ => none
  | c :: lower, k =>
    match Changeset.entryFor c k with
    | some e => some (e.change, lower)
    | none => topmost lower k

/-- The definition of the topmost CREATE for a key in a stack (R40). -/
def createIn : Stack → Nat → Option Definition
  | [], _ => none
  | c :: lower, k =>
    match Changeset.entryFor c k with
    | some ⟨_, .create d _⟩ => some d
    | _ => createIn lower k

/-- What a port sees of a key (R40). -/
inductive View
  | staged (d : Definition) (v : Value)
  | live (i : SlotId) (r : Record) (v : Value)
  | stale
  | retired
  | absent
deriving DecidableEq, Repr

/-- The view of a port on a key (R40). -/
def State.view (s : State) (p : Port) (k : Nat) : View :=
  match topmost (s.stack p) k with
  | some (.create d v, _) => .staged d v
  | some (.set v _, lower) =>
    match createIn lower k with
    | some d => .staged d v
    | none =>
      match s.liveRecord k with
      | some (i, r) => .live i r v
      | none => .stale
  | some (.retire _, _) => .retired
  | none =>
    match s.liveRecord k with
    | some (i, r) => .live i r r.live
    | none => .absent

/-- The expected generation of two combined entries: the earlier one if present, otherwise the new one (R51). -/
def earlierExpect (earlier new : Option Nat) : Option Nat :=
  match earlier with
  | some g => some g
  | none => new

/-- An earlier and a new change of one key combined (R51): `none` when both entries vanish. The pairs in the last
line do not reach a combination (log entry 6). -/
def combine : Change → Change → Option Change
  | .set _ e, .set v e' => some (.set v (earlierExpect e e'))
  | .create d _, .set v _ => some (.create d v)
  | .set _ e, .retire e' => some (.retire (earlierExpect e e'))
  | .create _ _, .retire _ => none
  | _, new => some new

/-- A new entry placed in a changeset: at the end, or combined with the entry for its key in that entry's place; the
entries after two that vanish move up (R37, R50, R51, R53). -/
def placeEntry : Changeset → Entry → Changeset
  | [], e => [e]
  | x :: rest, e =>
    if x.key = e.key then
      match combine x.change e.change with
      | some ch => ⟨x.key, ch⟩ :: rest
      | none => rest
    else x :: placeEntry rest e

/-- The entry index that an entry for a key holds; 255 where there is none (R43). -/
def entryIndex (c : Changeset) (k : Nat) : Nat :=
  match List.findIdx? (fun e => e.key == k) c with
  | some i => i
  | none => wholeIndex

/-- The merge of the top changeset into the one below, entry by entry in the top's order (R53). -/
def mergeInto (top below : Changeset) : Changeset := top.foldl placeEntry below

/-- The number of entries that a merge returns to the pool (R53). -/
def mergeReturns (top below : Changeset) : Nat :=
  (top.length + below.length) - (mergeInto top below).length

/-! ## Staging at depth 1 to 4 (R43) -/

/-- Step 6 and the placing of a change that has passed every check of its own, with the answer of a staging command:
depth, entry index and free pool entries, and then `resolved`, the value that a DEFAULT or REVERT was
resolved into (R43, R50). -/
def State.stage (s : State) (p : Port) (top : Changeset) (lower : Stack) (k : Nat) (ch : Change)
    (resolved : List Byte) : State × Reply :=
  if (Changeset.entryFor top k).isNone && s.freeEntries == 0 then (s, .bare .stageFull)
  else
    let top' := placeEntry top ⟨k, ch⟩
    let t := s.setStack p (top' :: lower)
    (t, .ok (enc8 (t.depth p) ++ enc8 (entryIndex top' k) ++ enc8 t.freeEntries ++ resolved))

/-- The reference definition and FLAGS reference value of a SET at staging, and the record where the key is present
through one; a key that is not present is refused with the code given (R29, R45). -/
def View.present : View → Except Result (Definition × Value × Option (SlotId × Record))
  | .staged d v => .ok (d, v, none)
  | .live i r _ => .ok (r.defn, r.live, some (i, r))
  | .stale => .error .notFound
  | .absent => .error .notFound
  | .retired => .error .keyPending

/-- The type code and encoding of a resolved value (section 10.8). -/
def resolvedData (v : Value) : List Byte := v.type.code :: v.encode

end Sys2Proof.Machine
end

