-- ==== Sys2Proof/Machine/Wire.lean ====
section
/-! DEFINITION. The serial line of a port and its frames (sections 10.2 to 10.4): the fall of CSn, each whole
byte, and the rise of CSn, where a frame is judged. -/

namespace Sys2Proof.Machine

/-- What a FETCH frame sends after its byte 0: tag, result code, data length, data, and the CRC-8 over them
(R187). -/
def fetchBytes (tag : Byte) (r : Reply) : List Byte :=
  let body := tag :: r.result.code :: (enc8 r.data.length ++ r.data)
  body ++ [crc8 body]

/-- The content of a FETCH frame, as the response buffer stands at the end of byte 0 (R187). -/
def CommandState.fetchContent : CommandState → FetchContent
  | .answered tag r _ => ⟨fetchBytes tag r, true⟩
  | _ => ⟨fetchBytes 0x00#8 (.bare .noResponse), false⟩

/-- A line on which nothing has been exchanged: the first outgoing byte stands formed, the status byte (R180). -/
def Line.opened (status : Byte) (startup : Bool) : Line := ⟨[], status, none, startup⟩

/-- CSn falls: the frame state becomes COLLECTING and the first outgoing byte is formed (R180). -/
def State.csFall (s : State) (p : Port) : State :=
  s.setPort p { s.port p with line := some (.opened (s.statusByte p) false), sdo := [] }

/-- The content of the frame after its byte 0: a FETCH fixes it there (R187). -/
def Line.contentAfter (l : Line) (b : Byte) (now : FetchContent) : Option FetchContent :=
  if l.received = [] then (if b = 0x05#8 then some now else none) else l.content

/-- The outgoing byte at index `i` (at least 1) of a frame: the content of a FETCH, and the status byte in every
other frame and beyond the content (R180, R187). -/
def outgoing (content : Option FetchContent) (i : Nat) (status : Byte) : Byte :=
  match content with
  | none => status
  | some c => c.bytes.getD (i - 1) status

/-- One whole byte is exchanged: the host's is received, the byte being sent has gone out, and the next outgoing
byte is formed (R180). -/
def State.clockByte (s : State) (p : Port) (b : Byte) : State :=
  match (s.port p).line with
  | none => s
  | some l =>
    let content := l.contentAfter b (s.port p).command.fetchContent
    s.setPort p { s.port p with
      line := some ⟨l.received ++ [b], outgoing content (l.received.length + 1) (s.statusByte p), content,
        l.startup⟩
      sdo := (s.port p).sdo ++ [l.sending] }

/-- Several whole bytes are exchanged. -/
def State.clockBytes (s : State) (p : Port) (bytes : List Byte) : State :=
  bytes.foldl (fun s b => s.clockByte p b) s

/-- A command frame: its code, tag and parameters, when it is well formed (R182). -/
def readFrame (bytes : List Byte) (partialByte : Bool) : Option (Byte × Byte × List Byte) :=
  match bytes with
  | code :: tag :: n :: rest =>
    if rest.length = n.toNat + 1 ∧ n.toNat ≤ Config.maxParams ∧ partialByte = false ∧
        rest.getLast? = some (crc8 (code :: tag :: n :: rest.dropLast)) then
      some (code, tag, rest.dropLast)
    else none
  | _ => none

/-- A well-formed command frame is refused (R183). -/
def State.refusesFrame (s : State) (p : Port) (l : Line) : Bool :=
  !s.running || l.startup || (s.port p).command.isWorking || (s.port p).command.isUnfetched

/-- The judgement of a command frame at the rise of CSn (R182 to R184). -/
def State.judgeCommand (s : State) (p : Port) (l : Line) (partialByte : Bool) : PortState :=
  match readFrame l.received partialByte with
  | none => { s.port p with frameErr := true }
  | some (code, tag, params) =>
    if s.refusesFrame p l then { s.port p with refused := true }
    else { s.port p with command := .working tag code params, frameErr := false, refused := false }

/-- A FETCH frame that carried an answer was sent whole, so its answer is fetched (R187). -/
def Line.completes (l : Line) : Bool :=
  match l.content with
  | some c => c.isAnswer && decide (c.bytes.length + 1 ≤ l.received.length)
  | none => false

/-- The fetched flag of an answer is set; a port that holds no answer has none (R187). -/
def CommandState.markFetched : CommandState → CommandState
  | .answered tag r _ => .answered tag r true
  | c => c

/-- The judgement of a frame at the rise of CSn, by its code (R181). -/
def State.judgeFrame (s : State) (p : Port) (l : Line) (partialByte : Bool) : PortState :=
  match l.received with
  | [] => { s.port p with frameErr := true }
  | code :: _ =>
    if code = 0x00#8 then s.port p
    else if code = 0x05#8 then
      if l.completes then { s.port p with command := (s.port p).command.markFetched } else s.port p
    else s.judgeCommand p l partialByte

/-- CSn rises: the frame is judged and the frame state becomes IDLE (R180, R181). -/
def State.csRise (s : State) (p : Port) (partialByte : Bool) : State :=
  match (s.port p).line with
  | none => s
  | some l => s.setPort p { s.judgeFrame p l partialByte with line := none }

/-- The frame being collected is of the kind `code` names: its first byte is the code of a POLL or FETCH frame, or,
where `code` is empty, is no such code or has not come yet (R181). A frame whose first byte has not come, as
after a return of VDD while CSn is low, goes on with the COMMAND_FRAME row, and the byte sent decides. -/
def Line.kindIs (l : Line) (code : List Byte) : Bool :=
  match code with
  | [] => match l.received with
    | [] => true
    | c :: _ => !isPollOrFetchCode c
  | c :: _ => l.received.head? == some c

/-- A frame, or a part of one, while VDD is out of range: the part receives and judges nothing, and the frame state
follows CSn alone, so that it stands as CSn does when VDD rises (R179, log entry 14). -/
def State.frameUnpowered (s : State) (p : Port) (part : FramePart) : State :=
  match (s.port p).line, part with
  | none, .whole _ _ => s.setPort p { s.port p with sdo := [] }
  | none, .first _ => s.csFall p
  | some _, .last _ _ => s.setPort p { s.port p with line := none }
  | _, _ => s

/-- A frame, or a part of one, reaches a port. `code` is the code byte that the row itself brings. A part that does
not fit the line (a fall of CSn while it is low; a byte or a rise while it is high or in another kind of
frame) is no happening there and leaves the state as it was (log entry 5). -/
def State.frame (s : State) (p : Port) (code : List Byte) (part : FramePart) : State :=
  if s.vdd = false then s.frameUnpowered p part
  else
    match (s.port p).line, part with
    | none, .whole bytes partialByte =>
      ((s.csFall p).clockBytes p (code ++ bytes)).csRise p partialByte
    | none, .first bytes => (s.csFall p).clockBytes p (code ++ bytes)
    | some l, .next bytes => if l.kindIs code then s.clockBytes p bytes else s
    | some l, .last bytes partialByte =>
      if l.kindIs code then (s.clockBytes p bytes).csRise p partialByte else s
    | _, _ => s

end Sys2Proof.Machine
end

