-- ==== Sys2Proof/Machine/PortCommands.lean ====
section
/-! DEFINITION. The frames and the port commands (chapter 10): POLL, FETCH, COMMAND_FRAME, BAD_COMMAND, IDENT,
STATUS, ACK and DETACH. -/

namespace Sys2Proof.Machine

/-- What a meaning answers: the part goes on in every case. -/
abbrev Outcome := Host.Outcome State Fault Refusal

/-- POLL (R186): the host sends 0x00 and then the bytes of the part; every byte sent is a status byte. -/
def execPoll (p : Port) (part : FramePart) (s : State) : Outcome := .next (s.frame p [0x00#8] part)

/-- FETCH (R187, R188): the host sends 0x05 and then the bytes of the part. -/
def execFetch (p : Port) (part : FramePart) (s : State) : Outcome := .next (s.frame p [0x05#8] part)

/-- COMMAND_FRAME (R182 to R184). -/
def execCommandFrame (p : Port) (part : FramePart) (s : State) : Outcome := .next (s.frame p [] part)

/-- The codes of the table of command codes (section 10.8). -/
def commandCodes : List Byte :=
  [0x00#8, 0x01#8, 0x02#8, 0x03#8, 0x04#8, 0x05#8, 0x10#8, 0x11#8, 0x12#8, 0x13#8, 0x20#8, 0x21#8, 0x22#8, 0x23#8,
    0x24#8, 0x25#8, 0x26#8, 0x27#8, 0x30#8, 0x31#8, 0x40#8, 0x41#8, 0x42#8, 0x43#8, 0x44#8, 0x50#8, 0x51#8, 0x52#8,
    0x53#8, 0x60#8, 0x61#8, 0x62#8, 0x63#8, 0x64#8, 0x65#8, 0x6F#8]

/-- BAD_COMMAND (R185): the port itself takes a command whose code names none. -/
def execBadCommand (p : Port) (s : State) : Outcome :=
  match (s.port p).command with
  | .working tag code _ =>
    if code ∈ commandCodes then .next s else .next (s.placeAnswer p tag (.bare .badCommand))
  | _ => .next s

/-- A command that carries no parameters: parameters present give BAD_PARAM (R190 to R193, R194). -/
def State.bareCommand (s : State) (params : List Byte) (act : State × Reply) : State × Reply :=
  if params = [] then act else (s, .bare .badParam)

/-- IDENT (R192). -/
def execIdent (p : Port) (s : State) : Outcome :=
  .next (s.serve p 0x01#8 fun params => s.bareCommand params (s, .ok identData))

/-- STATUS (R193). -/
def execStatus (p : Port) (s : State) : Outcome :=
  .next (s.serve p 0x02#8 fun params => s.bareCommand params (s, .ok s.statusData))

/-- ACK (R190). -/
def execAck (p : Port) (s : State) : Outcome :=
  .next (s.serve p 0x03#8 fun params =>
    s.bareCommand params (s.setPort p { s.port p with started := false }, .ok []))

/-- The watch sets without a port (R134 step 1, R20). -/
def Slot.unwatch (p : Port) : Slot → Slot
  | .live r => .live { r with watchers := r.watchers.set p false }
  | x => x

def ClassDesc.unwatch (p : Port) (c : ClassDesc) : ClassDesc := { c with watchers := c.watchers.set p false }

/-- The Notice Unit's and the Record Table's part in a DETACH (R134, R20). -/
def State.detachNotices (s : State) (p : Port) : State :=
  { s with
    slots := s.slots.map (Slot.unwatch p)
    classes := s.classes.map (ClassDesc.unwatch p)
    notices := s.notices.set p (.normal []) }

/-- The port holds a pause of the engine (R143). -/
def State.holdsPause (s : State) (p : Port) : Bool := s.persist.engine.pause.map Pause.holder == some p

/-- The Persist Engine's part in a DETACH (R163). -/
def State.detachEngine (s : State) (p : Port) : State :=
  let t := { s with persist := { s.persist with requests := s.persist.requests.set p none } }
  if t.holdsPause p then t.endPause else t

/-- A DETACH at every block together (R191): the Staging Unit (R60), the Claim Table (R98), the Persist Engine
(R163), and the Notice Unit with the Record Table (R134, R20). FRAME_ERR and REFUSED are cleared where the
DETACH frame is taken and not again here: a flag set by a frame dropped between the two stays 1 (DEDUCED,
log entry 27). -/
def State.detach (s : State) (p : Port) : State :=
  (((s.setStack p []).detachClaims p).detachEngine p).detachNotices p

/-- DETACH (R191). -/
def execDetach (p : Port) (s : State) : Outcome :=
  .next (s.serve p 0x04#8 fun params => s.bareCommand params (s.detach p, .ok []))

end Sys2Proof.Machine
end

