-- ==== Sys2Proof/Machine/ClaimCommands.lean ====
section
/-! DEFINITION. The commands of the Claim Table and the ticks (chapter 5): CLAIM, RELEASE, CLAIMINFO, TICK and
CLAIM_EXPIRY. -/

namespace Sys2Proof.Machine

/-- A CLAIM of a key on which the table holds an entry (R87). -/
def State.claimHeld (s : State) (p : Port) (q : ClaimParams) (e : ClaimEntry) : State × Reply :=
  if e.holder = p then (s.setClaim q.key (some { e with remaining := q.lease }), .ok (enc16 q.lease))
  else if q.wait = false then (s, ⟨.claimed, [portCode e.holder]⟩)
  else
    match waiterPosition e.waiters p with
    | some n =>
      (s.setClaim q.key
          (some { e with waiters := e.waiters.map fun w => if w.port = p then ⟨p, q.lease⟩ else w }),
        ⟨.waiting, enc8 n⟩)
    | none =>
      (s.setClaim q.key (some { e with waiters := e.waiters ++ [⟨p, q.lease⟩] }),
        ⟨.waiting, enc8 (e.waiters.length + 1)⟩)

/-- CLAIM's checks and effect (R86, R87). -/
def State.claim (s : State) (p : Port) (params : List Byte) : State × Reply :=
  match readClaim params with
  | none => (s, .bare .badParam)
  | some q =>
    if s.rights.allows p q.key .stage = false then (s, .bare .denied)
    else
      match s.liveRecord q.key with
      | none => (s, .bare .notFound)
      | some _ =>
        match s.claimOn q.key with
        | some e => s.claimHeld p q e
        | none =>
          if Config.claimEntries ≤ s.claims.length then (s, .bare .claimFull)
          else ({ s with claims := s.claims ++ [⟨q.key, p, q.lease, []⟩] }, .ok (enc16 q.lease))

/-- CLAIM (R86, R87). -/
def execClaim (p : Port) (s : State) : Outcome :=
  .next (s.serve p 0x30#8 fun params => s.claim p params)

/-- RELEASE's check and effect (R88). -/
def State.release (s : State) (p : Port) (params : List Byte) : State × Reply :=
  match readKeyAlone params with
  | none => (s, .bare .badParam)
  | some k =>
    match s.claimOn k with
    | none => (s, .bare .notHeld)
    | some e =>
      if e.holder = p then (s.handOn e, .ok [portOrNone (e.handOn.map ClaimEntry.holder)])
      else if (waiterPosition e.waiters p).isSome then
        (s.setClaim k (some { e with waiters := dropWaiter e.waiters p }), .ok [portCode e.holder])
      else (s, .bare .notHeld)

/-- RELEASE (R88). -/
def execRelease (p : Port) (s : State) : Outcome :=
  .next (s.serve p 0x31#8 fun params => s.release p params)

/-- The data of a CLAIMINFO answer (section 10.8). -/
def ClaimEntry.encode (e : ClaimEntry) : List Byte :=
  portCode e.holder :: (enc16 e.remaining ++ enc8 e.waiters.length ++
    e.waiters.flatMap fun w => portCode w.port :: enc16 w.lease)

/-- The answer to a CLAIMINFO (R96). -/
def State.claiminfoReply (s : State) (p : Port) (params : List Byte) : Reply :=
  match readKeyAlone params with
  | none => .bare .badParam
  | some k =>
    if s.rights.allows p k .read = false then .bare .denied
    else
      match s.claimOn k with
      | none => .bare .notFound
      | some e => .ok e.encode

/-- CLAIMINFO (R96). -/
def execClaiminfo (p : Port) (s : State) : Outcome :=
  .next (s.serve p 0x13#8 fun params => (s, s.claiminfoReply p params))

/-- TICK (R83): at one claim entry, at the pause limit, or at every claim entry in use, oldest entry first, and then
at the pause limit (log entry 7). A lease or a limit that it finds at 1 runs out within it (R85, R155). -/
def execTick (target : TickTarget) (s : State) : Outcome :=
  match target with
  | .claim k => .next (s.tickClaim k)
  | .pauseLimit => .next s.tickPause
  | .all => .next (((s.claims.map ClaimEntry.key).foldl State.tickClaim s).tickPause)

/-- CLAIM_EXPIRY (R90): the tick that finds the remaining lease of the claim at 1. Where there is no such claim or its
lease is not at 1, no expiry happens (R91, log entry 5). -/
def execClaimExpiry (key : Nat) (s : State) : Outcome :=
  match s.claimOn key with
  | none => .next s
  | some e => if e.remaining = 1 then .next (s.expireClaim e) else .next s

end Sys2Proof.Machine
end

