-- ==== Sys2Proof/Machine/NoticeCommands.lean ====
section
/-! DEFINITION. The commands of the Notice Unit (chapter 7): WATCH, UNWATCH, WATCHCLASS, UNWATCHCLASS and
NEXTNOTICE. -/

namespace Sys2Proof.Machine

/-- The checks that WATCH and UNWATCH share, and what they do with the record found (R119, R120). -/
def State.watchCommand (s : State) (p : Port) (params : List Byte) (act : SlotId → Record → State × Reply) :
    State × Reply :=
  match readKeyAlone params with
  | none => (s, .bare .badParam)
  | some k =>
    if s.rights.allows p k .read = false then (s, .bare .denied)
    else
      match s.liveRecord k with
      | none => (s, .bare .notFound)
      | some (i, r) => act i r

/-- The state with a port in or out of the watch set of the record in a slot. -/
def State.setWatcher (s : State) (i : SlotId) (r : Record) (p : Port) (member : Bool) : State :=
  s.setSlot i (.live { r with watchers := r.watchers.set p member })

/-- WATCH (R119). -/
def execWatch (p : Port) (s : State) : Outcome :=
  .next (s.serve p 0x40#8 fun params =>
    s.watchCommand p params fun i r => (s.setWatcher i r p true, .ok (enc16 r.generation)))

/-- UNWATCH (R120). -/
def execUnwatch (p : Port) (s : State) : Outcome :=
  .next (s.serve p 0x41#8 fun params =>
    s.watchCommand p params fun i r => (s.setWatcher i r p false, .ok []))

/-- A port joins or leaves a class watch set (R121). -/
def State.watchClass (s : State) (p : Port) (member : Bool) (params : List Byte) : State × Reply :=
  match readClassAlone params with
  | none => (s, .bare .badParam)
  | some c =>
    (s.setClass c { s.classDesc c with watchers := (s.classDesc c).watchers.set p member }, .ok [])

/-- WATCHCLASS (R121). -/
def execWatchclass (p : Port) (s : State) : Outcome :=
  .next (s.serve p 0x42#8 fun params => s.watchClass p true params)

/-- UNWATCHCLASS (R121). -/
def execUnwatchclass (p : Port) (s : State) : Outcome :=
  .next (s.serve p 0x43#8 fun params => s.watchClass p false params)

/-- The oldest notice of a queue, with the queue without it (R130). -/
def NoticeQueue.take : NoticeQueue → Option (Notice × NoticeQueue)
  | .resync => some (.resync, .normal [])
  | .normal [] => none
  | .normal (n :: rest) => some (n, .normal rest)

/-- NEXTNOTICE's effect and answer (R130). -/
def State.nextNotice (s : State) (p : Port) : State × Reply :=
  match (s.notices.get p).take with
  | none => (s, .bare .empty)
  | some (n, q) => ({ s with notices := s.notices.set p q }, .ok n.encode)

/-- NEXTNOTICE (R130). -/
def execNextnotice (p : Port) (s : State) : Outcome :=
  .next (s.serve p 0x44#8 fun params => s.bareCommand params (s.nextNotice p))

end Sys2Proof.Machine
end

