-- ==== Sys2Proof/Machine/PersistCommands.lean ====
section
/-! DEFINITION. The commands and happenings of the Persist Engine (chapter 8): SYNC, PAUSE, RESUME, CLEARFAULT,
PAUSE_LIMIT_EXPIRY, PHASE_END, WRITE_COMPLETION, ERASE_COMPLETION and VERIFY_MISMATCH. -/

namespace Sys2Proof.Machine

/-- The state with another engine state. -/
def State.setEngine (s : State) (e : Engine) : State := { s with persist := { s.persist with engine := e } }

/-- SYNC's checks and effect (R160). -/
def State.sync (s : State) (p : Port) (params : List Byte) : State × Reply :=
  match readSync params with
  | none => (s, .bare .badParam)
  | some n =>
    if n = 0 ∨ s.applyNumber < n then (s, .bare .badParam)
    else if s.persist.engine.isFaulted then (s, .bare .persistFault)
    else if n ≤ s.persist.mark then (s, .ok (enc32 s.persist.mark))
    else
      ({ s with persist := { s.persist with requests := s.persist.requests.set p (some n) } },
        ⟨.waiting, enc32 s.persist.mark⟩)

/-- SYNC (R160). -/
def execSync (p : Port) (s : State) : Outcome :=
  .next (s.serve p 0x50#8 fun params => s.sync p params)

/-- The engine after a PAUSE from a port that holds none; `none` where the pause is not recorded (R153). -/
def Engine.beginPause (e : Engine) (pz : Pause) : Engine :=
  match e with
  | .idle => .paused none pz
  | .busy f => .pausing f pz
  | e => e

/-- PAUSE after its NOT_ADMIN check (R153). -/
def State.pauseEngine (s : State) (p : Port) (params : List Byte) : State × Reply :=
  match readPause params with
  | none => (s, .bare .badParam)
  | some limit =>
    if s.persist.engine.isFaulted then (s, .bare .persistFault)
    else
      match s.persist.engine.pause with
      | some pz =>
        if pz.holder = p then
          (s.setEngine (s.persist.engine.setLimit limit), .ok [s.persist.engine.code])
        else (s, .bare .pauseHeld)
      | none =>
        let e := s.persist.engine.beginPause ⟨p, limit⟩
        (s.setEngine e, .ok [e.code])

/-- PAUSE (R153). -/
def execPause (p : Port) (s : State) : Outcome :=
  .next (s.serve p 0x51#8 fun params => s.adminOnly p (s.pauseEngine p params))

/-- RESUME after its NOT_ADMIN check (R154). -/
def State.resumeEngine (s : State) (p : Port) : State × Reply :=
  if s.holdsPause p then (s.endPause, .ok [s.endPause.persist.engine.code]) else (s, .bare .notPaused)

/-- RESUME (R154). -/
def execResume (p : Port) (s : State) : Outcome :=
  .next (s.serve p 0x52#8 fun params => s.adminOnly p (s.bareCommand params (s.resumeEngine p)))

/-- The given-up WRITE at the slot: the record of a LIVE slot is STALE (R158 step 1). -/
def Slot.giveUpWrite : Slot → Slot
  | .live r => .live { r with stale := true }
  | x => x

/-- The given-up ERASE at the slot: DRAINING becomes BROKEN and the key is released (R158 step 1). -/
def Slot.giveUpErase : Slot → Slot
  | .draining _ => .broken
  | x => x

/-- The given-up job at the Record Table (R158 step 1). -/
def State.giveUp (s : State) (j : SlotJob) : State :=
  match j with
  | .write w => s.setSlot w.slot (s.slot w.slot).giveUpWrite
  | .erase e => s.setSlot e.slot (s.slot e.slot).giveUpErase

/-- The data of a CLEARFAULT answer (section 10.8). -/
def SlotJob.clearfaultData (j : SlotJob) : List Byte :=
  j.kind.code :: (enc16 j.slot.val ++ enc32 j.applies.1 ++ enc32 j.applies.2)

/-- CLEARFAULT after its NOT_ADMIN and form checks (R158). -/
def State.clearFault (s : State) : State × Reply :=
  match s.persist.engine with
  | .faulted j => (((((s.giveUp j).setEngine .idle).fillPlace).remark).goOn, .ok j.clearfaultData)
  | _ => (s, .bare .notFaulted)

/-- CLEARFAULT (R158). -/
def execClearfault (p : Port) (s : State) : Outcome :=
  .next (s.serve p 0x53#8 fun params => s.adminOnly p (s.bareCommand params s.clearFault))

/-- PAUSE_LIMIT_EXPIRY (R155): the tick that finds the remaining limit at 1. Where no pause is held or its limit is not
at 1, no limit runs out (log entry 5). -/
def execPauseLimitExpiry (s : State) : Outcome :=
  match s.persist.engine.pause with
  | none => .next s
  | some pz => if pz.limit = 1 then .next (s.endPause.deliver pz.holder (.pauseEnded .limit)) else .next s

/-- The engine after the end of a phase that is followed by another of its attempt (R148, R152). -/
def Engine.nextPhase (e : Engine) (ph : Phase) : Engine :=
  match e with
  | .busy f => .busy { f with phase := ph }
  | .pausing f pz => .paused (some ⟨f.job, f.attempt, .phase ph⟩) pz
  | e => e

/-- PHASE_END (R148): the running phase, other than the last of its attempt, ends with `result` (R137). Where no such
phase is running, nothing ends (log entry 5). -/
def execPhaseEnd (result : NvResult) (s : State) : Outcome :=
  match s.persist.engine.running with
  | none => .next s
  | some f =>
    match f.phase.next with
    | none => .next s
    | some ph => .next (({ s with nv := s.nv.endPhase f result }).setEngine (s.persist.engine.nextPhase ph))

/-- A WRITE completion at the slot: the record of a LIVE slot takes the job's value as its stored value (R11). -/
def Slot.completeWrite (v : Value) : Slot → Slot
  | .live r => .live { r with stored := some v, stale := false }
  | x => x

/-- An ERASE completion at the slot: DRAINING becomes FREE and the key is released (R12). -/
def Slot.completeErase : Slot → Slot
  | .draining _ => .free
  | x => x

/-- WRITE_COMPLETION (R149): the VERIFY of the WRITE in flight ends and matches. Where no such phase is running, or the
cell does not match, nothing completes (log entry 5). -/
def execWriteCompletion (s : State) : Outcome :=
  match s.persist.engine.running with
  | none => .next s
  | some f =>
    match f.job, verifyOutcome s.nv f with
    | .slot (.write w), some true =>
      .next ((s.setSlot w.slot ((s.slot w.slot).completeWrite w.value)).endJob true)
    | _, _ => .next s

/-- ERASE_COMPLETION (R150): the VERIFY-ERASED of the ERASE in flight ends and matches; the mark is recomputed where the
job carried a first apply number. Where no such phase is running, or the pair does not match, nothing
completes (log entry 5). -/
def execEraseCompletion (s : State) : Outcome :=
  match s.persist.engine.running with
  | none => .next s
  | some f =>
    match f.job, verifyOutcome s.nv f with
    | .slot (.erase e), some true =>
      .next ((s.setSlot e.slot (s.slot e.slot).completeErase).endJob e.applies.isSome)
    | _, _ => .next s

/-- The engine after a failed attempt that is not the third (R151). -/
def Engine.retry (e : Engine) (nv : NvArray) : Engine :=
  match e with
  | .busy f => .busy (startAttempt nv f.job (f.attempt + 1))
  | .pausing f pz => .paused (some ⟨f.job, f.attempt, .nextAttempt⟩) pz
  | e => e

/-- VERIFY_MISMATCH (R151): the VERIFY of the WRITE or ERASE in flight finds a mismatch; the third one faults the
engine (R156). Where no such phase is running, or it matches, nothing fails (log entry 5). -/
def execVerifyMismatch (s : State) : Outcome :=
  match s.persist.engine.running with
  | none => .next s
  | some f =>
    match f.job, verifyOutcome s.nv f with
    | .slot j, some false =>
      if f.attempt < 3 then .next (s.setEngine (s.persist.engine.retry s.nv)) else .next (s.engineFault j)
    | _, _ => .next s

end Sys2Proof.Machine
end

