-- ==== Sys2Proof/Machine/RightsCommands.lean ====
section
/-! DEFINITION. The commands of the Rights Unit (chapter 6): SETROLE, WINDOW, UNWINDOW, FREEZE and WINDOWINFO, and
the end of a FREEZE job (R113, R114, R147). -/

namespace Sys2Proof.Machine

/-- A protection window. -/
def Rights.window (r : Rights) (i : WindowId) : Window := r.windows[i.val]

/-- The state of a one-time entry, as the Rights Unit holds it. -/
def Rights.entry (r : Rights) (i : WindowId) : EntryState := r.entries[i.val]

/-- The state with another state of one window. -/
def State.setWindow (s : State) (i : WindowId) (w : Window) : State :=
  { s with rights := { s.rights with windows := s.rights.windows.set i.val w } }

/-- The state with another state of one one-time entry in the Rights Unit. -/
def State.setEntryState (s : State) (i : WindowId) (e : EntryState) : State :=
  { s with rights := { s.rights with entries := s.rights.entries.set i.val e } }

/-- SETROLE after its NOT_ADMIN check (R102). -/
def State.setRole (s : State) (params : List Byte) : State × Reply :=
  match readSetrole params with
  | none => (s, .bare .badParam)
  | some (p, role) => ({ s with rights := { s.rights with roles := s.rights.roles.set p role } }, .ok [])

/-- SETROLE (R102). -/
def execSetrole (p : Port) (s : State) : Outcome :=
  .next (s.serve p 0x61#8 fun params => s.adminOnly p (s.setRole params))

/-- WINDOW after its NOT_ADMIN check (R108). -/
def State.defineWindow (s : State) (params : List Byte) : State × Reply :=
  match readWindowDef params with
  | none => (s, .bare .badParam)
  | some (i, d) =>
    match s.rights.window i with
    | .freezing _ => (s, .bare .frozen)
    | .frozen _ => (s, .bare .frozen)
    | _ => (s.setWindow i (.active d), .ok [])

/-- WINDOW (R108). -/
def execWindow (p : Port) (s : State) : Outcome :=
  .next (s.serve p 0x62#8 fun params => s.adminOnly p (s.defineWindow params))

/-- UNWINDOW after its NOT_ADMIN check (R109). -/
def State.removeWindow (s : State) (params : List Byte) : State × Reply :=
  match readWindowAlone params with
  | none => (s, .bare .badParam)
  | some i =>
    match s.rights.window i with
    | .freezing _ => (s, .bare .frozen)
    | .frozen _ => (s, .bare .frozen)
    | .unused => (s, .bare .badParam)
    | .active _ => (s.setWindow i .unused, .ok [])

/-- UNWINDOW (R109). -/
def execUnwindow (p : Port) (s : State) : Outcome :=
  .next (s.serve p 0x63#8 fun params => s.adminOnly p (s.removeWindow params))

/-- FREEZE after its NOT_ADMIN check (R112). -/
def State.freezeWindow (s : State) (params : List Byte) : State × Reply :=
  match readWindowAlone params with
  | none => (s, .bare .badParam)
  | some i =>
    match s.rights.window i with
    | .freezing _ => (s, .bare .frozen)
    | .frozen _ => (s, .bare .frozen)
    | .unused => (s, .bare .badParam)
    | .active d =>
      if s.rights.entry i ≠ .unwritten then (s, .bare .oneTimeUsed)
      else if s.persist.freePlaces = 0 then (s, .bare .persistFull)
      else if s.persist.engine.isFaulted then (s, .bare .persistFault)
      else
        let t := s.setWindow i (.freezing d)
        ({ t with persist := t.persist.enqueue t.nv (.freeze i d) }, .ok [])

/-- FREEZE (R112). -/
def execFreeze (p : Port) (s : State) : Outcome :=
  .next (s.serve p 0x64#8 fun params => s.adminOnly p (s.freezeWindow params))

/-- The answer to a WINDOWINFO (R110). -/
def State.windowinfoReply (s : State) (params : List Byte) : Reply :=
  match readWindowAlone params with
  | none => .bare .badParam
  | some i =>
    .ok ([(s.rights.window i).code, (s.rights.entry i).code] ++
      (match (s.rights.window i).definition with | some d => d.encode | none => []))

/-- WINDOWINFO (R110). -/
def execWindowinfo (p : Port) (s : State) : Outcome :=
  .next (s.serve p 0x65#8 fun params => (s, s.windowinfoReply params))

/-- The success of the FREEZE job of a window (R113). -/
def State.freezeSucceeds (s : State) (i : WindowId) (d : WindowDef) : State :=
  ((s.setEntryState i .valid).setWindow i (.frozen d)).deliverAdmins (.freezeDone i)

/-- The window after a failed freeze: a FREEZING window returns to ACTIVE with its definition (R114). -/
def Window.unfreeze : Window → Window
  | .freezing d => .active d
  | w => w

/-- The failure of the FREEZE job of a window (R114). -/
def State.freezeFails (s : State) (i : WindowId) : State :=
  ((s.setEntryState i .spoiled).setWindow i (s.rights.window i).unfreeze).deliverAdmins (.freezeFailed i)

/-- FREEZE_JOB_END (R147): the VERIFY of the FREEZE job in flight ends. Where no such phase is running, nothing ends
(log entry 5). -/
def execFreezeJobEnd (s : State) : Outcome :=
  match s.persist.engine.running with
  | none => .next s
  | some f =>
    match f.job, verifyOutcome s.nv f with
    | .freeze i d, some true => .next ((s.freezeSucceeds i d).endJob false)
    | .freeze i _, some false => .next ((s.freezeFails i).endJob false)
    | _, _ => .next s

end Sys2Proof.Machine
end

