-- ==== Sys2Proof/Machine/Apply.lean ====
section
/-! DEFINITION. The Apply Logic (chapter 4): the checks of an apply, the job count, and the effects. -/

namespace Sys2Proof.Machine

/-! ## The entry checks (R63 to R70) -/

/-- The right that an entry needs (R64). -/
def Change.need : Change → Right
  | .set _ _ => .stage
  | .create _ _ => .full
  | .retire _ => .full

/-- The first entry check: the effective right (R64). -/
def State.rightCheck (s : State) (p : Port) (e : Entry) : Option Result :=
  if s.rights.allows p e.key e.change.need then none else some .denied

/-- The second entry check for a SET or RETIRE: a LIVE slot holds the key (R65). -/
def State.presentCheck (s : State) (k : Nat) : Option Result :=
  match s.liveRecord k with
  | some _ => none
  | none => some .notFound

/-- The second entry check for a CREATE: no slot holds the key (R65). -/
def State.absentCheck (s : State) (k : Nat) : Option Result :=
  match s.liveRecord k with
  | some _ => some .alreadyExists
  | none => if s.keyDraining k then some .keyDraining else none

/-- The second entry check (R65). -/
def State.existenceCheck (s : State) (e : Entry) : Option Result :=
  match e.change with
  | .create _ _ => s.absentCheck e.key
  | _ => s.presentCheck e.key

/-- The expected generation that an entry carries (R38). -/
def Change.expect : Change → Option Nat
  | .set _ g => g
  | .create _ _ => none
  | .retire g => g

/-- The third entry check: the expected generation (R66). -/
def State.generationCheck (s : State) (k : Nat) (expect : Option Nat) : Option Result :=
  match expect, s.liveRecord k with
  | some g, some (_, r) => if g = r.generation then none else some .generation
  | _, _ => none

/-- A claim on the key is held by another port (R67). -/
def State.claimedByOther (s : State) (p : Port) (k : Nat) : Bool :=
  match s.claimOn k with
  | some e => e.holder != p
  | none => false

/-- The fourth entry check: the claim, on a SET or RETIRE (R67). -/
def State.claimCheck (s : State) (p : Port) (e : Entry) : Option Result :=
  match e.change with
  | .create _ _ => none
  | _ => if s.claimedByOther p e.key then some .claimed else none

/-- The fifth entry check: the value check at its place at apply (R68). -/
def State.valueCheck (s : State) (e : Entry) : Option Result :=
  match e.change with
  | .set v _ =>
    match s.liveRecord e.key with
    | some (_, r) => checkValue r.defn.constraints r.live v
    | none => none
  | .create d v => checkValue d.constraints (d.reference v) v
  | .retire _ => none

/-- The sixth entry check on a CREATE: quota and free slot, with the running totals, which are the classes of the
CREATE entries that have already passed (R69). -/
def State.roomCheck (s : State) (passed : List ClassId) (e : Entry) : Option Result :=
  match e.change with
  | .create d _ =>
    if (s.classDesc d.cls).quota ≤ (s.classDesc d.cls).count + passed.count d.cls then some .quota
    else if s.countSlots Slot.isFree ≤ passed.length then some .tableFull
    else none
  | _ => none

/-- The seventh entry check: the mode (R70). -/
def modeCheck (mode : Persistence) (e : Entry) : Option Result :=
  match mode, e.change with
  | .lasting, _ => none
  | .transient, .set _ _ => none
  | .transient, _ => some .mode

/-- The first failure of a list of checks, in their order. -/
def firstFailure (checks : List (Option Result)) : Option Result := checks.findSome? id

/-- The entry checks of one entry, in the order of R63. -/
def State.entryCheck (s : State) (p : Port) (mode : Persistence) (passed : List ClassId) (e : Entry) :
    Option Result :=
  firstFailure
    [s.rightCheck p e, s.existenceCheck e, s.generationCheck e.key e.change.expect, s.claimCheck p e,
      s.valueCheck e, s.roomCheck passed e, modeCheck mode e]

/-- The running totals after an entry has passed (R69). -/
def Change.addPassed (passed : List ClassId) : Change → List ClassId
  | .create d _ => d.cls :: passed
  | _ => passed

/-- The entry checks of the entries from index `i` on: the first failure, with its entry index (R63). -/
def State.entriesCheck (s : State) (p : Port) (mode : Persistence) :
    Nat → List ClassId → List Entry → Option (Result × Nat)
  | _, _, [] => none
  | i, passed, e :: rest =>
    match s.entryCheck p mode passed e with
    | some r => some (r, i)
    | none => State.entriesCheck s p mode (i + 1) (e.change.addPassed passed) rest

/-! ## The job count (R71) and the whole-changeset checks (R72) -/

/-- What a SET does to the persist queue (R71, R77). -/
inductive SetJob
  | none
  | update
  | queue
deriving DecidableEq, Repr

/-- The job of a SET of `v` on the record of slot `i` (the SET rows of R71). -/
def State.setJob (s : State) (mode : Persistence) (i : SlotId) (r : Record) (v : Value) : SetJob :=
  if mode = .transient || !r.isLasting then .none
  else if (s.persist.queuedWrite i).isSome then .update
  else if s.persist.writeInFlight i = false && r.stored == some v then .none
  else .queue

/-- The jobs that an entry adds and removes (R71). -/
def State.jobCount (s : State) (mode : Persistence) (e : Entry) : Nat × Nat :=
  match e.change with
  | .set v _ =>
    match s.liveRecord e.key with
    | some (i, r) => if s.setJob mode i r v = .queue then (1, 0) else (0, 0)
    | none => (0, 0)
  | .create d _ => if d.persistence = .lasting then (1, 0) else (0, 0)
  | .retire _ =>
    match s.liveRecord e.key with
    | some (i, r) =>
      if r.isLasting then (1, if (s.persist.queuedWrite i).isSome then 1 else 0) else (0, 0)
    | none => (0, 0)

/-- The sum of the net counts of all entries (R72). -/
def State.netJobs (s : State) (mode : Persistence) (es : List Entry) : Nat :=
  (es.map fun e => (s.jobCount mode e).1 - (s.jobCount mode e).2).sum

/-- Some entry adds a job (R72). -/
def State.addsJob (s : State) (mode : Persistence) (es : List Entry) : Bool :=
  es.any fun e => (s.jobCount mode e).1 != 0

/-- The whole-changeset checks: room, engine, apply number (R72). -/
def State.wholeCheck (s : State) (mode : Persistence) (es : List Entry) : Option Result :=
  if s.persist.freePlaces < s.netJobs mode es then some .persistFull
  else if s.persist.engine.isFaulted && s.addsJob mode es then some .persistFault
  else if Config.maxApplyNumber ≤ s.applyNumber then some .tableFull
  else none

/-- All the checks of an apply: the first failure, with its entry index (R63). -/
def State.applyCheck (s : State) (p : Port) (mode : Persistence) (es : List Entry) : Option (Result × Nat) :=
  match s.entriesCheck p mode 0 [] es with
  | some x => some x
  | none => (s.wholeCheck mode es).map fun r => (r, wholeIndex)

/-! ## The effects (R73 to R78) -/

/-- A job joins the persist queue (R139, R144). -/
def State.enqueue (s : State) (j : Job) : State := { s with persist := s.persist.enqueue s.nv j }

/-- The WRITE job of a record in slot `i`, as it stands, for the apply whose number is standing (R77). -/
def State.writeJob (s : State) (i : SlotId) (r : Record) : Job :=
  .slot (.write ⟨i, r.key, r.defn, r.live, s.applyNumber, s.applyNumber⟩)

/-- The job counted for a SET is carried out (R74 step 4, R77). -/
def State.runSetJob (s : State) (i : SlotId) (r : Record) : SetJob → State
  | .none => s
  | .update => { s with persist := s.persist.coalesce i r.live s.applyNumber }
  | .queue => s.enqueue (s.writeJob i r)

/-- A record after an applied SET (R74 steps 1 to 3). -/
def Record.afterSet (r : Record) (mode : Persistence) (v : Value) : Record :=
  { r with
    live := v
    generation := successor r.generation
    overridden := r.isLasting && mode == .transient }

/-- The effect of a SET entry (R74). -/
def State.runSet (s : State) (mode : Persistence) (k : Nat) (v : Value) : State :=
  match s.liveRecord k with
  | none => s
  | some (i, r) =>
    let r' := r.afterSet mode v
    ((s.setSlot i (.live r')).runSetJob i r' (s.setJob mode i r v)).deliverSet r.watchers
      (.changed k r'.generation)

/-- A new record (R75 step 2). -/
def newRecord (k : Nat) (d : Definition) (v : Value) : Record :=
  ⟨k, d, v, none, 1, false, false, .all false⟩

/-- The effect of a CREATE entry (R75). -/
def State.runCreate (s : State) (k : Nat) (d : Definition) (v : Value) : State :=
  match lowestSlot s.slots Slot.isFree with
  | none => s
  | some i =>
    let r := newRecord k d v
    let c := s.classDesc d.cls
    let t := (s.setSlot i (.live r)).setClass d.cls { c with count := c.count + 1 }
    (if d.persistence = .lasting then t.enqueue (t.writeJob i r) else t).deliverSet c.watchers (.created k)

/-- The ERASE job of a retire: it takes the first apply number of the WRITE it cancels (R77). -/
def State.eraseJob (s : State) (i : SlotId) (k : Nat) : Job :=
  .slot (.erase ⟨i, some k,
    some (((s.persist.queuedWrite i).map WriteJob.first).getD s.applyNumber, s.applyNumber)⟩)

/-- The slot and the jobs of a retired record (R76 steps 4 to 6). -/
def State.vacate (s : State) (i : SlotId) (r : Record) : State :=
  if r.isLasting then
    ({ s.setSlot i (.draining (some r.key)) with persist := s.persist.cancelWrite i }).enqueue
      (s.eraseJob i r.key)
  else s.setSlot i .free

/-- The effect of a RETIRE entry (R76). -/
def State.runRetire (s : State) (k : Nat) : State :=
  match s.liveRecord k with
  | none => s
  | some (i, r) =>
    let c := s.classDesc r.defn.cls
    (((s.setClass r.defn.cls { c with count := c.count - 1 }).voidClaim k).deliverSet
      (r.watchers.union c.watchers) (.retired k)).vacate i r

/-- The effect of one entry (R73). -/
def State.runEntry (mode : Persistence) (s : State) (e : Entry) : State :=
  match e.change with
  | .set v _ => s.runSet mode e.key v
  | .create d v => s.runCreate e.key d v
  | .retire _ => s.runRetire e.key

/-- The effects of an apply that has passed every check: the apply number rises, the entries' effects run in entry
order, and the durable mark is recomputed (R73). -/
def State.runApply (s : State) (mode : Persistence) (es : List Entry) : State :=
  (es.foldl (State.runEntry mode) { s with applyNumber := s.applyNumber + 1 }).remark

/-- An apply is carried out whole or refused whole: the state after it and its answer (R62, R73, R80). -/
def State.apply (s : State) (p : Port) (mode : Persistence) (es : List Entry) : State × Reply :=
  match s.applyCheck p mode es with
  | some (r, i) => (s, .refusedAt r i)
  | none => (s.runApply mode es, .ok (enc32 (s.applyNumber + 1)))

/-! ## Direct staging at depth 0 (R56) -/

/-- The answer to a direct command whose value has an encoding of the wrong size: the entry checks that come before the
value check, and then TYPE (R24, R56, R63). -/
def State.directMisencoded (s : State) (p : Port) (k : Nat) (creates : Bool) (expect : Option Nat) : Reply :=
  let before :=
    if creates then [s.absentCheck k]
    else [s.presentCheck k, s.generationCheck k expect, if s.claimedByOther p k then some .claimed else none]
  .refusedAt ((firstFailure before).getD .type) 0

/-- A direct command that has passed its right check is applied as a changeset of one entry in LASTING mode (R56). -/
def State.direct (s : State) (p : Port) (k : Nat) (ch : Change) : State × Reply := s.apply p .lasting [⟨k, ch⟩]

end Sys2Proof.Machine
end

