-- ==== Sys2Proof/Machine/StagingCommands.lean ====
section
/-! DEFINITION. The commands of the Staging Unit (chapter 3): BEGIN, SET, CREATE, RETIRE, DEFAULT, REVERT, COMMIT and
ABANDON. A staging command is staged at depth 1 to 4 and applied at once at depth 0. -/

namespace Sys2Proof.Machine

/-- BEGIN's effect and answer (R42). -/
def State.begin (s : State) (p : Port) : State × Reply :=
  if Config.maxDepth ≤ s.depth p then (s, .bare .depth)
  else
    let t := s.setStack p ([] :: s.stack p)
    (t, .ok (enc8 (t.depth p)))

/-- BEGIN (R42). -/
def execBeginChangeset (p : Port) (s : State) : Outcome :=
  .next (s.serve p 0x20#8 fun params => s.bareCommand params (s.begin p))

/-! ## SET (R45) -/

/-- SET at depth 1 to 4 (R43, R44, R45). -/
def State.stageSet (s : State) (p : Port) (top : Changeset) (lower : Stack) (params : List Byte) : State × Reply :=
  match readSet params with
  | none => (s, .bare .badParam)
  | some q =>
    if s.rights.allows p q.key .stage = false then (s, .bare .denied)
    else
      match (s.view p q.key).present with
      | .error r => (s, .bare r)
      | .ok (d, reference, record) =>
        if q.expect.isSome && record.isNone then (s, .bare .badParam)
        else
          match q.offered with
          | none => (s, .bare .type)
          | some v =>
            match checkValue d.constraints reference v with
            | some r => (s, .bare r)
            | none => s.stage p top lower q.key (.set v q.expect) []

/-- SET at depth 0 (R56). -/
def State.directSet (s : State) (p : Port) (params : List Byte) : State × Reply :=
  match readSet params with
  | none => (s, .refusedAt .badParam 0)
  | some q =>
    if s.rights.allows p q.key .stage = false then (s, .refusedAt .denied 0)
    else
      match q.offered with
      | none => (s, s.directMisencoded p q.key false q.expect)
      | some v => s.direct p q.key (.set v q.expect)

/-- SET (R45, R56). -/
def execSet (p : Port) (s : State) : Outcome :=
  .next (s.serve p 0x21#8 fun params =>
    match s.stack p with
    | [] => s.directSet p params
    | top :: lower => s.stageSet p top lower params)

/-! ## CREATE (R48) -/

/-- The code that refuses a CREATE of a key that is not absent: in the view, or through a DRAINING slot (R48). -/
def State.createRefusal (s : State) (p : Port) (k : Nat) : Option Result :=
  match s.view p k with
  | .staged _ _ => some .alreadyExists
  | .live _ _ _ => some .alreadyExists
  | .stale => some .keyPending
  | .retired => some .keyPending
  | .absent => if s.keyDraining k then some .keyDraining else none

/-- CREATE at depth 1 to 4 (R43, R48). -/
def State.stageCreate (s : State) (p : Port) (top : Changeset) (lower : Stack) (params : List Byte) :
    State × Reply :=
  match readCreate params with
  | none => (s, .bare .badParam)
  | some q =>
    if s.rights.allows p q.key .full = false then (s, .bare .denied)
    else
      match s.createRefusal p q.key with
      | some r => (s, .bare r)
      | none =>
        if q.defn.consistent = false then (s, .bare .badDefinition)
        else
          match q.choice with
          | none => (s, .bare .noDefault)
          | some none => (s, .bare .type)
          | some (some v) =>
            match checkValue q.defn.constraints (q.defn.reference v) v with
            | some r => (s, .bare r)
            | none => s.stage p top lower q.key (.create q.defn v) []

/-- CREATE at depth 0 (R56). -/
def State.directCreate (s : State) (p : Port) (params : List Byte) : State × Reply :=
  match readCreate params with
  | none => (s, .refusedAt .badParam 0)
  | some q =>
    if s.rights.allows p q.key .full = false then (s, .refusedAt .denied 0)
    else if q.defn.consistent = false then (s, .refusedAt .badDefinition 0)
    else
      match q.choice with
      | none => (s, .refusedAt .noDefault 0)
      | some none => (s, s.directMisencoded p q.key true none)
      | some (some v) => s.direct p q.key (.create q.defn v)

/-- CREATE (R48, R56). -/
def execCreate (p : Port) (s : State) : Outcome :=
  .next (s.serve p 0x22#8 fun params =>
    match s.stack p with
    | [] => s.directCreate p params
    | top :: lower => s.stageCreate p top lower params)

/-! ## RETIRE (R49) -/

/-- RETIRE at depth 1 to 4 (R43, R44, R49). -/
def State.stageRetire (s : State) (p : Port) (top : Changeset) (lower : Stack) (params : List Byte) :
    State × Reply :=
  match readRetire params with
  | none => (s, .bare .badParam)
  | some (k, expect) =>
    if s.rights.allows p k .full = false then (s, .bare .denied)
    else
      match (s.view p k).present with
      | .error r => (s, .bare r)
      | .ok (_, _, record) =>
        if expect.isSome && record.isNone then (s, .bare .badParam)
        else s.stage p top lower k (.retire expect) []

/-- RETIRE at depth 0 (R56). -/
def State.directRetire (s : State) (p : Port) (params : List Byte) : State × Reply :=
  match readRetire params with
  | none => (s, .refusedAt .badParam 0)
  | some (k, expect) =>
    if s.rights.allows p k .full = false then (s, .refusedAt .denied 0)
    else s.direct p k (.retire expect)

/-- RETIRE (R49, R56). -/
def execRetire (p : Port) (s : State) : Outcome :=
  .next (s.serve p 0x23#8 fun params =>
    match s.stack p with
    | [] => s.directRetire p params
    | top :: lower => s.stageRetire p top lower params)

/-! ## DEFAULT (R46) and REVERT (R47) -/

/-- The stored value from which a REVERT takes its value: that of a LIVE LASTING record (R36, R47). -/
def Record.revertValue (r : Record) : Option Value := if r.isLasting then r.stored else none

/-- A command resolved into a SET of `v`: its value check, and then the staging of the SET (R46, R47). -/
def State.stageResolved (s : State) (p : Port) (top : Changeset) (lower : Stack) (k : Nat) (d : Definition)
    (reference v : Value) : State × Reply :=
  match checkValue d.constraints reference v with
  | some r => (s, .bare r)
  | none => s.stage p top lower k (.set v none) (resolvedData v)

/-- DEFAULT at depth 1 to 4 (R35, R46). -/
def State.stageDefault (s : State) (p : Port) (top : Changeset) (lower : Stack) (params : List Byte) :
    State × Reply :=
  match readKeyAlone params with
  | none => (s, .bare .badParam)
  | some k =>
    if s.rights.allows p k .stage = false then (s, .bare .denied)
    else
      match (s.view p k).present with
      | .error r => (s, .bare r)
      | .ok (d, reference, _) =>
        match d.default with
        | none => (s, .bare .noDefault)
        | some v => s.stageResolved p top lower k d reference v

/-- DEFAULT at depth 0 (R35, R56). -/
def State.directDefault (s : State) (p : Port) (params : List Byte) : State × Reply :=
  match readKeyAlone params with
  | none => (s, .refusedAt .badParam 0)
  | some k =>
    if s.rights.allows p k .stage = false then (s, .refusedAt .denied 0)
    else
      match s.liveRecord k with
      | none => (s, .refusedAt .notFound 0)
      | some (_, r) =>
        match r.defn.default with
        | none => (s, .refusedAt .noDefault 0)
        | some v => s.direct p k (.set v none)

/-- DEFAULT (R46, R56). -/
def execDefault (p : Port) (s : State) : Outcome :=
  .next (s.serve p 0x24#8 fun params =>
    match s.stack p with
    | [] => s.directDefault p params
    | top :: lower => s.stageDefault p top lower params)

/-- REVERT at depth 1 to 4 (R36, R47). -/
def State.stageRevert (s : State) (p : Port) (top : Changeset) (lower : Stack) (params : List Byte) :
    State × Reply :=
  match readKeyAlone params with
  | none => (s, .bare .badParam)
  | some k =>
    if s.rights.allows p k .stage = false then (s, .bare .denied)
    else
      match (s.view p k).present with
      | .error r => (s, .bare r)
      | .ok (d, reference, record) =>
        match record.bind fun x => x.2.revertValue with
        | none => (s, .bare .noStored)
        | some v => s.stageResolved p top lower k d reference v

/-- REVERT at depth 0 (R36, R56). -/
def State.directRevert (s : State) (p : Port) (params : List Byte) : State × Reply :=
  match readKeyAlone params with
  | none => (s, .refusedAt .badParam 0)
  | some k =>
    if s.rights.allows p k .stage = false then (s, .refusedAt .denied 0)
    else
      match s.liveRecord k with
      | none => (s, .refusedAt .notFound 0)
      | some (_, r) =>
        match r.revertValue with
        | none => (s, .refusedAt .noStored 0)
        | some v => s.direct p k (.set v none)

/-- REVERT (R47, R56). -/
def execRevert (p : Port) (s : State) : Outcome :=
  .next (s.serve p 0x25#8 fun params =>
    match s.stack p with
    | [] => s.directRevert p params
    | top :: lower => s.stageRevert p top lower params)

/-! ## COMMIT and ABANDON -/

/-- The outermost COMMIT (R55): on OK the level-1 changeset is removed; a refused one stays as it was. -/
def State.commitOutermost (s : State) (p : Port) (mode : Persistence) (c : Changeset) : State × Reply :=
  match s.applyCheck p mode c with
  | some (r, i) => (s, .refusedAt r i)
  | none => ((s.runApply mode c).setStack p [], .ok (enc32 (s.applyNumber + 1)))

/-- A merging COMMIT (R53). -/
def State.merge (s : State) (p : Port) (top below : Changeset) (lower : Stack) : State × Reply :=
  let t := s.setStack p (mergeInto top below :: lower)
  (t, .ok (enc8 (t.depth p) ++ enc8 (mergeReturns top below)))

/-- COMMIT by the depth of the port (R52). -/
def State.commit (s : State) (p : Port) (params : List Byte) : State × Reply :=
  match readCommit params with
  | none => (s, .bare .badParam)
  | some mode =>
    match s.stack p with
    | [] => (s, .bare .noChangeset)
    | [c] => s.commitOutermost p mode c
    | top :: below :: lower => s.merge p top below lower

/-- COMMIT (R52). -/
def execCommit (p : Port) (s : State) : Outcome :=
  .next (s.serve p 0x26#8 fun params => s.commit p params)

/-- ABANDON's effect and answer (R54). -/
def State.abandon (s : State) (p : Port) : State × Reply :=
  match s.stack p with
  | [] => (s, .bare .noChangeset)
  | top :: lower =>
    let t := s.setStack p lower
    (t, .ok (enc8 (t.depth p) ++ enc8 top.length))

/-- ABANDON (R54). -/
def execAbandon (p : Port) (s : State) : Outcome :=
  .next (s.serve p 0x27#8 fun params => s.bareCommand params (s.abandon p))

end Sys2Proof.Machine
end

