-- ==== Sys2Proof/Machine/Scan.lean ====
section
/-! DEFINITION. The shared operations of the Start-up Controller (chapter 9): the clearing that begins every
start-up, and the scan that ends it. -/

namespace Sys2Proof.Machine

/-- A port from the clearing of a start-up onward (R166 step 3, R179). A frame being collected goes on, and is
marked as one during which a start-up began (R183). -/
def PortState.cleared (x : PortState) : PortState :=
  { x with
    line := x.line.map fun l => { l with startup := true }
    command := .idle
    frameErr := false
    refused := false
    started := true }

/-- Every volatile block cleared, the phase in flight cut, every port cleared (R166). The roles and windows stand at
the values that READY sets, and are not consulted before it (R116, log entry 3). -/
def State.clear (s : State) (cut : NvResult) : State where
  nv := s.cutNv cut
  slots := Vector.replicate _ .free
  classes := Vector.replicate _ .initial
  staged := .all []
  applyNumber := 0
  claims := []
  rights := .initial
  notices := .all (.normal [])
  persist := .initial
  startup := { s.startup with backlog := [] }
  ports := s.ports.map PortState.cleared
  vdd := s.vdd
  resetnLow := s.resetnLow
  pending := s.pending

/-- A start-up begins (R164, R166, R167). -/
def State.beginStartup (s : State) (cause : Cause) (entered : StartupState) (cut : NvResult) : State :=
  { s.clear cut with startup := ⟨entered, cause, []⟩ }

/-! ## The scan (R169 to R172) -/

/-- The record rebuilt from a cell (R170). -/
def CellCopy.restored (c : CellCopy) : Record :=
  ⟨c.key, ⟨c.cls, .lasting, c.constraints, c.default⟩, c.value, some c.value, 1, false, false, .all false⟩

/-- The provisional state of a slot (R169). A valid cell makes it LIVE whatever job the start-up cut, also where the rows of
R175 say FREE or DRAINING because the MARK of that cell, which failed unseen, is taken to have set its mark
(DEDUCED, log entry 28). -/
def CellPair.provisional (pr : CellPair) : Slot :=
  match pr.newest with
  | some (_, copy) => .live copy.restored
  | none => if pr.a = .erased ∧ pr.b = .erased then .free else .draining none

/-- A lower-numbered slot is provisionally LIVE with the key (R171). -/
def NvArray.heldBelow (nv : NvArray) (i : SlotId) (k : Nat) : Bool :=
  (List.finRange Config.slotCount).any fun j => decide (j.val < i.val) && (nv.pair j).provisional.holds k

/-- The state of a slot after the second stage: a duplicate of a key that a lower-numbered slot holds becomes DRAINING
with its key absent (R171). Where R175 says FREE or DRAINING of a pair that holds a valid copy, R169 is followed (DEDUCED,
log entry 28). -/
def NvArray.scannedSlot (nv : NvArray) (i : SlotId) : Slot :=
  match (nv.pair i).provisional with
  | .live r => if nv.heldBelow i r.key then .draining none else .live r
  | x => x

/-- The slots after the scan (R19). -/
def NvArray.scan (nv : NvArray) : Vector Slot Config.slotCount := Vector.ofFn nv.scannedSlot

/-- The slots that need clean-up, ascending: after the scan they are the DRAINING ones (R172). -/
def cleanupSlots (slots : Vector Slot Config.slotCount) : List SlotId :=
  (List.finRange Config.slotCount).filter fun i => slots[i.val].isDraining

/-- The slot is LIVE with a record of the class. -/
def Slot.inClass (c : ClassId) : Slot → Bool
  | .live r => r.defn.cls == c
  | _ => false

/-- The class descriptors after the scan (R176 step 2). -/
def scannedClasses (slots : Vector Slot Config.slotCount) : Vector ClassDesc Config.classCount :=
  Vector.ofFn fun c => ⟨Config.maxQuota, slots.toList.countP (Slot.inClass c), .all false⟩

/-- A window rebuilt from its one-time entry (R116). -/
def OneTime.window : OneTime → Window
  | .valid d => .frozen d
  | _ => .unused

/-- The state of an entry as the Rights Unit reads it (R116). -/
def OneTime.state : OneTime → EntryState
  | .unwritten => .unwritten
  | .valid _ => .valid
  | .spoiled => .spoiled

/-- The Rights Unit after the scan (R116, R176 step 1). -/
def NvArray.scannedRights (nv : NvArray) : Rights where
  roles := ⟨.admin, .editor, .editor⟩
  windows := Vector.ofFn fun i => (nv.entry i).window
  entries := Vector.ofFn fun i => (nv.entry i).state

/-- The scan ends and the part becomes READY (R172, R176). -/
def State.finishScan (s : State) : State :=
  let slots := s.nv.scan
  let need := cleanupSlots slots
  ({ s with
    slots := slots
    classes := scannedClasses slots
    staged := .all []
    applyNumber := 0
    claims := []
    rights := s.nv.scannedRights
    notices := .all (.normal [])
    persist := ⟨(need.take Config.scanCleanups).map cleanupJob, .idle, 0, .all none⟩
    startup := ⟨.running, s.startup.cause, need.drop Config.scanCleanups⟩ }).goOn

end Sys2Proof.Machine
end

