-- ==== Sys2Proof/Machine/StartupCommands.lean ====
section
/-! DEFINITION. The happenings of the Start-up Controller (chapter 9): RESTART, POWER_UP, POWER_LOSS, RESETN_ASSERT,
RESETN_RELEASE and READY. -/

namespace Sys2Proof.Machine

/-- RESTART (R165): a refusal is answered like any command; a RESTART that passes begins a start-up and has no
answer. -/
def execRestart (p : Port) (cut : NvResult) (s : State) : Outcome :=
  match (s.port p).command with
  | .working tag code params =>
    if code ≠ 0x6F#8 then .next s
    else if s.rights.roles.get p ≠ .admin then .next (s.placeAnswer p tag (.bare .notAdmin))
    else if params ≠ [] then .next (s.placeAnswer p tag (.bare .badParam))
    else .next (s.beginStartup .command .scanning cut)
  | _ => .next s

/-- A port that has lost VDD: its frame state goes on following CSn (R179). What a frame being collected has exchanged
is lost, and its next outgoing byte is the status byte formed anew (log entry 14). -/
def State.unpowered (s : State) (p : Port) : PortState :=
  { s.port p with line := (s.port p).line.map fun _ => .opened (s.statusByte p) true }

/-- A loss of VDD cuts the phase in flight and leaves only the NV Array (R164) and the levels of the pins. What the other
fields hold until VDD rises again is read by nothing (log entry 3). -/
def State.losePower (s : State) (cut : NvResult) : State :=
  let t := s.beginStartup s.startup.cause .held cut
  { t with ports := ⟨t.unpowered .p0, t.unpowered .p1, t.unpowered .p2⟩, vdd := false }

/-- POWER_UP (R164): HELD while RESETn is low, otherwise SCANNING. A POWER_UP while VDD is in range stands for a loss and
return of VDD (R166, R167, log entry 4). -/
def execPowerUp (cut : NvResult) (s : State) : Outcome :=
  .next { (s.losePower cut).beginStartup .power (if s.resetnLow then .held else .scanning) cut with vdd := true }

/-- POWER_LOSS (R164). -/
def execPowerLoss (cut : NvResult) (s : State) : Outcome :=
  if s.vdd then .next (s.losePower cut) else .next s

/-- RESETN_ASSERT (R164): RESETn falls low. With VDD out of range only the level of the pin changes; a pin that is low
already does not fall (log entry 5). -/
def execResetnAssert (cut : NvResult) (s : State) : Outcome :=
  if s.resetnLow then .next s
  else if s.vdd then .next { s.beginStartup .pin .held cut with resetnLow := true }
  else .next { s with resetnLow := true }

/-- RESETN_RELEASE (R164): RESETn returns high, and a part that is HELD with VDD in range begins the scan. -/
def execResetnRelease (s : State) : Outcome :=
  if s.vdd && s.startup.state == .held then
    .next { s with resetnLow := false, startup := { s.startup with state := .scanning } }
  else .next { s with resetnLow := false }

/-- READY (R176): the scan ends. A part that is not SCANNING has no scan to end (log entry 5). -/
def execReady (s : State) : Outcome :=
  if s.vdd && s.startup.state == .scanning then .next s.finishScan else .next s

end Sys2Proof.Machine
end

