-- ==== Sys2Proof/Machine/TableCommands.lean ====
section
/-! DEFINITION. The commands that the Record Table takes (chapter 1): GET, GETDEF, FIND and SETQUOTA. -/

namespace Sys2Proof.Machine

/-- GET with neither option: the live value (R15). -/
def State.getPlain (s : State) (k : Nat) : Reply :=
  match s.liveRecord k with
  | some (i, r) => s.getLive i r r.live
  | none => .bare .notFound

/-- GET with STORED (R15). A TRANSIENT record has no stored value at any time (R6). -/
def State.getStored (s : State) (k : Nat) : Reply :=
  match s.liveRecord k with
  | some (i, r) =>
    match r.isLasting, r.stored with
    | true, some v => s.getLive i r v
    | _, _ => .bare .noStored
  | none => .bare .notFound

/-- GET with VIEW: as the port's view shows the key (R15, R40). -/
def State.getView (s : State) (p : Port) (k : Nat) : Reply :=
  match s.view p k with
  | .staged d v => getStaged k d v
  | .live i r v => s.getLive i r v
  | .stale => .bare .notFound
  | .retired => .bare .keyPending
  | .absent => .bare .notFound

/-- The answer to a GET (R15). -/
def State.getReply (s : State) (p : Port) (params : List Byte) : Reply :=
  match readGet params with
  | none => .bare .badParam
  | some q =>
    if s.rights.allows p q.key .read = false then .bare .denied
    else if q.view then s.getView p q.key
    else if q.stored then s.getStored q.key
    else s.getPlain q.key

/-- GET (R15). -/
def execGet (p : Port) (s : State) : Outcome :=
  .next (s.serve p 0x10#8 fun params => (s, s.getReply p params))

/-- The answer to a GETDEF (R16). -/
def State.getdefReply (s : State) (p : Port) (params : List Byte) : Reply :=
  match readKeyAlone params with
  | none => .bare .badParam
  | some k =>
    if s.rights.allows p k .read = false then .bare .denied
    else
      match s.liveRecord k with
      | some (_, r) => .ok (encodeDefinition r.key r.defn)
      | none => .bare .notFound

/-- GETDEF (R16). -/
def execGetdef (p : Port) (s : State) : Outcome :=
  .next (s.serve p 0x11#8 fun params => (s, s.getdefReply p params))

/-- A record that a FIND may return (R17). -/
def State.findable (s : State) (p : Port) (start : Nat) (cls : Option ClassId) (r : Record) : Bool :=
  decide (start ≤ r.key) && (match cls with | none => true | some c => r.defn.cls == c) &&
    s.rights.allows p r.key .read

/-- The record of the smaller key. -/
def smallerKey : Option Record → Record → Option Record
  | none, r => some r
  | some x, r => if r.key < x.key then some r else some x

/-- The findable record of the smallest key (R17). -/
def State.findRecord (s : State) (p : Port) (start : Nat) (cls : Option ClassId) : Option Record :=
  ((s.slots.toList.filterMap Slot.record).filter (s.findable p start cls)).foldl smallerKey none

/-- The answer to a FIND (R17). -/
def State.findReply (s : State) (p : Port) (params : List Byte) : Reply :=
  match readFind params with
  | none => .bare .badParam
  | some (start, cls) =>
    match s.findRecord p start cls with
    | some r => .ok (enc16 r.key ++ enc8 r.defn.cls.val)
    | none => .bare .notFound

/-- FIND (R17). -/
def execFind (p : Port) (s : State) : Outcome :=
  .next (s.serve p 0x12#8 fun params => (s, s.findReply p params))

/-- SETQUOTA after its NOT_ADMIN check (R14). -/
def State.setQuota (s : State) (params : List Byte) : State × Reply :=
  match readQuota params with
  | none => (s, .bare .badParam)
  | some (c, quota) =>
    if quota < (s.classDesc c).count then (s, .bare .belowCount)
    else (s.setClass c { s.classDesc c with quota := quota }, .ok [])

/-- SETQUOTA (R14). -/
def execSetquota (p : Port) (s : State) : Outcome :=
  .next (s.serve p 0x60#8 fun params => s.adminOnly p (s.setQuota params))

end Sys2Proof.Machine
end

