-- ==== Sys2Proof/Machine/Dispatch.lean ====
section
/-! DEFINITION. The dispatch: one arm per row of spec/opcode_table.json, each one direct call of its meaning. -/

namespace Sys2Proof.Machine

/-- The effect of a command or happening on everything but the queue of those that wait. -/
def exec (i : Instr) (s : State) : Host.Outcome State Fault Refusal :=
  match i with
  | .poll p part => Sys2Proof.Machine.execPoll p part s
  | .fetch p part => Sys2Proof.Machine.execFetch p part s
  | .commandFrame p part => Sys2Proof.Machine.execCommandFrame p part s
  | .badCommand p => Sys2Proof.Machine.execBadCommand p s
  | .ident p => Sys2Proof.Machine.execIdent p s
  | .status p => Sys2Proof.Machine.execStatus p s
  | .ack p => Sys2Proof.Machine.execAck p s
  | .detach p => Sys2Proof.Machine.execDetach p s
  | .get p => Sys2Proof.Machine.execGet p s
  | .getdef p => Sys2Proof.Machine.execGetdef p s
  | .find p => Sys2Proof.Machine.execFind p s
  | .claiminfo p => Sys2Proof.Machine.execClaiminfo p s
  | .beginChangeset p => Sys2Proof.Machine.execBeginChangeset p s
  | .set p => Sys2Proof.Machine.execSet p s
  | .create p => Sys2Proof.Machine.execCreate p s
  | .retire p => Sys2Proof.Machine.execRetire p s
  | .default p => Sys2Proof.Machine.execDefault p s
  | .revert p => Sys2Proof.Machine.execRevert p s
  | .commit p => Sys2Proof.Machine.execCommit p s
  | .abandon p => Sys2Proof.Machine.execAbandon p s
  | .claim p => Sys2Proof.Machine.execClaim p s
  | .release p => Sys2Proof.Machine.execRelease p s
  | .watch p => Sys2Proof.Machine.execWatch p s
  | .unwatch p => Sys2Proof.Machine.execUnwatch p s
  | .watchclass p => Sys2Proof.Machine.execWatchclass p s
  | .unwatchclass p => Sys2Proof.Machine.execUnwatchclass p s
  | .nextnotice p => Sys2Proof.Machine.execNextnotice p s
  | .sync p => Sys2Proof.Machine.execSync p s
  | .pause p => Sys2Proof.Machine.execPause p s
  | .resume p => Sys2Proof.Machine.execResume p s
  | .clearfault p => Sys2Proof.Machine.execClearfault p s
  | .setquota p => Sys2Proof.Machine.execSetquota p s
  | .setrole p => Sys2Proof.Machine.execSetrole p s
  | .window p => Sys2Proof.Machine.execWindow p s
  | .unwindow p => Sys2Proof.Machine.execUnwindow p s
  | .freeze p => Sys2Proof.Machine.execFreeze p s
  | .windowinfo p => Sys2Proof.Machine.execWindowinfo p s
  | .restart p cut => Sys2Proof.Machine.execRestart p cut s
  | .tick target => Sys2Proof.Machine.execTick target s
  | .claimExpiry key => Sys2Proof.Machine.execClaimExpiry key s
  | .pauseLimitExpiry => Sys2Proof.Machine.execPauseLimitExpiry s
  | .phaseEnd result => Sys2Proof.Machine.execPhaseEnd result s
  | .writeCompletion => Sys2Proof.Machine.execWriteCompletion s
  | .eraseCompletion => Sys2Proof.Machine.execEraseCompletion s
  | .freezeJobEnd => Sys2Proof.Machine.execFreezeJobEnd s
  | .verifyMismatch => Sys2Proof.Machine.execVerifyMismatch s
  | .powerUp cut => Sys2Proof.Machine.execPowerUp cut s
  | .powerLoss cut => Sys2Proof.Machine.execPowerLoss cut s
  | .resetnAssert cut => Sys2Proof.Machine.execResetnAssert cut s
  | .resetnRelease => Sys2Proof.Machine.execResetnRelease s
  | .ready => Sys2Proof.Machine.execReady s

end Sys2Proof.Machine
end

