-- ==== Sys2Proof/Safety.lean ====
section
/-! DEFINITION. What a well-formed state of the part is, block by block, in the manual's words, and the terms in which
the claims speak of a command being taken. Each predicate is a law that the manual states of every state
the part can be in; the claims say that every step keeps it. -/

namespace Sys2Proof

/-- The port and the code of the command that a row stands for: the rows of section 10.8 that a block takes (R185).
BAD_COMMAND, which has no code of its own, the frames and the happenings are none of them. -/
def Instr.takenFrom : Instr → Option (Port × Byte)
  | .poll _ _ => none
  | .fetch _ _ => none
  | .commandFrame _ _ => none
  | .badCommand _ => none
  | .ident p => some (p, 0x01#8)
  | .status p => some (p, 0x02#8)
  | .ack p => some (p, 0x03#8)
  | .detach p => some (p, 0x04#8)
  | .get p => some (p, 0x10#8)
  | .getdef p => some (p, 0x11#8)
  | .find p => some (p, 0x12#8)
  | .claiminfo p => some (p, 0x13#8)
  | .beginChangeset p => some (p, 0x20#8)
  | .set p => some (p, 0x21#8)
  | .create p => some (p, 0x22#8)
  | .retire p => some (p, 0x23#8)
  | .default p => some (p, 0x24#8)
  | .revert p => some (p, 0x25#8)
  | .commit p => some (p, 0x26#8)
  | .abandon p => some (p, 0x27#8)
  | .claim p => some (p, 0x30#8)
  | .release p => some (p, 0x31#8)
  | .watch p => some (p, 0x40#8)
  | .unwatch p => some (p, 0x41#8)
  | .watchclass p => some (p, 0x42#8)
  | .unwatchclass p => some (p, 0x43#8)
  | .nextnotice p => some (p, 0x44#8)
  | .sync p => some (p, 0x50#8)
  | .pause p => some (p, 0x51#8)
  | .resume p => some (p, 0x52#8)
  | .clearfault p => some (p, 0x53#8)
  | .setquota p => some (p, 0x60#8)
  | .setrole p => some (p, 0x61#8)
  | .window p => some (p, 0x62#8)
  | .unwindow p => some (p, 0x63#8)
  | .freeze p => some (p, 0x64#8)
  | .windowinfo p => some (p, 0x65#8)
  | .restart p _ => some (p, 0x6F#8)
  | .tick _ => none
  | .claimExpiry _ => none
  | .pauseLimitExpiry => none
  | .phaseEnd _ => none
  | .writeCompletion => none
  | .eraseCompletion => none
  | .freezeJobEnd => none
  | .verifyMismatch => none
  | .powerUp _ => none
  | .powerLoss _ => none
  | .resetnAssert _ => none
  | .resetnRelease => none
  | .ready => none

end Sys2Proof

namespace Sys2Proof.Machine

/-! ## A command being taken -/

/-- Port `p` is WORKING on the command with this code and these parameters, whose answer will carry `tag` (R184). -/
def State.isWorkingOn (s : State) (p : Port) (tag code : Byte) (params : List Byte) : Prop :=
  (s.port p).command = .working tag code params

/-- `t` is `u` with the answer of port `p`'s command placed in its response buffer and with nothing else changed
(R185): every block other than the port is as it is in `u`. -/
def State.answers (u : State) (p : Port) (tag : Byte) (r : Result) (data : List Byte) : State :=
  { u with ports := u.ports.set p { u.ports.get p with command := .answered tag ⟨r, data⟩ false } }

/-- The codes of the admin-only commands (R103). -/
def adminCodes : List Byte :=
  [0x51#8, 0x52#8, 0x53#8, 0x60#8, 0x61#8, 0x62#8, 0x63#8, 0x64#8, 0x6F#8]

/-! ## The bytes of a command, as section 10.8 lays them out -/

/-- The bytes of a well-formed command frame (R182). -/
def commandFrameBytes (code tag : Byte) (params : List Byte) : List Byte :=
  let body := code :: tag :: (enc8 params.length ++ params)
  body ++ [crc8 body]

/-- What a host sends in a frame is a well-formed command frame (R182). -/
def isCommandFrame (bytes : List Byte) (partialByte : Bool) : Prop :=
  partialByte = false ∧ ∃ (code tag : Byte) (params : List Byte), params.length ≤ Config.maxParams ∧
    bytes = commandFrameBytes code tag params

/-- A value that its encoding can carry: the length of a TEXT stands in one byte. -/
def Value.fits : Value → Prop
  | .text bytes => bytes.length ≤ 255
  | _ => True

/-- Constraints whose encoding can carry them: the step of an INTEGER stands in two bytes, the count of an ENUM list and
the greatest length of a TEXT in one. -/
def Constraints.fits : Constraints → Prop
  | .integer _ _ (some step) => step ≤ 65535
  | .integer _ _ none => True
  | .enum codes => codes.length ≤ 255
  | .flags _ => True
  | .text n => n ≤ 255

/-- A definition whose layout can carry it: its constraints, and a default of the definition's type. Nothing is asked
of its consistency (R31). -/
def Definition.fits (d : Definition) : Prop :=
  d.constraints.fits ∧ ∀ v : Value, d.default = some v → v.fits ∧ v.type = d.constraints.type

/-- An expected generation that a command can carry, 1 to 65535 (R43 step 1). -/
def validExpect : Option Nat → Prop
  | none => True
  | some g => 1 ≤ g ∧ g ≤ 65535

/-- The option byte of a SET or RETIRE and the expected generation, where it carries one. -/
def expectBytes : Option Nat → List Byte
  | none => [0x00#8]
  | some g => 0x01#8 :: enc16 g

/-- The parameters of a SET with the bytes that stand for its value, of the right size for the type or not. -/
def setBytes (k : Nat) (expect : Option Nat) (ty : ValueType) (encoding : List Byte) : List Byte :=
  enc16 k ++ expectBytes expect ++ ty.code :: encoding

/-- The parameters of a SET. -/
def setParams (k : Nat) (expect : Option Nat) (v : Value) : List Byte := setBytes k expect v.type v.encode

/-- The parameters of a CREATE with the bytes that stand for its initial value, of the right size or not: bit 0 of the
option byte says that a default is present, bit 1 that an initial value is, bit 2 that a step is. -/
def createBytes (k : Nat) (d : Definition) (initial : Option (List Byte)) : List Byte :=
  enc16 k ++ enc8 d.cls.val ++
    [d.constraints.type.code, d.persistence.code,
      (if d.default.isSome then 0x01#8 else 0x00#8) ||| (if initial.isSome then 0x02#8 else 0x00#8) |||
        (if d.constraints.hasStep then 0x04#8 else 0x00#8)] ++
    d.constraints.encode ++ (d.default.map Value.encode).getD [] ++ initial.getD []

/-- The parameters of a CREATE. -/
def createParams (k : Nat) (d : Definition) (initial : Option Value) : List Byte :=
  createBytes k d (initial.map Value.encode)

/-- The parameters have the form of a SET (R43 step 1, R44): the layout, a key from 1 to 65534, an expected generation
that is not 0, no undefined option bit, and nothing missing or left over. -/
def isSetForm (params : List Byte) : Prop :=
  ∃ (k : Nat) (expect : Option Nat) (ty : ValueType) (encoding : List Byte),
    validKey k = true ∧ validExpect expect ∧ params = setBytes k expect ty encoding

/-- The parameters have the form of a CREATE (R31, R43 step 1). -/
def isCreateForm (params : List Byte) : Prop :=
  ∃ (k : Nat) (d : Definition) (initial : Option (List Byte)),
    validKey k = true ∧ d.fits ∧ params = createBytes k d initial

/-- The parameters have the form of a RETIRE (R43 step 1, R49). -/
def isRetireForm (params : List Byte) : Prop :=
  ∃ (k : Nat) (expect : Option Nat), validKey k = true ∧ validExpect expect ∧ params = enc16 k ++ expectBytes expect

/-- The parameters are a key alone: the form of a DEFAULT and of a REVERT (R43 step 1). -/
def isKeyForm (params : List Byte) : Prop := ∃ k : Nat, validKey k = true ∧ params = enc16 k

/-- The parameters of a WINDOW. -/
def windowParams (i : WindowId) (d : WindowDef) : List Byte :=
  enc8 i.val ++ enc16 d.lo ++ enc16 d.hi ++
    [if d.invert then 0x01#8 else 0x00#8, d.rights.p0.code, d.rights.p1.code, d.rights.p2.code]

/-- A lease is 1 to 60000 ticks (R84). -/
def validLease (n : Nat) : Prop := 1 ≤ n ∧ n ≤ Config.maxLease

/-- A window's definition: keys in range, lo not above hi (R107). -/
def WindowDef.wf (d : WindowDef) : Prop := validKey d.lo = true ∧ validKey d.hi = true ∧ d.lo ≤ d.hi

/-- The command has no parameters. -/
def isEmptyForm (params : List Byte) : Prop := params = []

/-- The form of a GET: a key, and one option or none, which may be omitted (R15). -/
def isGetForm (params : List Byte) : Prop :=
  ∃ (k : Nat) (options : List Byte), validKey k = true ∧ options ∈ [[], [0x00#8], [0x01#8], [0x02#8]] ∧
    params = enc16 k ++ options

/-- The form of a FIND: a starting key, and a class that may be omitted (R17). -/
def isFindForm (params : List Byte) : Prop :=
  ∃ (k : Nat) (cls : Option ClassId), validKey k = true ∧
    params = enc16 k ++ (match cls with | some c => enc8 c.val | none => [])

/-- The form of a CLAIM: a key, a lease, and WAIT, which may be omitted (R86). -/
def isClaimForm (params : List Byte) : Prop :=
  ∃ (k lease : Nat) (options : List Byte), validKey k = true ∧ validLease lease ∧
    options ∈ [[], [0x00#8], [0x01#8]] ∧ params = enc16 k ++ enc16 lease ++ options

/-- The form of a WATCHCLASS and of an UNWATCHCLASS: a class (R121). -/
def isClassForm (params : List Byte) : Prop := ∃ c : ClassId, params = enc8 c.val

/-- The form of a SYNC: an apply number (R160). -/
def isSyncForm (params : List Byte) : Prop := ∃ n : Nat, n ≤ 4294967295 ∧ params = enc32 n

/-- The form of a PAUSE: a limit of 1 to 10000 ticks (R153). -/
def isPauseForm (params : List Byte) : Prop := ∃ n : Nat, 1 ≤ n ∧ n ≤ 10000 ∧ params = enc16 n

/-- The form of a SETQUOTA: a class and a quota of 0 to 384 (R14). -/
def isQuotaForm (params : List Byte) : Prop :=
  ∃ (c : ClassId) (quota : Nat), quota ≤ 384 ∧ params = enc8 c.val ++ enc16 quota

/-- The form of a SETROLE: P1 or P2, and one of the three roles (R102). -/
def isRoleForm (params : List Byte) : Prop :=
  ∃ port role : Byte, port ∈ [0x01#8, 0x02#8] ∧ role ∈ [0x01#8, 0x02#8, 0x03#8] ∧ params = [port, role]

/-- The form of a WINDOW: an index and a definition (R108). -/
def isWindowForm (params : List Byte) : Prop :=
  ∃ (i : WindowId) (d : WindowDef), d.wf ∧ params = windowParams i d

/-- The form of an UNWINDOW, of a FREEZE and of a WINDOWINFO: an index (R109, R110, R112). -/
def isIndexForm (params : List Byte) : Prop := ∃ i : WindowId, params = enc8 i.val

/-- The form of a COMMIT: a mode, which may be omitted (R52). -/
def isCommitForm (params : List Byte) : Prop := params ∈ [[], [0x01#8], [0x02#8]]

/-! ## The CRC-8, as R182 puts it -/

/-- The bits of a byte, the most significant first. -/
def bitsOf (b : Byte) : List Bool := [7, 6, 5, 4, 3, 2, 1, 0].map b.getLsbD

/-- One bit taken into the register of the polynomial x⁸ + x² + x + 1. -/
def crcBit (r : Byte) (bit : Bool) : Byte := if r.msb != bit then (r <<< 1) ^^^ 0x07#8 else r <<< 1

/-- The register after these bits, from the initial value 0xFF. -/
def crcOfBits (bits : List Bool) : Byte := bits.foldl crcBit 0xFF#8

/-! ## Ports one by one -/

/-- The map with `f p` for each port `p`. -/
def PortMap.build {α : Type} (f : Port → α) : PortMap α := ⟨f .p0, f .p1, f .p2⟩

/-- A queue after a notice that is posted only where the condition holds. -/
def NoticeQueue.postIf (condition : Prop) [Decidable condition] (n : Notice) (q : NoticeQueue) : NoticeQueue :=
  if condition then q.post n else q

/-- Port `p` has a durability request that a mark reaches (R161). -/
def State.reached (s : State) (mark : Nat) (p : Port) : Bool :=
  match s.persist.requests.get p with
  | some n => decide (n ≤ mark)
  | none => false

/-- The requests that a mark leaves: those it does not reach (R161). -/
def State.requestsLeft (s : State) (mark : Nat) : PortMap (Option Nat) :=
  .build fun p => if s.reached mark p then none else s.persist.requests.get p

/-- The durable mark that these jobs and an apply number give (R159). -/
def markOf (jobs : List Job) (applyNumber : Nat) : Nat :=
  match (jobs.filterMap Job.firstApply).min? with
  | none => applyNumber
  | some n => n - 1

/-- The queue after a job has ended and the clean-up backlog has taken its place, where it is not empty (R142). -/
def State.queueAfterJob (s : State) : List Job :=
  s.persist.queue ++ (s.startup.backlog.head?.map cleanupJob).toList

/-- The part after the job in flight or in the fault record has ended (R142, R144): the backlog takes the place; an engine
that is PAUSING becomes PAUSED with no job, and any other takes the head job or is IDLE; where `marks` holds,
the durable mark is what the jobs left give, with the DURABLE notices it releases (R149, R161). -/
def State.jobEnded (s : State) (marks : Bool) : State :=
  let queue := s.queueAfterJob
  let mark := if marks then markOf queue s.applyNumber else s.persist.mark
  { s with
    persist :=
      { queue := match s.persist.engine with | .pausing _ _ => queue | _ => queue.tail
        engine :=
          match s.persist.engine, queue with
          | .pausing _ pz, _ => .paused none pz
          | _, [] => .idle
          | _, j :: _ => .busy (startAttempt s.nv j 1)
        mark := mark
        requests := if marks then s.requestsLeft mark else s.persist.requests }
    startup := { s.startup with backlog := s.startup.backlog.tail }
    notices := .build fun q =>
      (s.notices.get q).postIf (marks = true ∧ s.reached mark q = true) (.durable mark) }

/-- The slots with one slot changed by a function. -/
def State.slotsWith (s : State) (i : SlotId) (f : Slot → Slot) : Vector Slot Config.slotCount :=
  s.slots.set i.val (f (s.slot i))

/-! ## Start-up, as R166 puts it -/

/-- A port after the clearing of a start-up: IDLE with an empty buffer, FRAME_ERR and REFUSED 0, STARTED 1; a frame being
collected goes on and will be refused. -/
def PortState.afterClearing (x : PortState) : PortState :=
  { line := x.line.map fun l => { l with startup := true }
    command := .idle
    frameErr := false
    refused := false
    started := true
    sdo := x.sdo }

/-- The part when a start-up has begun (R166): the phase in flight cut, which runs in BUSY and in PAUSING and in no other state
(R143), every volatile block cleared, every port cleared.
Roles and windows are the values that the model holds until READY (log entry 3). -/
def State.begun (s : State) (cause : Cause) (entered : StartupState) (cut : NvResult) : State where
  nv :=
    match s.persist.engine with
    | .busy f => s.nv.cutPhase f cut
    | .pausing f _ => s.nv.cutPhase f cut
    | _ => s.nv
  slots := Vector.replicate _ .free
  classes := Vector.replicate _ ⟨384, 0, ⟨false, false, false⟩⟩
  staged := ⟨[], [], []⟩
  applyNumber := 0
  claims := []
  rights := .initial
  notices := ⟨.normal [], .normal [], .normal []⟩
  persist := ⟨[], .idle, 0, ⟨none, none, none⟩⟩
  startup := ⟨entered, cause, []⟩
  ports := .build fun p => (s.port p).afterClearing
  vdd := s.vdd
  resetnLow := s.resetnLow
  pending := s.pending

/-- The part with every frame that is being collected begun again where it stands: the ports whose CSn is low stay
COLLECTING (R179) with no byte received and the status byte 0x02 to send, READY 0 and STARTED 1. That the
bytes exchanged before are lost is log entry 14. -/
def State.framesRestarted (s : State) : State :=
  { s with ports := .build fun p => { s.port p with line := (s.port p).line.map fun _ => ⟨[], 0x02#8, none, true⟩ } }

/-! ## Staging, as R50 and R51 put it -/

/-- The changeset and entry index after a SET is placed: a new entry at the end, or combined with the entry for the
key in its position. A SET keeps its earlier expected generation; a CREATE keeps its definition. -/
def Changeset.placedSet (c : Changeset) (k : Nat) (v : Value) (expect : Option Nat) : Changeset × Nat :=
  match List.findIdx? (fun e => e.key == k) c with
  | none => (c ++ [⟨k, .set v expect⟩], c.length)
  | some i =>
    (List.modify c i fun e =>
      match e.change with
      | .create d _ => ⟨k, .create d v⟩
      | .set _ (some g) => ⟨k, .set v (some g)⟩
      | _ => ⟨k, .set v expect⟩, i)

/-- The changeset and entry index after a RETIRE is placed: a new entry at the end, the place of an earlier SET, or
both entries vanished and index 255. -/
def Changeset.placedRetire (c : Changeset) (k : Nat) (expect : Option Nat) : Changeset × Nat :=
  match List.findIdx? (fun e => e.key == k) c with
  | none => (c ++ [⟨k, .retire expect⟩], c.length)
  | some i =>
    match (Changeset.entryFor c k).map Entry.change with
    | some (.create _ _) => (List.eraseIdx c i, 255)
    | some (.set _ (some g)) => (List.set c i ⟨k, .retire (some g)⟩, i)
    | _ => (List.set c i ⟨k, .retire expect⟩, i)

/-- The changeset that a merge leaves (R53): the lower entries in their places, each combined with the top entry for
its key, and then the top entries whose keys the lower changeset does not hold. -/
def mergedChangeset (top below : Changeset) : Changeset :=
  (List.filterMap (fun e =>
    match Changeset.entryFor top e.key with
    | none => some e
    | some x =>
      match e.change, x.change with
      | .set _ g, .set v g' => some ⟨e.key, .set v (g.or g')⟩
      | .create d _, .set v _ => some ⟨e.key, .create d v⟩
      | .set _ g, .retire g' => some ⟨e.key, .retire (g.or g')⟩
      | .create _ _, .retire _ => none
      | _, new => some ⟨e.key, new⟩) below) ++
  List.filter (fun x => (Changeset.entryFor below x.key).isNone) top

/-! ## The apply, as chapter 4 puts it -/

/-- The code of the first check that fails: each check with whether it fails, in their order. -/
def firstFailing (checks : List (Bool × Result)) : Option Result := (checks.find? Prod.fst).map Prod.snd

/-- Another port holds the claim on the key (R67). -/
def State.heldByOther (s : State) (p : Port) (k : Nat) : Bool :=
  match s.claims.find? fun e => e.key == k with
  | some e => e.holder != p
  | none => false

/-- The generation of the LIVE record of the key is not the one expected (R66). -/
def State.unexpected (s : State) (k : Nat) (expect : Option Nat) : Bool :=
  match expect, s.liveRecord k with
  | some g, some (_, r) => g != r.generation
  | _, _ => false

/-- The checks of a SET or RETIRE entry that come before its value check, in the order of R63 (R64 to R67). -/
def State.earlyChecks (s : State) (p : Port) (need : Right) (k : Nat) (expect : Option Nat) : List (Bool × Result) :=
  [(!s.rights.allows p k need, .denied), ((s.liveRecord k).isNone, .notFound), (s.unexpected k expect, .generation),
    (s.heldByOther p k, .claimed)]

/-- A value check as one of the checks of an entry: whether it fails, and its code (R68). -/
def valueFailing (check : Option Result) : List (Bool × Result) := (check.map fun r => (true, r)).toList

/-- The CREATE entries among these, and those of them for one class (R69). -/
def creates (es : List Entry) : Nat := es.countP fun x => match x.change with | .create _ _ => true | _ => false

def createsOf (c : ClassId) (es : List Entry) : Nat :=
  es.countP fun x => match x.change with | .create d _ => d.cls == c | _ => false

/-- The code of the first entry check that an entry fails, in the order of R63; `before` are the entries before it, whose
CREATEs the quota and the free slots have gone to already (R69). -/
def State.entryFailure (s : State) (p : Port) (mode : Persistence) (before : List Entry) (e : Entry) : Option Result :=
  firstFailing
    (match e.change with
      | .set v expect =>
        s.earlyChecks p .stage e.key expect ++
          valueFailing ((s.liveRecord e.key).bind fun x => checkValue x.2.defn.constraints x.2.live v)
      | .retire expect => s.earlyChecks p .full e.key expect ++ [(mode == .transient, .mode)]
      | .create d v =>
        [(!s.rights.allows p e.key .full, .denied), ((s.liveRecord e.key).isSome, .alreadyExists),
          (s.keyDraining e.key, .keyDraining)] ++
        valueFailing (checkValue d.constraints (d.default.getD v) v) ++
        [(decide ((s.classDesc d.cls).quota < (s.classDesc d.cls).count + createsOf d.cls before + 1), .quota),
          (decide (s.countSlots Slot.isFree < creates before + 1), .tableFull), (mode == .transient, .mode)])

/-- The code and entry index that an apply is refused with (R62, R63, R72): of the first entry that fails a check, and
otherwise of the first check of the changeset as a whole that fails, with index 255. -/
def State.applyFailure (s : State) (p : Port) (mode : Persistence) (es : List Entry) : Option (Result × Nat) :=
  let net := (es.map fun e => (s.jobCount mode e).1 - (s.jobCount mode e).2).sum
  let refused := es.zipIdx.filterMap fun x => (s.entryFailure p mode (es.take x.2) x.1).map fun r => (r, x.2)
  match refused with
  | x :: _ => some x
  | [] =>
    (firstFailing [(decide (32 - s.persist.jobs.length < net), .persistFull),
      (s.persist.engine.isFaulted && es.any (fun e => (s.jobCount mode e).1 != 0), .persistFault),
      (decide (4294967295 ≤ s.applyNumber), .tableFull)]).map fun r => (r, 255)

/-- The job is a WRITE of the slot. -/
def Job.isWriteFor (i : SlotId) (j : Job) : Bool := (j.writeFor i).isSome

/-- The engine and its queue after a job has joined at the tail (R139): an IDLE engine takes the head job at once and an
attempt of it begins; any other engine is left as it is (R144). -/
def Persist.withJob (nv : NvArray) (pe : Persist) (j : Job) : Persist :=
  match pe.engine, pe.queue ++ [j] with
  | .idle, h :: rest => { pe with queue := rest, engine := .busy (startAttempt nv h 1) }
  | _, queue => { pe with queue := queue }

/-- The notice queues after a notice about a key has been posted to each port of which `f` holds and which has READ on the
key (R124, R125). -/
def State.posted (s : State) (f : Port → Bool) (k : Nat) (n : Notice) : PortMap NoticeQueue :=
  .build fun q => (s.notices.get q).postIf (f q = true ∧ s.rights.allows q k .read = true) n

/-- The part after the effect of a SET entry (R74), with the apply number already risen. A TRANSIENT apply sets OVERRIDDEN
of a LASTING record and leaves the engine and its queue as they were; a LASTING one clears OVERRIDDEN and
updates the waiting WRITE or queues another, unless there is nothing to write (R71, R77, R79). -/
def State.appliedSet (s : State) (mode : Persistence) (k : Nat) (v : Value) : State :=
  match s.liveRecord k with
  | none => s
  | some (i, r) =>
    let n := s.applyNumber
    let g := if r.generation = 65535 then 1 else r.generation + 1
    { s with
      slots := s.slots.set i.val (.live { r with
        live := v
        generation := g
        overridden := decide (r.defn.persistence = .lasting ∧ mode = .transient) })
      persist :=
        if mode = .transient ∨ r.defn.persistence = .transient then s.persist
        else if s.persist.queue.any (Job.isWriteFor i) then
          { s.persist with queue := s.persist.queue.map fun j =>
              match j with
              | .slot (.write w) => if w.slot = i then .slot (.write { w with value := v, last := n }) else j
              | _ => j }
        else if s.persist.engine.job.toList.any (Job.isWriteFor i) = false ∧ r.stored = some v then
          s.persist
        else s.persist.withJob s.nv (.slot (.write ⟨i, k, r.defn, v, n, n⟩))
      notices := s.posted r.watchers.get k (.changed k g) }

/-- The part after the effect of a CREATE entry (R75, R3): the record stands in the lowest-numbered FREE slot. -/
def State.appliedCreate (s : State) (k : Nat) (d : Definition) (v : Value) : State :=
  match (List.finRange 384).find? fun i => (s.slot i).isFree with
  | none => s
  | some i =>
    let n := s.applyNumber
    let c := s.classDesc d.cls
    { s with
      slots := s.slots.set i.val (.live ⟨k, d, v, none, 1, false, false, ⟨false, false, false⟩⟩)
      classes := s.classes.set d.cls.val { c with count := c.count + 1 }
      persist :=
        if d.persistence = .lasting then s.persist.withJob s.nv (.slot (.write ⟨i, k, d, v, n, n⟩)) else s.persist
      notices := s.posted c.watchers.get k (.created k) }

/-- The part after the effect of a RETIRE entry (R76, R77, R93): CLAIM_VOID to holder and waiters, then RETIRED to the
watchers of the record and of its class. -/
def State.appliedRetire (s : State) (k : Nat) : State :=
  match s.liveRecord k with
  | none => s
  | some (i, r) =>
    let n := s.applyNumber
    let c := s.classDesc r.defn.cls
    let first := match s.persist.queuedWrite i with | some w => w.first | none => n
    let voided := { s with notices := s.posted (fun q => s.claims.any fun e =>
      e.key == k && (e.holder == q || e.waiters.any fun w => w.port == q)) k (.claimVoid k) }
    { s with
      slots := s.slots.set i.val (if r.defn.persistence = .lasting then .draining (some k) else .free)
      classes := s.classes.set r.defn.cls.val { c with count := c.count - 1 }
      claims := s.claims.filter fun e => e.key != k
      persist :=
        if r.defn.persistence = .lasting then
          ({ s.persist with queue := s.persist.queue.filter fun j => !j.isWriteFor i }).withJob s.nv
            (.slot (.erase ⟨i, some k, some (first, n)⟩))
        else s.persist
      notices := voided.posted (fun q => r.watchers.get q || c.watchers.get q) k (.retired k) }

/-- The part after the effect of one entry (R73). -/
def State.appliedEntry (mode : Persistence) (s : State) (e : Entry) : State :=
  match e.change with
  | .set v _ => s.appliedSet mode e.key v
  | .create d v => s.appliedCreate e.key d v
  | .retire _ => s.appliedRetire e.key

/-- The part with the durable mark that its jobs and apply number give, and the requests it reaches ended with DURABLE
(R159, R161). -/
def State.marked (s : State) : State :=
  let mark := markOf s.persist.jobs s.applyNumber
  { s with
    persist := { s.persist with mark := mark, requests := s.requestsLeft mark }
    notices := .build fun q => (s.notices.get q).postIf (s.reached mark q = true) (.durable mark) }

/-- The part after an apply that passed its checks (R73): the apply number risen, every entry's effect in entry order,
and the mark recomputed. -/
def State.applied (s : State) (mode : Persistence) (es : List Entry) : State :=
  (es.foldl (State.appliedEntry mode) { s with applyNumber := s.applyNumber + 1 }).marked

/-! ## The Record Table -/

/-- No two LIVE slots hold the same key, and no key is held at once by a LIVE slot and a DRAINING slot (R4). -/
def State.keysUnique (s : State) : Prop :=
  ∀ (i j : SlotId) (k : Nat), i ≠ j → (s.slot i).holds k = true →
    (s.slot j).holds k = false ∧ (s.slot j).drains k = false

/-- Every LIVE record's generation is 1 to 65535 (R5, R7). -/
def State.generationsWf (s : State) : Prop :=
  ∀ (i : SlotId) (r : Record), s.slot i = .live r → 1 ≤ r.generation ∧ r.generation ≤ Config.maxGeneration

/-- The record of a class, as a slot shows it. -/
def Slot.hasClass (c : ClassId) (x : Slot) : Bool :=
  match x.record with
  | some r => r.defn.cls == c
  | none => false

/-- Every class count is the number of LIVE records of the class and is within the quota, which is at most 384 (R13). -/
def State.countsRight (s : State) : Prop :=
  ∀ c : ClassId, (s.classDesc c).count = s.countSlots (Slot.hasClass c) ∧
    (s.classDesc c).count ≤ (s.classDesc c).quota ∧ (s.classDesc c).quota ≤ Config.maxQuota

/-! ## The Staging Unit -/

/-- A changeset holds at most one entry for any one key (R37). -/
def Changeset.wf (c : Changeset) : Prop := (List.map Entry.key c).Nodup

/-- Every stack is at most four deep, every changeset holds at most one entry for a key, and the entries held leave no
less than none of the 64 (R37, R39). -/
def State.stagingWf (s : State) : Prop :=
  (∀ p : Port, s.depth p ≤ Config.maxDepth ∧ ∀ c ∈ s.stack p, Changeset.wf c) ∧ s.heldEntries ≤ Config.poolSize

/-! ## The Claim Table -/

/-- The fields of a claim entry: leases in range, the waiters distinct ports, none of them the holder (R84). -/
def ClaimEntry.wf (e : ClaimEntry) : Prop :=
  validLease e.remaining ∧ (e.waiters.map Waiter.port).Nodup ∧ e.holder ∉ e.waiters.map Waiter.port ∧
    ∀ w ∈ e.waiters, validLease w.lease

/-- At most 24 entries, no key in two of them, and each well-formed (R84). -/
def State.claimsWf (s : State) : Prop :=
  s.claims.length ≤ Config.claimEntries ∧ (s.claims.map ClaimEntry.key).Nodup ∧ ∀ e ∈ s.claims, e.wf

/-- Every claim entry names the key of a LIVE record (R84). -/
def State.claimsLive (s : State) : Prop :=
  ∀ e ∈ s.claims, ∃ i : SlotId, (s.slot i).holds e.key = true

/-! ## The Notice Unit -/

/-- The key of a CHANGED notice. -/
def Notice.changedKey : Notice → Option Nat
  | .changed k _ => some k
  | _ => none

/-- A queue holds at most 16 notices and at most one CHANGED for a key; a NORMAL queue holds no RESYNC notice (R126). -/
def NoticeQueue.wf : NoticeQueue → Prop
  | .resync => True
  | .normal l => l.length ≤ Config.noticeQueueSize ∧ (l.filterMap Notice.changedKey).Nodup ∧ Notice.resync ∉ l

/-- Every port's notice queue is well-formed (R126). -/
def State.noticesWf (s : State) : Prop := ∀ p : Port, (s.notices.get p).wf

/-! ## The Rights Unit -/

/-- The job is a FREEZE of the window. -/
def Job.isFreezeFor (i : WindowId) : Job → Bool
  | .freeze w _ => decide (w = i)
  | _ => false

/-- A FREEZING window has exactly one FREEZE job, which holds its definition, and no other window has one (R112 to R114);
a FROZEN window has a VALID one-time entry with its definition, in the Rights Unit and in the NV Array (R107, R111). -/
def State.freezesWf (s : State) : Prop :=
  ∀ i : WindowId,
    (s.persist.jobs.countP (Job.isFreezeFor i) =
      match s.rights.windows[i.val] with
      | .freezing _ => 1
      | _ => 0) ∧
    (∀ d : WindowDef, .freeze i d ∈ s.persist.jobs → s.rights.windows[i.val] = .freezing d) ∧
    (∀ d : WindowDef, s.rights.windows[i.val] = .frozen d →
      s.rights.entries[i.val] = .valid ∧ s.nv.entry i = .valid d)

/-- P0 is ADMIN at all times (R101). -/
def State.p0IsAdmin (s : State) : Prop := s.rights.roles.get .p0 = .admin

/-! ## The Persist Engine -/

/-- The jobs queued, in flight and in the fault record hold at most the 32 places (R139). -/
def State.placesWf (s : State) : Prop := s.persist.jobs.length ≤ Config.persistPlaces

/-- The slot is LIVE with a LASTING record. -/
def Slot.holdsLasting (x : Slot) : Bool :=
  match x.record with
  | some r => r.isLasting
  | none => false

/-- At most one not-started WRITE for any one slot (R139), and only for a slot that holds a LASTING record: a RETIRE
cancels the not-started WRITE of its slot (R76). -/
def State.writesWf (s : State) : Prop :=
  ∀ i : SlotId, s.persist.queue.countP (Job.isWriteFor i) ≤ 1 ∧
    (s.persist.queue.any (Job.isWriteFor i) = true → (s.slot i).holdsLasting = true)

/-- The job is an ERASE of the slot. -/
def Job.isEraseFor (i : SlotId) : Job → Bool
  | .slot (.erase e) => decide (e.slot = i)
  | _ => false

/-- Every DRAINING slot has exactly one ERASE job, queued, in flight, in the clean-up backlog or in the fault record, and
no other slot has one (R1). -/
def State.drainingHasJob (s : State) : Prop :=
  ∀ i : SlotId, s.persist.jobs.countP (Job.isEraseFor i) + s.startup.backlog.count i =
    if (s.slot i).isDraining then 1 else 0

/-- IDLE means that the queue is empty, and no port has a durability request while the engine is FAULTED (R143). -/
def State.engineWf (s : State) : Prop :=
  (s.persist.engine = .idle → s.persist.queue = []) ∧
    (s.persist.engine.isFaulted = true → ∀ p : Port, s.persist.requests.get p = none)

/-- The durable mark is what the jobs and the apply number give, and no job's first apply number is 0 or above the apply
number (R159). -/
def State.markWf (s : State) : Prop :=
  s.persist.mark = markOf s.persist.jobs s.applyNumber ∧
    ∀ n ∈ s.persist.jobs.filterMap Job.firstApply, 1 ≤ n ∧ n ≤ s.applyNumber

/-- The apply number is at most 4294967295 (R61). -/
def State.applyNumberWf (s : State) : Prop := s.applyNumber ≤ Config.maxApplyNumber

/-! ## Start-up -/

/-- The clean-up backlog: ascending, distinct, DRAINING slots (R173). -/
def State.backlogWf (s : State) : Prop :=
  s.startup.backlog.Pairwise (· < ·) ∧ ∀ i ∈ s.startup.backlog, s.slot i = .draining none

/-- While the part is HELD or SCANNING, or has no VDD, every port is IDLE, holds no answer and shows STARTED; no record,
class quota or count, class watch, staged entry, claim, notice, job or clean-up stands; and the apply number
and the mark are 0 (R166, R168). What roles and windows, and every field without VDD, hold then is log entry 3. -/
def State.clearedWf (s : State) : Prop :=
  s.running = false →
    (∀ p : Port, (s.port p).command = .idle ∧ (s.port p).started = true ∧ s.stack p = [] ∧
      s.notices.get p = .normal []) ∧
    (∀ i : SlotId, s.slot i = .free) ∧
    (∀ c : ClassId, s.classDesc c = ⟨384, 0, ⟨false, false, false⟩⟩) ∧
    s.startup.backlog = [] ∧
    s.claims = [] ∧ s.persist = Persist.initial ∧ s.applyNumber = 0 ∧ s.rights = Rights.initial

end Sys2Proof.Machine
end

