-- ==== Sys2Proof/Certificates/Slice0/Obligations.lean ====
section
/-! DEFINITION. The statements for the provers, in the order of OBLIGATIONS.json: the queue, the ports and their frames,
the Record Table, staging, the apply, claims, notices, the Persist Engine, rights, start-up, and the laws
that every step keeps. A conclusion `exec c s = .next t` with `t` written as an update of `s` says the whole
frame: what the update does not name is as it was. -/

open Sys2Proof Sys2Proof.Machine

/-! ## The queue -/

/-- A step carries out the command at the front of the queue on the state with the queue's rest. -/
def Obligations.StepTakesFront : Prop :=
  ∀ (s : State) (c : Instr) (rest : List Instr), s.pending = c :: rest →
    step s = exec c { s with pending := rest }

/-! ## Ports and frames -/

/-- POLL (R186): every byte of the frame carries the status byte, and nothing but the bytes that SDO carried changes.
The second clause is a POLL whose bytes are sent in pieces: a byte carries the status of the moment at which
it was formed (R180). -/
def Obligations.PollSendsStatus : Prop :=
  ∀ (s : State) (p : Port) (bytes : List Byte) (extra : Bool), s.vdd = true →
    ((s.port p).line = none →
      exec (.poll p (.whole bytes extra)) s =
        .next (s.setPort p { s.port p with sdo := List.replicate (bytes.length + 1) (s.statusByte p) })) ∧
    (∀ (l : Line) (b : Byte), (s.port p).line = some l → l.received.head? = some 0x00#8 → l.content = none →
      exec (.poll p (.next [b])) s =
        .next (s.setPort p { s.port p with
          line := some { l with received := l.received ++ [b], sending := s.statusByte p }
          sdo := (s.port p).sdo ++ [l.sending] }))

/-- The status byte, bit by bit (R189). -/
def Obligations.StatusByteBits : Prop :=
  ∀ (s : State) (p : Port),
    (s.statusByte p).getLsbD 7 = decide (s.startup.state = .running) ∧
    (s.statusByte p).getLsbD 6 = (match (s.port p).command with | .working _ _ _ => true | _ => false) ∧
    (s.statusByte p).getLsbD 5 = (match (s.port p).command with | .answered _ _ false => true | _ => false) ∧
    (s.statusByte p).getLsbD 4 = decide (s.notices.get p ≠ .normal []) ∧
    (s.statusByte p).getLsbD 3 = (s.port p).frameErr ∧
    (s.statusByte p).getLsbD 2 = (s.port p).refused ∧
    (s.statusByte p).getLsbD 1 = (s.port p).started ∧
    (s.statusByte p).getLsbD 0 = (match s.persist.engine with | .faulted _ => true | _ => false)

/-- FETCH (R187, R188): status byte, tag, result code, data length, data and CRC-8, then status bytes. The result codes are 0
to 37 in the order of the table of section 10.8, and the CRC-8 is the register of R182 after the bits of the
bytes, the most significant bit of each first. The fetched flag is set when at least m + 5 whole bytes were exchanged. A port that holds no answer sends tag 0, NO_RESPONSE, no data
and the CRC byte 0x14, and changes in nothing. In a frame sent in pieces the content is fixed at the end of byte
0; every later byte comes from it, whatever the port holds by then, and the flag is set only where it was an
answer, was sent whole, and an answer still stands. -/
def Obligations.FetchSendsAnswer : Prop :=
  [.ok, .waiting, .empty, .noResponse, .badCommand, .badParam, .denied, .notFound, .alreadyExists, .keyDraining,
    .keyPending, .type, .range, .notAllowed, .fixedBits, .tooLong, .noDefault, .noStored, .badDefinition, .depth,
    .stageFull, .noChangeset, .generation, .claimed, .notHeld, .claimFull, .quota, .tableFull, .persistFull,
    .persistFault, .mode, .pauseHeld, .notPaused, .frozen, .oneTimeUsed, .notFaulted, .belowCount,
    .notAdmin].map (fun r : Result => r.code.toNat) = List.range 38 ∧
  (∀ bytes : List Byte, crc8 bytes = crcOfBits (bytes.flatMap bitsOf)) ∧
  ∀ (s : State) (p : Port) (bytes : List Byte) (extra : Bool), s.vdd = true →
    let answer := fun (tag : Byte) (r : Reply) =>
      let body := tag :: r.result.code :: (enc8 r.data.length ++ r.data)
      body ++ [crc8 body]
    ((s.port p).line = none →
    (∀ (tag : Byte) (r : Reply) (fetched : Bool), (s.port p).command = .answered tag r fetched →
      exec (.fetch p (.whole bytes extra)) s =
        .next (s.setPort p { s.port p with
          command := .answered tag r (fetched || decide (r.data.length + 5 ≤ bytes.length + 1))
          sdo := s.statusByte p ::
            (answer tag r ++ List.replicate bytes.length (s.statusByte p)).take bytes.length })) ∧
    ((∀ (tag : Byte) (r : Reply) (fetched : Bool), (s.port p).command ≠ .answered tag r fetched) →
      exec (.fetch p (.whole bytes extra)) s =
        .next (s.setPort p { s.port p with
          sdo := s.statusByte p ::
            ([0x00#8, 0x03#8, 0x00#8, 0x14#8] ++ List.replicate bytes.length (s.statusByte p)).take
              bytes.length }))) ∧
    (∀ (content : FetchContent) (sending : Byte),
      (∃ (tag : Byte) (r : Reply) (fetched : Bool), (s.port p).command = .answered tag r fetched ∧
          content = ⟨answer tag r, true⟩ ∧ sending = tag) ∨
        (∀ (tag : Byte) (r : Reply) (fetched : Bool), (s.port p).command ≠ .answered tag r fetched) ∧
          content = ⟨[0x00#8, 0x03#8, 0x00#8, 0x14#8], false⟩ ∧ sending = 0x00#8 →
      ((s.port p).line = none →
        exec (.fetch p (.first [])) s = .next (s.setPort p { s.port p with
          line := some ⟨[0x05#8], sending, some content, false⟩
          sdo := [s.statusByte p] })) ∧
      (∀ l : Line, (s.port p).line = some l → l.received = [] →
        exec (.commandFrame p (.next [0x05#8])) s = .next (s.setPort p { s.port p with
          line := some ⟨[0x05#8], sending, some content, l.startup⟩
          sdo := (s.port p).sdo ++ [l.sending] }))) ∧
    (∀ (l : Line) (content : FetchContent), (s.port p).line = some l → l.received.head? = some 0x05#8 →
      l.content = some content →
      (∀ b : Byte, exec (.fetch p (.next [b])) s = .next (s.setPort p { s.port p with
        line := some { l with
          received := l.received ++ [b]
          sending := content.bytes.getD l.received.length (s.statusByte p) }
        sdo := (s.port p).sdo ++ [l.sending] })) ∧
      exec (.fetch p (.last [] extra)) s = .next (s.setPort p { s.port p with
        line := none
        command :=
          match (s.port p).command with
          | .answered tag r fetched =>
            .answered tag r (fetched || (content.isAnswer && decide (content.bytes.length + 1 ≤ l.received.length)))
          | c => c }))

/-- A command frame that is taken (R184), sent whole or ended after other happenings: the buffer is emptied, the tag
recorded, FRAME_ERR and REFUSED cleared, and the port is WORKING on the code and parameters. -/
def Obligations.CommandFrameTaken : Prop :=
  ∀ (s : State) (p : Port) (code tag : Byte) (params : List Byte), s.vdd = true →
    code ≠ 0x00#8 → code ≠ 0x05#8 → params.length ≤ 80 → s.startup.state = .running →
    ((s.port p).command = .idle ∨ ∃ (t : Byte) (r : Reply), (s.port p).command = .answered t r true) →
    ((s.port p).line = none →
      exec (.commandFrame p (.whole (commandFrameBytes code tag params) false)) s =
        .next (s.setPort p { s.port p with
          command := .working tag code params
          frameErr := false
          refused := false
          sdo := List.replicate (params.length + 4) (s.statusByte p) })) ∧
    (∀ l : Line, (s.port p).line = some l → l.received = commandFrameBytes code tag params → l.startup = false →
      exec (.commandFrame p (.last [] false)) s =
        .next (s.setPort p { s.port p with
          line := none
          command := .working tag code params
          frameErr := false
          refused := false }))

/-- A well-formed command frame that is refused (R183), sent whole or ended after other happenings: REFUSED becomes 1 and
the command, its answer and its flag stay as they were. -/
def Obligations.CommandFrameRefused : Prop :=
  ∀ (s : State) (p : Port) (code tag : Byte) (params : List Byte), s.vdd = true →
    code ≠ 0x00#8 → code ≠ 0x05#8 → params.length ≤ 80 →
    ((s.port p).line = none →
      (s.startup.state ≠ .running ∨ (∃ (t c : Byte) (ps : List Byte), (s.port p).command = .working t c ps) ∨
        ∃ (t : Byte) (r : Reply), (s.port p).command = .answered t r false) →
      exec (.commandFrame p (.whole (commandFrameBytes code tag params) false)) s =
        .next (s.setPort p { s.port p with
          refused := true
          sdo := List.replicate (params.length + 4) (s.statusByte p) })) ∧
    (∀ (l : Line), (s.port p).line = some l → l.received = commandFrameBytes code tag params →
      (l.startup = true ∨ s.startup.state ≠ .running ∨
        (∃ (t c : Byte) (ps : List Byte), (s.port p).command = .working t c ps) ∨
        ∃ (t : Byte) (r : Reply), (s.port p).command = .answered t r false) →
      exec (.commandFrame p (.last [] false)) s =
        .next (s.setPort p { s.port p with line := none, refused := true }))

/-- A command frame that is not well formed is dropped (R182), and so is a frame with no whole byte (R181), sent whole or
ended after other happenings: FRAME_ERR becomes 1 and nothing else of the port changes. While a command frame is
collected every byte sent carries the status byte of its moment. -/
def Obligations.CommandFrameMalformed : Prop :=
  ∀ (s : State) (p : Port) (bytes : List Byte) (extra : Bool), s.vdd = true →
    bytes.head? ≠ some 0x00#8 → bytes.head? ≠ some 0x05#8 →
    ((s.port p).line = none →
      (¬ isCommandFrame bytes extra → exec (.commandFrame p (.whole bytes extra)) s =
        .next (s.setPort p { s.port p with
          frameErr := true
          sdo := List.replicate bytes.length (s.statusByte p) })) ∧
      exec (.commandFrame p (.first bytes)) s =
        .next (s.setPort p { s.port p with
          line := some ⟨bytes, s.statusByte p, none, false⟩
          sdo := List.replicate bytes.length (s.statusByte p) })) ∧
    (∀ l : Line, (s.port p).line = some l → l.received = bytes → l.content = none →
      (¬ isCommandFrame bytes extra → exec (.commandFrame p (.last [] extra)) s =
        .next (s.setPort p { s.port p with line := none, frameErr := true })) ∧
      (∀ b : Byte, (bytes = [] → b ≠ 0x05#8) → exec (.commandFrame p (.next [b])) s =
        .next (s.setPort p { s.port p with
          line := some { l with received := bytes ++ [b], sending := s.statusByte p }
          sdo := (s.port p).sdo ++ [l.sending] })))

/-- Whatever a host sends, whole or in pieces, a frame reaches the state of its own port alone (R179), and a POLL or
FETCH frame changes neither FRAME_ERR nor REFUSED (R181), nor a POLL any state but the line. Pieces with nothing
taken between them come to the same as the frame whole. Without VDD only the frame state changes, as CSn does
(R179; that nothing received then is kept is log entry 14). -/
def Obligations.FrameTouchesOnlyItsPort : Prop :=
  ∀ (s : State) (p : Port) (part : FramePart),
    (∃ x : PortState, exec (.commandFrame p part) s = .next (s.setPort p x) ∧ x.started = (s.port p).started) ∧
    (∃ x : PortState, exec (.fetch p part) s = .next (s.setPort p x) ∧ x.started = (s.port p).started ∧
      x.frameErr = (s.port p).frameErr ∧ x.refused = (s.port p).refused) ∧
    (∃ (line : Option Line) (sdo : List Byte),
      exec (.poll p part) s = .next (s.setPort p { s.port p with line := line, sdo := sdo })) ∧
    (∀ (row : FramePart → Instr) (a b : List Byte) (extra : Bool) (t : State),
      row ∈ [Instr.poll p, Instr.fetch p, Instr.commandFrame p] →
      ((s.port p).line = none →
        (row = Instr.commandFrame p → a.head? ≠ some 0x00#8 ∧ a.head? ≠ some 0x05#8) →
        exec (row (.first a)) s = .next t →
        exec (row (.first (a ++ b))) s = exec (row (.next b)) t ∧
        exec (row (.whole a extra)) s = exec (row (.last [] extra)) t) ∧
      (∀ l : Line, (s.port p).line = some l → l.received ≠ [] → exec (row (.next a)) s = .next t →
        exec (row (.next (a ++ b))) s = exec (row (.next b)) t ∧
        exec (row (.last a extra)) s = exec (row (.last [] extra)) t)) ∧
    (s.vdd = false → ∀ row ∈ [Instr.poll p, Instr.fetch p, Instr.commandFrame p],
      (∀ (bytes : List Byte) (extra : Bool), (s.port p).line = none →
        exec (row (.whole bytes extra)) s = .next (s.setPort p { s.port p with sdo := [] }) ∧
        ∃ l : Line, l.received = [] ∧
          exec (row (.first bytes)) s = .next (s.setPort p { s.port p with line := some l, sdo := [] })) ∧
      (∀ (l : Line) (bytes : List Byte) (extra : Bool), (s.port p).line = some l →
        exec (row (.next bytes)) s = .next s ∧
        exec (row (.last bytes extra)) s = .next (s.setPort p { s.port p with line := none })))

/-- The taking of a command (R185): the answer is placed with the recorded tag, unfetched, no other port's state
changes, and STARTED changes by ACK alone. RESTART, which has no answer where it passes, is stated apart. A
block takes no command that the port has not passed on to it: that such a row leaves the state as it was is the
model's choice (log entry 5). -/
def Obligations.CommandAnswersItsPort : Prop :=
  ∀ (s : State) (c : Instr) (p : Port) (code : Byte), c.takenFrom = some (p, code) → code ≠ 0x6F#8 →
    (∀ (tag : Byte) (params : List Byte), s.isWorkingOn p tag code params →
      ∃ (t : State) (r : Reply), exec c s = .next t ∧
        t.ports = s.ports.set p { s.port p with
          command := .answered tag r false
          started := if code = 0x03#8 ∧ params = [] then false else (s.port p).started } ∧
        t.pending = s.pending ∧ t.vdd = s.vdd ∧ t.resetnLow = s.resetnLow ∧ t.nv = s.nv ∧
        t.startup.state = s.startup.state ∧ t.startup.cause = s.startup.cause) ∧
    ((∀ (tag : Byte) (params : List Byte), ¬ s.isWorkingOn p tag code params) → exec c s = .next s)

/-- A refused command changes nothing: whatever command a port is WORKING on, an answer other than OK and WAITING leaves
every block as it was, and the port with that answer (R80, R43, R86, R103). -/
def Obligations.RefusalChangesNothing : Prop :=
  ∀ (s t : State) (c : Instr) (p : Port) (code tag : Byte) (params : List Byte) (r : Reply),
    c.takenFrom = some (p, code) → s.isWorkingOn p tag code params → exec c s = .next t →
    (t.port p).command = .answered tag r false → r.result ≠ .ok → r.result ≠ .waiting →
    t = s.answers p tag r.result r.data

/-- The port commands: IDENT answers the constants of the part (R192), ACK clears STARTED (R190), and a code that names
no command is answered BAD_COMMAND (R185). Parameters that have not the form of their command (their length, their
keys, codes, options and ranges) are BAD_PARAM, after the NOT_ADMIN check of an admin-only one (R194 and the first
check of each command's own rule); the form step of SET, CREATE, RETIRE, DEFAULT and REVERT (R43 step 1, R31) answers
without data at depth 1 to 4 and with entry index 0 at depth 0 (R56). The last part is the codes and encodings of
section 10.8 in which the claims speak: numbers big-endian (R194), ports, rights, modes, types, values, constraints. -/
def Obligations.PortCommandsAnswered : Prop :=
  ∀ (s : State) (p : Port) (tag : Byte) (params : List Byte),
    (s.isWorkingOn p tag 0x01#8 params →
      (params = [] → exec (.ident p) s = .next (s.answers p tag .ok
        [0xA7#8, 0x41#8, 0x60#8, 0x01#8, 0x01#8, 0x80#8, 16#8, 64#8, 4#8, 24#8, 16#8, 32#8, 6#8, 80#8])) ∧
      (params ≠ [] → exec (.ident p) s = .next (s.answers p tag .badParam []))) ∧
    (s.isWorkingOn p tag 0x03#8 params →
      (params = [] → exec (.ack p) s =
        .next ((s.setPort p { s.port p with started := false }).answers p tag .ok [])) ∧
      (params ≠ [] → exec (.ack p) s = .next (s.answers p tag .badParam []))) ∧
    (∀ code : Byte, (∀ i : Instr, i.takenFrom ≠ some (p, code)) → code ≠ 0x00#8 → code ≠ 0x05#8 →
      s.isWorkingOn p tag code params → exec (.badCommand p) s = .next (s.answers p tag .badCommand [])) ∧
    (∀ (cut : NvResult) (c : Instr) (code : Byte) (form : List Byte → Prop), (c, code, form) ∈ [
        (.ident p, 0x01#8, isEmptyForm), (.status p, 0x02#8, isEmptyForm), (.ack p, 0x03#8, isEmptyForm),
        (.detach p, 0x04#8, isEmptyForm), (.get p, 0x10#8, isGetForm), (.getdef p, 0x11#8, isKeyForm),
        (.find p, 0x12#8, isFindForm), (.claiminfo p, 0x13#8, isKeyForm), (.beginChangeset p, 0x20#8, isEmptyForm),
        (.commit p, 0x26#8, isCommitForm), (.abandon p, 0x27#8, isEmptyForm), (.claim p, 0x30#8, isClaimForm),
        (.release p, 0x31#8, isKeyForm), (.watch p, 0x40#8, isKeyForm), (.unwatch p, 0x41#8, isKeyForm),
        (.watchclass p, 0x42#8, isClassForm), (.unwatchclass p, 0x43#8, isClassForm),
        (.nextnotice p, 0x44#8, isEmptyForm), (.sync p, 0x50#8, isSyncForm), (.pause p, 0x51#8, isPauseForm),
        (.resume p, 0x52#8, isEmptyForm), (.clearfault p, 0x53#8, isEmptyForm), (.setquota p, 0x60#8, isQuotaForm),
        (.setrole p, 0x61#8, isRoleForm), (.window p, 0x62#8, isWindowForm), (.unwindow p, 0x63#8, isIndexForm),
        (.freeze p, 0x64#8, isIndexForm), (.windowinfo p, 0x65#8, isIndexForm),
        (.restart p cut, 0x6F#8, isEmptyForm)] →
      s.isWorkingOn p tag code params → (code ∈ adminCodes → s.rights.roles.get p = .admin) →
      ¬ form params → exec c s = .next (s.answers p tag .badParam [])) ∧
    (∀ (c : Instr) (code : Byte) (form : List Byte → Prop), (c, code, form) ∈ [(.set p, 0x21#8, isSetForm),
        (.create p, 0x22#8, isCreateForm), (.retire p, 0x23#8, isRetireForm), (.default p, 0x24#8, isKeyForm),
        (.revert p, 0x25#8, isKeyForm)] →
      s.isWorkingOn p tag code params → ¬ form params →
      (s.stack p ≠ [] → exec c s = .next (s.answers p tag .badParam [])) ∧
      (s.stack p = [] → exec c s = .next (s.answers p tag .badParam [0x00#8]))) ∧
    (∀ n : Nat,
      (n ≤ 255 → ∃ b : Byte, enc8 n = [b] ∧ b.toNat = n) ∧
      (n ≤ 65535 → ∃ b1 b0 : Byte, enc16 n = [b1, b0] ∧ b1.toNat * 256 + b0.toNat = n) ∧
      (n ≤ 4294967295 → ∃ b3 b2 b1 b0 : Byte, enc32 n = [b3, b2, b1, b0] ∧
        ((b3.toNat * 256 + b2.toNat) * 256 + b1.toNat) * 256 + b0.toNat = n)) ∧
    [Port.p0, .p1, .p2].map portCode = [0x00#8, 0x01#8, 0x02#8] ∧
    [Right.none, .read, .stage, .full].map Right.code = [0x00#8, 0x01#8, 0x02#8, 0x03#8] ∧
    [Persistence.lasting, .transient].map Persistence.code = [0x01#8, 0x02#8] ∧
    [ValueType.integer, .enum, .flags, .text].map ValueType.code = [0x01#8, 0x02#8, 0x03#8, 0x04#8] ∧
    (∀ (x y : Word32) (n : Nat) (c : Byte) (bytes : List Byte),
      [Value.integer x, .enum c, .flags x, .text bytes].map (fun v => (v.type, v.encode)) =
        [(.integer, enc32 x.toNat), (.enum, [c]), (.flags, enc32 x.toNat), (.text, enc8 bytes.length ++ bytes)] ∧
      [Constraints.integer x y none, .integer x y (some n), .enum bytes, .flags x, .text n].map
          (fun k => (k.type, k.hasStep, k.encode)) =
        [(.integer, false, enc32 x.toNat ++ enc32 y.toNat), (.integer, true, enc32 x.toNat ++ enc32 y.toNat ++ enc16 n),
          (.enum, false, enc8 bytes.length ++ bytes), (.flags, false, enc32 x.toNat), (.text, false, enc8 n)])

/-- STATUS (R193): BAD_PARAM with parameters, and otherwise the 29 bytes of the picture of the part; nothing changes. -/
def Obligations.StatusReportsPart : Prop :=
  ∀ (s : State) (p : Port) (tag : Byte),
    (∀ params : List Byte, params ≠ [] → s.isWorkingOn p tag 0x02#8 params →
      exec (.status p) s = .next (s.answers p tag .badParam [])) ∧
    (s.isWorkingOn p tag 0x02#8 [] → exec (.status p) s = .next (s.answers p tag .ok (
      enc16 (s.countSlots Slot.isLive) ++ enc16 (s.countSlots Slot.isFree) ++
      enc16 (s.countSlots Slot.isDraining) ++ enc16 (s.countSlots Slot.isBroken) ++
      enc8 (64 - s.heldEntries) ++ enc8 s.claims.length ++ enc8 s.persist.queue.length ++
      enc16 s.startup.backlog.length ++
      (match s.persist.engine with
        | .idle => [0x00#8, 0xFF#8]
        | .busy _ => [0x01#8, 0xFF#8]
        | .pausing _ pz => [0x02#8, portCode pz.holder]
        | .paused _ pz => [0x03#8, portCode pz.holder]
        | .faulted _ => [0x04#8, 0xFF#8]) ++
      (match s.persist.engine with
        | .faulted (.write w) => 0x01#8 :: (enc16 w.slot.val ++ enc16 w.key)
        | .faulted (.erase e) => 0x02#8 :: (enc16 e.slot.val ++ enc16 (e.key.getD 0))
        | _ => [0x00#8, 0x00#8, 0x00#8, 0x00#8, 0x00#8]) ++
      enc32 s.applyNumber ++ enc32 s.persist.mark ++
      [match s.startup.cause with | .power => 0x01#8 | .pin => 0x02#8 | .command => 0x03#8]))) ∧
    s.countSlots Slot.isLive + s.countSlots Slot.isFree + s.countSlots Slot.isDraining +
      s.countSlots Slot.isBroken = 384

/-- DETACH (R191): BAD_PARAM with parameters, and otherwise the port's stack is emptied (R60), its claims are handed on or freed and its waits ended (R98), it
leaves every watch set and its notice queue is emptied (R134, R20), its durability request and a pause it
holds end (R163), and nothing else changes but its answer. CLAIM_GRANTED goes to each port that is granted a
claim; that several to one port come in the order of the claim list, oldest first, is the model's choice (log
entry 23), and so is that a flag set by a frame dropped after the DETACH frame was taken stays 1 (log entry 27). -/
def Obligations.DetachReturnsPort : Prop :=
  ∀ (s : State) (p : Port) (tag : Byte),
    (∀ params : List Byte, params ≠ [] → s.isWorkingOn p tag 0x04#8 params →
      exec (.detach p) s = .next (s.answers p tag .badParam [])) ∧
    (s.claimsWf → s.isWorkingOn p tag 0x04#8 [] → exec (.detach p) s = .next (State.answers { s with
      staged := s.staged.set p []
      claims := s.claims.filterMap fun e =>
        if e.holder = p then
          match e.waiters with
          | [] => none
          | w :: rest => some ⟨e.key, w.port, w.lease, rest⟩
        else some { e with waiters := e.waiters.filter fun w => w.port != p }
      slots := s.slots.map fun x =>
        match x with
        | .live r => .live { r with watchers := r.watchers.set p false }
        | y => y
      classes := s.classes.map fun d => { d with watchers := d.watchers.set p false }
      notices := .build fun q =>
        if q = p then .normal []
        else
          (s.claims.filter fun e => decide (e.holder = p) &&
              (e.waiters.head?.map Waiter.port == some q) && s.rights.allows q e.key .read).foldl
            (fun n e => n.post (.claimGranted e.key)) (s.notices.get q)
      persist :=
        let pe := { s.persist with requests := s.persist.requests.set p none }
        if s.persist.engine.pause.map Pause.holder = some p then pe.endPause s.nv else pe } p tag .ok []))

/-! ## The Record Table -/

/-- What the look-up of a key finds: a record that a LIVE slot holds under the key; nothing exactly where no LIVE slot
holds it; and, keys being unique (R4), the record wherever it stands. -/
def Obligations.LiveRecordIsTheRecord : Prop :=
  ∀ (s : State) (k : Nat),
    (∀ (i : SlotId) (r : Record), s.liveRecord k = some (i, r) → s.slot i = .live r ∧ r.key = k) ∧
    (s.liveRecord k = none ↔ ∀ (i : SlotId) (r : Record), s.slot i = .live r → r.key ≠ k) ∧
    (s.keysUnique → ∀ (i : SlotId) (r : Record), s.slot i = .live r → s.liveRecord r.key = some (i, r)) ∧
    (s.keyDraining k = true ↔ ∃ i : SlotId, s.slot i = .draining (some k))

/-- GET (R15): with neither option the live value, with STORED the stored value, with VIEW what the port's view shows; and
the refusals of each. The flags are LASTING, OVERRIDDEN, STALE, PENDING and stored-present, and the holder is
the reading of R10. -/
def Obligations.GetReturnsRecord : Prop :=
  ∀ (s : State) (p : Port) (tag : Byte) (k : Nat) (options : List Byte), k ≤ 65535 →
    s.isWorkingOn p tag 0x10#8 (enc16 k ++ options) →
    let record := fun (i : SlotId) (r : Record) (v : Value) =>
      enc16 r.key ++ enc16 r.generation ++
      [(if r.defn.persistence = .lasting then 0x01#8 else 0x00#8) |||
        (if r.overridden then 0x02#8 else 0x00#8) ||| (if r.stale then 0x04#8 else 0x00#8) |||
        (if s.persist.queue.any (Job.isWriteFor i) || s.persist.engine.job.toList.any (Job.isWriteFor i) then 0x08#8
          else 0x00#8) |||
        (if r.stored.isSome then 0x10#8 else 0x00#8),
        (match s.claims.find? fun e => e.key == r.key with
          | some e => portCode e.holder
          | none => 0xFF#8),
        v.type.code] ++ v.encode
    ((k = 0 ∨ k = 65535 ∨ ∃ o : Byte, options = [o] ∧ 3 ≤ o.toNat) → options.length ≤ 1 →
      exec (.get p) s = .next (s.answers p tag .badParam [])) ∧
    (1 ≤ k → k ≤ 65534 → options ∈ [[], [0x00#8], [0x01#8], [0x02#8]] →
      (s.rights.allows p k .read = false → exec (.get p) s = .next (s.answers p tag .denied [])) ∧
      (s.rights.allows p k .read = true →
        (options = [] ∨ options = [0x00#8] →
          (∀ (i : SlotId) (r : Record), s.liveRecord k = some (i, r) →
            exec (.get p) s = .next (s.answers p tag .ok (record i r r.live))) ∧
          (s.liveRecord k = none → exec (.get p) s = .next (s.answers p tag .notFound []))) ∧
        (options = [0x02#8] →
          (∀ (i : SlotId) (r : Record), s.liveRecord k = some (i, r) →
            (∀ v : Value, r.defn.persistence = .lasting → r.stored = some v →
              exec (.get p) s = .next (s.answers p tag .ok (record i r v))) ∧
            (r.defn.persistence = .transient ∨ r.stored = none →
              exec (.get p) s = .next (s.answers p tag .noStored []))) ∧
          (s.liveRecord k = none → exec (.get p) s = .next (s.answers p tag .notFound []))) ∧
        (options = [0x01#8] →
          (∀ (i : SlotId) (r : Record) (v : Value), s.view p k = .live i r v →
            exec (.get p) s = .next (s.answers p tag .ok (record i r v))) ∧
          (∀ (d : Definition) (v : Value), s.view p k = .staged d v →
            exec (.get p) s = .next (s.answers p tag .ok (enc16 k ++ enc16 0 ++
              [if d.persistence = .lasting then 0x01#8 else 0x00#8, 0xFF#8, v.type.code] ++ v.encode))) ∧
          (s.view p k = .retired → exec (.get p) s = .next (s.answers p tag .keyPending [])) ∧
          (s.view p k = .stale ∨ s.view p k = .absent →
            exec (.get p) s = .next (s.answers p tag .notFound [])))))

/-- GETDEF (R16) and FIND (R17): the definition of the LIVE record of a key, and the smallest key from a starting key on
that is LIVE, of the class asked for, and readable by the port. -/
def Obligations.GetdefAndFind : Prop :=
  ∀ (s : State) (p : Port) (tag : Byte) (k : Nat), k ≤ 65535 →
    (s.isWorkingOn p tag 0x11#8 (enc16 k) →
      (k = 0 ∨ k = 65535 → exec (.getdef p) s = .next (s.answers p tag .badParam [])) ∧
      (1 ≤ k → k ≤ 65534 →
        (s.rights.allows p k .read = false → exec (.getdef p) s = .next (s.answers p tag .denied [])) ∧
        (s.rights.allows p k .read = true →
          (∀ (i : SlotId) (r : Record), s.liveRecord k = some (i, r) →
            exec (.getdef p) s = .next (s.answers p tag .ok (enc16 k ++ enc8 r.defn.cls.val ++
              [r.defn.constraints.type.code, r.defn.persistence.code,
                (if r.defn.default.isSome then 0x01#8 else 0x00#8) |||
                  (if r.defn.constraints.hasStep then 0x04#8 else 0x00#8)] ++
              r.defn.constraints.encode ++
              (match r.defn.default with | some v => v.encode | none => [])))) ∧
          (s.liveRecord k = none → exec (.getdef p) s = .next (s.answers p tag .notFound []))))) ∧
    (∀ cls : Option ClassId,
      s.isWorkingOn p tag 0x12#8 (enc16 k ++ (match cls with | some c => enc8 c.val | none => [])) →
      let found := fun r : Record =>
        k ≤ r.key ∧ (∀ c, cls = some c → r.defn.cls = c) ∧ s.rights.allows p r.key .read = true
      (k = 0 ∨ k = 65535 → exec (.find p) s = .next (s.answers p tag .badParam [])) ∧
      (1 ≤ k → k ≤ 65534 →
        (∀ (i : SlotId) (r : Record), s.keysUnique → s.slot i = .live r → found r →
          (∀ (j : SlotId) (r' : Record), s.slot j = .live r' → found r' → r.key ≤ r'.key) →
          exec (.find p) s = .next (s.answers p tag .ok (enc16 r.key ++ enc8 r.defn.cls.val))) ∧
        ((∀ (i : SlotId) (r : Record), s.slot i = .live r → ¬ found r) →
          exec (.find p) s = .next (s.answers p tag .notFound [])))) ∧
    (∀ c : Byte, 16 ≤ c.toNat → s.isWorkingOn p tag 0x12#8 (enc16 k ++ [c]) →
      exec (.find p) s = .next (s.answers p tag .badParam []))

/-- The value check (R24 to R28): which values pass, and the code that each step gives; which bytes are an encoding of the
right size, and of which value (R24 step 1, R21); and which definitions are consistent (R32). -/
def Obligations.ValueCheckSteps : Prop :=
  (∀ (c : Constraints) (reference v : Value),
    (v.type ≠ c.type → checkValue c reference v = some .type) ∧
    (∀ (mn mx x : Word32) (step : Option Nat), c = .integer mn mx step → v = .integer x →
      ((mn.toInt ≤ x.toInt ∧ x.toInt ≤ mx.toInt ∧
          ∀ n : Nat, step = some n → ∃ j : Int, x.toInt = mn.toInt + j * n) →
        checkValue c reference v = none) ∧
      (¬ (mn.toInt ≤ x.toInt ∧ x.toInt ≤ mx.toInt ∧
          ∀ n : Nat, step = some n → ∃ j : Int, x.toInt = mn.toInt + j * n) →
        checkValue c reference v = some .range)) ∧
    (∀ (codes : List Byte) (x : Byte), c = .enum codes → v = .enum x →
      checkValue c reference v = if x ∈ codes then none else some .notAllowed) ∧
    (∀ (writable f g : Word32), c = .flags writable → v = .flags f → reference = .flags g →
      ((∀ i : Nat, i < 32 → writable.getLsbD i = false → f.getLsbD i = g.getLsbD i) →
        checkValue c reference v = none) ∧
      (¬ (∀ i : Nat, i < 32 → writable.getLsbD i = false → f.getLsbD i = g.getLsbD i) →
        checkValue c reference v = some .fixedBits)) ∧
    (∀ (n : Nat) (bytes : List Byte), c = .text n → v = .text bytes →
      checkValue c reference v = if bytes.length ≤ n then none else some .tooLong)) ∧
  (∀ (ty : ValueType) (bytes : List Byte) (v : Value),
    decodeValue ty bytes = some v ↔ v.type = ty ∧ v.fits ∧ bytes = v.encode) ∧
  (∀ (ty : ValueType) (bytes : List Byte), decodeValue ty bytes = none ↔
    match ty with
    | .integer => bytes.length ≠ 4
    | .enum => bytes.length ≠ 1
    | .flags => bytes.length ≠ 4
    | .text => ∀ (n : Byte) (rest : List Byte), bytes = n :: rest → rest.length ≠ n.toNat) ∧
  (∀ d : Definition, d.consistent = true ↔
    (match d.constraints with
      | .integer mn mx step => mn.toInt ≤ mx.toInt ∧ step ≠ some 0
      | .enum codes => 1 ≤ codes.length ∧ codes.length ≤ 8 ∧ codes.Nodup
      | .flags _ => True
      | .text n => 1 ≤ n ∧ n ≤ 32) ∧
    ∀ v : Value, d.default = some v → checkValue d.constraints v v = none)

/-! ## Staging -/

/-- The view of a port on a key (R40), row by row: the topmost entry decides, and a SET stands on the CREATE below it or
on the LIVE record. -/
def Obligations.ViewOfKey : Prop :=
  ∀ (s : State) (p : Port) (k : Nat),
    ((∀ c ∈ s.stack p, Changeset.entryFor c k = none) →
      (∀ (i : SlotId) (r : Record), s.liveRecord k = some (i, r) → s.view p k = .live i r r.live) ∧
      (s.liveRecord k = none → s.view p k = .absent)) ∧
    (∀ (above below : Stack) (c : Changeset) (ch : Change), s.stack p = above ++ c :: below →
      (∀ x ∈ above, Changeset.entryFor x k = none) → Changeset.entryFor c k = some ⟨k, ch⟩ →
      (∀ (d : Definition) (v : Value), ch = .create d v → s.view p k = .staged d v) ∧
      (∀ g : Option Nat, ch = .retire g → s.view p k = .retired) ∧
      (∀ (v : Value) (g : Option Nat), ch = .set v g →
        (∀ (mid low : Stack) (c' : Changeset) (d : Definition) (w : Value), below = mid ++ c' :: low →
          (∀ x ∈ mid, ∀ (d' : Definition) (w' : Value),
            Changeset.entryFor x k ≠ some ⟨k, .create d' w'⟩) →
          Changeset.entryFor c' k = some ⟨k, .create d w⟩ → s.view p k = .staged d v) ∧
        ((∀ x ∈ below, ∀ (d' : Definition) (w' : Value), Changeset.entryFor x k ≠ some ⟨k, .create d' w'⟩) →
          (∀ (i : SlotId) (r : Record), s.liveRecord k = some (i, r) → s.view p k = .live i r v) ∧
          (s.liveRecord k = none → s.view p k = .stale))))

/-- BEGIN (R42) and ABANDON (R54): a level more or a level less, and their refusals. ABANDON answers how many entries it
returned to the pool, which counts them free from then on. -/
def Obligations.BeginAndAbandon : Prop :=
  ∀ (s : State) (p : Port) (tag : Byte) (params : List Byte),
    (s.isWorkingOn p tag 0x20#8 params →
      (params ≠ [] → exec (.beginChangeset p) s = .next (s.answers p tag .badParam [])) ∧
      (params = [] → s.depth p ≤ 3 → exec (.beginChangeset p) s =
        .next (State.answers { s with staged := s.staged.set p ([] :: s.stack p) } p tag .ok
          (enc8 (s.depth p + 1)))) ∧
      (params = [] → 4 ≤ s.depth p → exec (.beginChangeset p) s = .next (s.answers p tag .depth []))) ∧
    (s.isWorkingOn p tag 0x27#8 params →
      (params ≠ [] → exec (.abandon p) s = .next (s.answers p tag .badParam [])) ∧
      (params = [] → s.stack p = [] → exec (.abandon p) s = .next (s.answers p tag .noChangeset [])) ∧
      (∀ (top : Changeset) (lower : Stack), params = [] → s.stack p = top :: lower →
        exec (.abandon p) s =
          .next (State.answers { s with staged := s.staged.set p lower } p tag .ok
            (enc8 lower.length ++ enc8 top.length)) ∧
        State.heldEntries { s with staged := s.staged.set p lower } + top.length = s.heldEntries))

/-- SET, DEFAULT and REVERT at depth 1 to 4 (R43 to R47, R50, R51): a value that passes its check against the record or the
staged CREATE that the view shows is placed in the top changeset, and nothing else changes. The answer gives
depth, entry index and free pool entries, and for DEFAULT and REVERT the resolved value. -/
def Obligations.StagedSetPlaced : Prop :=
  ∀ (s : State) (p : Port) (tag : Byte) (k : Nat) (top : Changeset) (lower : Stack),
    validKey k = true → s.stack p = top :: lower → s.rights.allows p k .stage = true →
    ((∃ e ∈ top, e.key = k) ∨ s.heldEntries < 64) →
    let placed := fun (v : Value) (expect : Option Nat) (resolved : List Byte) =>
      Host.Outcome.next (State.answers
        { s with staged := s.staged.set p ((Changeset.placedSet top k v expect).1 :: lower) } p tag .ok
        (enc8 (lower.length + 1) ++ enc8 (Changeset.placedSet top k v expect).2 ++
          enc8 (64 - (s.heldEntries + (Changeset.placedSet top k v expect).1.length - top.length)) ++ resolved))
    (∀ (v : Value) (expect : Option Nat), validExpect expect → v.fits →
      s.isWorkingOn p tag 0x21#8 (setParams k expect v) →
      ((∃ (i : SlotId) (r : Record) (w : Value), s.view p k = .live i r w ∧
          checkValue r.defn.constraints r.live v = none) ∨
        (∃ (d : Definition) (w : Value), s.view p k = .staged d w ∧ expect = none ∧
          checkValue d.constraints w v = none)) →
      exec (.set p) s = placed v expect []) ∧
    (∀ v : Value, s.isWorkingOn p tag 0x24#8 (enc16 k) →
      ((∃ (i : SlotId) (r : Record) (w : Value), s.view p k = .live i r w ∧ r.defn.default = some v ∧
          checkValue r.defn.constraints r.live v = none) ∨
        (∃ (d : Definition) (w : Value), s.view p k = .staged d w ∧ d.default = some v ∧
          checkValue d.constraints w v = none)) →
      exec (.default p) s = placed v none (v.type.code :: v.encode)) ∧
    (∀ (v : Value) (i : SlotId) (r : Record) (w : Value), s.isWorkingOn p tag 0x25#8 (enc16 k) →
      s.view p k = .live i r w → r.defn.persistence = .lasting → r.stored = some v →
      checkValue r.defn.constraints r.live v = none →
      exec (.revert p) s = placed v none (v.type.code :: v.encode))

/-- CREATE and RETIRE at depth 1 to 4 (R43, R48 to R51): a CREATE is placed as a new entry with the definition and the
value chosen (R33); a RETIRE takes a new entry, takes the place of a SET, or vanishes together with a CREATE.
Nothing else changes. -/
def Obligations.StagedCreateAndRetirePlaced : Prop :=
  ∀ (s : State) (p : Port) (tag : Byte) (k : Nat) (top : Changeset) (lower : Stack),
    validKey k = true → s.stack p = top :: lower → s.rights.allows p k .full = true → Changeset.wf top →
    ((∃ e ∈ top, e.key = k) ∨ s.heldEntries < 64) →
    (∀ (d : Definition) (initial : Option Value) (v : Value),
      s.isWorkingOn p tag 0x22#8 (createParams k d initial) → s.view p k = .absent → s.keyDraining k = false →
      d.consistent = true → d.constraints.fits →
      (initial = some v ∧ v.fits ∧ checkValue d.constraints (d.default.getD v) v = none ∨
        initial = none ∧ d.default = some v) →
      exec (.create p) s = .next (State.answers
        { s with staged := s.staged.set p ((top ++ [⟨k, .create d v⟩]) :: lower) } p tag .ok
        (enc8 (lower.length + 1) ++ enc8 top.length ++ enc8 (64 - (s.heldEntries + 1))))) ∧
    (∀ expect : Option Nat, validExpect expect → s.isWorkingOn p tag 0x23#8 (enc16 k ++ expectBytes expect) →
      ((∃ (i : SlotId) (r : Record) (w : Value), s.view p k = .live i r w) ∨
        (∃ (d : Definition) (w : Value), s.view p k = .staged d w ∧ expect = none)) →
      exec (.retire p) s = .next (State.answers
        { s with staged := s.staged.set p ((Changeset.placedRetire top k expect).1 :: lower) } p tag .ok
        (enc8 (lower.length + 1) ++ enc8 (Changeset.placedRetire top k expect).2 ++
          enc8 (64 - (s.heldEntries + (Changeset.placedRetire top k expect).1.length - top.length)))))

/-- The refusals of the staging commands in their order, after the form step (R43 step 1, stated with the port commands):
at depth 1 to 4 (R43, R44 to R49) the right, the key in the view, the command's own checks, with BAD_DEFINITION and
NO_DEFAULT of a CREATE, the value check, with TYPE for an encoding of the wrong size (R24), and room in the pool.
The last part is the direct SET, CREATE and RETIRE (R56): each refusal with the entry index of the apply's failing
check, and index 0 before it. That a misencoded direct value is refused by the earlier entry checks first is the
model's choice (log entry 24). -/
def Obligations.StagingRefusalsInOrder : Prop :=
  ∀ (s : State) (p : Port) (tag : Byte) (k : Nat), validKey k = true →
    let full := fun top : Changeset => (∀ e ∈ top, e.key ≠ k) ∧ 64 ≤ s.heldEntries
    let refused := fun (c : Instr) (r : Result) => exec c s = .next (s.answers p tag r [])
    let refusedAt := fun (c : Instr) (r : Result) (index : Nat) => exec c s = .next (s.answers p tag r (enc8 index))
    (∀ (c : Instr) (code : Byte) (need : Right) (params : List Byte),
      ((c, code, need) = (.set p, 0x21#8, .stage) ∧
          (∃ (expect : Option Nat) (ty : ValueType) (encoding : List Byte), validExpect expect ∧
            params = setBytes k expect ty encoding)) ∨
        ((c, code, need) ∈ [(.default p, 0x24#8, .stage), (.revert p, 0x25#8, .stage)] ∧ params = enc16 k) ∨
        ((c, code, need) = (.retire p, 0x23#8, .full) ∧
          (∃ expect : Option Nat, validExpect expect ∧ params = enc16 k ++ expectBytes expect)) →
      s.isWorkingOn p tag code params → s.stack p ≠ [] →
      (s.rights.allows p k need = false → refused c .denied) ∧
      (s.rights.allows p k need = true →
        (s.view p k = .retired → refused c .keyPending) ∧
        (s.view p k = .absent ∨ s.view p k = .stale → refused c .notFound))) ∧
    (∀ (top : Changeset) (lower : Stack), s.stack p = top :: lower → s.rights.allows p k .stage = true →
      (∀ (expect : Option Nat) (ty : ValueType) (encoding : List Byte), validExpect expect →
        s.isWorkingOn p tag 0x21#8 (setBytes k expect ty encoding) →
        (∀ (d : Definition) (w : Value), s.view p k = .staged d w →
          (expect ≠ none → refused (.set p) .badParam) ∧
          (expect = none →
            (decodeValue ty encoding = none → refused (.set p) .type) ∧
            (∀ v : Value, decodeValue ty encoding = some v →
              (∀ r : Result, checkValue d.constraints w v = some r → refused (.set p) r) ∧
              (checkValue d.constraints w v = none → full top → refused (.set p) .stageFull)))) ∧
        (∀ (i : SlotId) (x : Record) (w : Value), s.view p k = .live i x w →
          (decodeValue ty encoding = none → refused (.set p) .type) ∧
          (∀ v : Value, decodeValue ty encoding = some v →
            (∀ r : Result, checkValue x.defn.constraints x.live v = some r → refused (.set p) r) ∧
            (checkValue x.defn.constraints x.live v = none → full top → refused (.set p) .stageFull)))) ∧
      (∀ (d : Definition) (reference : Value),
        s.view p k = .staged d reference ∨
          (∃ (i : SlotId) (x : Record) (w : Value), s.view p k = .live i x w ∧ x.defn = d ∧ x.live = reference) →
        s.isWorkingOn p tag 0x24#8 (enc16 k) →
        (d.default = none → refused (.default p) .noDefault) ∧
        (∀ v : Value, d.default = some v →
          (∀ r : Result, checkValue d.constraints reference v = some r → refused (.default p) r) ∧
          (checkValue d.constraints reference v = none → full top → refused (.default p) .stageFull))) ∧
      (s.isWorkingOn p tag 0x25#8 (enc16 k) →
        (∀ (d : Definition) (w : Value), s.view p k = .staged d w → refused (.revert p) .noStored) ∧
        (∀ (i : SlotId) (x : Record) (w : Value), s.view p k = .live i x w →
          (x.defn.persistence = .transient ∨ x.stored = none → refused (.revert p) .noStored) ∧
          (∀ v : Value, x.defn.persistence = .lasting → x.stored = some v →
            (∀ r : Result, checkValue x.defn.constraints x.live v = some r → refused (.revert p) r) ∧
            (checkValue x.defn.constraints x.live v = none → full top → refused (.revert p) .stageFull))))) ∧
    (∀ (top : Changeset) (lower : Stack), s.stack p = top :: lower →
      (∀ expect : Option Nat, validExpect expect → s.isWorkingOn p tag 0x23#8 (enc16 k ++ expectBytes expect) →
        s.rights.allows p k .full = true →
        (∀ (d : Definition) (w : Value), s.view p k = .staged d w →
          (expect ≠ none → refused (.retire p) .badParam) ∧
          (expect = none → full top → refused (.retire p) .stageFull)) ∧
        (∀ (i : SlotId) (x : Record) (w : Value), s.view p k = .live i x w → full top →
          refused (.retire p) .stageFull)) ∧
      (∀ (d : Definition) (initial : Option (List Byte)), d.fits →
        s.isWorkingOn p tag 0x22#8 (createBytes k d initial) →
        (s.rights.allows p k .full = false → refused (.create p) .denied) ∧
        (s.rights.allows p k .full = true →
          ((∃ (i : SlotId) (x : Record) (w : Value), s.view p k = .live i x w) ∨
              (∃ (d' : Definition) (w : Value), s.view p k = .staged d' w) →
            refused (.create p) .alreadyExists) ∧
          (s.view p k = .retired ∨ s.view p k = .stale → refused (.create p) .keyPending) ∧
          (s.view p k = .absent →
            (s.keyDraining k = true → refused (.create p) .keyDraining) ∧
            (s.keyDraining k = false →
              (d.consistent = false → refused (.create p) .badDefinition) ∧
              (d.consistent = true →
                (initial = none → d.default = none → refused (.create p) .noDefault) ∧
                (∀ bytes : List Byte, initial = some bytes → decodeValue d.constraints.type bytes = none →
                  refused (.create p) .type) ∧
                (∀ v : Value, initial = none ∧ d.default = some v ∨
                    (∃ bytes : List Byte, initial = some bytes ∧
                      decodeValue d.constraints.type bytes = some v) →
                  (∀ r : Result, checkValue d.constraints (d.default.getD v) v = some r → refused (.create p) r) ∧
                  (checkValue d.constraints (d.default.getD v) v = none → full top →
                    refused (.create p) .stageFull)))))))) ∧
    (s.stack p = [] →
      (∀ (expect : Option Nat) (ty : ValueType) (encoding : List Byte), validExpect expect →
        s.isWorkingOn p tag 0x21#8 (setBytes k expect ty encoding) →
        (s.rights.allows p k .stage = false → refusedAt (.set p) .denied 0) ∧
        (s.rights.allows p k .stage = true → decodeValue ty encoding = none →
          refusedAt (.set p) ((firstFailing (s.earlyChecks p .stage k expect)).getD .type) 0) ∧
        (∀ (v : Value) (r : Result) (index : Nat), decodeValue ty encoding = some v →
          s.applyCheck p .lasting [⟨k, .set v expect⟩] = some (r, index) → refusedAt (.set p) r index)) ∧
      (∀ expect : Option Nat, validExpect expect → s.isWorkingOn p tag 0x23#8 (enc16 k ++ expectBytes expect) →
        (s.rights.allows p k .full = false → refusedAt (.retire p) .denied 0) ∧
        (∀ (r : Result) (index : Nat), s.applyCheck p .lasting [⟨k, .retire expect⟩] = some (r, index) →
          refusedAt (.retire p) r index)) ∧
      (∀ (d : Definition) (initial : Option (List Byte)), d.fits →
        s.isWorkingOn p tag 0x22#8 (createBytes k d initial) →
        (s.rights.allows p k .full = false → refusedAt (.create p) .denied 0) ∧
        (s.rights.allows p k .full = true →
          (d.consistent = false → refusedAt (.create p) .badDefinition 0) ∧
          (d.consistent = true →
            (initial = none → d.default = none → refusedAt (.create p) .noDefault 0) ∧
            (∀ bytes : List Byte, initial = some bytes → decodeValue d.constraints.type bytes = none →
              (s.liveRecord k ≠ none → refusedAt (.create p) .alreadyExists 0) ∧
              (s.liveRecord k = none → s.keyDraining k = true → refusedAt (.create p) .keyDraining 0) ∧
              (s.liveRecord k = none → s.keyDraining k = false → refusedAt (.create p) .type 0)) ∧
            (∀ (v : Value) (r : Result) (index : Nat),
              initial = none ∧ d.default = some v ∨
                (∃ bytes : List Byte, initial = some bytes ∧ decodeValue d.constraints.type bytes = some v) →
              s.applyCheck p .lasting [⟨k, .create d v⟩] = some (r, index) → refusedAt (.create p) r index)))))

/-- A merging COMMIT (R53): the top changeset is placed entry by entry into the one below it and removed, whatever mode is
given, and nothing else changes. What a pair of changes that R51 does not list combines to, where a stack holds
one, is the model's choice (log entry 6). -/
def Obligations.MergePlacesEntries : Prop :=
  ∀ (s : State) (p : Port) (tag : Byte) (params : List Byte) (top below : Changeset) (lower : Stack),
    s.isWorkingOn p tag 0x26#8 params → params ∈ [[], [0x01#8], [0x02#8]] →
    s.stack p = top :: below :: lower → Changeset.wf top → Changeset.wf below →
    exec (.commit p) s = .next (State.answers
      { s with staged := s.staged.set p (mergedChangeset top below :: lower) } p tag .ok
      (enc8 (lower.length + 1) ++ enc8 (top.length + below.length - (mergedChangeset top below).length)))

/-- COMMIT otherwise (R52, R55): a mode code that names no mode is BAD_PARAM at any depth, depth 0 is NO_CHANGESET, and at
depth 1 the changeset is applied whole and leaves the stack, or is refused whole with the code and entry index that
the checks give. The apply of any changeset, in either mode, is the effect of each entry in entry order, with the
apply number risen and the mark recomputed (R73 to R79). -/
def Obligations.OutermostCommitApplies : Prop :=
  ∀ (s : State) (p : Port) (tag : Byte) (params : List Byte), s.isWorkingOn p tag 0x26#8 params →
    (params ∉ [[], [0x01#8], [0x02#8]] → exec (.commit p) s = .next (s.answers p tag .badParam [])) ∧
    (params ∈ [[], [0x01#8], [0x02#8]] → s.stack p = [] →
      exec (.commit p) s = .next (s.answers p tag .noChangeset [])) ∧
    (∀ (mode : Persistence) (c : Changeset), params = [] ∧ mode = .lasting ∨ params = [mode.code] →
      s.stack p = [c] →
      (s.applyCheck p mode c = none →
        exec (.commit p) s = .next (State.answers ((s.runApply mode c).setStack p []) p tag .ok
          (enc32 (s.applyNumber + 1)))) ∧
      (∀ (r : Result) (index : Nat), s.applyCheck p mode c = some (r, index) →
        exec (.commit p) s = .next (s.answers p tag r (enc8 index)))) ∧
    (s.claimsWf → ∀ (mode : Persistence) (es : List Entry), s.runApply mode es = s.applied mode es)

/-! ## The apply -/

/-- An apply passes its checks exactly when every entry passes each of the seven entry checks (R64 to R70), with the
running totals of the CREATEs before it (R69), and the changeset as a whole passes the room, engine and apply
number checks (R72). Otherwise it is refused with the code of the first failing check, in the order of R63 and
R72, and with the index of the failing entry or 255. The last part is the job count of an entry (R71). -/
def Obligations.ApplyPassesExactlyWhen : Prop :=
  ∀ (s : State) (p : Port) (mode : Persistence) (es : List Entry),
    (s.applyCheck p mode es = none ↔
      (∀ (before after : List Entry) (e : Entry), es = before ++ e :: after →
        match e.change with
        | .set v g =>
          s.rights.allows p e.key .stage = true ∧ s.heldByOther p e.key = false ∧
          ∃ (i : SlotId) (r : Record), s.liveRecord e.key = some (i, r) ∧ (∀ n, g = some n → n = r.generation) ∧
            checkValue r.defn.constraints r.live v = none
        | .retire g =>
          s.rights.allows p e.key .full = true ∧ s.heldByOther p e.key = false ∧ mode = .lasting ∧
          ∃ (i : SlotId) (r : Record), s.liveRecord e.key = some (i, r) ∧ (∀ n, g = some n → n = r.generation)
        | .create d v =>
          s.rights.allows p e.key .full = true ∧ s.liveRecord e.key = none ∧ s.keyDraining e.key = false ∧
          mode = .lasting ∧ checkValue d.constraints (d.default.getD v) v = none ∧
          (s.classDesc d.cls).count + (before.countP fun x =>
            match x.change with | .create d' _ => d'.cls == d.cls | _ => false) < (s.classDesc d.cls).quota ∧
          (before.countP fun x => match x.change with | .create _ _ => true | _ => false) + 1 ≤
            s.countSlots Slot.isFree) ∧
      (es.map fun e => (s.jobCount mode e).1 - (s.jobCount mode e).2).sum ≤ 32 - s.persist.jobs.length ∧
      (s.persist.engine.isFaulted = true → ∀ e ∈ es, (s.jobCount mode e).1 = 0) ∧
      s.applyNumber < 4294967295) ∧
    s.applyCheck p mode es = s.applyFailure p mode es ∧
    (∀ e : Entry,
      (∀ (v : Value) (g : Option Nat) (i : SlotId) (r : Record), e.change = .set v g →
        s.liveRecord e.key = some (i, r) →
        s.jobCount mode e =
          if mode = .transient ∨ r.defn.persistence = .transient ∨
              s.persist.queue.any (Job.isWriteFor i) = true ∨
              (s.persist.engine.job.toList.any (Job.isWriteFor i) = false ∧ r.stored = some v)
          then (0, 0) else (1, 0)) ∧
      (∀ (d : Definition) (v : Value), e.change = .create d v →
        s.jobCount mode e = if d.persistence = .lasting then (1, 0) else (0, 0)) ∧
      (∀ (g : Option Nat) (i : SlotId) (r : Record), e.change = .retire g → s.liveRecord e.key = some (i, r) →
        s.jobCount mode e =
          if r.defn.persistence = .transient then (0, 0)
          else if s.persist.queue.any (Job.isWriteFor i) then (1, 1) else (1, 0)))

/-- A direct SET that passes the checks (R56, R74, R77, R78): live value, generation and OVERRIDDEN of the record, the job
that R71 counts, CHANGED to the watchers with READ, the apply number, and the durable mark with the DURABLE
notices it releases. Nothing else changes. -/
def Obligations.DirectSetApplied : Prop :=
  ∀ (s : State) (p : Port) (tag : Byte) (k : Nat) (expect : Option Nat) (v : Value) (i : SlotId) (r : Record),
    validKey k = true → validExpect expect → v.fits → s.stack p = [] →
    s.isWorkingOn p tag 0x21#8 (setParams k expect v) → s.liveRecord k = some (i, r) →
    s.applyCheck p .lasting [⟨k, .set v expect⟩] = none →
    let n := s.applyNumber + 1
    let g := if r.generation = 65535 then 1 else r.generation + 1
    let pe :=
      if r.defn.persistence = .transient then s.persist
      else if s.persist.queue.any (Job.isWriteFor i) then
        { s.persist with queue := s.persist.queue.map fun j =>
            match j with
            | .slot (.write w) => if w.slot = i then .slot (.write { w with value := v, last := n }) else j
            | _ => j }
      else if s.persist.engine.job.toList.any (Job.isWriteFor i) = false ∧ r.stored = some v then s.persist
      else s.persist.withJob s.nv (.slot (.write ⟨i, k, r.defn, v, n, n⟩))
    let mark := markOf pe.jobs n
    exec (.set p) s = .next (State.answers { s with
      slots := s.slots.set i.val (.live { r with live := v, generation := g, overridden := false })
      applyNumber := n
      persist := { pe with mark := mark, requests := s.requestsLeft mark }
      notices := .build fun q =>
        ((s.notices.get q).postIf (r.watchers.get q = true ∧ s.rights.allows q k .read = true)
          (.changed k g)).postIf (s.reached mark q = true) (.durable mark) } p tag .ok (enc32 n))

/-- A direct CREATE that passes the checks (R56, R75, R77, R78): the lowest FREE slot becomes LIVE with the new record, the
class count rises, a LASTING record gets a WRITE job, and CREATED goes to the class watchers with READ. -/
def Obligations.DirectCreateApplied : Prop :=
  ∀ (s : State) (p : Port) (tag : Byte) (k : Nat) (d : Definition) (initial : Option Value) (v : Value) (i : SlotId),
    validKey k = true → d.consistent = true → d.constraints.fits → s.stack p = [] →
    s.isWorkingOn p tag 0x22#8 (createParams k d initial) →
    (initial = some v ∧ v.fits ∧ v.type = d.constraints.type ∨ initial = none ∧ d.default = some v) →
    s.slot i = .free → (∀ j : SlotId, j < i → s.slot j ≠ .free) →
    s.applyCheck p .lasting [⟨k, .create d v⟩] = none →
    let n := s.applyNumber + 1
    let c := s.classDesc d.cls
    let pe :=
      if d.persistence = .lasting then s.persist.withJob s.nv (.slot (.write ⟨i, k, d, v, n, n⟩)) else s.persist
    let mark := markOf pe.jobs n
    exec (.create p) s = .next (State.answers { s with
      slots := s.slots.set i.val (.live ⟨k, d, v, none, 1, false, false, ⟨false, false, false⟩⟩)
      classes := s.classes.set d.cls.val { c with count := c.count + 1 }
      applyNumber := n
      persist := { pe with mark := mark, requests := s.requestsLeft mark }
      notices := .build fun q =>
        ((s.notices.get q).postIf (c.watchers.get q = true ∧ s.rights.allows q k .read = true)
          (.created k)).postIf (s.reached mark q = true) (.durable mark) } p tag .ok (enc32 n))

/-- A direct RETIRE that passes the checks (R56, R76 to R78, R93): the class count falls, the claim on the key is voided,
CLAIM_VOID and then RETIRED are posted to those with READ, and the slot becomes FREE, or DRAINING with an ERASE
job that takes the first apply number of the WRITE it cancels. -/
def Obligations.DirectRetireApplied : Prop :=
  ∀ (s : State) (p : Port) (tag : Byte) (k : Nat) (expect : Option Nat) (i : SlotId) (r : Record),
    s.claimsWf → validKey k = true → validExpect expect → s.stack p = [] →
    s.isWorkingOn p tag 0x23#8 (enc16 k ++ expectBytes expect) → s.liveRecord k = some (i, r) →
    s.applyCheck p .lasting [⟨k, .retire expect⟩] = none →
    let n := s.applyNumber + 1
    let c := s.classDesc r.defn.cls
    let first := match s.persist.queuedWrite i with | some w => w.first | none => n
    let pe :=
      if r.defn.persistence = .lasting then
        ({ s.persist with queue := s.persist.queue.filter fun j => !j.isWriteFor i }).withJob s.nv
          (.slot (.erase ⟨i, some k, some (first, n)⟩))
      else s.persist
    let mark := markOf pe.jobs n
    exec (.retire p) s = .next (State.answers { s with
      slots := s.slots.set i.val (if r.defn.persistence = .lasting then .draining (some k) else .free)
      classes := s.classes.set r.defn.cls.val { c with count := c.count - 1 }
      claims := s.claims.filter fun e => e.key != k
      applyNumber := n
      persist := { pe with mark := mark, requests := s.requestsLeft mark }
      notices := .build fun q =>
        (((s.notices.get q).postIf ((∃ e ∈ s.claims, e.key = k ∧ (e.holder = q ∨ q ∈ e.waiters.map Waiter.port)) ∧
            s.rights.allows q k .read = true) (.claimVoid k)).postIf
          ((r.watchers.get q = true ∨ c.watchers.get q = true) ∧ s.rights.allows q k .read = true)
          (.retired k)).postIf (s.reached mark q = true) (.durable mark) } p tag .ok (enc32 n))

/-- A direct DEFAULT and a direct REVERT (R56, R57, R35, R36) apply the value they are resolved into, the record's default
or its stored value, and leave the part just as a direct SET of that value does. Their refusals carry entry index
0: the right, the key, and the value that the record does not have; or they are those of the apply. -/
def Obligations.DirectDefaultRevertApplied : Prop :=
  ∀ (s : State) (p : Port) (tag : Byte) (k : Nat), validKey k = true → s.stack p = [] →
    (∀ (v : Value) (i : SlotId) (r : Record), v.fits → s.liveRecord k = some (i, r) →
      s.applyCheck p .lasting [⟨k, .set v none⟩] = none →
      let asSet := s.setPort p { s.port p with command := .working tag 0x21#8 (setParams k none v) }
      let t := State.answers (s.runApply .lasting [⟨k, .set v none⟩]) p tag .ok (enc32 (s.applyNumber + 1))
      exec (.set p) asSet = .next t ∧
      (s.isWorkingOn p tag 0x24#8 (enc16 k) → r.defn.default = some v → exec (.default p) s = .next t) ∧
      (s.isWorkingOn p tag 0x25#8 (enc16 k) → r.defn.persistence = .lasting → r.stored = some v →
        exec (.revert p) s = .next t)) ∧
    (∀ (c : Instr) (code : Byte), (c, code) ∈ [(.default p, 0x24#8), (.revert p, 0x25#8)] →
      s.isWorkingOn p tag code (enc16 k) →
      (s.rights.allows p k .stage = false → exec c s = .next (s.answers p tag .denied [0x00#8])) ∧
      (s.rights.allows p k .stage = true → s.liveRecord k = none →
        exec c s = .next (s.answers p tag .notFound [0x00#8]))) ∧
    (s.rights.allows p k .stage = true → ∀ (i : SlotId) (r : Record), s.liveRecord k = some (i, r) →
      (s.isWorkingOn p tag 0x24#8 (enc16 k) → r.defn.default = none →
        exec (.default p) s = .next (s.answers p tag .noDefault [0x00#8])) ∧
      (s.isWorkingOn p tag 0x25#8 (enc16 k) → r.defn.persistence = .transient ∨ r.stored = none →
        exec (.revert p) s = .next (s.answers p tag .noStored [0x00#8])) ∧
      (∀ (v : Value) (code : Result) (index : Nat),
        s.applyCheck p .lasting [⟨k, .set v none⟩] = some (code, index) →
        (s.isWorkingOn p tag 0x24#8 (enc16 k) → r.defn.default = some v →
          exec (.default p) s = .next (s.answers p tag code (enc8 index))) ∧
        (s.isWorkingOn p tag 0x25#8 (enc16 k) → r.defn.persistence = .lasting → r.stored = some v →
          exec (.revert p) s = .next (s.answers p tag code (enc8 index)))))

/-! ## Claims -/

/-- CLAIM (R86, R87): the refusals in their order, and the six rows of what the Claim Table holds for the key. -/
def Obligations.ClaimActs : Prop :=
  ∀ (s : State) (p : Port) (tag : Byte),
    (∀ (k lease : Nat) (options : List Byte), k ≤ 65535 → lease ≤ 65535 → options.length ≤ 1 →
      s.isWorkingOn p tag 0x30#8 (enc16 k ++ enc16 lease ++ options) →
      (k = 0 ∨ k = 65535 ∨ lease = 0 ∨ 60000 < lease ∨ ∃ o : Byte, options = [o] ∧ 2 ≤ o.toNat) →
      exec (.claim p) s = .next (s.answers p tag .badParam [])) ∧
    ∀ (k lease : Nat) (wait : Bool), validKey k = true → validLease lease →
    (s.isWorkingOn p tag 0x30#8 (enc16 k ++ enc16 lease ++ [if wait then 0x01#8 else 0x00#8]) ∨
      wait = false ∧ s.isWorkingOn p tag 0x30#8 (enc16 k ++ enc16 lease)) →
    (s.rights.allows p k .stage = false → exec (.claim p) s = .next (s.answers p tag .denied [])) ∧
    (s.rights.allows p k .stage = true → s.liveRecord k = none →
      exec (.claim p) s = .next (s.answers p tag .notFound [])) ∧
    (s.rights.allows p k .stage = true → s.liveRecord k ≠ none →
      ((∀ e ∈ s.claims, e.key ≠ k) → 24 ≤ s.claims.length →
        exec (.claim p) s = .next (s.answers p tag .claimFull [])) ∧
      ((∀ e ∈ s.claims, e.key ≠ k) → s.claims.length < 24 →
        exec (.claim p) s = .next (State.answers { s with claims := s.claims ++ [⟨k, p, lease, []⟩] } p tag .ok
          (enc16 lease))) ∧
      (∀ (a b : List ClaimEntry) (e : ClaimEntry), s.claims = a ++ e :: b → e.key = k →
        (∀ x ∈ a ++ b, x.key ≠ k) →
        (e.holder = p → exec (.claim p) s =
          .next (State.answers { s with claims := a ++ { e with remaining := lease } :: b } p tag .ok
            (enc16 lease))) ∧
        (e.holder ≠ p → wait = false →
          exec (.claim p) s = .next (s.answers p tag .claimed [portCode e.holder])) ∧
        (e.holder ≠ p → wait = true → p ∉ e.waiters.map Waiter.port → exec (.claim p) s =
          .next (State.answers { s with claims := a ++ { e with waiters := e.waiters ++ [⟨p, lease⟩] } :: b }
            p tag .waiting (enc8 (e.waiters.length + 1)))) ∧
        (∀ (u w : List Waiter) (x : Waiter), e.holder ≠ p → wait = true → e.waiters = u ++ x :: w → x.port = p →
          (∀ y ∈ u ++ w, y.port ≠ p) → exec (.claim p) s =
            .next (State.answers { s with claims := a ++ { e with waiters := u ++ ⟨p, lease⟩ :: w } :: b }
              p tag .waiting (enc8 (u.length + 1))))))

/-- RELEASE (R88, R89): the holder hands the claim to the first waiter, who is told by CLAIM_GRANTED where it has READ, or
frees the entry; a waiter leaves the list; any other port is NOT_HELD. RELEASE needs no right. -/
def Obligations.ReleaseActs : Prop :=
  ∀ (s : State) (p : Port) (tag : Byte) (k : Nat), k ≤ 65535 → s.isWorkingOn p tag 0x31#8 (enc16 k) →
    (k = 0 ∨ k = 65535 → exec (.release p) s = .next (s.answers p tag .badParam [])) ∧
    (validKey k = true →
      ((∀ e ∈ s.claims, e.key ≠ k) → exec (.release p) s = .next (s.answers p tag .notHeld [])) ∧
      (∀ (a b : List ClaimEntry) (e : ClaimEntry), s.claims = a ++ e :: b → e.key = k →
        (∀ x ∈ a ++ b, x.key ≠ k) →
        (e.holder = p → e.waiters = [] →
          exec (.release p) s = .next (State.answers { s with claims := a ++ b } p tag .ok [0xFF#8])) ∧
        (∀ (w : Waiter) (rest : List Waiter), e.holder = p → e.waiters = w :: rest →
          exec (.release p) s = .next (State.answers { s with
            claims := a ++ ⟨k, w.port, w.lease, rest⟩ :: b
            notices := s.notices.set w.port ((s.notices.get w.port).postIf
              (s.rights.allows w.port k .read = true) (.claimGranted k)) } p tag .ok [portCode w.port])) ∧
        (e.holder ≠ p → p ∈ e.waiters.map Waiter.port →
          exec (.release p) s = .next (State.answers { s with
            claims := a ++ { e with waiters := e.waiters.filter fun w => w.port != p } :: b } p tag .ok
            [portCode e.holder])) ∧
        (e.holder ≠ p → p ∉ e.waiters.map Waiter.port →
          exec (.release p) s = .next (s.answers p tag .notHeld []))))

/-- TICK at a claim entry (R85) and CLAIM_EXPIRY (R90): a lease above 1 falls by 1 and the waiters' leases stay; a lease of
1 runs out, with CLAIM_EXPIRED to the holder and the claim handed to the first waiter or freed. TICK at everything
reaches each entry and the pause limit, and each lease and limit that it finds at 1 runs out. The model's choices
here: that a lease or limit of 1 runs out also where it was set just before the tick (log entry 26), that TICK at
everything goes through the claim list oldest first and then to the pause limit (log entry 7), and that a TICK at a
key with no entry changes nothing (log entry 5). -/
def Obligations.LeaseCountsAndExpires : Prop :=
  ∀ (s : State) (k : Nat),
    ((∀ e ∈ s.claims, e.key ≠ k) → exec (.tick (.claim k)) s = .next s) ∧
    (∀ (a b : List ClaimEntry) (e : ClaimEntry), s.claims = a ++ e :: b → e.key = k →
      (∀ x ∈ a ++ b, x.key ≠ k) →
      (1 < e.remaining → exec (.tick (.claim k)) s =
        .next { s with claims := a ++ { e with remaining := e.remaining - 1 } :: b }) ∧
      (e.remaining = 1 → e.waiters = [] →
        let t := { s with
          claims := a ++ b
          notices := s.notices.set e.holder ((s.notices.get e.holder).postIf
            (s.rights.allows e.holder k .read = true) (.claimExpired k)) }
        exec (.tick (.claim k)) s = .next t ∧ exec (.claimExpiry k) s = .next t) ∧
      (∀ (w : Waiter) (rest : List Waiter), e.remaining = 1 → e.waiters = w :: rest → w.port ≠ e.holder →
        let t := { s with
          claims := a ++ ⟨k, w.port, w.lease, rest⟩ :: b
          notices := (s.notices.set e.holder ((s.notices.get e.holder).postIf
            (s.rights.allows e.holder k .read = true) (.claimExpired k))).set w.port
              ((s.notices.get w.port).postIf (s.rights.allows w.port k .read = true) (.claimGranted k)) }
        exec (.tick (.claim k)) s = .next t ∧ exec (.claimExpiry k) s = .next t)) ∧
    (s.claimsWf → exec (.tick .all) s = .next { s with
      claims := s.claims.filterMap fun e =>
        if e.remaining = 1 then
          match e.waiters with
          | [] => none
          | w :: rest => some ⟨e.key, w.port, w.lease, rest⟩
        else some { e with remaining := e.remaining - 1 }
      persist :=
        match s.persist.engine with
        | .pausing f pz =>
          if pz.limit = 1 then s.persist.endPause s.nv
          else { s.persist with engine := .pausing f { pz with limit := pz.limit - 1 } }
        | .paused w pz =>
          if pz.limit = 1 then s.persist.endPause s.nv
          else { s.persist with engine := .paused w { pz with limit := pz.limit - 1 } }
        | _ => s.persist
      notices := .build fun q =>
        (s.claims.foldl (fun queue e =>
          (queue.postIf (e.remaining = 1 ∧ e.holder = q ∧ s.rights.allows q e.key .read = true)
            (.claimExpired e.key)).postIf
              (e.remaining = 1 ∧ e.waiters.head?.map Waiter.port = some q ∧ s.rights.allows q e.key .read = true)
                (.claimGranted e.key)) (s.notices.get q)).postIf
          (s.persist.engine.pause = some ⟨q, 1⟩) (.pauseEnded .limit) })

/-- CLAIMINFO (R96): holder, remaining lease and waiters of the claim on a key, and its refusals in their order; nothing
changes. -/
def Obligations.ClaiminfoReturnsClaim : Prop :=
  ∀ (s : State) (p : Port) (tag : Byte) (k : Nat), k ≤ 65535 → s.isWorkingOn p tag 0x13#8 (enc16 k) →
    (k = 0 ∨ k = 65535 → exec (.claiminfo p) s = .next (s.answers p tag .badParam [])) ∧
    (validKey k = true →
      (s.rights.allows p k .read = false → exec (.claiminfo p) s = .next (s.answers p tag .denied [])) ∧
      (s.rights.allows p k .read = true →
        ((∀ e ∈ s.claims, e.key ≠ k) → exec (.claiminfo p) s = .next (s.answers p tag .notFound [])) ∧
        (∀ (a b : List ClaimEntry) (e : ClaimEntry), s.claims = a ++ e :: b → e.key = k →
          (∀ x ∈ a, x.key ≠ k) →
          exec (.claiminfo p) s = .next (s.answers p tag .ok (portCode e.holder :: (enc16 e.remaining ++
            enc8 e.waiters.length ++ e.waiters.flatMap fun w => portCode w.port :: enc16 w.lease))))))

/-! ## Notices -/

/-- WATCH and UNWATCH (R119, R120), WATCHCLASS and UNWATCHCLASS (R121): the port joins or leaves the watch set of the record
or class, WATCH answers the generation, and nothing else changes. -/
def Obligations.WatchCommands : Prop :=
  ∀ (s : State) (p : Port) (tag : Byte),
    (∀ k : Nat, k ≤ 65535 → ∀ c code, (c, code) ∈ [(Instr.watch p, 0x40#8), (Instr.unwatch p, 0x41#8)] →
      s.isWorkingOn p tag code (enc16 k) →
      (k = 0 ∨ k = 65535 → exec c s = .next (s.answers p tag .badParam [])) ∧
      (validKey k = true →
        (s.rights.allows p k .read = false → exec c s = .next (s.answers p tag .denied [])) ∧
        (s.rights.allows p k .read = true →
          (s.liveRecord k = none → exec c s = .next (s.answers p tag .notFound [])) ∧
          (∀ (i : SlotId) (r : Record), s.liveRecord k = some (i, r) →
            exec c s = .next (State.answers { s with
              slots := s.slots.set i.val (.live { r with watchers := r.watchers.set p (code == 0x40#8) }) } p tag
              .ok (if code = 0x40#8 then enc16 r.generation else [])))))) ∧
    (∀ b : Byte, ∀ c code, (c, code) ∈ [(Instr.watchclass p, 0x42#8), (Instr.unwatchclass p, 0x43#8)] →
      s.isWorkingOn p tag code [b] →
      (16 ≤ b.toNat → exec c s = .next (s.answers p tag .badParam [])) ∧
      (∀ i : ClassId, i.val = b.toNat →
        exec c s = .next (State.answers { s with
          classes := s.classes.set i.val { s.classDesc i with
            watchers := (s.classDesc i).watchers.set p (code == 0x42#8) } } p tag .ok [])))

/-- NEXTNOTICE (R130): the oldest notice leaves the queue and is answered in 8 bytes (R196); an empty queue answers EMPTY,
and a RESYNC queue answers RESYNC and becomes NORMAL and empty. -/
def Obligations.NextnoticeRemovesOldest : Prop :=
  ∀ (s : State) (p : Port) (tag : Byte), s.isWorkingOn p tag 0x44#8 [] →
    (s.notices.get p = .normal [] → exec (.nextnotice p) s = .next (s.answers p tag .empty [])) ∧
    (s.notices.get p = .resync → exec (.nextnotice p) s =
      .next (State.answers { s with notices := s.notices.set p (.normal []) } p tag .ok
        [0x0D#8, 0#8, 0#8, 0#8, 0#8, 0#8, 0#8, 0#8])) ∧
    (∀ (n : Notice) (rest : List Notice), s.notices.get p = .normal (n :: rest) → exec (.nextnotice p) s =
      .next (State.answers { s with notices := s.notices.set p (.normal rest) } p tag .ok
        (match n with
          | .changed k g => 0x01#8 :: (enc16 k ++ enc32 g ++ [0#8])
          | .created k => 0x02#8 :: (enc16 k ++ enc32 0 ++ [0#8])
          | .retired k => 0x03#8 :: (enc16 k ++ enc32 0 ++ [0#8])
          | .claimGranted k => 0x04#8 :: (enc16 k ++ enc32 0 ++ [0#8])
          | .claimExpired k => 0x05#8 :: (enc16 k ++ enc32 0 ++ [0#8])
          | .claimVoid k => 0x06#8 :: (enc16 k ++ enc32 0 ++ [0#8])
          | .durable m => 0x07#8 :: (enc16 0 ++ enc32 m ++ [0#8])
          | .notDurable m => 0x08#8 :: (enc16 0 ++ enc32 m ++ [0#8])
          | .pauseEnded .limit => 0x09#8 :: (enc16 0 ++ enc32 0 ++ [0x01#8])
          | .pauseEnded .fault => 0x09#8 :: (enc16 0 ++ enc32 0 ++ [0x02#8])
          | .engineFault .write slot => 0x0A#8 :: (enc16 0 ++ enc32 slot.val ++ [0x01#8])
          | .engineFault .erase slot => 0x0A#8 :: (enc16 0 ++ enc32 slot.val ++ [0x02#8])
          | .freezeDone w => 0x0B#8 :: (enc16 0 ++ enc32 0 ++ enc8 w.val)
          | .freezeFailed w => 0x0C#8 :: (enc16 0 ++ enc32 0 ++ enc8 w.val)
          | .resync => 0x0D#8 :: (enc16 0 ++ enc32 0 ++ [0#8]))))

/-- A notice posted to a queue (R126 to R129): CHANGED and RETIRED take the place of a queued CHANGED for their key, any
other notice is appended while there is room and overflows the queue where there is none, and a RESYNC queue
stays as it is. -/
def Obligations.PostedNoticeJoinsQueue : Prop :=
  (∀ n : Notice, NoticeQueue.post .resync n = .resync) ∧
  (∀ (a b : List Notice) (k g : Nat), (∀ m ∈ a ++ b, ∀ g' : Nat, m ≠ .changed k g') →
    (∀ g' : Nat, NoticeQueue.post (.normal (a ++ .changed k g :: b)) (.changed k g') =
      .normal (a ++ .changed k g' :: b)) ∧
    NoticeQueue.post (.normal (a ++ .changed k g :: b)) (.retired k) = .normal (a ++ .retired k :: b)) ∧
  (∀ (l : List Notice) (n : Notice),
    (∀ k : Nat, (n = .retired k ∨ ∃ g : Nat, n = .changed k g) → ∀ m ∈ l, ∀ g : Nat, m ≠ .changed k g) →
    (l.length < 16 → NoticeQueue.post (.normal l) n = .normal (l ++ [n])) ∧
    (l.length = 16 → NoticeQueue.post (.normal l) n = .resync))

/-! ## The Persist Engine -/

/-- SYNC (R160): the refusals, OK where the mark has reached the number, and otherwise WAITING with the port's durability
request recorded. -/
def Obligations.SyncAnswered : Prop :=
  ∀ (s : State) (p : Port) (tag : Byte) (n : Nat), n ≤ 4294967295 → s.isWorkingOn p tag 0x50#8 (enc32 n) →
    (n = 0 ∨ s.applyNumber < n → exec (.sync p) s = .next (s.answers p tag .badParam [])) ∧
    (1 ≤ n → n ≤ s.applyNumber →
      (s.persist.engine.isFaulted = true → exec (.sync p) s = .next (s.answers p tag .persistFault [])) ∧
      (s.persist.engine.isFaulted = false →
        (n ≤ s.persist.mark → exec (.sync p) s = .next (s.answers p tag .ok (enc32 s.persist.mark))) ∧
        (s.persist.mark < n → exec (.sync p) s = .next (State.answers { s with
          persist := { s.persist with requests := s.persist.requests.set p (some n) } } p tag .waiting
          (enc32 s.persist.mark)))))

/-- PAUSE (R153): the refusals in their order, the renewal by the holder, and a new pause of an IDLE or BUSY engine; a
job in flight runs its phase to the end. The answer is the engine state. -/
def Obligations.PauseActs : Prop :=
  ∀ (s : State) (p : Port) (tag : Byte) (limit : Nat), limit ≤ 65535 →
    s.isWorkingOn p tag 0x51#8 (enc16 limit) →
    (s.rights.roles.get p ≠ .admin → exec (.pause p) s = .next (s.answers p tag .notAdmin [])) ∧
    (s.rights.roles.get p = .admin →
    let goes := fun (e : Engine) => State.answers { s with persist := { s.persist with engine := e } } p tag .ok
    (limit = 0 ∨ 10000 < limit → exec (.pause p) s = .next (s.answers p tag .badParam [])) ∧
    (1 ≤ limit → limit ≤ 10000 →
      (∀ j : SlotJob, s.persist.engine = .faulted j →
        exec (.pause p) s = .next (s.answers p tag .persistFault [])) ∧
      (∀ pz : Pause, s.persist.engine.pause = some pz → pz.holder ≠ p →
        exec (.pause p) s = .next (s.answers p tag .pauseHeld [])) ∧
      (∀ (f : Flight) (pz : Pause), s.persist.engine = .pausing f pz → pz.holder = p →
        exec (.pause p) s = .next (goes (.pausing f ⟨p, limit⟩) [0x02#8])) ∧
      (∀ (w : Option Waiting) (pz : Pause), s.persist.engine = .paused w pz → pz.holder = p →
        exec (.pause p) s = .next (goes (.paused w ⟨p, limit⟩) [0x03#8])) ∧
      (s.persist.engine = .idle → exec (.pause p) s = .next (goes (.paused none ⟨p, limit⟩) [0x03#8])) ∧
      (∀ f : Flight, s.persist.engine = .busy f →
        exec (.pause p) s = .next (goes (.pausing f ⟨p, limit⟩) [0x02#8]))))

/-- The end of a pause (R154, R155): RESUME by the holder in each state of the engine, the same end with PAUSE_ENDED where
the limit runs out, and a tick that finds the limit above 1. That a limit of 1 runs out also where a renewal has
just set it is the model's choice (log entry 26), and so is that a tick at the limit where no pause is held changes
nothing (log entry 5). -/
def Obligations.PauseEnds : Prop :=
  ∀ s : State,
    (∀ (p : Port) (tag : Byte), s.rights.roles.get p ≠ .admin → s.isWorkingOn p tag 0x52#8 [] →
      exec (.resume p) s = .next (s.answers p tag .notAdmin [])) ∧
    (∀ (p : Port) (tag : Byte), s.rights.roles.get p = .admin → s.isWorkingOn p tag 0x52#8 [] →
      let goes := fun (queue : List Job) (e : Engine) (code : Byte) =>
        State.answers { s with persist := { s.persist with queue := queue, engine := e } } p tag .ok [code]
      (s.persist.engine.pause.map Pause.holder ≠ some p →
        exec (.resume p) s = .next (s.answers p tag .notPaused [])) ∧
      (∀ (f : Flight) (pz : Pause), s.persist.engine = .pausing f pz → pz.holder = p →
        exec (.resume p) s = .next (goes s.persist.queue (.busy f) 0x01#8)) ∧
      (∀ (j : Job) (attempt : Nat) (ph : Phase) (pz : Pause), pz.holder = p →
        s.persist.engine = .paused (some ⟨j, attempt, .phase ph⟩) pz →
        exec (.resume p) s = .next (goes s.persist.queue (.busy ⟨j, attempt, ph⟩) 0x01#8)) ∧
      (∀ (j : Job) (attempt : Nat) (pz : Pause), pz.holder = p →
        s.persist.engine = .paused (some ⟨j, attempt, .nextAttempt⟩) pz →
        exec (.resume p) s =
          .next (goes s.persist.queue (.busy (startAttempt s.nv j (attempt + 1))) 0x01#8)) ∧
      (∀ (j : Job) (rest : List Job) (pz : Pause), pz.holder = p → s.persist.engine = .paused none pz →
        s.persist.queue = j :: rest →
        exec (.resume p) s = .next (goes rest (.busy (startAttempt s.nv j 1)) 0x01#8)) ∧
      (∀ pz : Pause, pz.holder = p → s.persist.engine = .paused none pz → s.persist.queue = [] →
        exec (.resume p) s = .next (goes [] .idle 0x00#8)) ∧
      (s.persist.engine.pause.map Pause.holder = some p →
        exec (.resume p) s = .next (State.answers { s with persist := s.persist.endPause s.nv } p tag .ok
          [(s.persist.endPause s.nv).engine.code]))) ∧
    (s.persist.engine.pause = none → exec (.tick .pauseLimit) s = .next s) ∧
    (∀ pz : Pause, s.persist.engine.pause = some pz →
      (pz.limit = 1 →
        let t := { s with
          persist := s.persist.endPause s.nv
          notices := s.notices.set pz.holder ((s.notices.get pz.holder).post (.pauseEnded .limit)) }
        exec (.tick .pauseLimit) s = .next t ∧ exec .pauseLimitExpiry s = .next t) ∧
      (1 < pz.limit → exec (.tick .pauseLimit) s = .next { s with
        persist := { s.persist with engine :=
          match s.persist.engine with
          | .pausing f _ => .pausing f { pz with limit := pz.limit - 1 }
          | .paused w _ => .paused w { pz with limit := pz.limit - 1 }
          | e => e } }))

/-- CLEARFAULT (R158): its refusals; the given-up job makes a LIVE record STALE or a DRAINING slot BROKEN, its place is
released, the mark is recomputed and the engine goes on; the answer names the job. -/
def Obligations.ClearfaultGivesUp : Prop :=
  ∀ (s : State) (p : Port) (tag : Byte), s.isWorkingOn p tag 0x53#8 [] →
    (s.rights.roles.get p ≠ .admin → exec (.clearfault p) s = .next (s.answers p tag .notAdmin [])) ∧
    (s.rights.roles.get p = .admin → s.persist.engine.isFaulted = false → exec (.clearfault p) s = .next (s.answers p tag .notFaulted [])) ∧
    (s.rights.roles.get p = .admin → (∀ q : Port, s.persist.requests.get q = none) →
      (∀ w : WriteJob, s.persist.engine = .faulted (.write w) → exec (.clearfault p) s = .next (State.answers
        { s.jobEnded true with
          slots := s.slotsWith w.slot fun x => match x with | .live r => .live { r with stale := true } | y => y }
        p tag .ok (0x01#8 :: (enc16 w.slot.val ++ enc32 w.first ++ enc32 w.last)))) ∧
      (∀ e : EraseJob, s.persist.engine = .faulted (.erase e) → exec (.clearfault p) s = .next (State.answers
        { s.jobEnded true with
          slots := s.slotsWith e.slot fun x => match x with | .draining _ => .broken | y => y }
        p tag .ok (0x02#8 :: (enc16 e.slot.val ++ enc32 (e.applies.getD (0, 0)).1 ++
          enc32 (e.applies.getD (0, 0)).2)))))

/-- The start of an attempt (R145, R146): a WRITE takes the cell that does not hold the newest valid copy, with the successor
of its sequence number; an ERASE marks the older valid cell and then the newer; a FREEZE programs its entry (R147). -/
def Obligations.AttemptBegins : Prop :=
  ∀ (nv : NvArray) (attempt : Nat) (w : WriteJob) (e : EraseJob),
    let next := fun m : Nat => if m = 65535 then 1 else m + 1
    let writes := fun (c : CellName) (seq : Nat) =>
      startAttempt nv (.slot (.write w)) attempt = ⟨.slot (.write w), attempt, .eraseTarget c seq⟩
    let erases := fun ph : Phase =>
      startAttempt nv (.slot (.erase e)) attempt = ⟨.slot (.erase e), attempt, ph⟩
    let valid := fun (i : SlotId) (c : CellName) (x : CellCopy) => (nv.pair i).get c = .written false x
    let notValid := fun (i : SlotId) (c : CellName) => ∀ x : CellCopy, (nv.pair i).get c ≠ .written false x
    (notValid w.slot .a → notValid w.slot .b → writes .a 1) ∧
    (∀ x : CellCopy, valid w.slot .a x → notValid w.slot .b → writes .b (next x.seq)) ∧
    (∀ y : CellCopy, notValid w.slot .a → valid w.slot .b y → writes .a (next y.seq)) ∧
    (∀ x y : CellCopy, valid w.slot .a x → valid w.slot .b y →
      (y.seq = next x.seq → writes .a (next y.seq)) ∧ (y.seq ≠ next x.seq → writes .b (next x.seq))) ∧
    (notValid e.slot .a → notValid e.slot .b → erases .eraseA) ∧
    (∀ x : CellCopy, valid e.slot .a x → notValid e.slot .b → erases (.mark .a [])) ∧
    (∀ y : CellCopy, notValid e.slot .a → valid e.slot .b y → erases (.mark .b [])) ∧
    (∀ x y : CellCopy, valid e.slot .a x → valid e.slot .b y →
      (y.seq = next x.seq → erases (.mark .a [.b])) ∧ (y.seq ≠ next x.seq → erases (.mark .b [.a]))) ∧
    (∀ (i : WindowId) (d : WindowDef),
      startAttempt nv (.freeze i d) attempt = ⟨.freeze i d, attempt, .programEntry⟩)

/-- The end of a phase that is not the last of its attempt (R148): the NV Array holds the phase's result, and the next phase
begins, or waits where the engine is PAUSING; nothing else changes. The order of the phases is that of R145 to R147.
What a phase that ends (R137) or is cut (R138) leaves is one of the listed results, in the cell or entry it acts
on and in no other, and each of the listed results is what some end or cut leaves; a cut VERIFY leaves all as before; a PROGRAM of a cell that is not erased leaves it corrupt, and that it does so also where it
fails, and that one of a written entry leaves it SPOILED, is log entry 15. -/
def Obligations.PhaseEndBeginsNext : Prop :=
  ∀ (s : State) (f : Flight) (result : NvResult),
    (∀ ph : Phase,
      (∃ (c : CellName) (seq : Nat), f.phase = .eraseTarget c seq ∧ ph = .program c seq) ∨
        (∃ (c : CellName) (seq : Nat), f.phase = .program c seq ∧ ph = .verify c seq) ∨
        (∃ (c later : CellName) (rest : List CellName), f.phase = .mark c (later :: rest) ∧ ph = .mark later rest) ∨
        (∃ c : CellName, f.phase = .mark c [] ∧ ph = .eraseA) ∨
        (f.phase = .eraseA ∧ ph = .eraseB) ∨ (f.phase = .eraseB ∧ ph = .verifyErased) ∨
        (f.phase = .programEntry ∧ ph = .verifyEntry) →
      (s.persist.engine = .busy f → exec (.phaseEnd result) s = .next { s with
        nv := s.nv.endPhase f result
        persist := { s.persist with engine := .busy ⟨f.job, f.attempt, ph⟩ } }) ∧
      (∀ pz : Pause, s.persist.engine = .pausing f pz → exec (.phaseEnd result) s = .next { s with
        nv := s.nv.endPhase f result
        persist := { s.persist with engine := .paused (some ⟨f.job, f.attempt, .phase ph⟩) pz } })) ∧
    (∀ (i : SlotId) (c : CellName),
      let old := (s.nv.pair i).get c
      (((∃ w : WriteJob, f.job = .slot (.write w) ∧ w.slot = i ∧ ∃ seq : Nat, f.phase = .eraseTarget c seq) ∨
          (∃ e : EraseJob, f.job = .slot (.erase e) ∧ e.slot = i ∧
            (c = .a ∧ f.phase = .eraseA ∨ c = .b ∧ f.phase = .eraseB))) →
        (result = .asMeant → s.nv.endPhase f result = s.nv.setCell i c .erased) ∧
        (∃ x ∈ [.erased, old, .corrupt], s.nv.endPhase f result = s.nv.setCell i c x) ∧
        (∃ x ∈ [.erased, old, .corrupt], s.nv.cutPhase f result = s.nv.setCell i c x) ∧
        (∀ x ∈ [.erased, old, .corrupt], ∃ r r' : NvResult,
          s.nv.endPhase f r = s.nv.setCell i c x ∧ s.nv.cutPhase f r' = s.nv.setCell i c x)) ∧
      (∀ (w : WriteJob) (seq : Nat), f.job = .slot (.write w) → w.slot = i → f.phase = .program c seq →
        (result = .asMeant → old = .erased →
          s.nv.endPhase f result = s.nv.setCell i c (.written false
            ⟨seq, w.key, w.defn.cls, w.defn.constraints, w.defn.default, w.value⟩)) ∧
        (result ≠ .asMeant → old = .erased →
          ∃ x ∈ [.erased, .corrupt], s.nv.endPhase f result = s.nv.setCell i c x) ∧
        (old ≠ .erased → s.nv.endPhase f result = s.nv.setCell i c .corrupt) ∧
        (∃ x ∈ [.erased, .corrupt], s.nv.cutPhase f result = s.nv.setCell i c x) ∧
        (∀ x ∈ [.erased, .corrupt], ∃ r r' : NvResult, r ≠ .asMeant ∧
          (old = .erased → s.nv.endPhase f r = s.nv.setCell i c x) ∧ s.nv.cutPhase f r' = s.nv.setCell i c x)) ∧
      (∀ (e : EraseJob) (later : List CellName) (m : Bool) (x : CellCopy), f.job = .slot (.erase e) → e.slot = i →
        f.phase = .mark c later → old = .written m x →
        (result = .asMeant → s.nv.endPhase f result = s.nv.setCell i c (.written true x)) ∧
        (result ≠ .asMeant → s.nv.endPhase f result = s.nv) ∧
        (∃ m' ∈ [m, true], s.nv.cutPhase f result = s.nv.setCell i c (.written m' x)) ∧
        (∀ m' ∈ [m, true], ∃ r : NvResult, s.nv.cutPhase f r = s.nv.setCell i c (.written m' x)))) ∧
    ((∃ (c : CellName) (seq : Nat), f.phase = .verify c seq) ∨ f.phase = .verifyErased ∨ f.phase = .verifyEntry →
      s.nv.cutPhase f result = s.nv) ∧
    (∀ (i : WindowId) (d : WindowDef), f.job = .freeze i d → f.phase = .programEntry →
      (result = .asMeant → s.nv.entry i = .unwritten →
        s.nv.endPhase f result = s.nv.setEntry i (.valid d)) ∧
      (result ≠ .asMeant ∨ s.nv.entry i ≠ .unwritten → s.nv.endPhase f result = s.nv.setEntry i .spoiled) ∧
      (∃ x ∈ [s.nv.entry i, .spoiled], s.nv.cutPhase f result = s.nv.setEntry i x) ∧
      (∀ x ∈ [s.nv.entry i, .spoiled], ∃ r : NvResult, s.nv.cutPhase f r = s.nv.setEntry i x))

/-- WRITE_COMPLETION (R149, R11) and ERASE_COMPLETION (R150, R12): the LIVE record takes the job's value as its stored value
and is no longer STALE, or the DRAINING slot becomes FREE, and the job ends. -/
def Obligations.JobCompletes : Prop :=
  ∀ (s : State) (attempt : Nat),
    (∀ (w : WriteJob) (c : CellName) (seq : Nat),
      s.persist.engine.running = some ⟨.slot (.write w), attempt, .verify c seq⟩ →
      (s.nv.pair w.slot).get c = .written false
        ⟨seq, w.key, w.defn.cls, w.defn.constraints, w.defn.default, w.value⟩ →
      exec .writeCompletion s = .next { s.jobEnded true with
        slots := s.slotsWith w.slot fun x =>
          match x with
          | .live r => .live { r with stored := some w.value, stale := false }
          | y => y }) ∧
    (∀ e : EraseJob, s.persist.engine.running = some ⟨.slot (.erase e), attempt, .verifyErased⟩ →
      s.nv.pair e.slot = ⟨.erased, .erased⟩ →
      exec .eraseCompletion s = .next { s.jobEnded e.applies.isSome with
        slots := s.slotsWith e.slot fun x => match x with | .draining _ => .free | y => y })

/-- VERIFY_MISMATCH (R151, R156): the first and second failed attempt are followed by another, at once or after the pause;
the third faults the engine, ends a pause and every durability request, and tells the ADMIN ports. -/
def Obligations.MismatchRetriesOrFaults : Prop :=
  ∀ (s : State) (f : Flight) (j : SlotJob), f.job = .slot j →
    ((∃ (w : WriteJob) (c : CellName) (seq : Nat), j = .write w ∧ f.phase = .verify c seq ∧
        (s.nv.pair w.slot).get c ≠ .written false
          ⟨seq, w.key, w.defn.cls, w.defn.constraints, w.defn.default, w.value⟩) ∨
      (∃ e : EraseJob, j = .erase e ∧ f.phase = .verifyErased ∧ s.nv.pair e.slot ≠ ⟨.erased, .erased⟩)) →
    (f.attempt = 1 ∨ f.attempt = 2 →
      (s.persist.engine = .busy f → exec .verifyMismatch s = .next { s with
        persist := { s.persist with engine := .busy (startAttempt s.nv (.slot j) (f.attempt + 1)) } }) ∧
      (∀ pz : Pause, s.persist.engine = .pausing f pz → exec .verifyMismatch s = .next { s with
        persist := { s.persist with engine := .paused (some ⟨.slot j, f.attempt, .nextAttempt⟩) pz } })) ∧
    (f.attempt = 3 → s.persist.engine.running = some f → exec .verifyMismatch s = .next { s with
      persist := { s.persist with engine := .faulted j, requests := ⟨none, none, none⟩ }
      notices := .build fun q =>
        (((s.notices.get q).postIf (s.persist.engine.pause.map Pause.holder = some q)
          (.pauseEnded .fault)).postIf (s.rights.roles.get q = .admin)
            (match j with
              | .write w => .engineFault .write w.slot
              | .erase e => .engineFault .erase e.slot)).postIf
          (s.persist.requests.get q ≠ none) (.notDurable s.persist.mark) })

/-- FREEZE_JOB_END (R147, R113, R114): a match makes the entry VALID and the window FROZEN, a mismatch makes the entry SPOILED
and the window ACTIVE again; the ADMIN ports are told, and the job ends with the mark where it was. -/
def Obligations.FreezeJobEnds : Prop :=
  ∀ (s : State) (i : WindowId) (d : WindowDef) (attempt : Nat),
    s.persist.engine.running = some ⟨.freeze i d, attempt, .verifyEntry⟩ →
    s.rights.windows[i.val] = .freezing d →
    let ended := fun (entry : EntryState) (w : Window) (n : Notice) =>
      { s.jobEnded false with
        rights := { s.rights with
          windows := s.rights.windows.set i.val w
          entries := s.rights.entries.set i.val entry }
        notices := .build fun q => (s.notices.get q).postIf (s.rights.roles.get q = .admin) n }
    (s.nv.entry i = .valid d → exec .freezeJobEnd s = .next (ended .valid (.frozen d) (.freezeDone i))) ∧
    (s.nv.entry i ≠ .valid d → exec .freezeJobEnd s = .next (ended .spoiled (.active d) (.freezeFailed i)))

/-! ## Rights -/

/-- The effective right (R101, R105): a port has a right on a key exactly where its role cap and every window that covers the
key give it that right or a higher one. An inverted window covers the keys outside lo to hi. -/
def Obligations.EffectiveRightIsLowest : Prop :=
  ∀ (g : Rights) (p : Port) (k : Nat) (need : Right),
    (g.allows p k need = true ↔
      (match g.roles.get p with
        | .admin => True
        | .editor => True
        | .reader => need = .none ∨ need = .read) ∧
      ∀ (i : WindowId) (d : WindowDef),
        (g.windows[i.val] = .active d ∨ g.windows[i.val] = .freezing d ∨ g.windows[i.val] = .frozen d) →
        (if d.invert then k < d.lo ∨ d.hi < k else d.lo ≤ k ∧ k ≤ d.hi) →
        (match d.rights.get p with
          | .none => need = .none
          | .read => need = .none ∨ need = .read
          | .stage => need ≠ .full
          | .full => True))

/-- SETQUOTA (R14) and SETROLE (R102): their checks in order and their one effect. -/
def Obligations.SetquotaAndSetrole : Prop :=
  ∀ (s : State) (p : Port) (tag : Byte),
    (s.rights.roles.get p ≠ .admin → ∀ params : List Byte,
      (s.isWorkingOn p tag 0x60#8 params → exec (.setquota p) s = .next (s.answers p tag .notAdmin [])) ∧
      (s.isWorkingOn p tag 0x61#8 params → exec (.setrole p) s = .next (s.answers p tag .notAdmin []))) ∧
    (s.rights.roles.get p = .admin →
    (∀ (c : Byte) (quota : Nat), quota ≤ 65535 → s.isWorkingOn p tag 0x60#8 (c :: enc16 quota) →
      (16 ≤ c.toNat ∨ 384 < quota → exec (.setquota p) s = .next (s.answers p tag .badParam [])) ∧
      (∀ i : ClassId, i.val = c.toNat → quota ≤ 384 →
        (quota < (s.classDesc i).count → exec (.setquota p) s = .next (s.answers p tag .belowCount [])) ∧
        ((s.classDesc i).count ≤ quota → exec (.setquota p) s = .next (State.answers { s with
          classes := s.classes.set i.val { s.classDesc i with quota := quota } } p tag .ok [])))) ∧
    (∀ q r : Byte, s.isWorkingOn p tag 0x61#8 [q, r] →
      (q.toNat = 0 ∨ 3 ≤ q.toNat ∨ r.toNat = 0 ∨ 4 ≤ r.toNat →
        exec (.setrole p) s = .next (s.answers p tag .badParam [])) ∧
      (∀ (port : Port) (role : Role),
        (port, q) ∈ [(Port.p1, 0x01#8), (Port.p2, 0x02#8)] →
        (role, r) ∈ [(Role.admin, 0x01#8), (Role.editor, 0x02#8), (Role.reader, 0x03#8)] →
        exec (.setrole p) s = .next (State.answers { s with
          rights := { s.rights with roles := s.rights.roles.set port role } } p tag .ok []))))

/-- WINDOW (R108), UNWINDOW (R109), FREEZE (R112) and WINDOWINFO (R110), which any port may send: the refusals in
their order, the change of the window's state, and for FREEZE the job that joins the queue. -/
def Obligations.WindowCommands : Prop :=
  ∀ (s : State) (p : Port) (tag : Byte) (i : WindowId),
    let window := s.rights.windows[i.val]
    let settled := (∃ d, window = .freezing d) ∨ ∃ d, window = .frozen d
    let goes := fun w : Window => { s with rights := { s.rights with windows := s.rights.windows.set i.val w } }
    (s.rights.roles.get p ≠ .admin → ∀ params : List Byte,
      (s.isWorkingOn p tag 0x62#8 params → exec (.window p) s = .next (s.answers p tag .notAdmin [])) ∧
      (s.isWorkingOn p tag 0x63#8 params → exec (.unwindow p) s = .next (s.answers p tag .notAdmin [])) ∧
      (s.isWorkingOn p tag 0x64#8 params → exec (.freeze p) s = .next (s.answers p tag .notAdmin []))) ∧
    (s.rights.roles.get p = .admin →
      (∀ (b inv r0 r1 r2 : Byte) (lo hi : Nat), lo ≤ 65535 → hi ≤ 65535 →
        s.isWorkingOn p tag 0x62#8 (b :: (enc16 lo ++ enc16 hi ++ [inv, r0, r1, r2])) →
        6 ≤ b.toNat ∨ 2 ≤ inv.toNat ∨ 4 ≤ r0.toNat ∨ 4 ≤ r1.toNat ∨ 4 ≤ r2.toNat →
        exec (.window p) s = .next (s.answers p tag .badParam [])) ∧
      (∀ d : WindowDef, d.lo ≤ 65535 → d.hi ≤ 65535 → s.isWorkingOn p tag 0x62#8 (windowParams i d) →
        (¬ d.wf → exec (.window p) s = .next (s.answers p tag .badParam [])) ∧
        (d.wf → settled → exec (.window p) s = .next (s.answers p tag .frozen [])) ∧
        (d.wf → ¬ settled → exec (.window p) s = .next ((goes (.active d)).answers p tag .ok []))) ∧
      (s.isWorkingOn p tag 0x63#8 (enc8 i.val) →
        (settled → exec (.unwindow p) s = .next (s.answers p tag .frozen [])) ∧
        (window = .unused → exec (.unwindow p) s = .next (s.answers p tag .badParam [])) ∧
        (∀ d : WindowDef, window = .active d →
          exec (.unwindow p) s = .next ((goes .unused).answers p tag .ok []))) ∧
      (s.isWorkingOn p tag 0x64#8 (enc8 i.val) →
        (settled → exec (.freeze p) s = .next (s.answers p tag .frozen [])) ∧
        (window = .unused → exec (.freeze p) s = .next (s.answers p tag .badParam [])) ∧
        (∀ d : WindowDef, window = .active d →
          (s.rights.entries[i.val] ≠ .unwritten →
            exec (.freeze p) s = .next (s.answers p tag .oneTimeUsed [])) ∧
          (s.rights.entries[i.val] = .unwritten → 32 ≤ s.persist.jobs.length →
            exec (.freeze p) s = .next (s.answers p tag .persistFull [])) ∧
          (s.rights.entries[i.val] = .unwritten → s.persist.jobs.length < 32 →
            s.persist.engine.isFaulted = true →
            exec (.freeze p) s = .next (s.answers p tag .persistFault [])) ∧
          (s.rights.entries[i.val] = .unwritten → s.persist.jobs.length < 32 →
            s.persist.engine.isFaulted = false →
            exec (.freeze p) s = .next (State.answers { goes (.freezing d) with
              persist := s.persist.withJob s.nv (.freeze i d) } p tag .ok []))))) ∧
    (s.isWorkingOn p tag 0x65#8 (enc8 i.val) →
      exec (.windowinfo p) s = .next (s.answers p tag .ok (
        [match window with | .unused => 0x00#8 | .active _ => 0x01#8 | .freezing _ => 0x02#8 | .frozen _ => 0x03#8,
          match s.rights.entries[i.val] with | .unwritten => 0x00#8 | .valid => 0x01#8 | .spoiled => 0x02#8] ++
        (match window with
          | .unused => []
          | .active d => (windowParams i d).drop 1
          | .freezing d => (windowParams i d).drop 1
          | .frozen d => (windowParams i d).drop 1)))) ∧
    (∀ b : Byte, 6 ≤ b.toNat →
      (s.rights.roles.get p = .admin →
        (s.isWorkingOn p tag 0x63#8 [b] → exec (.unwindow p) s = .next (s.answers p tag .badParam [])) ∧
        (s.isWorkingOn p tag 0x64#8 [b] → exec (.freeze p) s = .next (s.answers p tag .badParam []))) ∧
      (s.isWorkingOn p tag 0x65#8 [b] → exec (.windowinfo p) s = .next (s.answers p tag .badParam [])))

/-- An admin-only command from a port that is not ADMIN is answered NOT_ADMIN before any other check, whatever its parameters,
and changes nothing; no other command is answered NOT_ADMIN (R103). -/
def Obligations.AdminOnlyRefused : Prop :=
  ∀ (s : State) (c : Instr) (p : Port) (code tag : Byte) (params : List Byte),
    c.takenFrom = some (p, code) → s.isWorkingOn p tag code params →
    (code ∈ adminCodes → s.rights.roles.get p ≠ .admin →
      exec c s = .next (s.answers p tag .notAdmin [])) ∧
    (∀ (t : State) (data : List Byte), code ∉ adminCodes ∨ s.rights.roles.get p = .admin →
      exec c s = .next t → (t.port p).command ≠ .answered tag ⟨.notAdmin, data⟩ false)

/-! ## Start-up -/

/-- The beginning of a start-up by RESTART (R165), a rise of VDD and a fall of RESETn (R164, R166, R167), a loss of VDD, and a
return of RESETn. The NV Array is left as the cut of the phase running in BUSY or PAUSING leaves it (R138), and
otherwise as it was. The frame state of a port goes on following CSn (R179). What the model holds of roles and
windows before READY, and of every field without VDD, is its own choice (log entry 3), and so is that a frame
during which VDD was lost goes on with no byte received (log entry 14) and that a POWER_UP with VDD in range is a
loss and return (log entry 4). -/
def Obligations.StartupBegins : Prop :=
  ∀ (s : State) (cut : NvResult),
    (∀ (p : Port) (tag : Byte) (params : List Byte), s.isWorkingOn p tag 0x6F#8 params →
      s.rights.roles.get p = .admin →
      (params = [] → exec (.restart p cut) s = .next (s.begun .command .scanning cut)) ∧
      (params ≠ [] → exec (.restart p cut) s = .next (s.answers p tag .badParam []))) ∧
    (s.vdd = true → s.resetnLow = false →
      exec (.resetnAssert cut) s = .next { s.begun .pin .held cut with resetnLow := true }) ∧
    (s.vdd = false → exec (.resetnAssert cut) s = .next { s with resetnLow := true }) ∧
    (s.resetnLow = true → exec (.powerUp cut) s =
      .next { (s.begun .power .held cut).framesRestarted with vdd := true }) ∧
    (s.resetnLow = false → exec (.powerUp cut) s =
      .next { (s.begun .power .scanning cut).framesRestarted with vdd := true }) ∧
    (s.vdd = true → exec (.powerLoss cut) s =
      .next { (s.begun s.startup.cause .held cut).framesRestarted with vdd := false }) ∧
    (s.vdd = true → s.startup.state = .held → exec .resetnRelease s =
      .next { s with resetnLow := false, startup := { s.startup with state := .scanning } }) ∧
    (s.vdd = false ∨ s.startup.state ≠ .held → exec .resetnRelease s = .next { s with resetnLow := false })

/-- READY (R19, R169 to R173, R176): each slot holds the record of its newest valid copy, unless a lower-numbered slot holds
the key; without a valid copy it is FREE where both cells are erased and DRAINING otherwise; the DRAINING slots
have the first 24 clean-up jobs and the backlog; classes, rights and the volatile blocks are set again. That a valid
copy which a MARK failed to void unseen makes its slot LIVE, as R169 has it, and not FREE or DRAINING, as the rows of
R175 have it, is the model's choice (log entry 28). -/
def Obligations.ReadyRebuilds : Prop :=
  ∀ s : State, s.vdd = true → s.startup.state = .scanning →
    ∃ t : State, exec .ready s = .next t ∧
      (∀ i : SlotId,
        (∀ (c : CellName) (x : CellCopy), (s.nv.pair i).newest = some (c, x) →
          ((∃ (j : SlotId) (c' : CellName) (y : CellCopy), j < i ∧ (s.nv.pair j).newest = some (c', y) ∧
              y.key = x.key) → t.slot i = .draining none) ∧
          ((∀ (j : SlotId) (c' : CellName) (y : CellCopy), j < i → (s.nv.pair j).newest = some (c', y) →
              y.key ≠ x.key) →
            t.slot i = .live ⟨x.key, ⟨x.cls, .lasting, x.constraints, x.default⟩, x.value, some x.value, 1, false,
              false, ⟨false, false, false⟩⟩)) ∧
        ((s.nv.pair i).newest = none → (s.nv.pair i) = ⟨.erased, .erased⟩ → t.slot i = .free) ∧
        ((s.nv.pair i).newest = none → (s.nv.pair i) ≠ ⟨.erased, .erased⟩ → t.slot i = .draining none)) ∧
      (∀ c : ClassId, t.classDesc c = ⟨384, t.countSlots (Slot.hasClass c), ⟨false, false, false⟩⟩) ∧
      t.rights.roles = ⟨.admin, .editor, .editor⟩ ∧
      (∀ i : WindowId,
        (∀ d : WindowDef, s.nv.entry i = .valid d →
          t.rights.windows[i.val] = .frozen d ∧ t.rights.entries[i.val] = .valid) ∧
        (s.nv.entry i = .unwritten → t.rights.windows[i.val] = .unused ∧ t.rights.entries[i.val] = .unwritten) ∧
        (s.nv.entry i = .spoiled → t.rights.windows[i.val] = .unused ∧ t.rights.entries[i.val] = .spoiled)) ∧
      (∀ need : List SlotId, need = (List.finRange 384).filter (fun i => (t.slot i).isDraining) →
        t.startup = ⟨.running, s.startup.cause, need.drop 24⟩ ∧
        t.persist =
          match need.take 24 with
          | [] => ⟨[], .idle, 0, ⟨none, none, none⟩⟩
          | i :: rest => ⟨rest.map cleanupJob, .busy (startAttempt s.nv (cleanupJob i) 1), 0, ⟨none, none, none⟩⟩) ∧
      t.staged = ⟨[], [], []⟩ ∧ t.applyNumber = 0 ∧ t.claims = [] ∧
      t.notices = ⟨.normal [], .normal [], .normal []⟩ ∧
      t.nv = s.nv ∧ t.ports = s.ports ∧ t.vdd = s.vdd ∧ t.resetnLow = s.resetnLow ∧ t.pending = s.pending

/-! ## The laws that every step keeps -/

/-- Every notice queue stays well formed (R126). The Claim Table stays well formed (at most 24 entries, no key twice, leases in
range, the waiters distinct ports and none the holder), and every claim entry goes on naming the key of a LIVE
record (R84, R93). -/
def Obligations.NoticesAndClaimsStayWellFormed : Prop :=
  ∀ s t : State, step s = .next t →
    (s.noticesWf → t.noticesWf) ∧ (s.claimsWf → t.claimsWf) ∧ (s.claimsLive → t.claimsLive)

/-- P0 stays ADMIN (R101). FREEZING windows and FREEZE jobs go on standing in pairs, and every FROZEN window has a VALID
entry; and then, while the part stays RUNNING, a FROZEN window stays FROZEN with its definition and its entry.
Nothing ever changes a one-time entry of the NV Array but a FREEZE job for its window, and an entry that is not
UNWRITTEN is never UNWRITTEN again (R108, R109, R111 to R114). -/
def Obligations.RightsStayGuarded : Prop :=
  ∀ s t : State, step s = .next t →
    (s.p0IsAdmin → t.p0IsAdmin) ∧
    (∀ i : WindowId, s.nv.entry i ≠ .unwritten → t.nv.entry i ≠ .unwritten) ∧
    (∀ i : WindowId, (∀ d : WindowDef, .freeze i d ∉ s.persist.jobs) →
      t.nv.entry i = s.nv.entry i ∧
      (∀ d : WindowDef, s.rights.windows[i.val] = .frozen d → s.startup.state = .running →
        t.startup.state = .running → t.rights.windows[i.val] = .frozen d)) ∧
    (s.freezesWf → t.freezesWf ∧
      ∀ (i : WindowId) (d : WindowDef), s.rights.windows[i.val] = .frozen d → s.startup.state = .running →
        t.startup.state = .running → t.rights.windows[i.val] = .frozen d ∧ t.nv.entry i = .valid d)

/-- Every class count stays the number of LIVE records of its class and within its quota (R13), and every generation stays
1 to 65535 (R7). -/
def Obligations.CountsStayRight : Prop :=
  ∀ s t : State, step s = .next t →
    (s.countsRight → t.countsRight) ∧ (s.generationsWf → t.generationsWf)

/-- The stacks and the pool stay within their bounds with one entry for a key in a changeset (R37, R39), and then keys stay
unique (R4). -/
def Obligations.KeysStayUnique : Prop :=
  ∀ s t : State, s.stagingWf → step s = .next t → t.stagingWf ∧ (s.keysUnique → t.keysUnique)

/-- The jobs queued, in flight and in the fault record stay within the 32 places (R139, R72). -/
def Obligations.PlacesStayWithin : Prop :=
  ∀ s t : State, s.placesWf → s.stagingWf → s.engineWf → step s = .next t → t.placesWf

/-- An IDLE engine has no job waiting and a FAULTED one no durability request (R143, R156); the durable mark stays what the
jobs give (R159); the apply number stays in range (R61); neither decreases while the part stays RUNNING. -/
def Obligations.EngineStaysWellFormed : Prop :=
  ∀ s t : State, step s = .next t →
    (s.engineWf → t.engineWf) ∧
    (s.applyNumberWf → t.applyNumberWf) ∧
    (s.markWf → t.markWf ∧ t.persist.mark ≤ t.applyNumber ∧
      (s.startup.state = .running → t.startup.state = .running →
        s.persist.mark ≤ t.persist.mark ∧ s.applyNumber ≤ t.applyNumber))

/-- At most one not-started WRITE stands for a slot, and only for a LASTING record (R139, R76); every DRAINING slot has exactly
one ERASE job and no other slot has one (R1); the backlog is ascending and holds DRAINING slots (R173). -/
def Obligations.JobsMatchSlots : Prop :=
  ∀ s t : State, step s = .next t →
    (s.writesWf → t.writesWf) ∧ (s.drainingHasJob → t.drainingHasJob) ∧
    (s.drainingHasJob → s.backlogWf → t.backlogWf)

/-- While the part is not RUNNING nothing volatile stands: no record, class quota or count, staged entry, claim, notice,
job or clean-up, and every port is IDLE with STARTED 1 (R166, R168). That roles and windows hold the values of
READY before it, and that the same holds without VDD, is the model's choice (log entry 3). -/
def Obligations.ClearedUntilReady : Prop :=
  ∀ s t : State, s.clearedWf → step s = .next t → t.clearedWf

/-- The laws hold in the state after a start-up with a blank NV Array (log entries 1 and 2), and POWER_UP and READY lead to
that state again. -/
def Obligations.LawsHoldAtReset : Prop :=
  State.reset.noticesWf ∧ State.reset.claimsWf ∧ State.reset.claimsLive ∧ State.reset.countsRight ∧
  State.reset.generationsWf ∧ State.reset.stagingWf ∧ State.reset.keysUnique ∧ State.reset.placesWf ∧
  State.reset.engineWf ∧ State.reset.applyNumberWf ∧ State.reset.markWf ∧ State.reset.writesWf ∧
  State.reset.drainingHasJob ∧ State.reset.backlogWf ∧ State.reset.clearedWf ∧ State.reset.p0IsAdmin ∧
  State.reset.freezesWf ∧
  ∃ s : State, exec (.powerUp .asMeant) State.reset = .next s ∧ exec .ready s = .next State.reset
end

