-- ==== Sys2Proof/Laws/State.lean ====
section
/-! SUPPORT. One lemma per field and update: what the small updates of the state change and what they leave. -/

namespace Sys2Proof.Machine

/-! ## Port maps -/

@[simp] theorem PortMap.get_set_self {α : Type} (m : PortMap α) (p : Port) (x : α) : (m.set p x).get p = x := by
  cases p <;> rfl

theorem PortMap.get_set_of_ne {α : Type} (m : PortMap α) {p q : Port} (x : α) (h : q ≠ p) :
    (m.set p x).get q = m.get q := by
  cases p <;> cases q <;> first | rfl | exact absurd rfl h

@[simp] theorem PortMap.set_set {α : Type} (m : PortMap α) (p : Port) (x y : α) :
    (m.set p x).set p y = m.set p y := by
  cases p <;> rfl

@[simp] theorem PortMap.set_get {α : Type} (m : PortMap α) (p : Port) : m.set p (m.get p) = m := by
  cases p <;> rfl

theorem PortMap.set_comm {α : Type} (m : PortMap α) {p q : Port} (x y : α) (h : p ≠ q) :
    (m.set p x).set q y = (m.set q y).set p x := by
  cases p <;> cases q <;> first | rfl | exact absurd rfl h

@[simp] theorem PortMap.get_build {α : Type} (f : Port → α) (p : Port) : (PortMap.build f).get p = f p := by
  cases p <;> rfl

@[simp] theorem PortMap.get_all {α : Type} (x : α) (p : Port) : (PortMap.all x).get p = x := by
  cases p <;> rfl

@[simp] theorem PortMap.get_map {α β : Type} (m : PortMap α) (f : α → β) (p : Port) :
    (m.map f).get p = f (m.get p) := by
  cases p <;> rfl

/-- Two maps with the same value for every port are the same. -/
theorem PortMap.ext_get {α : Type} {m n : PortMap α} (h : ∀ p : Port, m.get p = n.get p) : m = n := by
  cases m; cases n
  simp only [PortMap.mk.injEq]
  exact ⟨h .p0, h .p1, h .p2⟩

/-! ## A port's state -/

@[simp] theorem State.setPort_nv (s : State) (p : Port) (x : PortState) : (s.setPort p x).nv = s.nv := rfl
@[simp] theorem State.setPort_slots (s : State) (p : Port) (x : PortState) : (s.setPort p x).slots = s.slots := rfl
@[simp] theorem State.setPort_classes (s : State) (p : Port) (x : PortState) :
    (s.setPort p x).classes = s.classes := rfl
@[simp] theorem State.setPort_staged (s : State) (p : Port) (x : PortState) : (s.setPort p x).staged = s.staged := rfl
@[simp] theorem State.setPort_applyNumber (s : State) (p : Port) (x : PortState) :
    (s.setPort p x).applyNumber = s.applyNumber := rfl
@[simp] theorem State.setPort_claims (s : State) (p : Port) (x : PortState) : (s.setPort p x).claims = s.claims := rfl
@[simp] theorem State.setPort_rights (s : State) (p : Port) (x : PortState) : (s.setPort p x).rights = s.rights := rfl
@[simp] theorem State.setPort_notices (s : State) (p : Port) (x : PortState) :
    (s.setPort p x).notices = s.notices := rfl
@[simp] theorem State.setPort_persist (s : State) (p : Port) (x : PortState) :
    (s.setPort p x).persist = s.persist := rfl
@[simp] theorem State.setPort_startup (s : State) (p : Port) (x : PortState) :
    (s.setPort p x).startup = s.startup := rfl
@[simp] theorem State.setPort_vdd (s : State) (p : Port) (x : PortState) : (s.setPort p x).vdd = s.vdd := rfl
@[simp] theorem State.setPort_resetnLow (s : State) (p : Port) (x : PortState) :
    (s.setPort p x).resetnLow = s.resetnLow := rfl
@[simp] theorem State.setPort_pending (s : State) (p : Port) (x : PortState) :
    (s.setPort p x).pending = s.pending := rfl
@[simp] theorem State.setPort_ports (s : State) (p : Port) (x : PortState) :
    (s.setPort p x).ports = s.ports.set p x := rfl

@[simp] theorem State.port_setPort_self (s : State) (p : Port) (x : PortState) : (s.setPort p x).port p = x := by
  simp [State.port]

theorem State.port_setPort_of_ne (s : State) {p q : Port} (x : PortState) (h : q ≠ p) :
    (s.setPort p x).port q = s.port q := PortMap.get_set_of_ne _ _ h

@[simp] theorem State.setPort_setPort (s : State) (p : Port) (x y : PortState) :
    (s.setPort p x).setPort p y = s.setPort p y := by
  simp [State.setPort]

@[simp] theorem State.setPort_port (s : State) (p : Port) : s.setPort p (s.port p) = s := by
  simp [State.setPort, State.port]

/-- Placing an answer is what the claims call answering. -/
theorem State.placeAnswer_eq (s : State) (p : Port) (tag : Byte) (r : Reply) :
    s.placeAnswer p tag r = s.answers p tag r.result r.data := rfl

/-! ## The other small updates -/

@[simp] theorem State.setSlot_slots (s : State) (i : SlotId) (x : Slot) :
    (s.setSlot i x).slots = s.slots.set i.val x := rfl
@[simp] theorem State.setSlot_nv (s : State) (i : SlotId) (x : Slot) : (s.setSlot i x).nv = s.nv := rfl
@[simp] theorem State.setSlot_classes (s : State) (i : SlotId) (x : Slot) : (s.setSlot i x).classes = s.classes := rfl
@[simp] theorem State.setSlot_staged (s : State) (i : SlotId) (x : Slot) : (s.setSlot i x).staged = s.staged := rfl
@[simp] theorem State.setSlot_applyNumber (s : State) (i : SlotId) (x : Slot) :
    (s.setSlot i x).applyNumber = s.applyNumber := rfl
@[simp] theorem State.setSlot_claims (s : State) (i : SlotId) (x : Slot) : (s.setSlot i x).claims = s.claims := rfl
@[simp] theorem State.setSlot_rights (s : State) (i : SlotId) (x : Slot) : (s.setSlot i x).rights = s.rights := rfl
@[simp] theorem State.setSlot_notices (s : State) (i : SlotId) (x : Slot) : (s.setSlot i x).notices = s.notices := rfl
@[simp] theorem State.setSlot_persist (s : State) (i : SlotId) (x : Slot) : (s.setSlot i x).persist = s.persist := rfl
@[simp] theorem State.setSlot_startup (s : State) (i : SlotId) (x : Slot) : (s.setSlot i x).startup = s.startup := rfl
@[simp] theorem State.setSlot_ports (s : State) (i : SlotId) (x : Slot) : (s.setSlot i x).ports = s.ports := rfl
@[simp] theorem State.setSlot_pending (s : State) (i : SlotId) (x : Slot) : (s.setSlot i x).pending = s.pending := rfl

@[simp] theorem State.slot_setSlot_self (s : State) (i : SlotId) (x : Slot) : (s.setSlot i x).slot i = x := by
  simp [State.slot, State.setSlot]

theorem State.slot_setSlot_of_ne (s : State) {i j : SlotId} (x : Slot) (h : i ≠ j) :
    (s.setSlot i x).slot j = s.slot j := by
  have : i.val ≠ j.val := fun e => h (Fin.ext e)
  simp [State.slot, State.setSlot, this]

@[simp] theorem State.setClass_slots (s : State) (c : ClassId) (x : ClassDesc) : (s.setClass c x).slots = s.slots := rfl
@[simp] theorem State.setClass_claims (s : State) (c : ClassId) (x : ClassDesc) :
    (s.setClass c x).claims = s.claims := rfl
@[simp] theorem State.setClass_rights (s : State) (c : ClassId) (x : ClassDesc) :
    (s.setClass c x).rights = s.rights := rfl
@[simp] theorem State.setClass_notices (s : State) (c : ClassId) (x : ClassDesc) :
    (s.setClass c x).notices = s.notices := rfl
@[simp] theorem State.setClass_persist (s : State) (c : ClassId) (x : ClassDesc) :
    (s.setClass c x).persist = s.persist := rfl
@[simp] theorem State.setClass_classes (s : State) (c : ClassId) (x : ClassDesc) :
    (s.setClass c x).classes = s.classes.set c.val x := rfl

@[simp] theorem State.setStack_stack_self (s : State) (p : Port) (st : Stack) : (s.setStack p st).stack p = st := by
  simp [State.stack, State.setStack]

theorem State.setStack_stack_of_ne (s : State) {p q : Port} (st : Stack) (h : q ≠ p) :
    (s.setStack p st).stack q = s.stack q := PortMap.get_set_of_ne _ _ h

@[simp] theorem State.setStack_slots (s : State) (p : Port) (st : Stack) : (s.setStack p st).slots = s.slots := rfl
@[simp] theorem State.setStack_staged (s : State) (p : Port) (st : Stack) :
    (s.setStack p st).staged = s.staged.set p st := rfl

@[simp] theorem State.setClaim_claims (s : State) (k : Nat) (e : Option ClaimEntry) :
    (s.setClaim k e).claims = replaceClaim s.claims k e := rfl
@[simp] theorem State.setClaim_notices (s : State) (k : Nat) (e : Option ClaimEntry) :
    (s.setClaim k e).notices = s.notices := rfl
@[simp] theorem State.setClaim_rights (s : State) (k : Nat) (e : Option ClaimEntry) :
    (s.setClaim k e).rights = s.rights := rfl
@[simp] theorem State.setClaim_persist (s : State) (k : Nat) (e : Option ClaimEntry) :
    (s.setClaim k e).persist = s.persist := rfl

@[simp] theorem State.setWindow_roles (s : State) (i : WindowId) (w : Window) :
    (s.setWindow i w).rights.roles = s.rights.roles := rfl
@[simp] theorem State.setEntryState_roles (s : State) (i : WindowId) (e : EntryState) :
    (s.setEntryState i e).rights.roles = s.rights.roles := rfl

end Sys2Proof.Machine
end

