-- ==== Sys2Proof/Laws/Notices.lean ====
section
/-! SUPPORT. What a posting can do: each of the posting operations changes the notice queues and nothing else. -/

namespace Sys2Proof.Machine

@[simp] theorem NoticeQueue.postIf_true (n : Notice) (q : NoticeQueue) (c : Prop) [Decidable c] (h : c) :
    q.postIf c n = q.post n := if_pos h

@[simp] theorem NoticeQueue.postIf_false (n : Notice) (q : NoticeQueue) (c : Prop) [Decidable c] (h : ¬ c) :
    q.postIf c n = q := if_neg h

/-- A RESYNC queue stays as it is, whatever is posted (R129). -/
@[simp] theorem NoticeQueue.post_resync (n : Notice) : NoticeQueue.post .resync n = .resync := rfl

/-- A map with one value replaced, one port at a time. -/
theorem PortMap.set_eq_build {α : Type} (m : PortMap α) (p : Port) (x : α) :
    m.set p x = .build fun q => if q = p then x else m.get q :=
  PortMap.ext_get fun q => by cases p <;> cases q <;> rfl

/-- A posting to one port (R124, R125). -/
theorem State.deliver_eq (s : State) (p : Port) (n : Notice) :
    s.deliver p n = { s with
      notices := s.notices.set p ((s.notices.get p).postIf (s.rights.admits p n = true) n) } := by
  unfold State.deliver NoticeQueue.postIf
  split <;> simp

/-- A posting to each port of a set: the queue of each is as if it alone had been posted to (R124, R125). -/
theorem State.deliverSet_eq (s : State) (set : PortSet) (n : Notice) :
    s.deliverSet set n = { s with
      notices := .build fun q =>
        (s.notices.get q).postIf (set.get q = true ∧ s.rights.admits q n = true) n } := by
  obtain ⟨a, b, c⟩ := set
  cases a <;> cases b <;> cases c <;>
    simp [State.deliverSet, eachPort, State.deliver_eq, PortMap.get, PortMap.set, PortMap.build, NoticeQueue.postIf]

/-- A posting to the ADMIN ports, for a notice that names no key (R124). -/
theorem State.deliverAdmins_eq (s : State) (n : Notice) :
    s.deliverAdmins n = { s with
      notices := .build fun q =>
        (s.notices.get q).postIf (s.rights.roles.get q = .admin ∧ s.rights.admits q n = true) n } := by
  unfold State.deliverAdmins eachPort
  by_cases h0 : s.rights.roles.p0 = .admin <;> by_cases h1 : s.rights.roles.p1 = .admin <;>
    by_cases h2 : s.rights.roles.p2 = .admin <;>
    simp [h0, h1, h2, State.deliver_eq, PortMap.get, PortMap.set, PortMap.build, NoticeQueue.postIf]

/-- A notice that names no key passes the rights filter (R125). -/
theorem Rights.admits_of_key_eq_none (r : Rights) (p : Port) {n : Notice} (h : n.key = none) :
    r.admits p n = true := by
  simp [Rights.admits, h]

/-- A notice that names a key passes the filter where the port has READ on it (R125). -/
theorem Rights.admits_of_key_eq_some (r : Rights) (p : Port) {n : Notice} {k : Nat} (h : n.key = some k) :
    r.admits p n = r.allows p k .read := by
  simp [Rights.admits, h]

/-- A posting to one port, as each port's queue sees it. -/
theorem PortMap.get_set_postIf (m : PortMap NoticeQueue) (p q : Port) (c : Prop) [Decidable c] (n : Notice) :
    (m.set p ((m.get p).postIf c n)).get q = (m.get q).postIf (p = q ∧ c) n := by
  by_cases h : p = q
  · subst h; simp
  · rw [PortMap.get_set_of_ne _ _ (Ne.symm h), NoticeQueue.postIf_false _ _ _ (fun x => h x.1)]

end Sys2Proof.Machine
end

