-- ==== Sys2Proof/Laws/Claims.lean ====
section
/-! SUPPORT. What the Claim Table's operations can do: look-up, replacement, hand-over and expiry. -/

namespace Sys2Proof.Machine

/-- The look-up of a key finds an entry of the table for that key. -/
theorem State.claimOn_eq_some {s : State} {k : Nat} {e : ClaimEntry} (h : s.claimOn k = some e) :
    e ∈ s.claims ∧ e.key = k :=
  ⟨List.mem_of_find?_eq_some h, by simpa using List.find?_some h⟩

/-- No entry is found exactly where no entry has the key. -/
theorem State.claimOn_eq_none_iff (s : State) (k : Nat) : s.claimOn k = none ↔ ∀ e ∈ s.claims, e.key ≠ k := by
  simp [State.claimOn]

/-- The entry found is the one that stands alone under its key. -/
theorem State.claimOn_of_split {s : State} {k : Nat} {a b : List ClaimEntry} {e : ClaimEntry}
    (hs : s.claims = a ++ e :: b) (hk : e.key = k) (ha : ∀ x ∈ a, x.key ≠ k) : s.claimOn k = some e := by
  unfold State.claimOn
  rw [hs, List.find?_append, List.find?_eq_none.mpr fun x hx => by simpa using ha x hx]
  simp [hk]

/-- A replacement under a key that no entry has changes nothing. -/
theorem replaceClaim_of_absent (l : List ClaimEntry) (k : Nat) (new : Option ClaimEntry)
    (h : ∀ e ∈ l, e.key ≠ k) : replaceClaim l k new = l := by
  induction l with
  | nil => rfl
  | cons x l ih =>
    rw [List.forall_mem_cons] at h
    simp only [replaceClaim] at ih ⊢
    rw [List.filterMap_cons, if_neg h.1, ih h.2]

/-- A replacement acts on the one entry under the key. -/
theorem replaceClaim_of_split (a b : List ClaimEntry) (e : ClaimEntry) (new : Option ClaimEntry)
    (h : ∀ x ∈ a ++ b, x.key ≠ e.key) : replaceClaim (a ++ e :: b) e.key new = a ++ new.toList ++ b := by
  have ha := replaceClaim_of_absent a e.key new fun x hx => h x (List.mem_append_left _ hx)
  have hb := replaceClaim_of_absent b e.key new fun x hx => h x (List.mem_append_right _ hx)
  simp only [replaceClaim] at ha hb ⊢
  rw [List.filterMap_append, List.filterMap_cons, ha, hb]
  cases new <;> simp

/-- A hand-over: the entry freed, or held by its first waiter, who is told (R89). -/
theorem State.handOn_eq (s : State) (e : ClaimEntry) :
    s.handOn e = { s with
      claims := replaceClaim s.claims e.key e.handOn
      notices :=
        match e.waiters with
        | [] => s.notices
        | w :: _ => s.notices.set w.port
            ((s.notices.get w.port).postIf (s.rights.allows w.port e.key .read = true) (.claimGranted e.key)) } := by
  unfold State.handOn ClaimEntry.handOn
  cases e.waiters with
  | nil => rfl
  | cons w rest =>
    simp only [State.deliver_eq]
    rfl

/-- An expiry is CLAIM_EXPIRED to the holder, and then the hand-over (R90). -/
theorem State.expireClaim_eq (s : State) (e : ClaimEntry) :
    s.expireClaim e = ({ s with
      notices := s.notices.set e.holder ((s.notices.get e.holder).postIf
        (s.rights.allows e.holder e.key .read = true) (.claimExpired e.key)) }).handOn e := by
  simp only [State.expireClaim, State.deliver_eq]
  rfl

/-! ## Ticks (R83, R85) -/

/-- What a tick leaves of a claim entry (R85, R90). -/
def ClaimEntry.ticked (e : ClaimEntry) : Option ClaimEntry :=
  if e.remaining = 1 then e.handOn else some { e with remaining := e.remaining - 1 }

/-- The queue of a port after a tick at a claim entry (R90). -/
def State.tickQueue (s : State) (q : Port) (queue : NoticeQueue) (e : ClaimEntry) : NoticeQueue :=
  (queue.postIf (e.remaining = 1 ∧ e.holder = q ∧ s.rights.allows q e.key .read = true) (.claimExpired e.key)).postIf
    (e.remaining = 1 ∧ e.waiters.head?.map Waiter.port = some q ∧ s.rights.allows q e.key .read = true)
    (.claimGranted e.key)

theorem ClaimEntry.ticked_key {e e' : ClaimEntry} (h : e.ticked = some e') : e'.key = e.key := by
  unfold ClaimEntry.ticked ClaimEntry.handOn at h
  repeat' split at h
  all_goals cases h <;> rfl

/-- A tick at an entry: the entry, and the queues (R85, R90). -/
theorem State.tickClaim_eq {s : State} {k : Nat} {e : ClaimEntry} (h : s.claimOn k = some e) :
    s.tickClaim k = { s with
      claims := replaceClaim s.claims k e.ticked
      notices := .build fun q => s.tickQueue q (s.notices.get q) e } := by
  obtain ⟨-, rfl⟩ := State.claimOn_eq_some h
  unfold State.tickClaim ClaimEntry.ticked State.tickQueue
  rw [h]
  by_cases h1 : e.remaining = 1
  · simp only [h1, if_true, State.expireClaim_eq, State.handOn_eq, true_and]
    congr 1
    refine PortMap.ext_get fun q => ?_
    have hc : ∀ p : Port, (p = q ∧ s.rights.allows p e.key .read = true) =
        (p = q ∧ s.rights.allows q e.key .read = true) :=
      fun p => propext ⟨fun ⟨a, b⟩ => ⟨a, a ▸ b⟩, fun ⟨a, b⟩ => ⟨a, a ▸ b⟩⟩
    cases e.waiters with
    | nil => simp [PortMap.get_set_postIf, hc]
    | cons w rest => rw [PortMap.get_set_postIf, PortMap.get_set_postIf]; simp [hc]
  · simp only [h1, if_false, State.setClaim, false_and, NoticeQueue.postIf_false, not_false_eq_true]
    rfl

/-- A tick at each entry of a list, where no key stands twice: every entry and every queue (R83, R85, R90). -/
theorem State.foldl_tickClaim_eq (todo : List ClaimEntry) : ∀ (s : State) (done : List ClaimEntry),
    s.claims = done ++ todo → (s.claims.map ClaimEntry.key).Nodup →
    (todo.map ClaimEntry.key).foldl State.tickClaim s = { s with
      claims := done ++ todo.filterMap ClaimEntry.ticked
      notices := .build fun q => todo.foldl (s.tickQueue q) (s.notices.get q) } := by
  induction todo with
  | nil =>
    intro s done h _
    obtain ⟨_, _, _, _, _, _, _, n, _, _, _, _, _, _⟩ := s
    simp_all only [List.map_nil, List.foldl_nil, List.filterMap_nil, State.mk.injEq, true_and, and_true]
    exact PortMap.ext_get fun q => by simp
  | cons e todo ih =>
    intro s done h hn
    rw [h] at hn
    have hn' := hn
    rw [List.map_append, List.map_cons, List.nodup_append] at hn
    obtain ⟨hd, ht, hdt⟩ := hn
    obtain ⟨he, ht⟩ := List.nodup_cons.mp ht
    have ha : ∀ x ∈ done, x.key ≠ e.key := fun x hx =>
      hdt _ (List.mem_map_of_mem hx) _ (List.mem_cons_self)
    have hb : ∀ x ∈ todo, x.key ≠ e.key := fun x hx hk => he (hk ▸ List.mem_map_of_mem hx)
    have hs := State.tickClaim_eq (State.claimOn_of_split h rfl ha)
    rw [h, replaceClaim_of_split _ _ _ _ (by
      intro x hx; rcases List.mem_append.mp hx with hx | hx; exacts [ha x hx, hb x hx])] at hs
    rw [List.map_cons, List.foldl_cons, hs, ih _ (done ++ e.ticked.toList) rfl]
    · cases ht' : e.ticked <;> simp [ht'] <;> rfl
    · refine hn'.sublist ?_
      rw [List.append_assoc, List.map_append, List.map_append, List.map_append]
      refine (List.Sublist.refl _).append ?_
      cases ht' : e.ticked with
      | none => exact List.sublist_cons_self _ _
      | some e' => simp [ClaimEntry.ticked_key ht']

end Sys2Proof.Machine
end

