-- ==== Sys2Proof/Laws/Engine.lean ====
section
/-! SUPPORT. What the Persist Engine's shared operations can do: a job that joins the queue, a place that is released, the
durable mark, and the end of a job. -/

namespace Sys2Proof.Machine

/-! ## A job joins the queue (R139, R144) -/

theorem Persist.enqueue_of_idle (nv : NvArray) (pe : Persist) (j : Job) (h : pe.engine = .idle) (hq : pe.queue = []) :
    pe.enqueue nv j = { pe with queue := [], engine := .busy (startAttempt nv j 1) } := by
  simp [Persist.enqueue, h, hq, Persist.takeHead]

theorem Persist.enqueue_of_not_idle (nv : NvArray) (pe : Persist) (j : Job) (h : pe.engine ≠ .idle) :
    pe.enqueue nv j = { pe with queue := pe.queue ++ [j] } := by
  unfold Persist.enqueue
  split <;> simp_all

@[simp] theorem Persist.enqueue_mark (nv : NvArray) (pe : Persist) (j : Job) : (pe.enqueue nv j).mark = pe.mark := by
  unfold Persist.enqueue Persist.takeHead
  split <;> (try split) <;> rfl

@[simp] theorem Persist.enqueue_requests (nv : NvArray) (pe : Persist) (j : Job) :
    (pe.enqueue nv j).requests = pe.requests := by
  unfold Persist.enqueue Persist.takeHead
  split <;> (try split) <;> rfl

/-- The head job that is taken goes on holding its place: taking it changes none of the jobs. -/
theorem Persist.takeHead_jobs (nv : NvArray) (pe : Persist) (h : pe.engine = .idle) :
    (pe.takeHead nv).jobs.Perm pe.jobs := by
  unfold Persist.takeHead
  split
  · simp [Persist.jobs, h, Engine.job, Engine.faultRecord]
  · rename_i j rest hq
    simp [Persist.jobs, h, hq, Engine.job, Engine.faultRecord, startAttempt]

/-- A job that joins the queue is one job more (R139). -/
theorem Persist.enqueue_jobs (nv : NvArray) (pe : Persist) (j : Job) : (pe.enqueue nv j).jobs.Perm (j :: pe.jobs) := by
  unfold Persist.enqueue
  split
  · rename_i h
    refine (Persist.takeHead_jobs nv { pe with queue := pe.queue ++ [j] } h).trans ?_
    simp [Persist.jobs, h, Engine.job, Engine.faultRecord, List.perm_append_singleton]
  · simp only [Persist.jobs, List.append_assoc, List.singleton_append]
    exact List.perm_middle

/-- A job that joins the queue, as the claims put it (R139, R144). -/
theorem Persist.enqueue_eq (nv : NvArray) (pe : Persist) (j : Job) : pe.enqueue nv j = pe.withJob nv j := by
  unfold Persist.enqueue Persist.withJob Persist.takeHead
  split
  · rename_i h
    split <;> simp_all
  · split <;> simp_all

/-! ## A released place (R142) -/

/-- The backlog takes a released place where it is not empty, and nothing else happens. -/
theorem State.fillPlace_eq (s : State) :
    s.fillPlace = { s with
      persist := { s.persist with queue := s.persist.queue ++ (s.startup.backlog.head?.map cleanupJob).toList }
      startup := { s.startup with backlog := s.startup.backlog.tail } } := by
  unfold State.fillPlace
  split
  · rename_i h
    obtain ⟨_, _, _, _, _, _, _, _, _, ⟨_, _, _⟩, _, _, _, _⟩ := s
    simp_all
  · rename_i h
    simp [h]

/-! ## The durable mark (R159, R161) -/

/-- The jobs and the apply number give the mark (R159). -/
theorem Persist.computedMark_eq_markOf (pe : Persist) (n : Nat) : pe.computedMark n = markOf pe.jobs n := rfl

/-- The release of one port's request (R161). -/
theorem State.releaseRequest_eq (p : Port) (s : State) :
    s.releaseRequest p = { s with
      persist := { s.persist with
        requests := s.persist.requests.set p (if s.persist.due p then none else s.persist.requests.get p) }
      notices := s.notices.set p ((s.notices.get p).postIf (s.persist.due p = true) (.durable s.persist.mark)) } := by
  unfold State.releaseRequest NoticeQueue.postIf
  split
  · rw [State.deliver_eq]
    simp [Rights.admits, Notice.key, NoticeQueue.postIf]
  · simp

/-- The mark is recomputed, and the requests that it reaches end with DURABLE (R159, R161). -/
theorem State.remark_eq (s : State) :
    s.remark = { s with
      persist := { s.persist with
        mark := markOf s.persist.jobs s.applyNumber
        requests := s.requestsLeft (markOf s.persist.jobs s.applyNumber) }
      notices := .build fun q =>
        (s.notices.get q).postIf (s.reached (markOf s.persist.jobs s.applyNumber) q = true)
          (.durable (markOf s.persist.jobs s.applyNumber)) } := by
  simp only [State.remark, eachPort, State.releaseRequest_eq, Persist.computedMark_eq_markOf]
  simp only [Persist.due, State.requestsLeft, State.reached, PortMap.build, PortMap.get, PortMap.set]
  rfl

/-! ## The end of a job (R149, R150) -/

/-- What the end of a job leaves unchanged. -/
theorem State.endJob_frame (s : State) (marks : Bool) :
    (s.endJob marks).nv = s.nv ∧ (s.endJob marks).slots = s.slots ∧ (s.endJob marks).classes = s.classes ∧
      (s.endJob marks).staged = s.staged ∧ (s.endJob marks).applyNumber = s.applyNumber ∧
      (s.endJob marks).claims = s.claims ∧ (s.endJob marks).rights = s.rights ∧
      (s.endJob marks).ports = s.ports ∧ (s.endJob marks).pending = s.pending ∧
      (s.endJob marks).startup.state = s.startup.state ∧ (s.endJob marks).startup.cause = s.startup.cause := by
  unfold State.endJob State.goOn
  simp only [State.fillPlace_eq]
  cases marks <;> simp only [State.remark_eq] <;> split <;> simp

/-! ## The pause limit (R155) -/

/-- A tick at the pause limit (R155): the limit one less, or the pause ended with PAUSE_ENDED to its holder. -/
theorem State.tickPause_eq (s : State) : s.tickPause = { s with
    persist :=
      match s.persist.engine with
      | .pausing f pz =>
        if pz.limit = 1 then s.persist.endPause s.nv
        else { s.persist with engine := .pausing f { pz with limit := pz.limit - 1 } }
      | .paused w pz =>
        if pz.limit = 1 then s.persist.endPause s.nv
        else { s.persist with engine := .paused w { pz with limit := pz.limit - 1 } }
      | _ => s.persist
    notices := .build fun q =>
      (s.notices.get q).postIf (s.persist.engine.pause = some ⟨q, 1⟩) (.pauseEnded .limit) } := by
  unfold State.tickPause
  have ended : ∀ pz : Pause, s.persist.engine.pause = some pz → pz.limit = 1 →
      s.endPause.deliver pz.holder (.pauseEnded .limit) = { s with
        persist := s.persist.endPause s.nv
        notices := .build fun q =>
          (s.notices.get q).postIf (s.persist.engine.pause = some ⟨q, 1⟩) (.pauseEnded .limit) } := by
    rintro ⟨p, limit⟩ h rfl
    simp only [State.deliver_eq, State.endPause, PortMap.set_eq_build, h]
    congr 1
    refine PortMap.ext_get fun q => ?_
    by_cases hq : q = p
    · subst hq; simp [Rights.admits, Notice.key]
    · simp [hq, Ne.symm hq]
  cases he : s.persist.engine with
  | pausing f pz =>
    have hp : s.persist.engine.pause = some pz := by rw [he]; rfl
    have := ended pz hp
    simp only [Engine.pause, he] at this ⊢
    by_cases hl : pz.limit = 1
    · simp only [hl, if_true, this hl]
      congr!
    · have hn : ∀ q, ¬ (some pz = some (⟨q, 1⟩ : Pause)) := by rintro q h; exact hl (Option.some.inj h ▸ rfl)
      simp only [hl, if_false, hn, NoticeQueue.postIf_false, not_false_eq_true]
      rfl
  | paused w pz =>
    have hp : s.persist.engine.pause = some pz := by rw [he]; rfl
    have := ended pz hp
    simp only [Engine.pause, he] at this ⊢
    by_cases hl : pz.limit = 1
    · simp only [hl, if_true, this hl]
      congr!
    · have hn : ∀ q, ¬ (some pz = some (⟨q, 1⟩ : Pause)) := by rintro q h; exact hl (Option.some.inj h ▸ rfl)
      simp only [hl, if_false, hn, NoticeQueue.postIf_false, not_false_eq_true]
      rfl
  | _ => simp only [Engine.pause, reduceCtorEq, NoticeQueue.postIf_false, not_false_eq_true]; rfl

end Sys2Proof.Machine
end

