-- ==== Sys2Proof/Laws/Slots.lean ====
section
/-! SUPPORT. What a search over the slots finds, and what the look-ups of a key answer. -/

namespace Sys2Proof.Machine

/-- The lowest slot of which `f` holds: `f` holds of it and of no lower one. -/
theorem lowestSlot_eq_some_iff (slots : Vector Slot Config.slotCount) (f : Slot → Bool) (i : SlotId) :
    lowestSlot slots f = some i ↔ f slots[i.val] = true ∧ ∀ j : SlotId, j < i → f slots[j.val] = false := by
  unfold lowestSlot
  constructor
  · intro h
    obtain ⟨n, hn, h⟩ := Option.bind_eq_some_iff.mp h
    split at h
    · obtain ⟨rfl⟩ := Option.some.inj h
      rw [List.findIdx?_eq_some_iff_getElem] at hn
      obtain ⟨_, h1, h2⟩ := hn
      refine ⟨by simpa using h1, fun j hj => ?_⟩
      simpa using h2 j.val hj
    · simp at h
  · rintro ⟨h1, h2⟩
    have : slots.toList.findIdx? f = some i.val := by
      rw [List.findIdx?_eq_some_iff_getElem]
      refine ⟨by simp, by simpa using h1, fun j hj => ?_⟩
      simpa using h2 ⟨j, Nat.lt_trans hj i.isLt⟩ hj
    simp [this]

/-- No slot is found exactly where `f` holds of none. -/
theorem lowestSlot_eq_none_iff (slots : Vector Slot Config.slotCount) (f : Slot → Bool) :
    lowestSlot slots f = none ↔ ∀ i : SlotId, f slots[i.val] = false := by
  unfold lowestSlot
  constructor
  · intro h i
    by_contra hf
    have hlt : List.findIdx f slots.toList < slots.toList.length :=
      List.findIdx_lt_length_of_exists ⟨slots[i.val], by simp, by simpa using hf⟩
    rw [List.findIdx?_eq_some_of_exists ⟨slots[i.val], by simp, by simpa using hf⟩] at h
    simp at hlt
    simp [hlt] at h
  · intro h
    have : slots.toList.findIdx? f = none := by
      rw [List.findIdx?_eq_none_iff]
      intro x hx
      obtain ⟨n, hn, rfl⟩ := List.getElem_of_mem hx
      simpa using h ⟨n, by simpa using hn⟩
    simp [this]

end Sys2Proof.Machine
end

