-- ==== Sys2Proof/Laws/Staging.lean ====
section
/-! SUPPORT. What the Staging Unit's and the Apply Logic's shared operations can do. -/

namespace Sys2Proof.Machine

/-! ## Entries and changesets -/

/-- The entry found for a key stands in the changeset under that key. -/
theorem Changeset.entryFor_eq_some {c : Changeset} {k : Nat} {e : Entry} (h : Changeset.entryFor c k = some e) :
    e ∈ c ∧ e.key = k :=
  ⟨List.mem_of_find?_eq_some h, by simpa using List.find?_some h⟩

/-- No entry is found exactly where the changeset holds none for the key. -/
theorem Changeset.entryFor_eq_none_iff (c : Changeset) (k : Nat) :
    Changeset.entryFor c k = none ↔ ∀ e ∈ c, e.key ≠ k := by
  simp [Changeset.entryFor]

/-- An entry whose key is new to the changeset is placed at its end (R50). -/
theorem placeEntry_of_absent (c : Changeset) (e : Entry) (h : ∀ x ∈ c, x.key ≠ e.key) :
    placeEntry c e = c ++ [e] := by
  induction c with
  | nil => rfl
  | cons x c ih =>
    rw [List.forall_mem_cons] at h
    rw [placeEntry, if_neg h.1, ih h.2]
    rfl

/-- An entry whose key the changeset holds is combined in the place of the earlier one, or vanishes with it (R51). -/
theorem placeEntry_of_split (a b : Changeset) (x e : Entry) (hx : x.key = e.key) (ha : ∀ y ∈ a, y.key ≠ e.key) :
    placeEntry (a ++ x :: b) e =
      match combine x.change e.change with
      | some ch => a ++ ⟨x.key, ch⟩ :: b
      | none => a ++ b := by
  induction a with
  | nil =>
    rw [List.nil_append, placeEntry, if_pos hx]
    cases combine x.change e.change <;> rfl
  | cons y a ih =>
    rw [List.forall_mem_cons] at ha
    rw [List.cons_append, placeEntry, if_neg ha.1, ih ha.2]
    cases combine x.change e.change <;> rfl

/-- A changeset holds no key that was in neither the changeset nor the entry placed in it. -/
theorem placeEntry_mem {c : Changeset} {e x : Entry} (h : x ∈ placeEntry c e) :
    x.key = e.key ∨ x ∈ c := by
  induction c with
  | nil => simp_all [placeEntry]
  | cons y c ih =>
    rw [placeEntry] at h
    split at h
    · rename_i hy
      split at h
      · obtain h | h := List.mem_cons.mp h
        · left; rw [h]; exact hy
        · right; exact List.mem_cons_of_mem _ h
      · right; exact List.mem_cons_of_mem _ h
    · obtain h | h := List.mem_cons.mp h
      · right; rw [h]; exact List.mem_cons_self
      · obtain h | h := ih h
        · exact .inl h
        · exact .inr (List.mem_cons_of_mem _ h)

/-- Placing an entry keeps a changeset at one entry for a key (R37). -/
theorem placeEntry_wf {c : Changeset} (e : Entry) (h : Changeset.wf c) : Changeset.wf (placeEntry c e) := by
  unfold Changeset.wf at h ⊢
  induction c with
  | nil => simp [placeEntry]
  | cons y c ih =>
    simp only [List.map_cons, List.nodup_cons] at h
    rw [placeEntry]
    split
    · split
      · simpa using h
      · exact h.2
    · rename_i hy
      simp only [List.map_cons, List.nodup_cons]
      refine ⟨fun hm => ?_, ih h.2⟩
      obtain ⟨x, hx, hk⟩ := List.mem_map.mp hm
      obtain hx | hx := placeEntry_mem hx
      · exact hy (hk ▸ hx)
      · exact h.1 (List.mem_map.mpr ⟨x, hx, hk⟩)

/-! ## An apply -/

/-- A refused apply changes nothing (R80). -/
theorem State.apply_of_refused {s : State} {p : Port} {mode : Persistence} {es : List Entry} {r : Result} {i : Nat}
    (h : s.applyCheck p mode es = some (r, i)) : s.apply p mode es = (s, .refusedAt r i) := by
  simp [State.apply, h]

/-- An apply that passes its checks answers the next apply number (R62, R73). -/
theorem State.apply_of_passed {s : State} {p : Port} {mode : Persistence} {es : List Entry}
    (h : s.applyCheck p mode es = none) :
    s.apply p mode es = (s.runApply mode es, .ok (enc32 (s.applyNumber + 1))) := by
  simp [State.apply, h]

/-- The LIVE record found for a key is in its slot, under the key. -/
theorem State.slot_of_liveRecord {s : State} {k : Nat} {i : SlotId} {r : Record} (h : s.liveRecord k = some (i, r)) :
    (s.slot i).holds k = true ∧ (s.slot i).record = some r := by
  obtain ⟨j, hj, h⟩ := Option.bind_eq_some_iff.mp h
  obtain ⟨r', hr, h⟩ := Option.map_eq_some_iff.mp h
  obtain ⟨rfl, rfl⟩ := Prod.mk.inj h
  exact ⟨((lowestSlot_eq_some_iff _ _ _).mp hj).1, hr⟩

end Sys2Proof.Machine
end

