-- ==== Sys2Proof/Laws/Apply.lean ====
section
/-! SUPPORT. What the checks and the effect of one entry of an apply can do, as the claims put them. -/

namespace Sys2Proof.Machine

/-! ## The queue and the table as the apply reads them -/

/-- A claim held by another port (R67). -/
theorem State.claimedByOther_eq (s : State) (p : Port) (k : Nat) : s.claimedByOther p k = s.heldByOther p k := rfl

/-- A not-started WRITE of the slot stands in the queue (R139). -/
theorem Persist.queuedWrite_isSome (pe : Persist) (i : SlotId) :
    (pe.queuedWrite i).isSome = pe.queue.any (Job.isWriteFor i) := by
  unfold Persist.queuedWrite Job.isWriteFor
  generalize pe.queue = q
  induction q with
  | nil => rfl
  | cons j q ih => rw [List.findSome?_cons]; cases h : j.writeFor i <;> simp [h, ih]

/-- A WRITE of the slot is in flight (R71). -/
theorem Persist.writeInFlight_eq (pe : Persist) (i : SlotId) :
    pe.writeInFlight i = pe.engine.job.toList.any (Job.isWriteFor i) := by
  unfold Persist.writeInFlight Job.isWriteFor
  cases pe.engine.job <;> simp

/-- A LASTING-mode SET updates the not-started WRITE of its slot and no other job (R141). -/
theorem Persist.coalesce_eq (pe : Persist) (i : SlotId) (v : Value) (n : Nat) :
    pe.coalesce i v n = { pe with queue := pe.queue.map fun j =>
      match j with
      | .slot (.write w) => if w.slot = i then .slot (.write { w with value := v, last := n }) else j
      | _ => j } := by
  unfold Persist.coalesce
  congr 2
  funext j
  unfold Job.coalesce
  cases j with
  | slot j => cases j <;> rfl
  | freeze => rfl

theorem Record.isLasting_iff (r : Record) : r.isLasting = true ↔ r.defn.persistence = .lasting := by
  simp [Record.isLasting]

/-- The LIVE record found for a key has the key. -/
theorem State.liveRecord_key {s : State} {k : Nat} {i : SlotId} {r : Record}
    (h : s.liveRecord k = some (i, r)) : r.key = k := by
  obtain ⟨h1, h2⟩ := State.slot_of_liveRecord h
  cases hs : s.slot i <;> simp_all [Slot.holds, Slot.record]

/-! ## The effect of one entry -/

/-- The effect of a SET entry (R74). -/
theorem State.runSet_eq (s : State) (mode : Persistence) (k : Nat) (v : Value) :
    s.runSet mode k v = s.appliedSet mode k v := by
  unfold State.runSet State.appliedSet
  cases h : s.liveRecord k with
  | none => rfl
  | some x =>
    obtain ⟨i, r⟩ := x
    have hk := State.liveRecord_key h
    have ho : (r.isLasting && mode == .transient) = decide (r.defn.persistence = .lasting ∧ mode = .transient) := by
      unfold Record.isLasting
      cases r.defn.persistence <;> cases mode <;> rfl
    simp only [State.deliverSet_eq, State.posted, Record.afterSet, ho, State.setJob, Persist.queuedWrite_isSome,
      Persist.writeInFlight_eq]
    have hl := r.isLasting_iff
    by_cases h1 : mode = .transient ∨ r.defn.persistence = .transient
    · have : (decide (mode = .transient) || !r.isLasting) = true := by
        unfold Record.isLasting
        cases hp : r.defn.persistence <;> simp_all
      simp [this, h1, State.runSetJob, Rights.admits, Notice.key, successor, State.setSlot]
    · have : (decide (mode = .transient) || !r.isLasting) = false := by
        unfold Record.isLasting
        cases hp : r.defn.persistence <;> cases mode <;> simp_all
      simp only [this, Bool.false_eq_true, if_false, h1]
      cases h2 : s.persist.queue.any (Job.isWriteFor i) with
      | true =>
        simp [State.runSetJob, Rights.admits, Notice.key, successor, State.setSlot, Persist.coalesce_eq]
        all_goals
          intro j _
          cases j with
          | slot j => cases j <;> rfl
          | freeze => rfl
      | false =>
        by_cases h3 : s.persist.engine.job.toList.any (Job.isWriteFor i) = false ∧ r.stored = some v
        · simp [h3, State.runSetJob, Rights.admits, Notice.key, successor, State.setSlot]
        · have : (s.persist.engine.job.toList.any (Job.isWriteFor i) = false && r.stored == some v) = false := by
            simpa using h3
          simp only [this, h3, if_false, Bool.false_eq_true]
          simp [State.runSetJob, Rights.admits, Notice.key, successor, State.setSlot, State.enqueue, State.writeJob,
            Persist.enqueue_eq, hk]

/-- The lowest-numbered slot, found by its index. -/
theorem lowestSlot_eq_find? (s : State) (f : Slot → Bool) :
    lowestSlot s.slots f = (List.finRange 384).find? fun i => f (s.slot i) := by
  apply Option.ext
  intro i
  rw [lowestSlot_eq_some_iff, List.find?_eq_some_iff_getElem]
  constructor
  · rintro ⟨h1, h2⟩
    refine ⟨h1, i.val, by simp, by simp, fun j hj => ?_⟩
    simpa [State.slot] using h2 ⟨j, Nat.lt_trans hj i.isLt⟩ hj
  · rintro ⟨h1, n, hn, he, h2⟩
    have he' : i.val = n := by simpa using congrArg Fin.val he.symm
    refine ⟨h1, fun j hj => ?_⟩
    have := h2 j.val (by have : j.val < i.val := hj; omega)
    simpa [State.slot] using this

/-- The effect of a CREATE entry (R75). -/
theorem State.runCreate_eq (s : State) (k : Nat) (d : Definition) (v : Value) :
    s.runCreate k d v = s.appliedCreate k d v := by
  unfold State.runCreate State.appliedCreate
  rw [lowestSlot_eq_find?]
  cases (List.finRange 384).find? fun i => (s.slot i).isFree with
  | none => rfl
  | some i =>
    simp only [State.deliverSet_eq, State.posted]
    cases d.persistence <;>
      simp [State.setSlot, State.setClass, State.enqueue, State.writeJob, Persist.enqueue_eq, newRecord, Rights.admits,
        Notice.key, PortMap.all]

/-- A notice posted to a sequence of ports, one notice a port (R93). -/
theorem State.deliver_waiters (s : State) (k : Nat) (n : Notice) (hn : n.key = some k) (ws : List Waiter)
    (h : (ws.map Waiter.port).Nodup) :
    ws.foldl (fun s w => s.deliver w.port n) s =
      { s with notices := s.posted (fun q => ws.any fun w => w.port == q) k n } := by
  induction ws generalizing s with
  | nil =>
    have : s.posted (fun q => ([] : List Waiter).any fun w => w.port == q) k n = s.notices :=
      PortMap.ext_get fun q => by simp [State.posted]
    rw [this]
    rfl
  | cons w ws ih =>
    obtain ⟨h1, h2⟩ := List.nodup_cons.mp (List.map_cons ▸ h)
    rw [List.foldl_cons, ih _ h2, State.deliver_eq]
    have : ∀ q, q = w.port → (ws.any fun x => x.port == q) = false := by
      rintro q rfl
      simp only [List.any_eq_false, beq_iff_eq]
      exact fun x hx e => h1 (by simpa using ⟨x, hx, e⟩)
    congr 1
    refine PortMap.ext_get fun q => ?_
    simp only [State.posted, PortMap.get_build, List.any_cons]
    by_cases hq : q = w.port
    · subst hq
      simp [this _ rfl, Rights.admits_of_key_eq_some _ _ hn]
    · rw [PortMap.get_set_of_ne _ _ hq]
      simp [Ne.symm hq]

/-- The claim on a retired key is freed, with CLAIM_VOID to its holder and waiters (R93). -/
theorem State.voidClaim_eq (s : State) (k : Nat) (h : s.claimsWf) :
    s.voidClaim k = { s with
      claims := s.claims.filter fun e => e.key != k
      notices := s.posted (fun q => s.claims.any fun e =>
        e.key == k && (e.holder == q || e.waiters.any fun w => w.port == q)) k (.claimVoid k) } := by
  unfold State.voidClaim
  have hf : replaceClaim s.claims k none = s.claims.filter fun e => e.key != k := by
    unfold replaceClaim
    rw [← List.filterMap_eq_filter]
    congr 1
    funext e
    by_cases he : e.key = k <;> simp [he, Option.guard]
  split
  · rename_i hc
    rw [State.claimOn_eq_none_iff] at hc
    have h1 : (s.claims.filter fun e => e.key != k) = s.claims := by
      rw [List.filter_eq_self]; simpa using hc
    have h2 : ∀ q, (s.claims.any fun e =>
        e.key == k && (e.holder == q || e.waiters.any fun w => w.port == q)) = false := by
      intro q
      simp only [List.any_eq_false, Bool.and_eq_true, beq_iff_eq, not_and]
      exact fun e he e' => absurd e' (hc e he)
    have h3 : s.posted (fun q => s.claims.any fun e =>
        e.key == k && (e.holder == q || e.waiters.any fun w => w.port == q)) k (.claimVoid k) = s.notices :=
      PortMap.ext_get fun q => by simp [State.posted, h2]
    rw [h1, h3]
  · rename_i e hc
    obtain ⟨hm, hk⟩ := State.claimOn_eq_some hc
    obtain ⟨-, hn, hw⟩ := h
    obtain ⟨-, hw1, hw2, -⟩ := hw e hm
    have hu : ∀ x ∈ s.claims, x.key = k → x = e := fun x hx hxk =>
      List.inj_on_of_nodup_map hn hx hm (hxk.trans hk.symm)
    have ha : ∀ q, (s.claims.any fun e => e.key == k && (e.holder == q || e.waiters.any fun w => w.port == q)) =
        (e.holder == q || e.waiters.any fun w => w.port == q) := by
      intro q
      rw [Bool.eq_iff_iff]
      simp only [List.any_eq_true, Bool.and_eq_true, beq_iff_eq]
      constructor
      · rintro ⟨x, hx, hxk, h⟩
        rwa [hu x hx hxk] at h
      · exact fun h => ⟨e, hm, hk, h⟩
    rw [State.deliver_waiters _ k _ rfl _ hw1, State.deliver_eq]
    simp only [State.setClaim, hf]
    congr 1
    refine PortMap.ext_get fun q => ?_
    simp only [State.posted, PortMap.get_build, ha]
    by_cases hq : q = e.holder
    · subst hq
      have : (e.waiters.any fun w => w.port == e.holder) = false := by
        simp only [List.any_eq_false, beq_iff_eq]
        exact fun x hx h => hw2 (by simpa using ⟨x, hx, h⟩)
      simp [this, Rights.admits, Notice.key]
      congr
    · rw [PortMap.get_set_of_ne _ _ hq]
      simp [Ne.symm hq]

/-- The effect of a RETIRE entry (R76). -/
theorem State.runRetire_eq (s : State) (k : Nat) (h : s.claimsWf) : s.runRetire k = s.appliedRetire k := by
  unfold State.runRetire State.appliedRetire
  cases hr : s.liveRecord k with
  | none => rfl
  | some x =>
    obtain ⟨i, r⟩ := x
    have hk := State.liveRecord_key hr
    have hl := r.isLasting_iff
    simp only
    rw [State.voidClaim_eq _ _ (by exact h)]
    simp only [State.deliverSet_eq, State.posted, State.vacate]
    have hu : ∀ q, (r.watchers.union (s.classDesc r.defn.cls).watchers).get q =
        (r.watchers.get q || (s.classDesc r.defn.cls).watchers.get q) := fun q => by cases q <;> rfl
    by_cases hp : r.defn.persistence = .lasting
    · simp [hp, hl.mpr hp, State.enqueue, State.eraseJob, Persist.enqueue_eq, State.setSlot, State.setClass, hk, hu,
        Rights.admits, Notice.key, Persist.cancelWrite, Job.isWriteFor]
      cases s.persist.queuedWrite i <;> rfl
    · simp [hp, mt hl.mp hp, State.setSlot, State.setClass, hu, Rights.admits, Notice.key]

/-! ## The checks of one entry -/

/-- The entry checks of one entry, as the claims put them: the running totals are the CREATEs before it (R63, R69). -/
theorem State.entryCheck_eq (s : State) (p : Port) (mode : Persistence) (passed : List ClassId) (before : List Entry)
    (e : Entry) (h1 : passed.length = creates before) (h2 : ∀ c, passed.count c = createsOf c before) :
    s.entryCheck p mode passed e = s.entryFailure p mode before e := by
  obtain ⟨k, ch⟩ := e
  unfold State.entryCheck State.entryFailure firstFailure firstFailing State.earlyChecks
  cases ch with
  | set v g =>
    simp only [State.rightCheck, State.existenceCheck, State.presentCheck, State.generationCheck, State.claimCheck,
      State.claimedByOther_eq, State.valueCheck, State.roomCheck, modeCheck, Change.need, Change.expect,
      State.unexpected, valueFailing]
    by_cases hr : s.rights.allows p k .stage = true
    · rcases hl : s.liveRecord k with _ | ⟨i, r⟩
      · simp [hr]
      · by_cases hc : s.heldByOther p k = true <;> rcases hv : checkValue r.defn.constraints r.live v with _ | x <;>
          rcases g with _ | g <;> cases mode <;> simp [hr, hc, hv]
        all_goals by_cases hg : g = r.generation <;> simp [hg]
    · simp [hr]
  | retire g =>
    simp only [State.rightCheck, State.existenceCheck, State.presentCheck, State.generationCheck, State.claimCheck,
      State.claimedByOther_eq, State.valueCheck, State.roomCheck, modeCheck, Change.need, Change.expect,
      State.unexpected]
    by_cases hr : s.rights.allows p k .full = true
    · rcases hl : s.liveRecord k with _ | ⟨i, r⟩
      · simp [hr]
      · by_cases hc : s.heldByOther p k = true <;>
          rcases g with _ | g <;> cases mode <;> simp [hr, hc]
        all_goals by_cases hg : g = r.generation <;> simp [hg]
    · simp [hr]
  | create d v =>
    simp only [State.rightCheck, State.existenceCheck, State.absentCheck, State.generationCheck, State.claimCheck,
      State.valueCheck, State.roomCheck, modeCheck, Change.need, Change.expect, valueFailing, Definition.reference,
      h1, h2, Nat.lt_succ_iff]
    by_cases hr : s.rights.allows p k .full = true
    · rcases hl : s.liveRecord k with _ | x
      · by_cases hd : s.keyDraining k = true
        · simp [hr, hd]
        · rcases hv : checkValue d.constraints (d.default.getD v) v with _ | x
          · by_cases h3 : (s.classDesc d.cls).quota ≤ (s.classDesc d.cls).count + createsOf d.cls before <;>
              by_cases h4 : s.countSlots Slot.isFree ≤ creates before <;> cases mode <;> simp [hr, hd, h3, h4]
          · simp [hr, hd]
      · simp [hr]
    · simp [hr]
end Sys2Proof.Machine
end

