-- ==== Sys2Proof/Laws/Bytes.lean ====
section
/-! SUPPORT. The fields of section 10.8 read back what they were written from. -/

namespace Sys2Proof.Machine

theorem u16_lt (hi lo : Byte) : u16 hi lo < 65536 := by
  have := hi.isLt; have := lo.isLt; unfold u16; omega

/-- A 2-byte field reads back its number. -/
theorem u16_enc16 {n : Nat} (h : n ≤ 65535) : u16 (BitVec.ofNat 8 (n / 256)) (BitVec.ofNat 8 n) = n := by
  simp only [u16, BitVec.toNat_ofNat]; omega

/-- A 4-byte field reads back its number. -/
theorem u32_enc32 {n : Nat} (h : n ≤ 4294967295) :
    u32 (BitVec.ofNat 8 (n / 65536 / 256)) (BitVec.ofNat 8 (n / 65536)) (BitVec.ofNat 8 (n / 256))
      (BitVec.ofNat 8 n) = n := by
  simp only [u32, u16, BitVec.toNat_ofNat]; omega

theorem enc16_eq (n : Nat) : enc16 n = [BitVec.ofNat 8 (n / 256), BitVec.ofNat 8 n] := rfl

theorem enc32_eq (n : Nat) : enc32 n = [BitVec.ofNat 8 (n / 65536 / 256), BitVec.ofNat 8 (n / 65536),
    BitVec.ofNat 8 (n / 256), BitVec.ofNat 8 n] := rfl

@[simp] theorem length_enc8 (n : Nat) : (enc8 n).length = 1 := rfl
@[simp] theorem length_enc16 (n : Nat) : (enc16 n).length = 2 := rfl
@[simp] theorem length_enc32 (n : Nat) : (enc32 n).length = 4 := rfl

theorem readKey_enc16 {k : Nat} (h : k ≤ 65535) :
    readKey (BitVec.ofNat 8 (k / 256)) (BitVec.ofNat 8 k) = if validKey k then some k else none := by
  simp [readKey, u16_enc16 h]

theorem validKey_iff (k : Nat) : validKey k = true ↔ 1 ≤ k ∧ k ≤ 65534 := by
  simp [validKey, Config.maxKey]

theorem validKey_le {k : Nat} (h : validKey k = true) : k ≤ 65535 := by
  have := (validKey_iff k).mp h; omega

/-- A command that carries a key alone reads the key, where it is one. -/
theorem readKeyAlone_enc16 {k : Nat} (h : k ≤ 65535) :
    readKeyAlone (enc16 k) = if validKey k then some k else none := by
  simp [enc16_eq, readKeyAlone, readKey_enc16 h]

/-- A 4-byte field reads back a word. -/
theorem word_enc32 (x : Word32) :
    BitVec.ofNat 32 (u32 (BitVec.ofNat 8 (x.toNat / 65536 / 256)) (BitVec.ofNat 8 (x.toNat / 65536))
      (BitVec.ofNat 8 (x.toNat / 256)) (BitVec.ofNat 8 x.toNat)) = x := by
  have hx : x.toNat ≤ 4294967295 := by have := x.isLt; omega
  rw [u32_enc32 hx]
  simp

/-- The encoding of a value that fits reads back the value. -/
theorem decodeValue_encode {v : Value} (h : v.fits) : decodeValue v.type v.encode = some v := by
  cases v with
  | integer x =>
    simp only [Value.type, Value.encode, enc32_eq, decodeValue, word_enc32]
  | enum c => rfl
  | flags x =>
    simp only [Value.type, Value.encode, enc32_eq, decodeValue, word_enc32]
  | text bytes =>
    have hb : bytes.length ≤ 255 := h
    simp only [Value.type, Value.encode, decodeValue, BitVec.toNat_ofNat]
    rw [if_pos (by omega)]

/-- A value's encoding at the front of the bytes is taken off and read back. -/
theorem takeValue_encode {v : Value} (h : v.fits) (rest : List Byte) :
    takeValue v.type (v.encode ++ rest) = some (v, rest) := by
  cases v with
  | integer x =>
    simp only [Value.type, Value.encode, enc32_eq, List.cons_append, List.nil_append, takeValue, word_enc32]
  | enum c => rfl
  | flags x =>
    simp only [Value.type, Value.encode, enc32_eq, List.cons_append, List.nil_append, takeValue, word_enc32]
  | text bytes =>
    have hb : bytes.length ≤ 255 := h
    have h' : (BitVec.ofNat 8 bytes.length).toNat = bytes.length := by
      simp only [BitVec.toNat_ofNat]; omega
    simp [Value.type, Value.encode, takeValue, h']

theorem readType_code (t : ValueType) : readType t.code = some t := by cases t <;> decide
theorem readPersistence_code (t : Persistence) : readPersistence t.code = some t := by cases t <;> decide
theorem readRight_code (r : Right) : readRight r.code = some r := by cases r <;> decide
theorem readPort_code (p : Port) : readPort (portCode p) = some p := by cases p <;> decide

theorem readClass_enc8 (c : ClassId) : readClass (BitVec.ofNat 8 c.val) = some c := by
  have := c.isLt
  have hc : c.val < 16 := c.isLt
  have h' : (BitVec.ofNat 8 c.val).toNat = c.val := by simp only [BitVec.toNat_ofNat]; omega
  simp [readClass, h', Config.classCount]

theorem readWindow_enc8 (i : WindowId) : readWindow (BitVec.ofNat 8 i.val) = some i := by
  have hc : i.val < 6 := i.isLt
  have h' : (BitVec.ofNat 8 i.val).toNat = i.val := by simp only [BitVec.toNat_ofNat]; omega
  simp [readWindow, h', Config.windowCount]

theorem readExpect_expectBytes {g : Option Nat} (h : validExpect g) (rest : List Byte) :
    readExpect (expectBytes g ++ rest) = some (g, rest) := by
  cases g with
  | none => simp [expectBytes, readExpect]
  | some g =>
    obtain ⟨h1, h2⟩ : 1 ≤ g ∧ g ≤ 65535 := h
    have h0 : ¬ g = 0 := by omega
    simp [expectBytes, readExpect, enc16_eq, u16_enc16 h2, h0]

/-- The parameters of a SET read back, whatever stands for the value. -/
theorem readSet_setBytes {k : Nat} {g : Option Nat} (ty : ValueType) (encoding : List Byte) (hk : validKey k = true)
    (hg : validExpect g) : readSet (setBytes k g ty encoding) = some ⟨k, g, decodeValue ty encoding⟩ := by
  have := readKey_enc16 (validKey_le hk)
  simp [setBytes, enc16_eq, readSet, this, hk, readExpect_expectBytes hg, readType_code]

/-- The parameters of a SET read back. -/
theorem readSet_setParams {k : Nat} {g : Option Nat} {v : Value} (hk : validKey k = true) (hg : validExpect g)
    (hv : v.fits) : readSet (setParams k g v) = some ⟨k, g, some v⟩ := by
  rw [setParams, readSet_setBytes _ _ hk hg, decodeValue_encode hv]

/-- The parameters of a RETIRE read back. -/
theorem readRetire_params {k : Nat} {g : Option Nat} (hk : validKey k = true) (hg : validExpect g) :
    readRetire (enc16 k ++ expectBytes g) = some (k, g) := by
  have h1 := readKey_enc16 (validKey_le hk)
  have h2 := readExpect_expectBytes hg []
  simp only [List.append_nil] at h2
  simp [enc16_eq, readRetire, h1, hk, h2]

/-- The parameters of a WINDOW read back. -/
theorem readWindowDef_params {i : WindowId} {d : WindowDef} (hlo : d.lo ≤ 65535) (hhi : d.hi ≤ 65535) :
    readWindowDef (windowParams i d) =
      if validKey d.lo = true ∧ validKey d.hi = true ∧ d.lo ≤ d.hi then some (i, d) else none := by
  have h1 := readKey_enc16 hlo
  have h2 := readKey_enc16 hhi
  rcases d with ⟨lo, hi, inv, ⟨r0, r1, r2⟩⟩
  have h3 : readInvert (if inv = true then 0x01#8 else 0x00#8) = some inv := by cases inv <;> decide
  simp only at h1 h2
  simp only [windowParams, enc8, enc16_eq, List.cons_append, List.nil_append, readWindowDef, readWindow_enc8, h1, h2,
    readRight_code, h3, Option.bind_some]
  by_cases hl : validKey lo = true <;> by_cases hh : validKey hi = true <;> by_cases hle : lo ≤ hi <;>
    simp [hl, hh, hle]

/-! ## The CRC-8 -/

/-- A shift of the register with a byte added in is a bit of the byte taken in, and the byte's other bits moved up. -/
theorem crcShift_xor (r b : Byte) : crcShift (r ^^^ b) = crcBit r b.msb ^^^ (b <<< 1) := by
  unfold crcShift crcBit
  rw [BitVec.msb_xor, BitVec.shiftLeft_xor_distrib]
  cases r.msb <;> cases b.msb <;> simp <;> ac_rfl

/-- A byte taken into the register is its bits taken in, the most significant first (R182). -/
theorem crcByte_eq (r b : Byte) : crcByte r b = (bitsOf b).foldl crcBit r := by
  have hm : ∀ (n : Nat), n < 8 → (b <<< n).msb = b.getLsbD (7 - n) := by
    intro n hn
    rw [BitVec.msb_eq_getLsbD_last, BitVec.getLsbD_shiftLeft]
    simp [show ¬ 7 < n by omega]
  have h8 : b <<< 8 = 0#8 := by ext i hi; simp
  unfold crcByte
  simp only [crcShift_xor, ← BitVec.shiftLeft_add]
  simp [bitsOf, hm, h8, BitVec.msb_eq_getLsbD_last]

/-- The CRC-8 of a frame is the register after the bits of its bytes (R182). -/
theorem crc8_eq (bytes : List Byte) : crc8 bytes = crcOfBits (bytes.flatMap bitsOf) := by
  unfold crc8 crcOfBits
  generalize 0xFF#8 = r
  induction bytes generalizing r with
  | nil => rfl
  | cons b bytes ih => rw [List.foldl_cons, List.flatMap_cons, List.foldl_append, ← crcByte_eq, ih]

end Sys2Proof.Machine
end

