-- ==== Sys2Proof/Laws/Forms.lean ====
section
/-! SUPPORT. What the readers of parameters read: each reads the parameters of its form, and no others. -/

namespace Sys2Proof.Machine

/-! ## Fields and codes -/

/-- A byte from a number that agrees with it in the last eight bits. -/
theorem byte_ofNat_toNat {n : Nat} {b : Byte} (h : n % 256 = b.toNat) : BitVec.ofNat 8 n = b := by
  apply BitVec.eq_of_toNat_eq; simpa using h

/-- Two bytes are the field of the number they read as. -/
theorem enc16_u16 (hi lo : Byte) : enc16 (u16 hi lo) = [hi, lo] := by
  have := hi.isLt; have := lo.isLt
  rw [enc16_eq, byte_ofNat_toNat (b := hi) (by unfold u16; omega), byte_ofNat_toNat (b := lo) (by unfold u16; omega)]

/-- Four bytes are the field of the word they read as. -/
theorem enc32_word (b3 b2 b1 b0 : Byte) : enc32 (BitVec.ofNat 32 (u32 b3 b2 b1 b0)).toNat = [b3, b2, b1, b0] := by
  have := b3.isLt; have := b2.isLt; have := b1.isLt; have := b0.isLt
  have h : (BitVec.ofNat 32 (u32 b3 b2 b1 b0)).toNat = u32 b3 b2 b1 b0 := by
    rw [BitVec.toNat_ofNat]; unfold u32 u16; omega
  rw [h, enc32_eq, byte_ofNat_toNat (b := b3) (by unfold u32 u16; omega),
    byte_ofNat_toNat (b := b2) (by unfold u32 u16; omega), byte_ofNat_toNat (b := b1) (by unfold u32 u16; omega),
    byte_ofNat_toNat (b := b0) (by unfold u32 u16; omega)]

/-- A key that is read is a key, and the bytes are its field. -/
theorem readKey_eq_some {hi lo : Byte} {k : Nat} (h : readKey hi lo = some k) :
    validKey k = true ∧ [hi, lo] = enc16 k := by
  unfold readKey at h
  split at h
  · obtain rfl := Option.some.inj h
    exact ⟨‹_›, (enc16_u16 hi lo).symm⟩
  · exact absurd h nofun

/-- An expected generation that is read stands at the front of the bytes. -/
theorem readExpect_eq_some {bytes rest : List Byte} {g : Option Nat} (h : readExpect bytes = some (g, rest)) :
    validExpect g ∧ bytes = expectBytes g ++ rest := by
  unfold readExpect at h
  split at h
  · split at h
    · simp only [Option.some.injEq, Prod.mk.injEq] at h
      obtain ⟨rfl, rfl⟩ := h
      exact ⟨trivial, by simp_all [expectBytes]⟩
    · split at h
      · split at h
        · rename_i g1 g0 rest'
          split at h
          · exact absurd h nofun
          · simp only [Option.some.injEq, Prod.mk.injEq] at h
            obtain ⟨rfl, rfl⟩ := h
            have := u16_lt g1 g0
            refine ⟨⟨by omega, by omega⟩, ?_⟩
            simp_all [expectBytes, enc16_u16]
        · exact absurd h nofun
      · exact absurd h nofun
  · exact absurd h nofun

/-- A code that is read is the code. -/
theorem readType_eq_some {b : Byte} {t : ValueType} (h : readType b = some t) : b = t.code := by
  unfold readType at h
  repeat' split at h
  all_goals cases h <;> simp_all [ValueType.code]

theorem readPersistence_eq_some {b : Byte} {t : Persistence} (h : readPersistence b = some t) : b = t.code := by
  unfold readPersistence at h
  repeat' split at h
  all_goals cases h <;> simp_all [Persistence.code]

theorem readClass_eq_some {b : Byte} {c : ClassId} (h : readClass b = some c) : [b] = enc8 c.val := by
  unfold readClass at h
  split at h
  · obtain rfl := Option.some.inj h
    simp [enc8]
  · exact absurd h nofun

/-- An encoding that is decoded is the value's. -/
theorem decodeValue_eq_some {ty : ValueType} {bytes : List Byte} {v : Value} (h : decodeValue ty bytes = some v) :
    v.type = ty ∧ v.fits ∧ bytes = v.encode := by
  unfold decodeValue at h
  split at h
  · obtain rfl := Option.some.inj h
    exact ⟨rfl, trivial, (enc32_word _ _ _ _).symm⟩
  · obtain rfl := Option.some.inj h
    exact ⟨rfl, trivial, rfl⟩
  · obtain rfl := Option.some.inj h
    exact ⟨rfl, trivial, (enc32_word _ _ _ _).symm⟩
  · rename_i n bytes
    split at h
    · obtain rfl := Option.some.inj h
      have := n.isLt
      refine ⟨rfl, ?_, ?_⟩
      · show bytes.length ≤ 255; omega
      · rw [Value.encode, byte_ofNat_toNat (b := n) (by omega)]
    · exact absurd h nofun
  · exact absurd h nofun

/-! ## Whole parameters -/

/-- A SET is read from the parameters of its form, and from no others (R43 step 1). -/
theorem readSet_eq_none_iff (params : List Byte) : readSet params = none ↔ ¬ isSetForm params := by
  refine ⟨fun h => ?_, fun h => ?_⟩
  · rintro ⟨k, g, ty, e, hk, hg, rfl⟩
    rw [readSet_setBytes ty e hk hg] at h
    exact absurd h nofun
  · by_contra hn
    obtain ⟨q, hq⟩ := Option.ne_none_iff_exists'.mp hn
    refine h ?_
    unfold readSet at hq
    split at hq
    · obtain ⟨k, hk, hq⟩ := Option.bind_eq_some_iff.mp hq
      split at hq
      · rename_i k1 k0 rest _ g t e hr
        obtain ⟨ty, ht, -⟩ := Option.map_eq_some_iff.mp hq
        obtain ⟨h1, h2⟩ := readKey_eq_some hk
        obtain ⟨h3, h4⟩ := readExpect_eq_some hr
        refine ⟨k, g, ty, e, h1, h3, ?_⟩
        simp [setBytes, ← h2, h4, readType_eq_some ht]
      · exact absurd hq nofun
    · exact absurd hq nofun

/-- A RETIRE is read from the parameters of its form, and from no others (R43 step 1, R49). -/
theorem readRetire_eq_none_iff (params : List Byte) : readRetire params = none ↔ ¬ isRetireForm params := by
  refine ⟨fun h => ?_, fun h => ?_⟩
  · rintro ⟨k, g, hk, hg, rfl⟩
    rw [readRetire_params hk hg] at h
    exact absurd h nofun
  · by_contra hn
    obtain ⟨q, hq⟩ := Option.ne_none_iff_exists'.mp hn
    refine h ?_
    unfold readRetire at hq
    split at hq
    · obtain ⟨k, hk, hq⟩ := Option.bind_eq_some_iff.mp hq
      split at hq
      · rename_i k1 k0 rest _ g hr
        obtain ⟨h1, h2⟩ := readKey_eq_some hk
        obtain ⟨h3, h4⟩ := readExpect_eq_some hr
        exact ⟨k, g, h1, h3, by simp [← h2, h4]⟩
      · exact absurd hq nofun
    · exact absurd hq nofun

/-- A key alone is read from the parameters of that form, and from no others (R43 step 1). -/
theorem readKeyAlone_eq_none_iff (params : List Byte) : readKeyAlone params = none ↔ ¬ isKeyForm params := by
  refine ⟨fun h => ?_, fun h => ?_⟩
  · rintro ⟨k, hk, rfl⟩
    rw [readKeyAlone_enc16 (validKey_le hk), if_pos hk] at h
    exact absurd h nofun
  · by_contra hn
    obtain ⟨k, hq⟩ := Option.ne_none_iff_exists'.mp hn
    refine h ?_
    unfold readKeyAlone at hq
    split at hq
    · exact ⟨k, readKey_eq_some hq⟩
    · exact absurd hq nofun

/-! ## A definition -/

/-- A value that is taken stands at the front of the bytes. -/
theorem takeValue_eq_some {ty : ValueType} {bytes rest : List Byte} {v : Value}
    (h : takeValue ty bytes = some (v, rest)) :
    v.type = ty ∧ v.fits ∧ bytes = v.encode ++ rest := by
  unfold takeValue at h
  split at h
  · obtain ⟨rfl, rfl⟩ := Prod.mk.inj (Option.some.inj h)
    exact ⟨rfl, trivial, by simp only [Value.encode, enc32_word]; rfl⟩
  · obtain ⟨rfl, rfl⟩ := Prod.mk.inj (Option.some.inj h)
    exact ⟨rfl, trivial, rfl⟩
  · obtain ⟨rfl, rfl⟩ := Prod.mk.inj (Option.some.inj h)
    exact ⟨rfl, trivial, by simp only [Value.encode, enc32_word]; rfl⟩
  · rename_i n bytes
    split at h
    · obtain ⟨rfl, rfl⟩ := Prod.mk.inj (Option.some.inj h)
      have := n.isLt
      have hl : (bytes.take n.toNat).length = n.toNat := by rw [List.length_take]; omega
      refine ⟨rfl, ?_, ?_⟩
      · show (bytes.take n.toNat).length ≤ 255; omega
      · rw [Value.encode, hl, byte_ofNat_toNat (b := n) (by omega), List.cons_append, List.take_append_drop]
    · exact absurd h nofun
  · exact absurd h nofun

/-- Constraints that are taken stand at the front of the bytes. -/
theorem takeConstraints_eq_some {ty : ValueType} {hasStep : Bool} {bytes rest : List Byte} {c : Constraints}
    (h : takeConstraints ty hasStep bytes = some (c, rest)) :
    c.type = ty ∧ c.fits ∧ bytes = c.encode ++ rest ∧ (c.hasStep = (hasStep && ty == .integer)) := by
  unfold takeConstraints at h
  split at h
  · split at h
    · split at h
      · split at h
        · obtain ⟨rfl, rfl⟩ := Prod.mk.inj (Option.some.inj h)
          rename_i s1 s0 _
          have := u16_lt s1 s0
          refine ⟨rfl, ?_, by simp only [Constraints.encode, enc32_word, enc16_u16]; rfl, by
            simp_all [Constraints.hasStep]⟩
          show u16 s1 s0 ≤ 65535
          omega
        · exact absurd h nofun
      · obtain ⟨rfl, rfl⟩ := Prod.mk.inj (Option.some.inj h)
        exact ⟨rfl, trivial, by simp only [Constraints.encode, enc32_word]; rfl, by simp_all [Constraints.hasStep]⟩
    · exact absurd h nofun
  · split at h
    · rename_i n bytes
      split at h
      · obtain ⟨rfl, rfl⟩ := Prod.mk.inj (Option.some.inj h)
        have := n.isLt
        have hl : (bytes.take n.toNat).length = n.toNat := by rw [List.length_take]; omega
        refine ⟨rfl, ?_, ?_, by simp [Constraints.hasStep]⟩
        · show (bytes.take n.toNat).length ≤ 255; omega
        · rw [Constraints.encode, hl, enc8, byte_ofNat_toNat (b := n) (by omega)]; simp
      · exact absurd h nofun
    · exact absurd h nofun
  · split at h
    · obtain ⟨rfl, rfl⟩ := Prod.mk.inj (Option.some.inj h)
      exact ⟨rfl, trivial, by simp only [Constraints.encode, enc32_word]; rfl, by simp [Constraints.hasStep]⟩
    · exact absurd h nofun
  · split at h
    · rename_i n bytes
      obtain ⟨rfl, rfl⟩ := Prod.mk.inj (Option.some.inj h)
      have := n.isLt
      exact ⟨rfl, by show n.toNat ≤ 255; omega, by simp [Constraints.encode, enc8], by simp [Constraints.hasStep]⟩
    · exact absurd h nofun

/-- Constraints at the front of the bytes are taken off and read back. -/
theorem takeConstraints_encode {c : Constraints} (h : c.fits) (rest : List Byte) :
    takeConstraints c.type c.hasStep (c.encode ++ rest) = some (c, rest) := by
  cases c with
  | integer mn mx step =>
    cases step with
    | none => simp only [Constraints.type, Constraints.hasStep, Constraints.encode, enc32_eq, takeConstraints, word_enc32,
      List.cons_append, List.nil_append, Bool.false_eq_true, if_false]
    | some n =>
      have hn : n ≤ 65535 := h
      simp only [Constraints.type, Constraints.hasStep, Constraints.encode, enc32_eq, enc16_eq, takeConstraints,
        word_enc32, u16_enc16 hn, List.cons_append, List.nil_append, if_true]
  | enum codes =>
    have hn : codes.length ≤ 255 := h
    have h' : (BitVec.ofNat 8 codes.length).toNat = codes.length := by simp only [BitVec.toNat_ofNat]; omega
    simp [Constraints.type, Constraints.encode, enc8, takeConstraints, h']
  | flags mask =>
    simp only [Constraints.type, Constraints.encode, enc32_eq, takeConstraints, word_enc32, List.cons_append,
      List.nil_append]
  | text n =>
    have hn : n ≤ 255 := h
    have h' : (BitVec.ofNat 8 n).toNat = n := by simp only [BitVec.toNat_ofNat]; omega
    simp [Constraints.type, Constraints.encode, enc8, takeConstraints, h']

/-- The option byte of a CREATE from its three bits, which are read back. -/
theorem createOptions_bits (a b c : Bool) :
    let o : Byte := (if a then 0x01#8 else 0x00#8) ||| (if b then 0x02#8 else 0x00#8) |||
      (if c then 0x04#8 else 0x00#8)
    o.toNat < 8 ∧ o.getLsbD 0 = a ∧ o.getLsbD 1 = b ∧ o.getLsbD 2 = c := by
  cases a <;> cases b <;> cases c <;> decide

/-- An option byte below 8 is made of its three bits. -/
theorem createOptions_of_bits (o : Byte) (h : o.toNat < 8) :
    o = (if o.getLsbD 0 then 0x01#8 else 0x00#8) ||| (if o.getLsbD 1 then 0x02#8 else 0x00#8) |||
      (if o.getLsbD 2 then 0x04#8 else 0x00#8) := by
  have key : ∀ n : Fin 8, BitVec.ofNat 8 n.val = (if (BitVec.ofNat 8 n.val).getLsbD 0 then 0x01#8 else 0x00#8) |||
      (if (BitVec.ofNat 8 n.val).getLsbD 1 then 0x02#8 else 0x00#8) |||
      (if (BitVec.ofNat 8 n.val).getLsbD 2 then 0x04#8 else 0x00#8) := by decide
  have := key ⟨o.toNat, h⟩
  simpa using this

/-- The default that an option bit announces, taken from the front of the bytes. -/
theorem takeDefault_eq_some {ty : ValueType} {present : Bool} {bytes rest : List Byte} {dflt : Option Value}
    (h : takeDefault ty present bytes = some (dflt, rest)) :
    dflt.isSome = present ∧ (∀ v, dflt = some v → v.fits ∧ v.type = ty) ∧
      bytes = (dflt.map Value.encode).getD [] ++ rest := by
  unfold takeDefault at h
  split at h
  · rename_i hb
    obtain ⟨⟨v, r⟩, hv, h⟩ := Option.map_eq_some_iff.mp h
    obtain ⟨rfl, rfl⟩ := Prod.mk.inj h
    obtain ⟨v1, v2, v3⟩ := takeValue_eq_some hv
    exact ⟨hb.symm, fun w hw => Option.some.inj hw ▸ ⟨v2, v1⟩, v3⟩
  · rename_i hb
    obtain ⟨rfl, rfl⟩ := Prod.mk.inj (Option.some.inj h)
    exact ⟨(Bool.eq_false_iff.mpr hb).symm, nofun, rfl⟩

/-- A default at the front of the bytes is taken off and read back. -/
theorem takeDefault_encode {ty : ValueType} {dflt : Option Value} (h : ∀ v, dflt = some v → v.fits ∧ v.type = ty)
    (rest : List Byte) :
    takeDefault ty dflt.isSome ((dflt.map Value.encode).getD [] ++ rest) = some (dflt, rest) := by
  cases dflt with
  | none => rfl
  | some v =>
    obtain ⟨hf, rfl⟩ := h v rfl
    simp [takeDefault, takeValue_encode hf]

/-- The initial value that an option bit announces, which is the rest of the bytes. -/
theorem takeInitial_eq_some {present : Bool} {bytes : List Byte} {initial : Option (List Byte)}
    (h : takeInitial present bytes = some initial) : initial.isSome = present ∧ bytes = initial.getD [] := by
  unfold takeInitial at h
  split at h
  · rename_i hb
    obtain rfl := Option.some.inj h
    exact ⟨hb.symm, rfl⟩
  · rename_i hb
    split at h
    · obtain rfl := Option.some.inj h
      exact ⟨(Bool.eq_false_iff.mpr hb).symm, ‹_›⟩
    · exact absurd h nofun

theorem takeInitial_getD (initial : Option (List Byte)) :
    takeInitial initial.isSome (initial.getD []) = some initial := by
  cases initial <;> simp [takeInitial]

/-- The parameters of a CREATE read back, whatever stands for the initial value. -/
theorem readCreate_createBytes {k : Nat} {d : Definition} {initial : Option (List Byte)} (hk : validKey k = true)
    (hd : d.fits) : readCreate (createBytes k d initial) = some ⟨k, d, initial⟩ := by
  obtain ⟨cls, pers, c, dflt⟩ := d
  obtain ⟨hc, hv⟩ := hd
  have h1 := readKey_enc16 (validKey_le hk)
  obtain ⟨h2, h3, h4, h5⟩ := createOptions_bits dflt.isSome initial.isSome c.hasStep
  have h6 : (c.hasStep && c.type != .integer) = false := by
    cases c with
    | integer _ _ s => simp [Constraints.type]
    | _ => rfl
  simp only [createBytes, enc16_eq, enc8, List.cons_append, List.nil_append, readCreate, h1, hk, if_true,
    Option.bind_some, readClass_enc8, readType_code, readPersistence_code, h3, h4, h5, h6, List.append_assoc,
    takeConstraints_encode hc, takeDefault_encode hv, takeInitial_getD, Bool.or_false, decide_eq_true_eq,
    Nat.not_le.mpr h2, if_false, Option.map_some]

/-- A CREATE is read from the parameters of its form, and from no others (R31, R43 step 1). -/
theorem readCreate_eq_none_iff (params : List Byte) : readCreate params = none ↔ ¬ isCreateForm params := by
  refine ⟨fun h => ?_, fun h => ?_⟩
  · rintro ⟨k, d, initial, hk, hd, rfl⟩
    rw [readCreate_createBytes hk hd] at h
    exact absurd h nofun
  · by_contra hn
    obtain ⟨q, hq⟩ := Option.ne_none_iff_exists'.mp hn
    refine h ?_
    unfold readCreate at hq
    split at hq
    · rename_i k1 k0 c t ps o rest
      obtain ⟨k, hk, hq⟩ := Option.bind_eq_some_iff.mp hq
      obtain ⟨cls, hc, hq⟩ := Option.bind_eq_some_iff.mp hq
      obtain ⟨ty, ht, hq⟩ := Option.bind_eq_some_iff.mp hq
      obtain ⟨pers, hp, hq⟩ := Option.bind_eq_some_iff.mp hq
      split at hq
      · exact absurd hq nofun
      · rename_i ho
        obtain ⟨⟨cons, r1⟩, h1, hq⟩ := Option.bind_eq_some_iff.mp hq
        obtain ⟨⟨dflt, r2⟩, h2, hq⟩ := Option.bind_eq_some_iff.mp hq
        obtain ⟨initial, h3, -⟩ := Option.map_eq_some_iff.mp hq
        obtain ⟨hkv, hke⟩ := readKey_eq_some hk
        obtain ⟨rfl, c2, rfl, c4⟩ := takeConstraints_eq_some h1
        obtain ⟨d1, d2, d3⟩ := takeDefault_eq_some h2
        obtain ⟨i1, i2⟩ := takeInitial_eq_some h3
        simp only [Bool.or_eq_true, decide_eq_true_eq, Bool.and_eq_true, not_or, not_and, bne_iff_ne, ne_eq, not_not,
          Nat.not_le] at ho
        have hstep : cons.hasStep = o.getLsbD 2 := by
          rw [c4]
          cases hb : o.getLsbD 2 with
          | false => rfl
          | true => simp [ho.2 hb]
        refine ⟨k, ⟨cls, pers, cons, dflt⟩, initial, hkv, ⟨c2, d2⟩, ?_⟩
        have hopt := createOptions_of_bits o ho.1
        rw [← d1, ← i1, ← hstep] at hopt
        simp only at d3 i2
        simp only [createBytes, ← hke, ← readClass_eq_some hc, ← hopt, readType_eq_some ht, readPersistence_eq_some hp,
          d3, i2, List.cons_append, List.nil_append, List.append_assoc]
    · exact absurd hq nofun

/-! ## The other commands -/

/-- Fields that are read stand in the bytes. -/
theorem readWindow_eq_some {b : Byte} {i : WindowId} (h : readWindow b = some i) : [b] = enc8 i.val := by
  unfold readWindow at h
  split at h
  · obtain rfl := Option.some.inj h
    simp [enc8]
  · exact absurd h nofun

theorem readLease_eq_some {hi lo : Byte} {n : Nat} (h : readLease hi lo = some n) :
    validLease n ∧ [hi, lo] = enc16 n := by
  unfold readLease at h
  split at h
  · obtain rfl := Option.some.inj h
    exact ⟨‹_›, (enc16_u16 hi lo).symm⟩
  · exact absurd h nofun

theorem readLease_enc16 {n : Nat} (h : validLease n) :
    readLease (BitVec.ofNat 8 (n / 256)) (BitVec.ofNat 8 n) = some n := by
  have h2 : n ≤ 65535 := by have := h.2; simp [Config.maxLease] at this; omega
  simp only [readLease, u16_enc16 h2]
  exact if_pos h

/-- A GET is read from the parameters of its form, and from no others (R15). -/
theorem readGet_eq_none_iff (params : List Byte) : readGet params = none ↔ ¬ isGetForm params := by
  refine ⟨fun h => ?_, fun h => ?_⟩
  · rintro ⟨k, o, hk, ho, rfl⟩
    have h1 := readKey_enc16 (validKey_le hk)
    simp only [List.mem_cons, List.not_mem_nil, or_false] at ho
    rcases ho with rfl | rfl | rfl | rfl <;> simp [enc16_eq, readGet, h1, hk] at h
  · by_contra hn
    obtain ⟨q, hq⟩ := Option.ne_none_iff_exists'.mp hn
    refine h ?_
    unfold readGet at hq
    split at hq
    · obtain ⟨k, hk, -⟩ := Option.map_eq_some_iff.mp hq
      obtain ⟨h1, h2⟩ := readKey_eq_some hk
      exact ⟨k, [], h1, by simp, by simp [← h2]⟩
    · rename_i k1 k0 o
      repeat' split at hq
      all_goals try contradiction
      all_goals
        obtain ⟨k, hk, -⟩ := Option.map_eq_some_iff.mp hq
        obtain ⟨h1, h2⟩ := readKey_eq_some hk
        exact ⟨k, [o], h1, by simp_all, by simp [← h2]⟩
    · exact absurd hq nofun

/-- A FIND is read from the parameters of its form, and from no others (R17). -/
theorem readFind_eq_none_iff (params : List Byte) : readFind params = none ↔ ¬ isFindForm params := by
  refine ⟨fun h => ?_, fun h => ?_⟩
  · rintro ⟨k, c, hk, rfl⟩
    have h1 := readKey_enc16 (validKey_le hk)
    cases c <;> simp [enc16_eq, enc8, readFind, h1, hk, readClass_enc8] at h
  · by_contra hn
    obtain ⟨q, hq⟩ := Option.ne_none_iff_exists'.mp hn
    refine h ?_
    unfold readFind at hq
    split at hq
    · obtain ⟨k, hk, -⟩ := Option.map_eq_some_iff.mp hq
      obtain ⟨h1, h2⟩ := readKey_eq_some hk
      exact ⟨k, none, h1, by simp [← h2]⟩
    · obtain ⟨k, hk, hq⟩ := Option.bind_eq_some_iff.mp hq
      obtain ⟨c, hc, -⟩ := Option.map_eq_some_iff.mp hq
      obtain ⟨h1, h2⟩ := readKey_eq_some hk
      exact ⟨k, some c, h1, by simp [← h2, ← readClass_eq_some hc]⟩
    · exact absurd hq nofun

/-- A CLAIM is read from the parameters of its form, and from no others (R86). -/
theorem readClaim_eq_none_iff (params : List Byte) : readClaim params = none ↔ ¬ isClaimForm params := by
  refine ⟨fun h => ?_, fun h => ?_⟩
  · rintro ⟨k, n, o, hk, hn, ho, rfl⟩
    have h1 := readKey_enc16 (validKey_le hk)
    have h2 := readLease_enc16 hn
    simp only [List.mem_cons, List.not_mem_nil, or_false] at ho
    rcases ho with rfl | rfl | rfl <;> simp [enc16_eq, readClaim, h1, h2, hk] at h
  · by_contra hn
    obtain ⟨q, hq⟩ := Option.ne_none_iff_exists'.mp hn
    refine h ?_
    unfold readClaim at hq
    split at hq
    · obtain ⟨k, hk, hq⟩ := Option.bind_eq_some_iff.mp hq
      obtain ⟨n, hl, -⟩ := Option.map_eq_some_iff.mp hq
      obtain ⟨h1, h2⟩ := readKey_eq_some hk
      obtain ⟨h3, h4⟩ := readLease_eq_some hl
      exact ⟨k, n, [], h1, h3, by simp, by simp [← h2, ← h4]⟩
    · rename_i k1 k0 l1 l0 o
      obtain ⟨k, hk, hq⟩ := Option.bind_eq_some_iff.mp hq
      obtain ⟨n, hl, hq⟩ := Option.bind_eq_some_iff.mp hq
      obtain ⟨h1, h2⟩ := readKey_eq_some hk
      obtain ⟨h3, h4⟩ := readLease_eq_some hl
      refine ⟨k, n, [o], h1, h3, ?_, by simp [← h2, ← h4]⟩
      by_contra ho
      simp_all
    · exact absurd hq nofun

/-- A WATCHCLASS or UNWATCHCLASS is read from a class alone (R121). -/
theorem readClassAlone_eq_none_iff (params : List Byte) : readClassAlone params = none ↔ ¬ isClassForm params := by
  refine ⟨fun h => ?_, fun h => ?_⟩
  · rintro ⟨c, rfl⟩
    simp [enc8, readClassAlone, readClass_enc8] at h
  · by_contra hn
    obtain ⟨c, hq⟩ := Option.ne_none_iff_exists'.mp hn
    refine h ?_
    unfold readClassAlone at hq
    split at hq
    · exact ⟨c, readClass_eq_some hq⟩
    · exact absurd hq nofun

/-- An UNWINDOW, FREEZE or WINDOWINFO is read from an index alone (R109, R110, R112). -/
theorem readWindowAlone_eq_none_iff (params : List Byte) : readWindowAlone params = none ↔ ¬ isIndexForm params := by
  refine ⟨fun h => ?_, fun h => ?_⟩
  · rintro ⟨i, rfl⟩
    simp [enc8, readWindowAlone, readWindow_enc8] at h
  · by_contra hn
    obtain ⟨i, hq⟩ := Option.ne_none_iff_exists'.mp hn
    refine h ?_
    unfold readWindowAlone at hq
    split at hq
    · exact ⟨i, readWindow_eq_some hq⟩
    · exact absurd hq nofun

/-- A SYNC is read from an apply number alone (R160). -/
theorem readSync_eq_none_iff (params : List Byte) : readSync params = none ↔ ¬ isSyncForm params := by
  refine ⟨fun h => ?_, fun h => ?_⟩
  · rintro ⟨n, hn, rfl⟩
    simp [enc32_eq, readSync] at h
  · by_contra hn
    obtain ⟨n, hq⟩ := Option.ne_none_iff_exists'.mp hn
    refine h ?_
    unfold readSync at hq
    split at hq
    · rename_i b3 b2 b1 b0
      have := u16_lt b3 b2
      have := u16_lt b1 b0
      have hw := enc32_word b3 b2 b1 b0
      have hl : u32 b3 b2 b1 b0 ≤ 4294967295 := by unfold u32; omega
      rw [BitVec.toNat_ofNat, Nat.mod_eq_of_lt (by omega)] at hw
      exact ⟨_, hl, hw.symm⟩
    · exact absurd hq nofun

/-- A PAUSE is read from a limit alone (R153). -/
theorem readPause_eq_none_iff (params : List Byte) : readPause params = none ↔ ¬ isPauseForm params := by
  refine ⟨fun h => ?_, fun h => ?_⟩
  · rintro ⟨n, h1, h2, rfl⟩
    simp only [enc16_eq, readPause, u16_enc16 (show n ≤ 65535 by omega), Config.maxPause] at h
    rw [if_pos ⟨h1, h2⟩] at h
    exact absurd h nofun
  · by_contra hn
    obtain ⟨n, hq⟩ := Option.ne_none_iff_exists'.mp hn
    refine h ?_
    unfold readPause at hq
    split at hq
    · split at hq
      · rename_i hi lo hr
        exact ⟨u16 hi lo, hr.1, hr.2, (enc16_u16 hi lo).symm⟩
      · exact absurd hq nofun
    · exact absurd hq nofun

/-- A SETQUOTA is read from the parameters of its form, and from no others (R14). -/
theorem readQuota_eq_none_iff (params : List Byte) : readQuota params = none ↔ ¬ isQuotaForm params := by
  refine ⟨fun h => ?_, fun h => ?_⟩
  · rintro ⟨c, n, hn, rfl⟩
    simp [enc8, enc16_eq, readQuota, u16_enc16 (show n ≤ 65535 by omega), Config.maxQuota, hn, readClass_enc8] at h
  · by_contra hn
    obtain ⟨q, hq⟩ := Option.ne_none_iff_exists'.mp hn
    refine h ?_
    unfold readQuota at hq
    split at hq
    · split at hq
      · rename_i c q1 q0 hr
        obtain ⟨c, hc, -⟩ := Option.map_eq_some_iff.mp hq
        exact ⟨c, u16 q1 q0, hr, by simp [← readClass_eq_some hc, enc16_u16]⟩
      · exact absurd hq nofun
    · exact absurd hq nofun

/-- A SETROLE is read from the parameters of its form, and from no others (R102). -/
theorem readSetrole_eq_none_iff (params : List Byte) : readSetrole params = none ↔ ¬ isRoleForm params := by
  refine ⟨fun h => ?_, fun h => ?_⟩
  · rintro ⟨p, r, hp, hr, rfl⟩
    simp only [List.mem_cons, List.not_mem_nil, or_false] at hp hr
    rcases hp with rfl | rfl <;> rcases hr with rfl | rfl | rfl <;> simp [readSetrole, readPort, readRole] at h
  · by_contra hn
    obtain ⟨x, hq⟩ := Option.ne_none_iff_exists'.mp hn
    refine h ?_
    unfold readSetrole at hq
    split at hq
    · rename_i p r
      obtain ⟨q, hp, hq⟩ := Option.bind_eq_some_iff.mp hq
      obtain ⟨w, hr, hq⟩ := Option.bind_eq_some_iff.mp hq
      refine ⟨p, r, ?_, ?_, rfl⟩
      · by_contra hc
        unfold readPort at hp
        simp only [List.mem_cons, List.not_mem_nil, or_false, not_or] at hc
        simp only [hc, if_false] at hp
        split at hp
        · obtain rfl := Option.some.inj hp
          simp at hq
        · exact absurd hp nofun
      · by_contra hc
        unfold readRole at hr
        simp only [List.mem_cons, List.not_mem_nil, or_false, not_or] at hc
        simp [hc] at hr
    · exact absurd hq nofun

theorem readRight_eq_some {b : Byte} {r : Right} (h : readRight b = some r) : b = r.code := by
  unfold readRight at h
  repeat' split at h
  all_goals cases h <;> simp_all [Right.code]

theorem readInvert_eq_some {b : Byte} {i : Bool} (h : readInvert b = some i) :
    b = if i then 0x01#8 else 0x00#8 := by
  unfold readInvert at h
  repeat' split at h
  all_goals cases h <;> simp_all

/-- A WINDOW is read from the parameters of its form, and from no others (R108). -/
theorem readWindowDef_eq_none_iff (params : List Byte) : readWindowDef params = none ↔ ¬ isWindowForm params := by
  refine ⟨fun h => ?_, fun h => ?_⟩
  · rintro ⟨i, ⟨lo, hi, inv, r0, r1, r2⟩, ⟨hl, hh, hle⟩, rfl⟩
    have h1 := readKey_enc16 (validKey_le hl)
    have h2 := readKey_enc16 (validKey_le hh)
    simp only at hl hh hle h1 h2
    cases inv <;>
      simp [windowParams, enc8, enc16_eq, readWindowDef, h1, h2, hl, hh, readInvert, readWindow_enc8, readRight_code,
        Nat.not_lt.mpr hle] at h
  · by_contra hn
    obtain ⟨x, hq⟩ := Option.ne_none_iff_exists'.mp hn
    refine h ?_
    unfold readWindowDef at hq
    split at hq
    · obtain ⟨i, hi, hq⟩ := Option.bind_eq_some_iff.mp hq
      obtain ⟨lo, h1, hq⟩ := Option.bind_eq_some_iff.mp hq
      obtain ⟨hk, h2, hq⟩ := Option.bind_eq_some_iff.mp hq
      obtain ⟨inv, h3, hq⟩ := Option.bind_eq_some_iff.mp hq
      obtain ⟨r0, h4, hq⟩ := Option.bind_eq_some_iff.mp hq
      obtain ⟨r1, h5, hq⟩ := Option.bind_eq_some_iff.mp hq
      obtain ⟨r2, h6, hq⟩ := Option.bind_eq_some_iff.mp hq
      split at hq
      · rename_i hle
        obtain ⟨l1, l2⟩ := readKey_eq_some h1
        obtain ⟨k1, k2⟩ := readKey_eq_some h2
        refine ⟨i, ⟨lo, hk, inv, ⟨r0, r1, r2⟩⟩, ⟨l1, k1, hle⟩, ?_⟩
        simp [windowParams, ← l2, ← k2, ← readWindow_eq_some hi, readRight_eq_some h4, readRight_eq_some h5,
          readRight_eq_some h6, readInvert_eq_some h3]
      · exact absurd hq nofun
    · exact absurd hq nofun

/-- A COMMIT is read from the parameters of its form, and from no others (R52). -/
theorem readCommit_eq_none_iff (params : List Byte) : readCommit params = none ↔ ¬ isCommitForm params := by
  unfold isCommitForm
  match params with
  | [] => simp [readCommit]
  | [m] =>
    simp only [readCommit, readPersistence, List.mem_cons, List.cons.injEq, and_true, List.not_mem_nil, or_false]
    split
    · simp_all
    · split <;> simp_all
  | _ :: _ :: _ => simp [readCommit]

end Sys2Proof.Machine
end

