-- ==== Sys2Proof/Laws/Ports.lean ====
section
/-! SUPPORT. What taking a command can do, and what a frame can do: each said once. -/

namespace Sys2Proof.Machine

/-- The block takes the command that the port is WORKING on. -/
theorem State.serve_of_working {s : State} {p : Port} {tag code : Byte} {params : List Byte}
    (h : s.isWorkingOn p tag code params) (act : List Byte → State × Reply) :
    s.serve p code act = ((act params).1).answers p tag (act params).2.result (act params).2.data := by
  unfold State.isWorkingOn at h
  simp only [State.serve, h, if_true]
  rfl

/-- No block takes a command that the port has not passed on to it. -/
theorem State.serve_of_not_working {s : State} {p : Port} {code : Byte}
    (h : ∀ tag params, ¬ s.isWorkingOn p tag code params) (act : List Byte → State × Reply) :
    s.serve p code act = s := by
  unfold State.serve
  split
  · next tag c params hc =>
    split
    · next e => subst e; exact absurd hc (h tag params)
    · rfl
  · rfl

/-- A command that leaves everything but its answer is answered on the state as it was. -/
theorem State.serve_reply {s : State} {p : Port} {tag code : Byte} {params : List Byte}
    (h : s.isWorkingOn p tag code params) (f : List Byte → Reply) :
    s.serve p code (fun ps => (s, f ps)) = s.answers p tag (f params).result (f params).data :=
  s.serve_of_working h _

@[simp] theorem State.answers_port (u : State) (p : Port) (tag : Byte) (r : Result) (data : List Byte) :
    (u.answers p tag r data).port p = { u.port p with command := .answered tag ⟨r, data⟩ false } := by
  simp [State.answers, State.port]

/-! ## Frames -/

/-- The bytes of a frame change the line and the bytes that SDO carried, and nothing else. -/
theorem State.clockByte_eq (s : State) (p : Port) (b : Byte) :
    ∃ line sdo, s.clockByte p b = s.setPort p { s.port p with line := line, sdo := sdo } ∧
      (line = none ↔ (s.port p).line = none) := by
  unfold State.clockByte
  cases h : (s.port p).line with
  | none =>
    refine ⟨none, (s.port p).sdo, ?_, by simp⟩
    have : s = s.setPort p { s.port p with line := (s.port p).line, sdo := (s.port p).sdo } := (s.setPort_port p).symm
    rwa [h] at this
  | some l => exact ⟨_, _, rfl, by simp⟩

theorem State.clockBytes_eq (s : State) (p : Port) (bytes : List Byte) :
    ∃ line sdo, s.clockBytes p bytes = s.setPort p { s.port p with line := line, sdo := sdo } ∧
      (line = none ↔ (s.port p).line = none) := by
  induction bytes generalizing s with
  | nil => exact ⟨(s.port p).line, (s.port p).sdo, (s.setPort_port p).symm, Iff.rfl⟩
  | cons b rest ih =>
    obtain ⟨l1, o1, e1, h1⟩ := s.clockByte_eq p b
    obtain ⟨l2, o2, e2, h2⟩ := ih (s.clockByte p b)
    refine ⟨l2, o2, ?_, ?_⟩
    · show (s.clockByte p b).clockBytes p rest = _
      rw [e2, e1]; simp
    · rw [h2, e1]; simp [h1]

/-- Without VDD a frame changes the line and the bytes that SDO carried, and nothing else (R179). -/
theorem State.frameUnpowered_eq (s : State) (p : Port) (part : FramePart) :
    ∃ line sdo, s.frameUnpowered p part = s.setPort p { s.port p with line := line, sdo := sdo } := by
  unfold State.frameUnpowered
  split
  · exact ⟨_, _, rfl⟩
  · exact ⟨_, _, rfl⟩
  · exact ⟨_, _, rfl⟩
  · exact ⟨(s.port p).line, (s.port p).sdo, (s.setPort_port p).symm⟩

/-- The status byte does not depend on the line or on the bytes that SDO carried. -/
theorem State.statusByte_setPort (s : State) (p : Port) (line : Option Line) (sdo : List Byte) :
    (s.setPort p { s.port p with line := line, sdo := sdo }).statusByte p = s.statusByte p := by
  simp [State.statusByte, State.running, State.attn]

/-- The bytes exchanged in a frame that is no FETCH: each carries the status byte. -/
theorem State.clockBytes_status (s : State) (p : Port) (bytes : List Byte) (l : Line)
    (hl : (s.port p).line = some l) (hs : l.sending = s.statusByte p) (hc : l.content = none)
    (hf : l.received = [] → bytes.head? ≠ some 0x05#8) :
    s.clockBytes p bytes = s.setPort p { s.port p with
      line := some ⟨l.received ++ bytes, s.statusByte p, none, l.startup⟩
      sdo := (s.port p).sdo ++ List.replicate bytes.length (s.statusByte p) } := by
  induction bytes generalizing s l with
  | nil =>
    have e : (some ⟨l.received ++ [], s.statusByte p, none, l.startup⟩ : Option Line) = (s.port p).line := by
      rw [hl]; cases l; simp_all
    rw [e]
    simp only [List.length_nil, List.replicate_zero, List.append_nil]
    exact (s.setPort_port p).symm
  | cons b rest ih =>
    have hcontent : l.contentAfter b (s.port p).command.fetchContent = none := by
      unfold Line.contentAfter
      by_cases hr : l.received = []
      · have := hf hr; simp at this; simp [hr, this]
      · simp [hr, hc]
    have e : s.clockByte p b = s.setPort p { s.port p with
        line := some ⟨l.received ++ [b], s.statusByte p, none, l.startup⟩
        sdo := (s.port p).sdo ++ [s.statusByte p] } := by
      simp only [State.clockByte, hl, hcontent, outgoing, hs]
    show (s.clockByte p b).clockBytes p rest = _
    rw [e]
    rw [ih _ ⟨l.received ++ [b], s.statusByte p, none, l.startup⟩ (by simp)
      (by simp [State.statusByte_setPort]) rfl (by simp)]
    simp [State.statusByte_setPort, List.replicate_succ]

end Sys2Proof.Machine
end

