-- ==== Sys2Proof/Laws/Startup.lean ====
section
/-! SUPPORT. What the Start-up Controller's shared operations can do: the beginning of a start-up and the end of the scan. -/

namespace Sys2Proof.Machine

/-- The phase in flight is cut in BUSY and PAUSING, and no phase runs in any other state (R138, R143). -/
theorem State.cutNv_eq (s : State) (cut : NvResult) : s.cutNv cut =
    match s.persist.engine with
    | .busy f => s.nv.cutPhase f cut
    | .pausing f _ => s.nv.cutPhase f cut
    | _ => s.nv := by
  unfold State.cutNv Engine.running
  cases s.persist.engine <;> rfl

/-- The beginning of a start-up, as the claims put it (R166). -/
theorem State.beginStartup_eq (s : State) (cause : Cause) (entered : StartupState) (cut : NvResult) :
    s.beginStartup cause entered cut = s.begun cause entered cut := by
  simp only [State.beginStartup, State.clear, State.cutNv_eq]
  rfl

/-- Once a start-up has begun every status byte is 0x02: READY 0, STARTED 1 and every other flag 0 (R166 step 3). -/
theorem State.statusByte_beginStartup (s : State) (cause : Cause) (entered : StartupState) (cut : NvResult) (p : Port)
    (h : entered ≠ .running) : (s.beginStartup cause entered cut).statusByte p = 0x02#8 := by
  have hr : (s.beginStartup cause entered cut).running = false := by
    cases entered <;> first | rfl | exact absurd rfl h
  have hp : (s.beginStartup cause entered cut).port p = (s.port p).cleared := PortMap.get_map _ _ p
  have ha : (s.beginStartup cause entered cut).attn p = false := by cases p <;> rfl
  have hf : (s.beginStartup cause entered cut).persist.engine.isFaulted = false := rfl
  simp [State.statusByte, hr, hp, ha, hf, PortState.cleared, CommandState.isWorking, CommandState.isUnfetched, flag]

/-- A loss of VDD begins HELD, and a frame being collected is begun again (R164, R179). -/
theorem State.losePower_eq (s : State) (cut : NvResult) :
    s.losePower cut = { (s.begun s.startup.cause .held cut).framesRestarted with vdd := false } := by
  have h : StartupState.held ≠ .running := by decide
  simp only [State.losePower, State.unpowered, State.statusByte_beginStartup _ _ _ _ _ h]
  rw [State.beginStartup_eq]
  rfl

/-- The slot that the scan leaves (R169, R171). -/
theorem NvArray.scan_slot (nv : NvArray) (i : SlotId) : nv.scan[i.val] = nv.scannedSlot i := by
  simp [NvArray.scan]

/-- The clean-up slots are the DRAINING ones, ascending and distinct (R172). -/
theorem mem_cleanupSlots (slots : Vector Slot Config.slotCount) (i : SlotId) :
    i ∈ cleanupSlots slots ↔ slots[i.val].isDraining = true := by
  simp [cleanupSlots]

theorem cleanupSlots_pairwise (slots : Vector Slot Config.slotCount) : (cleanupSlots slots).Pairwise (· < ·) :=
  (List.pairwise_lt_finRange _).filter _

/-- What the end of the scan sets and leaves, apart from the queue and the engine (R172, R176). -/
theorem State.finishScan_frame (s : State) :
    s.finishScan.slots = s.nv.scan ∧ s.finishScan.classes = scannedClasses s.nv.scan ∧
      s.finishScan.rights = s.nv.scannedRights ∧ s.finishScan.nv = s.nv ∧ s.finishScan.ports = s.ports ∧
      s.finishScan.startup = ⟨.running, s.startup.cause, (cleanupSlots s.nv.scan).drop Config.scanCleanups⟩ ∧
      s.finishScan.pending = s.pending := by
  simp [State.finishScan, State.goOn]

end Sys2Proof.Machine
end

