-- ==== Sys2Proof/Tests/Slice0.lean ====
section
/-! SUPPORT. Tests. First the smoke tests of WellFormed and of the word reader, then examples that the manual gives with
their results, then small steps, and then, for each statement with hypotheses, a state and operands that meet
them together. -/

namespace Sys2Proof.Tests

-- One theorem after another, so that the check needs less memory.
set_option Elab.async false

open Sys2Proof Sys2Proof.Machine

/-! ## WellFormed and Decode -/

theorem test_wellFormed_poll_code_in_command_frame :
    Instr.wellFormed (.commandFrame .p0 (.whole [0x00#8, 0x01#8] false)) = false := by decide

theorem test_wellFormed_fetch_code_in_command_frame :
    Instr.wellFormed (.commandFrame .p1 (.first [0x05#8])) = false := by decide

theorem test_wellFormed_tick_key : Instr.wellFormed (.tick (.claim 0)) = false := by decide

theorem test_wellFormed_expiry_key : Instr.wellFormed (.claimExpiry 65535) = false := by decide

theorem test_wellFormed_greatest_key : Instr.wellFormed (.claimExpiry 65534) = true := by decide

theorem test_no_word_spells_a_command : decodeTableWord 8 0x05 = none := by decide

/-! ## Examples of the manual -/

/-- The CRC byte of NO_RESPONSE is 0x14 (R187). -/
theorem test_crc_no_response : crc8 [0x00#8, 0x03#8, 0x00#8] = 0x14#8 := by decide +kernel

/-- The two CRC bytes of the transaction of section 10.9. -/
theorem test_crc_ack : crc8 [0x03#8, 0x01#8, 0x00#8] = 0x83#8 ∧ crc8 [0x01#8, 0x00#8, 0x00#8] = 0x40#8 := by decide +kernel

/-- The INTEGER setpoint of chapter 2: −400 to 1200 in steps of 25. -/
def setpoint : Constraints := .integer (-400#32) 1200#32 (some 25)

theorem test_value_check_setpoint :
    ([0#32, 1200#32, 1190#32, 1210#32, -425#32].map fun v => checkValue setpoint (.integer 100#32) (.integer v)) =
      [none, none, some .range, some .range, some .range] ∧
    checkValue setpoint (.integer 100#32) (.enum 5#8) = some .type ∧
    decodeValue .integer [0#8, 0#8, 0#8] = none := by decide

/-- The greatest difference v − min is formed with no wrapping (R25). -/
theorem test_value_check_widest_range :
    checkValue (.integer 0x80000000#32 0x7FFFFFFF#32 (some 65535)) (.integer 0#32) (.integer 0x7FFFFFFF#32) = none := by
  decide

/-- The ENUM mode selection of chapter 2. -/
theorem test_value_check_mode :
    ([7#8, 2#8, 4#8].map fun c => checkValue (.enum [3#8, 1#8, 7#8, 2#8]) (.enum 3#8) (.enum c)) =
      [none, none, some .notAllowed] := by decide

/-- The option mask of chapter 2. -/
theorem test_value_check_option_mask :
    ([0x123400A0#32, 0x12340005#32, 0x123401FF#32, 0x00000005#32].map fun f =>
      checkValue (.flags 0x000000FF#32) (.flags 0x12340005#32) (.flags f)) =
      [none, none, some .fixedBits, some .fixedBits] := by decide

/-- The station name of chapter 2: lengths 10, 0 and 14 against 12, and a length byte of 5 before 4 bytes. -/
theorem test_value_check_station_name :
    ([10, 0, 14].map fun n => checkValue (.text 12) (.text []) (.text (List.replicate n 0x41#8))) =
      [none, none, some .tooLong] ∧
    decodeValue .text [5#8, 0#8, 0#8, 0#8, 0#8] = none := by decide

/-- The definitions of the examples of CREATE examinations that are refused with BAD_DEFINITION, and one that is not. -/
theorem test_consistency_examples :
    ([⟨.integer 10#32 0#32 none, none⟩, ⟨.integer 0#32 10#32 (some 4), some (.integer 10#32)⟩,
      ⟨.integer 0#32 10#32 (some 4), some (.integer 8#32)⟩, ⟨.enum [3#8, 1#8, 3#8], none⟩, ⟨.text 40, none⟩,
      ⟨.text 8, some (.text (List.replicate 9 0#8))⟩].map fun x : Constraints × Option Value =>
        (Definition.mk 0 .lasting x.1 x.2).consistent) = [false, false, true, false, false, false] := by decide

/-- The windows of the table of effective rights in chapter 6. -/
def exampleRights : Rights :=
  { Rights.initial with
    roles := ⟨.admin, .editor, .reader⟩
    windows := #v[.active ⟨1000, 1999, false, ⟨.full, .stage, .read⟩⟩,
      .frozen ⟨1500, 1599, false, ⟨.full, .none, .full⟩⟩, .active ⟨1, 4999, true, ⟨.read, .full, .none⟩⟩,
      .unused, .unused, .unused] }

/-- The highest right of a port on a key. -/
def highest (g : Rights) (p : Port) (k : Nat) : List Right :=
  [Right.full, .stage, .read, .none].filter fun r => g.allows p k r

theorem test_effective_rights_example :
    ([500, 1200, 1550, 7000].map fun k => [Port.p0, .p1, .p2].map fun p => (highest exampleRights p k).head?) =
      [[some .full, some .full, some .read], [some .full, some .stage, some .read],
        [some .full, some .none, some .read], [some .read, some .full, some .none]] := by decide

/-! ## The transaction on the wire (section 10.9) -/

/-- The state that a command leaves. -/
def after (c : Instr) (s : State) : State :=
  match exec c s with
  | .next t => t
  | _ => s

/-- Steps 1 and 2: POLL reads 0x82, and the ACK frame is taken. -/
theorem test_wire_steps_1_2 :
    ((after (.poll .p1 (.whole [] false)) .reset).port .p1).sdo = [0x82#8] ∧
    let s := after (.commandFrame .p1 (.whole [0x03#8, 0x01#8, 0x00#8, 0x83#8] false)) .reset
    (s.port .p1).command = .working 0x01#8 0x03#8 [] ∧ s.statusByte .p1 = 0xC2#8 := by
  refine ⟨?_, ?_, ?_⟩ <;> decide +kernel

/-- The part after step 3: ACK has been taken. -/
def wireStep3 : State :=
  after (.ack .p1) (after (.commandFrame .p1 (.whole [0x03#8, 0x01#8, 0x00#8, 0x83#8] false)) .reset)

/-- Steps 3 and 4: the answer, and the FETCH of it. -/
theorem test_wire_steps_3_4 :
    wireStep3.statusByte .p1 = 0xA0#8 ∧
    let s := after (.fetch .p1 (.whole [0#8, 0#8, 0#8, 0#8] false)) wireStep3
    (s.port .p1).sdo = [0xA0#8, 0x01#8, 0x00#8, 0x00#8, 0x40#8] ∧ s.statusByte .p1 = 0x80#8 := by
  refine ⟨?_, ?_, ?_⟩ <;> decide +kernel

/-- Step 6: the ACK frame with another tag and the old CRC byte is dropped. -/
theorem test_wire_step_6 :
    let s := after (.commandFrame .p1 (.whole [0x03#8, 0x02#8, 0x00#8, 0x83#8] false)) wireStep3
    (s.port .p1).frameErr = true ∧ (s.port .p1).command = (wireStep3.port .p1).command := by
  refine ⟨?_, ?_⟩ <;> decide +kernel

/-! ## Small steps -/

/-- The state in which a port is WORKING on a command with tag 0x2A. -/
def takes (s : State) (p : Port) (code : Byte) (params : List Byte) : State :=
  s.setPort p { s.port p with command := .working 0x2A#8 code params }

/-- An INTEGER record, LASTING, whose generation wraps at the next SET. -/
def setpointRecord : Record where
  key := 2001
  defn := ⟨4, .lasting, .integer 0#32 5000#32 (some 10), some (.integer 1500#32)⟩
  live := .integer 20#32
  stored := some (.integer 10#32)
  generation := 65535
  overridden := true
  stale := false
  watchers := ⟨false, true, false⟩

/-- A TRANSIENT ENUM record with the greatest key and no default. -/
def modeRecord : Record where
  key := 65534
  defn := ⟨4, .transient, .enum [3#8, 1#8], none⟩
  live := .enum 3#8
  stored := none
  generation := 1
  overridden := false
  stale := false
  watchers := ⟨false, false, false⟩

/-- The part with the two records, in the lowest slot and the highest, and a DRAINING slot with key 7. -/
def part : State :=
  { State.reset with
    slots := ((State.reset.slots.set 0 (.live setpointRecord)).set 383 (.live modeRecord)).set 5
      (.draining (some 7))
    classes := State.reset.classes.set 4 ⟨384, 2, ⟨true, false, true⟩⟩
    applyNumber := 12
    persist := ⟨[], .busy ⟨.slot (.erase ⟨5, some 7, some (12, 12)⟩), 1, .eraseA⟩, 11, ⟨none, none, none⟩⟩ }

/-- The answer in a port's response buffer. -/
def answerOf (s : State) (p : Port) : Option Reply :=
  match (s.port p).command with
  | .answered _ r _ => some r
  | _ => none

/-- A SET at depth 0 in step with R74: generation 65535 is followed by 1, OVERRIDDEN is cleared, and the change is
queued behind the job in flight. -/
theorem test_direct_set :
    let s := after (.set .p1) (takes part .p1 0x21#8 [0x07#8, 0xD1#8, 0x00#8, 0x01#8, 0x00#8, 0x00#8, 0x00#8, 0x1E#8])
    answerOf s .p1 = some ⟨.ok, [0x00#8, 0x00#8, 0x00#8, 0x0D#8]⟩ ∧
    s.slot 0 = .live { setpointRecord with live := .integer 30#32, generation := 1, overridden := false } ∧
    s.persist.queue.length = 1 ∧ s.notices.p1 = .normal [.changed 2001 1] := by
  refine ⟨?_, ?_, ?_, ?_⟩ <;> decide +kernel

/-- Section 11.1, step 1: CREATE 2001 at depth 0 takes the lowest FREE slot, and the IDLE engine takes its WRITE. -/
theorem test_direct_create :
    let s := after (.create .p1) (takes .reset .p1 0x22#8
      [0x07#8, 0xD1#8, 0x04#8, 0x01#8, 0x01#8, 0x05#8, 0#8, 0#8, 0#8, 0#8, 0#8, 0#8, 0x13#8, 0x88#8, 0#8, 0x0A#8,
        0#8, 0#8, 0x05#8, 0xDC#8])
    answerOf s .p1 = some ⟨.ok, [0x00#8, 0x00#8, 0x00#8, 0x01#8]⟩ ∧
    (s.slot 0).record.map (fun r => (r.key, r.live, r.stored, r.generation)) =
      some (2001, .integer 1500#32, none, 1) ∧
    (s.classDesc 4).count = 1 ∧ s.persist.mark = 0 ∧
    s.persist.engine.running.map (fun f => (f.attempt, f.phase)) = some (1, .eraseTarget .a 1) := by
  refine ⟨?_, ?_, ?_, ?_, ?_⟩ <;> decide +kernel

/-- A RETIRE of a LASTING record leaves its slot DRAINING with the key, and the class watchers are told. -/
theorem test_direct_retire :
    let s := after (.retire .p0) (takes part .p0 0x23#8 [0x07#8, 0xD1#8, 0x00#8])
    s.slot 0 = .draining (some 2001) ∧ (s.classDesc 4).count = 1 ∧
    s.notices = ⟨.normal [.retired 2001], .normal [.retired 2001], .normal [.retired 2001]⟩ := by
  refine ⟨?_, ?_, ?_⟩ <;> decide +kernel

/-- A CREATE of a key that a DRAINING slot holds is KEY_DRAINING (R4), with entry index 0 at depth 0. -/
theorem test_create_draining_key :
    answerOf (after (.create .p0) (takes part .p0 0x22#8
      [0x00#8, 0x07#8, 0x00#8, 0x02#8, 0x02#8, 0x02#8, 0x01#8, 0x09#8, 0x09#8])) .p0 =
      some ⟨.keyDraining, [0x00#8]⟩ := by decide +kernel

/-- ERASE_COMPLETION frees the slot and raises the mark (R150, R159). -/
theorem test_erase_completion :
    let s := after .eraseCompletion { part with
      persist := { part.persist with engine := .busy ⟨.slot (.erase ⟨5, some 7, some (12, 12)⟩), 1, .verifyErased⟩ } }
    s.slot 5 = .free ∧ s.persist.mark = 12 ∧ s.persist.engine = .idle := by
  refine ⟨?_, ?_, ?_⟩ <;> decide +kernel

/-- A third failed attempt faults the engine and tells the ADMIN port alone (R156). -/
theorem test_third_mismatch_faults :
    let s := after .verifyMismatch { part with
      nv := part.nv.setCell 5 .b .corrupt
      persist := { part.persist with engine := .busy ⟨.slot (.erase ⟨5, some 7, some (12, 12)⟩), 3, .verifyErased⟩ } }
    s.persist.engine = .faulted (.erase ⟨5, some 7, some (12, 12)⟩) ∧
    s.notices = ⟨.normal [.engineFault .erase 5], .normal [], .normal []⟩ := by
  refine ⟨?_, ?_⟩ <;> decide +kernel

/-- A lease of 1 runs out at a tick and the first waiter is granted the claim (R90). -/
theorem test_tick_expires_lease :
    let s := after (.tick .all) { part with claims := [⟨2001, .p0, 1, [⟨.p2, 60000⟩, ⟨.p1, 5⟩]⟩, ⟨65534, .p1, 2, []⟩] }
    s.claims = [⟨2001, .p2, 60000, [⟨.p1, 5⟩]⟩, ⟨65534, .p1, 1, []⟩] ∧
    s.notices = ⟨.normal [.claimExpired 2001], .normal [], .normal [.claimGranted 2001]⟩ := by
  refine ⟨?_, ?_⟩ <;> decide +kernel

/-- A seventeenth notice overflows the queue (R129). -/
theorem test_notice_overflow :
    NoticeQueue.post (.normal (List.replicate 16 (.created 1))) (.created 2) = .resync := by decide

/-- A power loss in the middle of an ERASE may leave the cell corrupt, and nothing volatile stands (R138, R166). -/
theorem test_power_loss :
    let s := after (.powerLoss .corrupt) part
    (s.nv.pair 5).a = .corrupt ∧ s.startup.state = .held ∧ s.persist = Persist.initial := by
  refine ⟨?_, ?_, ?_⟩ <;> decide +kernel

/-! ## Witnesses: a state and operands that meet the hypotheses of each statement

Every hypothesis of the form "port p is WORKING on the command" is met by `takes`, in any state. -/

theorem takes_isWorkingOn (s : State) (p : Port) (code : Byte) (params : List Byte) :
    (takes s p code params).isWorkingOn p 0x2A#8 code params := by
  simp [State.isWorkingOn, takes]

/-- StepTakesFront. -/
theorem test_witness_step : ({ State.reset with pending := [.ready, .restart .p2 .corrupt] }).pending =
    .ready :: [.restart .p2 .corrupt] := rfl

/-- A state in which P0 is COLLECTING a POLL frame. -/
def collecting : State :=
  State.reset.setPort .p0 { State.reset.port .p0 with line := some ⟨[0x00#8], 0x82#8, none, false⟩ }

/-- PollSendsStatus, and the hypotheses on VDD and the line in the statements about frames. -/
theorem test_witness_poll :
    State.reset.vdd = true ∧ (State.reset.port .p2).line = none ∧
    collecting.vdd = true ∧ (collecting.port .p0).line = some ⟨[0x00#8], 0x82#8, none, false⟩ := by decide +kernel

/-- A state in which P1 holds an answer. -/
def holdsAnswer (fetched : Bool) : State :=
  State.reset.setPort .p1 { State.reset.port .p1 with command := .answered 0x07#8 ⟨.ok, [0x01#8]⟩ fetched }

/-- FetchSendsAnswer: a port with an answer and a port without one. -/
theorem test_witness_fetch :
    ((holdsAnswer false).vdd = true ∧ ((holdsAnswer false).port .p1).line = none ∧
      ((holdsAnswer false).port .p1).command = .answered 0x07#8 ⟨.ok, [0x01#8]⟩ false) ∧
    ∀ (tag : Byte) (r : Reply) (fetched : Bool), (State.reset.port .p0).command ≠ .answered tag r fetched :=
  ⟨by decide +kernel, fun _ _ _ h => nomatch h⟩

/-- FetchSendsAnswer in pieces: a line in the middle of a FETCH whose content is an answer, with bytes still to come and
with all of them exchanged, and one on which nothing has been exchanged. -/
theorem test_witness_fetch_pieces :
    let content : FetchContent := ⟨fetchBytes 0x07#8 ⟨.ok, [0x01#8]⟩, true⟩
    ∃ l l' l'' : Line,
      (l.received.head? = some 0x05#8 ∧ l.content = some content ∧ l.received.length < content.bytes.length + 1) ∧
      (l'.received.head? = some 0x05#8 ∧ l'.content = some content ∧ content.bytes.length + 1 ≤ l'.received.length) ∧
      l''.received = [] :=
  ⟨⟨[0x05#8], 0x07#8, some _, false⟩, ⟨0x05#8 :: List.replicate 5 0#8, 0xA2#8, some _, false⟩, ⟨[], 0x02#8, none, true⟩,
    ⟨rfl, rfl, by decide +kernel⟩, ⟨rfl, rfl, by decide +kernel⟩, rfl⟩

/-- A FETCH whose answer is cleared by a start-up after its byte 0 sends the answer all the same, and no flag is set
(R187, R188). -/
theorem test_fetch_across_startup :
    let s := after (.fetch .p1 (.last [0#8, 0#8, 0#8, 0#8, 0#8] false))
      (after (.resetnAssert .asMeant) (after (.fetch .p1 (.first [])) (holdsAnswer false)))
    ((s.port .p1).sdo.take 5 = [0xA2#8, 0x07#8, 0x00#8, 0x01#8, 0x01#8] ∧ (s.port .p1).sdo.length = 6) ∧
    (s.port .p1).command = .idle ∧ (s.port .p1).line = none := by
  refine ⟨⟨?_, ?_⟩, ?_, ?_⟩ <;> decide +kernel

/-- CSn stays low through a loss of VDD: the port is COLLECTING at POWER_UP, and the rise of CSn drops the frame, with
FRAME_ERR where nothing was received since and with REFUSED where a good frame was (R179, R181, R183). -/
theorem test_csn_low_at_power_up :
    let s := after (.powerUp .asMeant) (after (.powerLoss .asMeant)
      (after (.commandFrame .p0 (.first [0x03#8, 0x01#8])) .reset))
    let good : List Byte := [0x03#8, 0x01#8, 0x00#8, 0x83#8]
    (s.port .p0).line = some ⟨[], 0x02#8, none, true⟩ ∧
    ((after (.commandFrame .p0 (.last [] false)) s).port .p0).frameErr = true ∧
    ((after (.commandFrame .p0 (.last good false)) (after .ready s)).port .p0).refused = true := by
  refine ⟨?_, ?_, ?_⟩ <;> decide +kernel

/-- CommandFrameTaken: 80 parameters and the greatest code, at an IDLE port and at one whose answer was fetched. -/
theorem test_witness_frame_taken :
    (0xFF#8 ≠ 0x00#8 ∧ 0xFF#8 ≠ 0x05#8 ∧ (List.replicate 80 0xFF#8).length ≤ 80 ∧
      State.reset.startup.state = .running ∧ (State.reset.port .p0).command = .idle) ∧
    ((holdsAnswer true).port .p1).command = .answered 0x07#8 ⟨.ok, [0x01#8]⟩ true ∧
    (Line.mk (commandFrameBytes 0x03#8 0x01#8 []) 0x82#8 none false).startup = false := by decide +kernel

/-- CommandFrameRefused: a part that is SCANNING, a WORKING port, an answer not fetched, and a frame during which a
start-up began. -/
theorem test_witness_frame_refused :
    ({ State.reset with startup := ⟨.scanning, .pin, []⟩ }).startup.state ≠ .running ∧
    (takes .reset .p1 0x10#8 []).isWorkingOn .p1 0x2A#8 0x10#8 [] ∧
    ((holdsAnswer false).port .p1).command = .answered 0x07#8 ⟨.ok, [0x01#8]⟩ false ∧
    ∃ l : Line, l.received = commandFrameBytes 0x03#8 0x01#8 [] ∧ l.startup = true :=
  ⟨by decide +kernel, takes_isWorkingOn _ _ _ _, by decide +kernel, ⟨commandFrameBytes 0x03#8 0x01#8 [], 0x82#8, none, true⟩,
    rfl, rfl⟩

/-- CommandFrameMalformed: no byte at all, too few bytes, and a partial byte behind a good frame. -/
theorem test_witness_frame_malformed :
    ¬ isCommandFrame [] false ∧ ¬ isCommandFrame [0x03#8, 0x01#8, 0x00#8] false ∧
    ¬ isCommandFrame [0x03#8, 0x01#8, 0x00#8, 0x83#8] true := by
  refine ⟨?_, ?_, ?_⟩
  · rintro ⟨-, c, t, ps, -, h⟩
    simpa [commandFrameBytes] using congrArg List.length h
  · rintro ⟨-, c, t, ps, -, h⟩
    have := congrArg List.length h
    simp [commandFrameBytes, enc8] at this
  · rintro ⟨h, -⟩
    simp at h

/-- CommandFrameMalformed in pieces: a line with no byte yet, one with two bytes, and the byte 0x05 within a frame. -/
theorem test_witness_frame_pieces :
    let l : Line := ⟨[0x03#8, 0x01#8], 0x82#8, none, false⟩
    (l.received.head? ≠ some 0x00#8 ∧ l.received.head? ≠ some 0x05#8 ∧ l.content = none) ∧
    (([] : List Byte).head? ≠ some 0x00#8 ∧ ([] : List Byte).head? ≠ some 0x05#8) ∧
    (l.received = [] → (0x05#8 : Byte) ≠ 0x05#8) := by decide

/-- FrameTouchesOnlyItsPort: the three rows, a head that is no POLL or FETCH code, a line with bytes, and no VDD. -/
theorem test_witness_frame_rows :
    Instr.commandFrame .p0 ∈ [Instr.poll .p0, Instr.fetch .p0, Instr.commandFrame .p0] ∧
    ([0x03#8] : List Byte).head? ≠ some 0x00#8 ∧ ([0x03#8] : List Byte).head? ≠ some 0x05#8 ∧
    (∃ l : Line, (collecting.port .p0).line = some l ∧ l.received ≠ []) ∧
    State.vdd { collecting with vdd := false } = false :=
  ⟨by simp, by decide, by decide, ⟨⟨[0x00#8], 0x82#8, none, false⟩, by decide +kernel, by decide⟩, rfl⟩

/-- CommandAnswersItsPort: a command that the port has passed on, and one that it has not. -/
theorem test_witness_command :
    Instr.takenFrom (.get .p1) = some (.p1, 0x10#8) ∧ (0x10#8 : Byte) ≠ 0x6F#8 ∧
    (takes part .p1 0x10#8 [0#8]).isWorkingOn .p1 0x2A#8 0x10#8 [0#8] ∧
    ∀ (tag : Byte) (params : List Byte), ¬ part.isWorkingOn .p1 tag 0x10#8 params :=
  ⟨rfl, by decide, takes_isWorkingOn _ _ _ _, fun _ _ h => nomatch h⟩

/-- RefusalChangesNothing: IDENT with parameters is answered BAD_PARAM. -/
theorem test_witness_refusal :
    let s := takes part .p0 0x01#8 [0#8]
    s.isWorkingOn .p0 0x2A#8 0x01#8 [0#8] ∧ exec (.ident .p0) s = .next (s.answers .p0 0x2A#8 .badParam []) ∧
    ((s.answers .p0 0x2A#8 .badParam []).port .p0).command = .answered 0x2A#8 ⟨.badParam, []⟩ false ∧
    Result.badParam ≠ .ok ∧ Result.badParam ≠ .waiting :=
  ⟨takes_isWorkingOn _ _ _ _, rfl, rfl, by decide, by decide⟩

/-- PortCommandsAnswered: a code that names no command, and a port that may send the admin-only commands. -/
theorem test_witness_bad_command :
    (∀ i : Instr, i.takenFrom ≠ some (.p2, 0x70#8)) ∧ part.rights.roles.get .p0 = .admin := by
  refine ⟨fun i => ?_, rfl⟩
  cases i <;> simp [Instr.takenFrom]

/-- PortCommandsAnswered, the forms of the other commands, each at the end of a range: a GET with both options, FIND in class
16, a lease of 60001, an undefined option, class 16, an apply number of three bytes, a limit of 10001, a quota of 385,
SETROLE of P0 and to role 4, a WINDOW with lo above hi and with right 4, index 6, and mode 3. -/
theorem test_witness_other_forms :
    (¬ isEmptyForm [0#8] ∧ ¬ isGetForm [0#8, 1#8, 3#8] ∧ ¬ isFindForm [0#8, 1#8, 16#8]) ∧
    (¬ isClaimForm [0#8, 1#8, 0xEA#8, 0x61#8] ∧ ¬ isClaimForm [0#8, 1#8, 0xEA#8, 0x60#8, 2#8] ∧ ¬ isClassForm [16#8]) ∧
    (¬ isSyncForm [0#8, 0#8, 1#8] ∧ ¬ isPauseForm [0x27#8, 0x11#8] ∧ ¬ isQuotaForm [0#8, 0x01#8, 0x81#8]) ∧
    (¬ isRoleForm [0#8, 1#8] ∧ ¬ isRoleForm [1#8, 4#8] ∧ ¬ isIndexForm [6#8] ∧ ¬ isCommitForm [3#8]) ∧
    ¬ isWindowForm [0#8, 0#8, 2#8, 0#8, 1#8, 0#8, 0#8, 0#8, 0#8] ∧
    ¬ isWindowForm [0#8, 0#8, 1#8, 0#8, 2#8, 0#8, 0#8, 0#8, 4#8] := by
  simp only [← readGet_eq_none_iff, ← readFind_eq_none_iff, ← readClaim_eq_none_iff, ← readClassAlone_eq_none_iff,
    ← readSync_eq_none_iff, ← readPause_eq_none_iff, ← readQuota_eq_none_iff, ← readSetrole_eq_none_iff,
    ← readWindowDef_eq_none_iff, ← readWindowAlone_eq_none_iff, ← readCommit_eq_none_iff, isEmptyForm]
  decide

/-- PortCommandsAnswered, the form step: key 0 and key 65535, an expected generation of 0, parameters that end early, bytes
left over, an undefined option bit, and a step announced for an ENUM. -/
theorem test_witness_forms :
    (¬ isSetForm [0#8, 0#8, 0#8, 2#8, 1#8] ∧ ¬ isSetForm [0#8, 1#8, 1#8, 0#8, 0#8, 2#8, 1#8] ∧
      ¬ isSetForm [0#8, 1#8, 2#8, 2#8, 1#8]) ∧
    (¬ isRetireForm [0#8, 1#8, 0#8, 0#8] ∧ ¬ isRetireForm [0#8, 1#8]) ∧
    (¬ isKeyForm [0xFF#8, 0xFF#8] ∧ ¬ isKeyForm [0#8, 1#8, 0#8]) ∧
    (¬ isCreateForm [0#8, 1#8, 0#8, 2#8, 1#8, 4#8, 1#8, 3#8] ∧ ¬ isCreateForm [0#8, 1#8, 16#8, 2#8, 1#8, 0#8, 1#8, 3#8] ∧
      ¬ isCreateForm [0#8, 1#8, 0#8, 2#8, 1#8, 1#8, 1#8, 3#8] ∧ ¬ isCreateForm [0#8, 1#8, 0#8, 2#8, 1#8, 0#8, 1#8, 3#8, 3#8]) := by
  simp only [← readSet_eq_none_iff, ← readRetire_eq_none_iff, ← readKeyAlone_eq_none_iff, ← readCreate_eq_none_iff]
  decide

/-- A state with a claim on each record. -/
def claimed : State :=
  { part with claims := [⟨2001, .p0, 60000, [⟨.p1, 1⟩, ⟨.p2, 60000⟩]⟩, ⟨65534, .p1, 1, []⟩] }

theorem claimed_claimsWf : claimed.claimsWf := by
  refine ⟨by decide, by decide, ?_⟩
  simp [claimed, ClaimEntry.wf, validLease, Config.maxLease]

/-- DetachReturnsPort, for a port that holds a claim with waiters. -/
theorem test_witness_detach :
    (takes claimed .p0 0x04#8 []).claimsWf ∧ (takes claimed .p0 0x04#8 []).isWorkingOn .p0 0x2A#8 0x04#8 [] :=
  ⟨claimed_claimsWf, takes_isWorkingOn _ _ _ _⟩

/-- The part with the one record in slot 0. -/
def one : State := { State.reset with slots := State.reset.slots.set 0 (.live setpointRecord) }

theorem one_slot (i : SlotId) : one.slot i = if i.val = 0 then .live setpointRecord else .free := by
  simp only [State.slot, one, State.reset, Vector.getElem_set, Vector.getElem_replicate]
  split <;> simp_all [eq_comm]

theorem one_keysUnique : one.keysUnique := by
  intro i j k hij h
  rw [one_slot] at h
  rw [one_slot]
  have hne : i.val ≠ j.val := fun e => hij (Fin.ext e)
  split at h
  · rw [if_neg (by omega)]
    simp [Slot.holds, Slot.drains]
  · simp [Slot.holds] at h

/-- LiveRecordIsTheRecord: a record found, a key not found, and unique keys. -/
theorem test_witness_live_record :
    part.liveRecord 65534 = some (383, modeRecord) ∧ part.slot 0 = .live setpointRecord ∧
    (part.liveRecord 7 = none ∧ part.keyDraining 7 = true) ∧ one.keysUnique :=
  ⟨by decide +kernel, by decide +kernel, by decide +kernel, one_keysUnique⟩

/-- A stack of P1 with a SET at level 1 of one record, above it a RETIRE of the other, a staged CREATE of key 1 and a
SET over it, and a stale SET of key 2. -/
def staging : State :=
  { part with staged := ⟨[], [[⟨65534, .retire none⟩, ⟨1, .set (.integer 40#32) none⟩],
      [⟨2001, .set (.integer 30#32) (some 65535)⟩, ⟨1, .create setpointRecord.defn (.integer 1500#32)⟩,
        ⟨2, .set (.enum 1#8) none⟩]], []⟩ }

/-- GetReturnsRecord and ViewOfKey: keys 1 and 65534 through the five kinds of view, the stored value present and absent,
and the rights both ways. -/
theorem test_witness_get_and_view :
    staging.view .p1 2001 = .live 0 setpointRecord (.integer 30#32) ∧
    staging.view .p1 1 = .staged setpointRecord.defn (.integer 40#32) ∧ staging.view .p1 65534 = .retired ∧
    staging.view .p1 2 = .stale ∧ staging.view .p1 7 = .absent ∧
    (setpointRecord.defn.persistence = .lasting ∧ setpointRecord.stored = some (.integer 10#32)) ∧
    (modeRecord.defn.persistence = .transient ∧ modeRecord.stored = none) ∧
    part.rights.allows .p1 65534 .read = true ∧
    ({ part with rights := exampleRights }).rights.allows .p2 65534 .read = false := by
  refine ⟨?_, ?_, ?_, ?_, ?_, ?_, ?_, ?_, ?_⟩ <;> decide +kernel

/-- GetdefAndFind: the only record of `one` is found from key 1 and from its own key, and none from the key after it. -/
theorem test_witness_find :
    one.slot 0 = .live setpointRecord ∧ (1 ≤ setpointRecord.key ∧ 2001 ≤ setpointRecord.key) ∧
    one.rights.allows .p1 2001 .read = true ∧
    (∀ (j : SlotId) (r : Record), one.slot j = .live r → setpointRecord.key ≤ r.key) ∧
    ∀ (j : SlotId) (r : Record), one.slot j = .live r → ¬ 2002 ≤ r.key := by
  refine ⟨by decide +kernel, by decide, by decide +kernel, fun j r h => ?_, fun j r h => ?_⟩ <;>
  · rw [one_slot] at h
    split at h
    · cases h; decide
    · cases h

/-- ValueCheckSteps: both ends of a range pass, the values beside them do not, and so for the other types. -/
theorem test_witness_value_check :
    ((0#32).toInt ≤ (0#32).toInt ∧ (0#32).toInt ≤ (5000#32).toInt ∧ (0#32).toInt = (0#32).toInt + (0 : Int) * (10 : Nat)) ∧
    ¬ ((0#32).toInt ≤ (-1#32).toInt) ∧ ¬ ((5001#32).toInt ≤ (5000#32).toInt) ∧
    (Value.enum 3#8).type ≠ (Constraints.text 1).type ∧
    (∀ i : Nat, i < 32 → (1#32 : Word32).getLsbD i = false → (1#32 : Word32).getLsbD i = (0#32 : Word32).getLsbD i) ∧
    ¬ (∀ i : Nat, i < 32 → (1#32 : Word32).getLsbD i = false → (2#32 : Word32).getLsbD i = (0#32 : Word32).getLsbD i) := by
  refine ⟨by decide, by decide, by decide, by decide, by decide, by decide⟩

/-- ValueCheckSteps: encodings of the right size and of the wrong one, and definitions that are consistent and not, at the
ends of their ranges. -/
theorem test_witness_encodings :
    (decodeValue .text [1#8, 0x41#8] = some (.text [0x41#8]) ∧ decodeValue .flags [0#8, 0#8, 0#8, 1#8, 0#8] = none ∧
      decodeValue .enum [] = none) ∧
    ([Constraints.integer 5#32 5#32 (some 1), .integer 5#32 4#32 none, .integer 0#32 1#32 (some 0), .enum [],
      .enum [1#8, 2#8, 3#8, 4#8, 5#8, 6#8, 7#8, 8#8], .enum [1#8, 2#8, 3#8, 4#8, 5#8, 6#8, 7#8, 8#8, 9#8], .text 0,
      .text 1, .text 32, .text 33].map fun c => Definition.consistent ⟨0, .lasting, c, none⟩) =
      [true, false, false, false, true, false, false, true, true, false] := by
  refine ⟨⟨?_, ?_, ?_⟩, ?_⟩ <;> decide

/-- The part with 64 entries on P2's stack, four levels deep, and none left in the pool. -/
def poolEmpty : State :=
  { part with staged := ⟨[], [[]], [(List.range 64).map fun n => ⟨n + 1, .retire none⟩, [], [], []]⟩ }

/-- BeginAndAbandon: depths 0, 3 and 4, and a level to abandon. -/
theorem test_witness_begin_abandon :
    part.depth .p0 = 0 ∧ { part with staged := ⟨[[], [], []], [], []⟩ }.depth .p0 = 3 ∧ poolEmpty.depth .p2 = 4 ∧
    part.stack .p0 = [] ∧
    staging.stack .p1 = [⟨65534, .retire none⟩, ⟨1, .set (.integer 40#32) none⟩] ::
      [[⟨2001, .set (.integer 30#32) (some 65535)⟩, ⟨1, .create setpointRecord.defn (.integer 1500#32)⟩,
        ⟨2, .set (.enum 1#8) none⟩]] := by
  refine ⟨?_, ?_, ?_, ?_, ?_⟩ <;> decide +kernel

/-- StagedSetPlaced: a key with an entry in the top changeset and one without, a record with a default and a stored value
that pass, and the greatest expected generation. -/
theorem test_witness_staged_set :
    (validKey 2001 = true ∧ validExpect (some 65535) ∧ Value.fits (.integer 5000#32)) ∧
    (∃ top lower, staging.stack .p1 = top :: lower ∧ ∃ e ∈ top, e.key = 1) ∧ staging.heldEntries < 64 ∧
    (staging.rights.allows .p1 2001 .stage = true ∧ staging.rights.allows .p1 1 .stage = true) ∧
    (staging.view .p1 2001 = .live 0 setpointRecord (.integer 30#32) ∧
      checkValue setpointRecord.defn.constraints setpointRecord.live (.integer 5000#32) = none ∧
      setpointRecord.defn.default = some (.integer 1500#32) ∧
      checkValue setpointRecord.defn.constraints setpointRecord.live (.integer 1500#32) = none ∧
      setpointRecord.stored = some (.integer 10#32) ∧
      checkValue setpointRecord.defn.constraints setpointRecord.live (.integer 10#32) = none) ∧
    (staging.view .p1 1 = .staged setpointRecord.defn (.integer 40#32) ∧
      checkValue setpointRecord.defn.constraints (.integer 40#32) (.integer 0#32) = none) := by
  refine ⟨⟨?_, ?_, trivial⟩, ⟨_, _, rfl, ?_⟩, ?_, ⟨?_, ?_⟩, ⟨?_, ?_, ?_, ?_, ?_, ?_⟩, ?_, ?_⟩
  · decide
  · simp [validExpect]
  · simp
  all_goals decide +kernel

/-- StagedCreateAndRetirePlaced: an absent key with the option to give an initial value or to leave it out, and a record
and a staged CREATE to retire. -/
theorem test_witness_staged_create :
    (staging.rights.allows .p1 3 .full = true ∧ staging.view .p1 3 = .absent ∧ staging.keyDraining 3 = false) ∧
    Changeset.wf [⟨65534, .retire none⟩, ⟨1, .set (.integer 40#32) none⟩] ∧
    (setpointRecord.defn.consistent = true ∧ setpointRecord.defn.constraints.fits ∧
      checkValue setpointRecord.defn.constraints (setpointRecord.defn.default.getD (.integer 0#32)) (.integer 0#32) =
        none ∧ setpointRecord.defn.default = some (.integer 1500#32)) ∧
    staging.view .p1 2001 = .live 0 setpointRecord (.integer 30#32) ∧
    staging.view .p1 1 = .staged setpointRecord.defn (.integer 40#32) := by
  refine ⟨⟨?_, ?_, ?_⟩, ?_, ⟨?_, ?_, ?_, ?_⟩, ?_, ?_⟩
  · decide +kernel
  · decide +kernel
  · decide +kernel
  · simp [Changeset.wf]
  · decide
  · simp [Constraints.fits, setpointRecord]
  all_goals decide +kernel

/-- StagingRefusalsInOrder: a full pool, keys with no entry in the top changeset, and the view in each case; the cases of
the view itself are those of `test_witness_get_and_view`. -/
theorem test_witness_staging_refusals :
    (poolEmpty.stack .p1 = [] :: [] ∧ 64 ≤ poolEmpty.heldEntries) ∧
    (∀ e ∈ ([] : Changeset), e.key ≠ 2001) ∧
    poolEmpty.view .p1 2001 = .live 0 setpointRecord (.integer 20#32) ∧
    poolEmpty.view .p1 65534 = .live 383 modeRecord (.enum 3#8) ∧ modeRecord.defn.default = none ∧
    checkValue modeRecord.defn.constraints modeRecord.live (.enum 2#8) = some .notAllowed ∧
    (poolEmpty.view .p1 7 = .absent ∧ poolEmpty.keyDraining 7 = true ∧ poolEmpty.keyDraining 8 = false) ∧
    { poolEmpty with rights := exampleRights }.rights.allows .p1 1200 .full = false ∧
    (part.stack .p0 = [] ∧ part.applyCheck .p0 .lasting [⟨7, .retire none⟩] = some (.notFound, 0)) := by
  refine ⟨⟨?_, ?_⟩, by simp, ?_, ?_, ?_, ?_, ⟨?_, ?_, ?_⟩, ?_, ?_, ?_⟩ <;> decide +kernel

/-- The part with a staged CREATE of key 1 at P1's level 1, nothing at its level 2, and no entry left in the pool. -/
def poolStaged : State :=
  { part with staged := ⟨[], [[], [⟨1, .create setpointRecord.defn (.integer 1500#32)⟩]],
      [(List.range 63).map fun n => ⟨n + 1, .retire none⟩]⟩ }

/-- StagingRefusalsInOrder: a definition that is not consistent, encodings of the wrong size, and a full pool for DEFAULT,
REVERT and commands over a key present through a staged CREATE. -/
theorem test_witness_staging_more :
    (Definition.fits ⟨0, .lasting, .text 33, none⟩ ∧ Definition.consistent ⟨0, .lasting, .text 33, none⟩ = false) ∧
    (Definition.fits setpointRecord.defn ∧ setpointRecord.defn.consistent = true) ∧
    (decodeValue .integer [0#8, 0#8, 0#8] = none ∧ decodeValue .text [] = none ∧
      decodeValue .integer [0#8, 0#8, 0#8, 0x0A#8] = some (.integer 10#32)) ∧
    (poolEmpty.view .p1 2001 = .live 0 setpointRecord (.integer 20#32) ∧
      setpointRecord.defn.default = some (.integer 1500#32) ∧ setpointRecord.stored = some (.integer 10#32) ∧
      checkValue setpointRecord.defn.constraints setpointRecord.live (.integer 1500#32) = none ∧
      checkValue setpointRecord.defn.constraints setpointRecord.live (.integer 10#32) = none) ∧
    (poolStaged.view .p1 1 = .staged setpointRecord.defn (.integer 1500#32) ∧ 64 ≤ poolStaged.heldEntries) := by
  refine ⟨⟨?_, ?_⟩, ⟨?_, ?_⟩, ⟨?_, ?_, ?_⟩, ⟨?_, ?_, ?_, ?_, ?_⟩, ?_, ?_⟩
  · simp [Definition.fits, Constraints.fits]
  · decide
  · simp [Definition.fits, Constraints.fits, setpointRecord, Value.fits, Value.type, Constraints.type]
  all_goals decide +kernel

/-- MergePlacesEntries, with the default mode and with the greatest mode code. -/
theorem test_witness_merge :
    ([] : List Byte) ∈ ([[], [0x01#8], [0x02#8]] : List (List Byte)) ∧
    [0x02#8] ∈ ([[], [0x01#8], [0x02#8]] : List (List Byte)) ∧
    ∃ top below, staging.stack .p1 = top :: below :: [] ∧ Changeset.wf top ∧ Changeset.wf below :=
  ⟨by decide, by decide, _, _, rfl, by simp [Changeset.wf], by simp [Changeset.wf]⟩

/-- The part with one changeset on P1's stack: a SET of the setpoint record. -/
def oneLevel (v : Word32) : State := { part with staged := ⟨[], [[⟨2001, .set (.integer v) (some 65535)⟩]], []⟩ }

/-- OutermostCommitApplies: a changeset that passes and one that does not, depth 0, and mode codes that name none. -/
theorem test_witness_commit :
    [0x00#8] ∉ ([[], [0x01#8], [0x02#8]] : List (List Byte)) ∧ [0x03#8] ∉ ([[], [0x01#8], [0x02#8]] : List (List Byte)) ∧
    part.stack .p1 = [] ∧ (oneLevel 5000#32).stack .p1 = [[⟨2001, .set (.integer 5000#32) (some 65535)⟩]] ∧
    (oneLevel 5000#32).applyCheck .p1 .transient [⟨2001, .set (.integer 5000#32) (some 65535)⟩] = none ∧
    (oneLevel 5001#32).applyCheck .p1 .lasting [⟨2001, .set (.integer 5001#32) (some 65535)⟩] = some (.range, 0) := by
  refine ⟨?_, ?_, ?_, ?_, ?_, ?_⟩ <;> decide +kernel

/-- The part with clean-up jobs waiting. -/
def withQueue (n : Nat) : State := { part with persist := { part.persist with queue := List.replicate n (cleanupJob 5) } }

/-- OutermostCommitApplies, what an apply does: a state whose claims are well-formed. -/
theorem test_witness_applied : (oneLevel 5000#32).claimsWf := ⟨by decide, by decide, by simp [oneLevel, part, State.reset]⟩

/-- A COMMIT in TRANSIENT mode sets OVERRIDDEN of a LASTING record and queues no WRITE (R74, R79). -/
theorem test_transient_commit :
    let s := after (.commit .p1) (takes (oneLevel 5000#32) .p1 0x26#8 [0x02#8])
    s.slot 0 = .live { setpointRecord with live := .integer 5000#32, generation := 1, overridden := true } ∧
    s.persist.queue = [] ∧ s.stack .p1 = [] := by
  refine ⟨?_, ?_, ?_⟩ <;> decide +kernel

/-- The first entry that fails gives code and index, and a failure of the changeset as a whole has index 255 (R63, R72). -/
theorem test_apply_failure_index :
    part.applyCheck .p0 .lasting [⟨2001, .set (.integer 0#32) none⟩, ⟨7, .create modeRecord.defn (.enum 2#8)⟩,
      ⟨1, .retire none⟩] = some (.keyDraining, 1) ∧
    part.applyCheck .p0 .transient [⟨1, .create modeRecord.defn (.enum 2#8)⟩] = some (.notAllowed, 0) ∧
    (withQueue 32).applyCheck .p0 .lasting [⟨2001, .retire none⟩] = some (.persistFull, 255) := by
  refine ⟨?_, ?_, ?_⟩ <;> decide +kernel

/-- ApplyPassesExactlyWhen: the records and jobs that its clauses on the job count name. -/
theorem test_witness_apply :
    part.liveRecord 2001 = some (0, setpointRecord) ∧ part.liveRecord 65534 = some (383, modeRecord) ∧
    (Entry.mk 2001 (.set (.integer 10#32) none)).change = .set (.integer 10#32) none ∧
    part.applyCheck .p0 .lasting [⟨1, .create modeRecord.defn (.enum 1#8)⟩, ⟨2001, .retire (some 65535)⟩] = none := by
  refine ⟨?_, ?_, ?_, ?_⟩ <;> decide +kernel

/-- The four statements about direct commands: the apply passes for a SET of the value, of the default and of the stored
value, for a CREATE in the lowest FREE slot, and for a RETIRE; no claim stands. -/
theorem test_witness_direct :
    part.stack .p1 = [] ∧ part.liveRecord 2001 = some (0, setpointRecord) ∧
    part.applyCheck .p1 .lasting [⟨2001, .set (.integer 0#32) (some 65535)⟩] = none ∧
    part.applyCheck .p1 .lasting [⟨2001, .set (.integer 1500#32) none⟩] = none ∧
    part.applyCheck .p1 .lasting [⟨2001, .set (.integer 10#32) none⟩] = none ∧
    part.applyCheck .p1 .lasting [⟨2001, .retire none⟩] = none ∧
    (part.applyCheck .p1 .lasting [⟨1, .create modeRecord.defn (.enum 3#8)⟩] = none ∧
      modeRecord.defn.consistent = true ∧ part.slot 1 = .free ∧ part.slot 0 ≠ .free) ∧
    part.claims = [] := by
  refine ⟨?_, ?_, ?_, ?_, ?_, ?_, ⟨?_, ?_, ?_, ?_⟩, ?_⟩ <;> decide +kernel

theorem test_witness_direct_claims : part.claimsWf ∧ modeRecord.defn.constraints.fits :=
  ⟨⟨by decide, by decide, by simp [part, State.reset]⟩, (by decide : [3#8, 1#8].length ≤ 255)⟩

/-- DirectDefaultRevertApplied, the refusals: a right below STAGE, a key not held, a record with neither default nor stored
value, and a failing apply check. -/
theorem test_witness_direct_refused :
    ({ part with rights := exampleRights }.rights.allows .p2 2001 .stage = false ∧ part.rights.allows .p1 7 .stage = true) ∧
    part.liveRecord 7 = none ∧
    (part.liveRecord 65534 = some (383, modeRecord) ∧ modeRecord.defn.default = none ∧
      modeRecord.defn.persistence = .transient ∧ modeRecord.stored = none) ∧
    { part with claims := claimed.claims }.applyCheck .p1 .lasting [⟨2001, .set (.integer 1500#32) none⟩] =
      some (.claimed, 0) := by
  refine ⟨⟨?_, ?_⟩, ?_, ⟨?_, ?_, ?_, ?_⟩, ?_⟩ <;> decide +kernel

/-- The part with all 24 claim entries in use. -/
def claimsFull : State := { part with claims := (List.range 24).map fun n => ⟨n + 1, .p0, 1, []⟩ }

/-- ClaimActs, at the least and the greatest key and lease: no entry, all 24 in use, an entry of the port, of another port,
and one in which the port waits. -/
theorem test_witness_claim :
    (validKey 1 = true ∧ validKey 65534 = true ∧ validLease 1 ∧ validLease 60000) ∧
    (part.liveRecord 2001 ≠ none ∧ part.liveRecord 1 = none ∧ part.rights.allows .p2 2001 .stage = true ∧
      { part with rights := exampleRights }.rights.allows .p2 2001 .stage = false) ∧
    ((∀ e ∈ part.claims, e.key ≠ 2001) ∧ part.claims.length < 24) ∧
    ((∀ e ∈ claimsFull.claims, e.key ≠ 2001) ∧ 24 ≤ claimsFull.claims.length) ∧
    (∃ e b, claimed.claims = [] ++ e :: b ∧ e.key = 2001 ∧ e.holder = .p0 ∧ e.waiters = [⟨.p1, 1⟩] ++ ⟨.p2, 60000⟩ :: [] ∧
      ∀ x ∈ [] ++ b, x.key ≠ 2001) ∧
    ∃ a e, claimed.claims = a ++ e :: [] ∧ e.key = 65534 ∧ e.holder = .p1 ∧ .p0 ∉ e.waiters.map Waiter.port := by
  refine ⟨⟨by decide, by decide, by simp [validLease, Config.maxLease], by simp [validLease, Config.maxLease]⟩,
    ⟨by decide +kernel, by decide +kernel, by decide +kernel, by decide +kernel⟩, ⟨by decide, by decide⟩,
    ⟨by decide, by decide⟩, ⟨_, _, rfl, rfl, rfl, rfl, by decide⟩, [_], _, rfl, rfl, rfl, by decide⟩

/-- ReleaseActs: a holder with waiters and one without, a waiter, and a port that is neither. -/
theorem test_witness_release :
    (∃ e b, claimed.claims = [] ++ e :: b ∧ e.key = 2001 ∧ e.holder = .p0 ∧ e.waiters = ⟨.p1, 1⟩ :: [⟨.p2, 60000⟩] ∧
      .p2 ∈ e.waiters.map Waiter.port ∧ ∀ x ∈ [] ++ b, x.key ≠ 2001) ∧
    (∃ a e, claimed.claims = a ++ e :: [] ∧ e.key = 65534 ∧ e.holder = .p1 ∧ e.waiters = [] ∧
      (∀ x ∈ a ++ [], x.key ≠ 65534)) ∧
    ∀ e ∈ claimed.claims, e.key ≠ 1 :=
  ⟨⟨_, _, rfl, rfl, rfl, rfl, by decide, by decide⟩, ⟨[_], _, rfl, rfl, rfl, rfl, by decide⟩, by decide⟩

/-- LeaseCountsAndExpires: a lease of 60000 with waiters, leases of 1 with a waiter and without, and a pause limit of 1. -/
theorem test_witness_lease :
    (∃ e b, claimed.claims = [] ++ e :: b ∧ e.key = 2001 ∧ 1 < e.remaining ∧ ∀ x ∈ [] ++ b, x.key ≠ 2001) ∧
    (∃ a e, claimed.claims = a ++ e :: [] ∧ e.key = 65534 ∧ e.remaining = 1 ∧ e.waiters = [] ∧
      ∀ x ∈ a ++ [], x.key ≠ 65534) ∧
    (∃ e : ClaimEntry, e.remaining = 1 ∧ e.waiters = ⟨.p2, 5⟩ :: [] ∧ Port.p2 ≠ e.holder) ∧
    let s : State := { State.reset with
      claims := [⟨1, .p0, 2, []⟩, ⟨2, .p1, 1, [⟨.p2, 1⟩]⟩, ⟨3, .p2, 1, []⟩]
      persist := { Persist.initial with engine := .paused none ⟨.p0, 1⟩ } }
    s.claimsWf ∧ s.persist.engine.pause = some ⟨.p0, 1⟩ := by
  refine ⟨⟨_, _, rfl, rfl, by decide, by decide⟩, ⟨[_], _, rfl, rfl, rfl, rfl, by decide⟩,
    ⟨⟨1, .p0, 1, [⟨.p2, 5⟩]⟩, rfl, rfl, by decide⟩, ⟨by decide, by decide, ?_⟩, rfl⟩
  simp [ClaimEntry.wf, validLease, Config.maxLease]

/-- ClaiminfoReturnsClaim: the keys refused for their form, a right of NONE and an entry with two waiters. -/
theorem test_witness_claiminfo :
    (∃ a e b, claimed.claims = a ++ e :: b ∧ e.key = 2001 ∧ ∀ x ∈ a, x.key ≠ 2001) ∧
    claimed.rights.allows .p2 2001 .read = true ∧ { claimed with rights := exampleRights }.rights.allows .p1 1550 .read = false :=
  ⟨⟨[], _, _, rfl, rfl, by simp⟩, by decide +kernel, by decide +kernel⟩

/-- WatchCommands: the rows and codes they speak of, and the least and greatest class number and the number after it. -/
theorem test_witness_watch :
    (Instr.unwatch .p1, 0x41#8) ∈ [(Instr.watch .p1, 0x40#8), (Instr.unwatch .p1, 0x41#8)] ∧
    (Instr.watchclass .p1, 0x42#8) ∈ [(Instr.watchclass .p1, 0x42#8), (Instr.unwatchclass .p1, 0x43#8)] ∧
    ((0 : ClassId).val = (0x00#8 : Byte).toNat ∧ (15 : ClassId).val = (0x0F#8 : Byte).toNat ∧ 16 ≤ (0x10#8 : Byte).toNat) ∧
    part.liveRecord 65534 = some (383, modeRecord) ∧ part.liveRecord 1 = none := by
  refine ⟨?_, ?_, ⟨?_, ?_, ?_⟩, ?_, ?_⟩ <;> decide +kernel

/-- NextnoticeRemovesOldest: an empty queue, a RESYNC queue, and a queue with a notice. -/
theorem test_witness_nextnotice :
    let s : State := { part with notices := ⟨.normal [], .resync, .normal [.engineFault .erase 383, .durable 4294967295]⟩ }
    s.notices.get .p0 = .normal [] ∧ s.notices.get .p1 = .resync ∧
    s.notices.get .p2 = .normal (.engineFault .erase 383 :: [.durable 4294967295]) := by decide

/-- PostedNoticeJoinsQueue: no other CHANGED for the key, 15 notices and 16, and a RETIRED with no CHANGED for its key. -/
theorem test_witness_post :
    (∀ m ∈ [Notice.created 1] ++ [.changed 2 5], ∀ g : Nat, m ≠ .changed 1 g) ∧
    ((List.replicate 15 (Notice.created 1)).length < 16 ∧ (List.replicate 16 (Notice.created 1)).length = 16) ∧
    ∀ m ∈ List.replicate 16 (Notice.created 1), ∀ g : Nat, m ≠ .changed 1 g := by
  refine ⟨by simp, by decide, ?_⟩
  intro m hm g
  rw [List.eq_of_mem_replicate hm]
  simp

/-- The part with another engine. -/
def withEngine (e : Engine) : State := { part with persist := { part.persist with engine := e } }

/-- The jobs of the witnesses: a WRITE of the setpoint record, the ERASE of the DRAINING slot, and a FREEZE. -/
def writeOne : WriteJob := ⟨0, 2001, setpointRecord.defn, .integer 30#32, 13, 14⟩
def eraseFive : EraseJob := ⟨5, some 7, some (12, 12)⟩
def windowAll : WindowDef := ⟨1, 65534, false, ⟨.full, .read, .none⟩⟩

/-- SyncAnswered: the numbers refused, the mark reached and not reached, and a FAULTED engine. -/
theorem test_witness_sync :
    part.applyNumber = 12 ∧ part.persist.mark = 11 ∧ part.persist.engine.isFaulted = false ∧
    (withEngine (.faulted (.erase eraseFive))).persist.engine.isFaulted = true := by decide

/-- PauseActs and the RESUME of PauseEnds: each state of the engine, the pause held by the port and by another. -/
theorem test_witness_pause :
    part.rights.roles.get .p0 = .admin ∧ part.rights.roles.get .p1 ≠ .admin ∧
    part.persist.engine = .busy ⟨.slot (.erase eraseFive), 1, .eraseA⟩ ∧
    (withEngine .idle).persist.engine = .idle ∧
    (withEngine (.pausing ⟨.slot (.erase eraseFive), 1, .eraseA⟩ ⟨.p0, 10000⟩)).persist.engine.pause =
      some ⟨.p0, 10000⟩ ∧
    (withEngine (.paused none ⟨.p1, 1⟩)).persist.engine.pause = some ⟨.p1, 1⟩ ∧
    (withEngine (.paused none ⟨.p1, 1⟩)).persist.queue = [] ∧
    (withEngine (.paused (some ⟨.slot (.write writeOne), 2, .nextAttempt⟩) ⟨.p0, 1⟩)).persist.engine =
      .paused (some ⟨.slot (.write writeOne), 2, .nextAttempt⟩) ⟨.p0, 1⟩ ∧
    part.persist.engine.pause = none := by decide

/-- ClearfaultGivesUp: a WRITE and an ERASE in the fault record, no durability request, and an engine that has no fault. -/
theorem test_witness_clearfault :
    (withEngine (.faulted (.write writeOne))).persist.engine = .faulted (.write writeOne) ∧
    (withEngine (.faulted (.erase eraseFive))).persist.engine = .faulted (.erase eraseFive) ∧
    (∀ q : Port, (withEngine (.faulted (.erase eraseFive))).persist.requests.get q = none) ∧
    part.persist.engine.isFaulted = false := by
  refine ⟨rfl, rfl, fun q => ?_, rfl⟩
  cases q <;> rfl

/-- A valid copy of the setpoint record with a sequence number. -/
def copyOf (seq : Nat) : CellCopy :=
  ⟨seq, 2001, 4, .integer 0#32 5000#32 (some 10), some (.integer 1500#32), .integer 30#32⟩

/-- An NV Array with the cells of pair 0 given. -/
def pairZero (a b : Cell) : NvArray := (NvArray.blank.setCell 0 .a a).setCell 0 .b b

/-- AttemptBegins: no valid cell, one valid cell, and two whose sequence numbers wrap from 65535 to 1, in both orders. -/
theorem test_witness_attempt :
    ((NvArray.blank.pair 0).get .a = .erased ∧ (NvArray.blank.pair 0).get .b = .erased) ∧
    (((pairZero (.written false (copyOf 65535)) .corrupt).pair 0).get .a = .written false (copyOf 65535) ∧
      ((pairZero (.written false (copyOf 65535)) .corrupt).pair 0).get .b = .corrupt) ∧
    (((pairZero (.written false (copyOf 65535)) (.written false (copyOf 1))).pair 0).get .a =
        .written false (copyOf 65535) ∧
      ((pairZero (.written false (copyOf 65535)) (.written false (copyOf 1))).pair 0).get .b =
        .written false (copyOf 1)) ∧
    (copyOf 65535).seq = 65535 ∧ (copyOf 1).seq ≠ (copyOf 1).seq + 1 := by
  refine ⟨⟨?_, ?_⟩, ⟨?_, ?_⟩, ⟨?_, ?_⟩, ?_, ?_⟩ <;> decide +kernel

/-- PhaseEndBeginsNext: phases that another follows, and each kind of phase with a cell or entry that it acts on. -/
theorem test_witness_phase_end :
    Phase.next .eraseA = some .eraseB ∧ Phase.next (.program .b 65535) = some (.verify .b 65535) ∧
    Phase.next (.mark .a [.b]) = some (.mark .b []) ∧ Phase.next .programEntry = some .verifyEntry ∧
    part.persist.engine = .busy ⟨.slot (.erase eraseFive), 1, .eraseA⟩ ∧ (part.nv.pair 5).get .a = .erased ∧
    ((pairZero (.written true (copyOf 1)) .erased).pair 0).get .a = .written true (copyOf 1) ∧
    NvArray.blank.entry 5 = .unwritten ∧
    ((pairZero .corrupt .erased).pair 0).get .a ≠ .erased ∧
    (NvArray.blank.setEntry 5 .spoiled).entry 5 ≠ .unwritten := by
  refine ⟨?_, ?_, ?_, ?_, ?_, ?_, ?_, ?_, ?_, ?_⟩ <;> decide +kernel

/-- The part in which the VERIFY of the WRITE is running over a cell that matches. -/
def verifying : State :=
  { withEngine (.busy ⟨.slot (.write writeOne), 1, .verify .b 1⟩) with nv := pairZero .erased (.written false (copyOf 1)) }

/-- JobCompletes. -/
theorem test_witness_completes :
    (verifying.persist.engine.running = some ⟨.slot (.write writeOne), 1, .verify .b 1⟩ ∧
      (verifying.nv.pair writeOne.slot).get .b = .written false ⟨1, writeOne.key, writeOne.defn.cls,
        writeOne.defn.constraints, writeOne.defn.default, writeOne.value⟩) ∧
    (withEngine (.busy ⟨.slot (.erase eraseFive), 3, .verifyErased⟩)).persist.engine.running =
      some ⟨.slot (.erase eraseFive), 3, .verifyErased⟩ ∧
    part.nv.pair eraseFive.slot = ⟨.erased, .erased⟩ := by
  refine ⟨⟨?_, ?_⟩, ?_, ?_⟩ <;> decide +kernel

/-- MismatchRetriesOrFaults: a cell that does not match, at attempts 1, 2 and 3. -/
theorem test_witness_mismatch :
    (NvArray.blank.pair writeOne.slot).get .a ≠ .written false ⟨1, writeOne.key, writeOne.defn.cls,
      writeOne.defn.constraints, writeOne.defn.default, writeOne.value⟩ ∧
    (pairZero .corrupt .erased).pair 0 ≠ ⟨.erased, .erased⟩ ∧
    (Flight.mk (.slot (.write writeOne)) 3 (.verify .a 1)).job = .slot (.write writeOne) ∧
    (withEngine (.busy ⟨.slot (.write writeOne), 3, .verify .a 1⟩)).persist.engine.running =
      some ⟨.slot (.write writeOne), 3, .verify .a 1⟩ := by
  refine ⟨?_, ?_, ?_, ?_⟩ <;> decide +kernel

/-- The part with a FREEZE of window 5 at its VERIFY. -/
def freezing : State :=
  { withEngine (.busy ⟨.freeze 5 windowAll, 1, .verifyEntry⟩) with
    nv := NvArray.blank.setEntry 5 (.valid windowAll)
    rights := { Rights.initial with windows := Rights.initial.windows.set 5 (.freezing windowAll) } }

/-- FreezeJobEnds, and RightsStayGuarded for a window with no FREEZE job. -/
theorem test_witness_freeze :
    (freezing.persist.engine.running = some ⟨.freeze 5 windowAll, 1, .verifyEntry⟩ ∧
      freezing.rights.windows[(5 : WindowId).val] = .freezing windowAll ∧ freezing.nv.entry 5 = .valid windowAll) ∧
    (∀ d : WindowDef, .freeze 5 d ∉ part.persist.jobs) ∧ freezing.nv.entry 5 ≠ .unwritten ∧
    exampleRights.windows[(1 : WindowId).val] = .frozen ⟨1500, 1599, false, ⟨.full, .none, .full⟩⟩ := by
  refine ⟨⟨rfl, by decide +kernel, by decide +kernel⟩, fun d h => ?_, by decide +kernel, by decide +kernel⟩
  simp [Persist.jobs, part, Engine.job, Engine.faultRecord] at h

/-- The part of `freezing` with window 0 FROZEN beside it. -/
def frozenBeside : State :=
  { freezing with
    nv := freezing.nv.setEntry 0 (.valid windowAll)
    rights := { freezing.rights with
      windows := freezing.rights.windows.set 0 (.frozen windowAll)
      entries := freezing.rights.entries.set 0 .valid } }

/-- RightsStayGuarded: a FREEZING window with its job and a FROZEN one with its entry. -/
theorem test_witness_freezes :
    frozenBeside.freezesWf ∧ frozenBeside.rights.windows[(0 : WindowId).val] = .frozen windowAll ∧
    frozenBeside.startup.state = .running := by
  have key : ∀ i : WindowId,
      (frozenBeside.persist.jobs.countP (Job.isFreezeFor i) =
        match frozenBeside.rights.windows[i.val] with | .freezing _ => 1 | _ => 0) ∧
      (i = 5 → frozenBeside.rights.windows[i.val] = .freezing windowAll) ∧
      (frozenBeside.rights.windows[i.val] = .frozen windowAll →
        frozenBeside.rights.entries[i.val] = .valid ∧ frozenBeside.nv.entry i = .valid windowAll) ∧
      (match frozenBeside.rights.windows[i.val] with | .frozen d => decide (d = windowAll) | _ => true) = true := by
    intro i
    fin_cases i <;> refine ⟨?_, ?_, ?_, ?_⟩ <;> decide +kernel
  refine ⟨fun i => ⟨(key i).1, fun d h => ?_, fun d h => ?_⟩, by decide +kernel, by decide +kernel⟩
  · have : i = 5 ∧ d = windowAll := by
      simpa [frozenBeside, freezing, withEngine, part, Persist.jobs, Engine.job, Engine.faultRecord] using h
    obtain ⟨rfl, rfl⟩ := this
    exact (key 5).2.1 rfl
  · have hd := (key i).2.2.2
    rw [h] at hd
    obtain rfl := of_decide_eq_true hd
    exact (key i).2.2.1 h

/-- SetquotaAndSetrole and WindowCommands: a quota below the count and one at it, and a window in each state. -/
theorem test_witness_rights :
    ((4 : ClassId).val = (0x04#8 : Byte).toNat ∧ 1 < (part.classDesc 4).count ∧ (part.classDesc 4).count ≤ 2) ∧
    exampleRights.windows[(5 : WindowId).val] = .unused ∧
    exampleRights.windows[(0 : WindowId).val] = .active ⟨1000, 1999, false, ⟨.full, .stage, .read⟩⟩ ∧
    exampleRights.entries[(0 : WindowId).val] = .unwritten ∧
    (windowAll.wf ∧ ¬ WindowDef.wf { windowAll with lo := 65535 } ∧ ¬ WindowDef.wf { windowAll with lo := 2, hi := 1 }) ∧
    (part.persist.jobs.length < 32 ∧ part.persist.engine.isFaulted = false) := by
  refine ⟨⟨?_, ?_, ?_⟩, ?_, ?_, ?_, ⟨?_, ?_, ?_⟩, ?_, ?_⟩
  all_goals first | decide +kernel | simp [WindowDef.wf, validKey, windowAll, Config.maxKey]

/-- AdminOnlyRefused: an admin-only command at a port that is not ADMIN, and a command that is not admin-only. -/
theorem test_witness_admin_only :
    (Instr.restart .p1 .corrupt).takenFrom = some (.p1, 0x6F#8) ∧ 0x6F#8 ∈ adminCodes ∧
    part.rights.roles.get .p1 ≠ .admin ∧ 0x10#8 ∉ adminCodes ∧
    exec (.ident .p1) (takes part .p1 0x01#8 []) = .next (after (.ident .p1) (takes part .p1 0x01#8 [])) :=
  ⟨rfl, by decide, by decide, by decide, rfl⟩

/-- A part without VDD. -/
def dark : State := { State.reset with vdd := false, startup := ⟨.held, .power, []⟩ }

/-- A start-up cuts the ERASE of cell A that runs, and leaves its partner alone (R138). -/
theorem test_cut_erase_corrupt :
    ((after (.resetnAssert .corrupt) part).nv.pair 5).get .a = .corrupt ∧
    ((after (.resetnAssert .corrupt) part).nv.pair 5).get .b = .erased := by decide +kernel

/-- StartupBegins: RESETn and VDD both ways. -/
theorem test_witness_startup_begins :
    (part.vdd = true ∧ part.resetnLow = false) ∧ dark.vdd = false ∧
    { dark with resetnLow := true }.resetnLow = true ∧
    ({ dark with vdd := true, resetnLow := true }.vdd = true ∧ { dark with vdd := true }.startup.state = .held) := by
  decide

/-- ReadyRebuilds: an NV Array with a newest copy in pair 0, the same key again in pair 383, a corrupt cell in pair 2, and
a VALID, a SPOILED and an UNWRITTEN entry. -/
def scanning : State :=
  { dark with
    vdd := true
    startup := ⟨.scanning, .pin, []⟩
    nv := (((((pairZero (.written false (copyOf 65535)) (.written false (copyOf 1))).setCell 383 .a
      (.written false (copyOf 7))).setCell 2 .b .corrupt).setEntry 0 (.valid windowAll)).setEntry 1 .spoiled) }

theorem test_witness_ready :
    (scanning.vdd = true ∧ scanning.startup.state = .scanning) ∧
    (scanning.nv.pair 0).newest = some (.b, copyOf 1) ∧ (scanning.nv.pair 383).newest = some (.a, copyOf 7) ∧
    ((scanning.nv.pair 1).newest = none ∧ scanning.nv.pair 1 = ⟨.erased, .erased⟩) ∧
    ((scanning.nv.pair 2).newest = none ∧ scanning.nv.pair 2 ≠ ⟨.erased, .erased⟩) ∧
    scanning.nv.entry 0 = .valid windowAll ∧ scanning.nv.entry 1 = .spoiled ∧ scanning.nv.entry 5 = .unwritten := by
  refine ⟨⟨?_, ?_⟩, ?_, ?_, ⟨?_, ?_⟩, ⟨?_, ?_⟩, ?_, ?_, ?_⟩ <;> decide +kernel

/-! ## The laws, each in a state where it says something

Each step law has as its hypotheses a step that answers a next state, which every step does, and the law before it. -/

theorem test_witness_step_answers : step part = .next part := rfl

theorem test_witness_law_notices :
    State.noticesWf { part with notices := ⟨.resync, .normal [.changed 1 1, .changed 2 1], .normal []⟩ } := by
  intro p
  cases p <;> simp [PortMap.get, NoticeQueue.wf, Config.noticeQueueSize, Notice.changedKey]

theorem test_witness_law_claims : claimed.claimsWf ∧ claimed.claimsLive := by
  refine ⟨claimed_claimsWf, ?_⟩
  intro e he
  simp only [claimed, List.mem_cons, List.not_mem_nil, or_false] at he
  obtain rfl | rfl := he
  · exact ⟨0, by decide +kernel⟩
  · exact ⟨383, by decide +kernel⟩

theorem test_witness_law_generations : one.generationsWf := by
  intro i r h
  rw [one_slot] at h
  split at h
  · cases h; decide
  · cases h

theorem test_witness_law_counts : part.countsRight := by
  intro c
  revert c
  decide +kernel

theorem test_witness_law_staging : State.stagingWf staging ∧ one.keysUnique := by
  refine ⟨⟨fun p => ?_, by decide⟩, one_keysUnique⟩
  cases p <;>
  · refine ⟨by decide, ?_⟩
    simp [State.stack, PortMap.get, staging, Changeset.wf]

theorem test_witness_law_engine :
    part.placesWf ∧ part.stagingWf ∧ part.engineWf ∧ part.applyNumberWf ∧ part.markWf := by
  refine ⟨(by decide : part.persist.jobs.length ≤ 32), ⟨fun p => ?_, by decide⟩, ⟨nofun, nofun⟩,
    (by decide : part.applyNumber ≤ 4294967295), by decide, by decide⟩
  cases p <;>
  · refine ⟨by decide, ?_⟩
    simp [State.stack, PortMap.get, part, State.reset, PortMap.all]

/-- The part with slot 5 DRAINING, its ERASE in flight, and the slot before it waiting in the backlog. -/
def draining : State :=
  { State.reset with
    slots := (State.reset.slots.set 5 (.draining (some 7))).set 4 (.draining none)
    persist := part.persist
    startup := ⟨.running, .power, [4]⟩ }

theorem test_witness_law_jobs :
    State.writesWf { one with persist := { Persist.initial with queue := [.slot (.write writeOne)] } } ∧
    draining.drainingHasJob ∧ draining.backlogWf := by
  refine ⟨fun i => ⟨List.countP_le_length, fun h => ?_⟩, fun i => ?_, by simp [draining], ?_⟩
  · have hi : i = 0 := by
      simp only [List.any_cons, List.any_nil, Bool.or_false, Job.isWriteFor, Job.writeFor, writeOne] at h
      split at h <;> simp_all
    subst hi
    decide +kernel
  · by_cases h5 : i = 5
    · subst h5; decide +kernel
    by_cases h4 : i = 4
    · subst h4; decide +kernel
    have h : draining.slot i = .free := by
      have h5' : i.val ≠ 5 := fun e => h5 (Fin.ext e)
      have h4' : i.val ≠ 4 := fun e => h4 (Fin.ext e)
      simp only [State.slot, draining, State.reset, Vector.getElem_set, Vector.getElem_replicate]
      rw [if_neg (by omega), if_neg (by omega)]
    rw [h]
    simp only [Persist.jobs, draining, part, Engine.job, Engine.faultRecord, Option.toList, Option.map, List.append_nil,
      List.nil_append, Job.isEraseFor, List.countP_cons, List.countP_nil, List.count_cons, List.count_nil, Slot.isDraining]
    simp [Ne.symm h5, Ne.symm h4]
  · intro i hi
    simp only [draining, List.mem_singleton] at hi
    subst hi
    decide +kernel

theorem test_witness_law_cleared : dark.clearedWf ∧ dark.running = false := by
  refine ⟨fun _ => ⟨fun p => ?_, fun i => ?_, fun c => ?_, rfl, rfl, rfl, rfl, rfl⟩, by decide⟩
  · cases p <;> exact ⟨rfl, rfl, rfl, rfl⟩
  · simp [State.slot, dark, State.reset]
  · simp [State.classDesc, dark, State.reset, ClassDesc.initial, PortMap.all, Config.maxQuota]

end Sys2Proof.Tests
end

section
/-! PROOFS. The Record Table's commands (chapter 1), and SETQUOTA and SETROLE: what a WORKING command answers, what the
readers of its parameters read and refuse, and the answers of a look-up. -/

namespace Sys2Proof.Machine

/-! ## A command taken by its block -/

/-- The block takes the command that the port is WORKING on, with the effect and the answer that `act` gives (R185). -/
theorem State.serve_eq_answers {s t : State} {p : Port} {tag code : Byte} {params data : List Byte} {r : Result}
    {act : List Byte → State × Reply} (h : s.isWorkingOn p tag code params) (ha : act params = (t, ⟨r, data⟩)) :
    s.serve p code act = t.answers p tag r data := by
  rw [State.serve_of_working h, ha]

/-- A GET is answered with its reply, and nothing else changes. -/
theorem exec_get_of_working {s : State} {p : Port} {tag : Byte} {params data : List Byte} {r : Result}
    (h : s.isWorkingOn p tag 0x10#8 params) (hr : s.getReply p params = ⟨r, data⟩) :
    exec (.get p) s = .next (s.answers p tag r data) :=
  congrArg Host.Outcome.next (State.serve_eq_answers h (congrArg (Prod.mk s) hr))

/-- A GETDEF is answered with its reply, and nothing else changes. -/
theorem exec_getdef_of_working {s : State} {p : Port} {tag : Byte} {params data : List Byte} {r : Result}
    (h : s.isWorkingOn p tag 0x11#8 params) (hr : s.getdefReply p params = ⟨r, data⟩) :
    exec (.getdef p) s = .next (s.answers p tag r data) :=
  congrArg Host.Outcome.next (State.serve_eq_answers h (congrArg (Prod.mk s) hr))

/-- A FIND is answered with its reply, and nothing else changes. -/
theorem exec_find_of_working {s : State} {p : Port} {tag : Byte} {params data : List Byte} {r : Result}
    (h : s.isWorkingOn p tag 0x12#8 params) (hr : s.findReply p params = ⟨r, data⟩) :
    exec (.find p) s = .next (s.answers p tag r data) :=
  congrArg Host.Outcome.next (State.serve_eq_answers h (congrArg (Prod.mk s) hr))

/-- A SETQUOTA has the effect and the answer that stand behind its NOT_ADMIN check (R103). -/
theorem exec_setquota_of_working {s t : State} {p : Port} {tag : Byte} {params data : List Byte} {r : Result}
    (h : s.isWorkingOn p tag 0x60#8 params) (ht : s.adminOnly p (s.setQuota params) = (t, ⟨r, data⟩)) :
    exec (.setquota p) s = .next (t.answers p tag r data) :=
  congrArg Host.Outcome.next (State.serve_eq_answers h ht)

/-- A SETROLE has the effect and the answer that stand behind its NOT_ADMIN check (R103). -/
theorem exec_setrole_of_working {s t : State} {p : Port} {tag : Byte} {params data : List Byte} {r : Result}
    (h : s.isWorkingOn p tag 0x61#8 params) (ht : s.adminOnly p (s.setRole params) = (t, ⟨r, data⟩)) :
    exec (.setrole p) s = .next (t.answers p tag r data) :=
  congrArg Host.Outcome.next (State.serve_eq_answers h ht)

theorem State.adminOnly_of_admin {s : State} {p : Port} (h : s.rights.roles.get p = .admin) (act : State × Reply) :
    s.adminOnly p act = act := if_pos h

theorem State.adminOnly_of_not_admin {s : State} {p : Port} (h : s.rights.roles.get p ≠ .admin)
    (act : State × Reply) : s.adminOnly p act = (s, ⟨.notAdmin, []⟩) := if_neg h

/-! ## Parameters that carry a key -/

/-- A 2-byte field stands for one number. -/
theorem enc16_inj {n n' : Nat} (hn : n ≤ 65535) (hn' : n' ≤ 65535) (h : enc16 n = enc16 n') : n = n' := by
  simp only [enc16_eq, List.cons.injEq, and_true] at h
  rw [← u16_enc16 hn, h.1, h.2, u16_enc16 hn']

/-- A 2-byte field at the front of the bytes stands for one number and leaves one rest. -/
theorem enc16_append_inj {n n' : Nat} (hn : n ≤ 65535) (hn' : n' ≤ 65535) {rest rest' : List Byte}
    (h : enc16 n ++ rest = enc16 n' ++ rest') : n = n' ∧ rest = rest' := by
  obtain ⟨hfield, hrest⟩ := List.append_inj h rfl
  exact ⟨enc16_inj hn hn' hfield, hrest⟩

/-- The keys that every command refuses (R4). -/
theorem validKey_eq_false {k : Nat} (h : k = 0 ∨ k = 65535) : validKey k = false := by
  rcases h with rfl | rfl <;> decide

/-- The option of a GET is one of the three bytes, and the key is a key (R15). -/
theorem readGet_params_eq_none {k : Nat} {options : List Byte} (hk : k ≤ 65535)
    (h : validKey k = false ∨ ∃ o : Byte, options = [o] ∧ 3 ≤ o.toNat) : readGet (enc16 k ++ options) = none := by
  rw [readGet_eq_none_iff]
  rintro ⟨k', options', hk', ho, he⟩
  obtain ⟨rfl, rfl⟩ := enc16_append_inj hk (validKey_le hk') he
  rcases h with h | ⟨o, rfl, h⟩
  · exact absurd hk' (by simp [h])
  · simp only [List.mem_cons, List.cons.injEq, and_true, List.not_mem_nil, or_false, reduceCtorEq, false_or] at ho
    rcases ho with rfl | rfl | rfl <;> exact absurd h (by decide)

/-- The parameters of a GET read back (R15). -/
theorem readGet_params {k : Nat} {options : List Byte} (hk : validKey k = true)
    (h : options ∈ [[], [0x00#8], [0x01#8], [0x02#8]]) :
    readGet (enc16 k ++ options) = some ⟨k, options = [0x01#8], options = [0x02#8]⟩ := by
  have hread := readKey_enc16 (validKey_le hk)
  simp only [List.mem_cons, List.not_mem_nil, or_false] at h
  rcases h with rfl | rfl | rfl | rfl <;> simp [enc16_eq, readGet, hread, hk]

/-- A starting key that is no key is refused, whatever follows it (R17). -/
theorem readFind_eq_none_of_key {k : Nat} (hk : k ≤ 65535) (h : validKey k = false) (rest : List Byte) :
    readFind (enc16 k ++ rest) = none := by
  rw [readFind_eq_none_iff]
  rintro ⟨k', cls, hk', he⟩
  obtain ⟨rfl, -⟩ := enc16_append_inj hk (validKey_le hk') he
  exact absurd hk' (by simp [h])

/-- A class number of 16 or more is refused (R17). -/
theorem readFind_eq_none_of_class {k : Nat} (hk : k ≤ 65535) {c : Byte} (hc : 16 ≤ c.toNat) :
    readFind (enc16 k ++ [c]) = none := by
  rw [readFind_eq_none_iff]
  rintro ⟨k', cls, hk', he⟩
  obtain ⟨-, hcls⟩ := enc16_append_inj hk (validKey_le hk') he
  cases cls with
  | none => exact absurd hcls nofun
  | some c' =>
    obtain rfl : c = BitVec.ofNat 8 c'.val := by simpa [enc8] using hcls
    have hlt : c'.val < 16 := c'.isLt
    rw [BitVec.toNat_ofNat] at hc
    omega

/-- The parameters of a FIND read back (R17). -/
theorem readFind_params {k : Nat} (hk : validKey k = true) (cls : Option ClassId) :
    readFind (enc16 k ++ (match cls with | some c => enc8 c.val | none => [])) = some (k, cls) := by
  have hread := readKey_enc16 (validKey_le hk)
  cases cls with
  | none => simp [enc16_eq, readFind, hread, hk]
  | some c => simp [enc16_eq, enc8, readFind, hread, hk, readClass_enc8]

/-! ## GET (R15) -/

/-- The flags of a GET answer, each by what it says of the record (R10, R15). -/
theorem State.recordFlags_eq (s : State) (i : SlotId) (r : Record) :
    s.recordFlags i r =
      (if r.defn.persistence = .lasting then 0x01#8 else 0x00#8) |||
        (if r.overridden then 0x02#8 else 0x00#8) ||| (if r.stale then 0x04#8 else 0x00#8) |||
        (if s.persist.queue.any (Job.isWriteFor i) || s.persist.engine.job.toList.any (Job.isWriteFor i) then 0x08#8
          else 0x00#8) |||
        (if r.stored.isSome then 0x10#8 else 0x00#8) := by
  simp only [State.recordFlags, flag, Record.isLasting_iff, Persist.pending, Persist.queuedWrite_isSome,
    Persist.writeInFlight_eq]

/-- The holder reading of a key in its code (R10). -/
theorem State.portOrNone_claimHolder (s : State) (k : Nat) :
    portOrNone (s.claimHolder k) = (s.claimOn k).elim 0xFF#8 fun e => portCode e.holder := by
  unfold State.claimHolder
  cases s.claimOn k <;> rfl

/-- A GET whose parameters are none of its form (R15). -/
theorem State.getReply_of_unread {s : State} {p : Port} {params : List Byte} (h : readGet params = none) :
    s.getReply p params = ⟨.badParam, []⟩ := by
  simp only [State.getReply, h]
  rfl

/-- A GET of a key that the port may not read (R15). -/
theorem State.getReply_of_denied {s : State} {p : Port} {params : List Byte} {q : GetParams}
    (h : readGet params = some q) (hr : s.rights.allows p q.key .read = false) :
    s.getReply p params = ⟨.denied, []⟩ := by
  simp only [State.getReply, h, hr, if_true]
  rfl

/-- A GET of a key that the port may read answers as its option selects (R15). -/
theorem State.getReply_of_allowed {s : State} {p : Port} {params : List Byte} {q : GetParams}
    (h : readGet params = some q) (hr : s.rights.allows p q.key .read = true) :
    s.getReply p params =
      if q.view then s.getView p q.key else if q.stored then s.getStored q.key else s.getPlain q.key := by
  simp only [State.getReply, h, hr, Bool.true_eq_false, if_false]

theorem State.getPlain_of_live {s : State} {k : Nat} {i : SlotId} {r : Record} (h : s.liveRecord k = some (i, r)) :
    s.getPlain k = s.getLive i r r.live := by
  simp only [State.getPlain, h]

theorem State.getPlain_of_absent {s : State} {k : Nat} (h : s.liveRecord k = none) :
    s.getPlain k = ⟨.notFound, []⟩ := by
  simp only [State.getPlain, h]
  rfl

/-- The stored value that a GET with STORED answers (R6, R15). -/
theorem State.getStored_of_stored {s : State} {k : Nat} {i : SlotId} {r : Record} {v : Value}
    (h : s.liveRecord k = some (i, r)) (hl : r.defn.persistence = .lasting) (hv : r.stored = some v) :
    s.getStored k = s.getLive i r v := by
  simp only [State.getStored, h, r.isLasting_iff.mpr hl, hv]

/-- A record with no stored value: every TRANSIENT one, and a LASTING one before its first WRITE (R6, R15). -/
theorem State.getStored_of_not_stored {s : State} {k : Nat} {i : SlotId} {r : Record}
    (h : s.liveRecord k = some (i, r)) (hn : r.defn.persistence = .transient ∨ r.stored = none) :
    s.getStored k = ⟨.noStored, []⟩ := by
  rcases hn with hn | hn
  · have hl : r.isLasting = false := by simp [Record.isLasting, hn]
    simp only [State.getStored, h, hl]
    rfl
  · simp only [State.getStored, h, hn]
    cases r.isLasting <;> rfl

theorem State.getStored_of_absent {s : State} {k : Nat} (h : s.liveRecord k = none) :
    s.getStored k = ⟨.notFound, []⟩ := by
  simp only [State.getStored, h]
  rfl

/-- Settles O15: the parameters are read back or refused, and each option answers as its look-up finds. -/
theorem getReturnsRecord : Obligations.GetReturnsRecord := by
  unfold Obligations.GetReturnsRecord
  intro s p tag k options hk h record
  have hrecord : ∀ i r v, s.getLive i r v = ⟨.ok, record i r v⟩ := by
    intro i r v
    simp only [State.getLive, State.recordFlags_eq, State.portOrNone_claimHolder, record]
    unfold State.claimOn
    cases s.claims.find? fun e => e.key == r.key <;> rfl
  refine ⟨fun hbad _ => ?_, fun h1 h2 ho => ?_⟩
  · refine exec_get_of_working h (State.getReply_of_unread (readGet_params_eq_none hk ?_))
    rcases hbad with hbad | hbad | hbad
    · exact .inl (validKey_eq_false (.inl hbad))
    · exact .inl (validKey_eq_false (.inr hbad))
    · exact .inr hbad
  have hread := readGet_params ((validKey_iff k).mpr ⟨h1, h2⟩) ho
  refine ⟨fun hr => exec_get_of_working h (State.getReply_of_denied hread hr), fun hr => ?_⟩
  have hreply := State.getReply_of_allowed hread hr
  refine ⟨fun hplain => ?plain, fun hstored => ?stored, fun hview => ?view⟩
  case plain =>
    have hq : s.getReply p (enc16 k ++ options) = s.getPlain k := by
      rw [hreply]; rcases hplain with rfl | rfl <;> rfl
    exact ⟨fun i r hl => exec_get_of_working h (by rw [hq, State.getPlain_of_live hl, hrecord]),
      fun hl => exec_get_of_working h (by rw [hq, State.getPlain_of_absent hl])⟩
  case stored =>
    have hq : s.getReply p (enc16 k ++ options) = s.getStored k := by
      rw [hreply]; subst hstored; rfl
    refine ⟨fun i r hl => ⟨fun v hlast hv => ?_, fun hn => ?_⟩, fun hl => ?_⟩
    · exact exec_get_of_working h (by rw [hq, State.getStored_of_stored hl hlast hv, hrecord])
    · exact exec_get_of_working h (by rw [hq, State.getStored_of_not_stored hl hn])
    · exact exec_get_of_working h (by rw [hq, State.getStored_of_absent hl])
  case view =>
    have hq : s.getReply p (enc16 k ++ options) = s.getView p k := by
      rw [hreply]; subst hview; rfl
    refine ⟨fun i r v hv => ?_, fun d v hv => ?_, fun hv => ?_, fun hv => ?_⟩
    · exact exec_get_of_working h (by rw [hq, State.getView, hv]; exact hrecord i r v)
    · exact exec_get_of_working h (by
        rw [hq, State.getView, hv]; simp only [getStaged, flag, beq_iff_eq]; rfl)
    · exact exec_get_of_working h (by rw [hq, State.getView, hv]; rfl)
    · rcases hv with hv | hv <;> exact exec_get_of_working h (by rw [hq, State.getView, hv]; rfl)

/-! ## GETDEF (R16) -/

theorem State.getdefReply_of_unread {s : State} {p : Port} {params : List Byte} (h : readKeyAlone params = none) :
    s.getdefReply p params = ⟨.badParam, []⟩ := by
  simp only [State.getdefReply, h]
  rfl

theorem State.getdefReply_of_denied {s : State} {p : Port} {params : List Byte} {k : Nat}
    (h : readKeyAlone params = some k) (hr : s.rights.allows p k .read = false) :
    s.getdefReply p params = ⟨.denied, []⟩ := by
  simp only [State.getdefReply, h, hr, if_true]
  rfl

theorem State.getdefReply_of_live {s : State} {p : Port} {params : List Byte} {k : Nat} {i : SlotId} {r : Record}
    (h : readKeyAlone params = some k) (hr : s.rights.allows p k .read = true) (hl : s.liveRecord k = some (i, r)) :
    s.getdefReply p params = ⟨.ok, encodeDefinition k r.defn⟩ := by
  simp only [State.getdefReply, h, hr, Bool.true_eq_false, if_false, hl, State.liveRecord_key hl]
  rfl

theorem State.getdefReply_of_absent {s : State} {p : Port} {params : List Byte} {k : Nat}
    (h : readKeyAlone params = some k) (hr : s.rights.allows p k .read = true) (hl : s.liveRecord k = none) :
    s.getdefReply p params = ⟨.notFound, []⟩ := by
  simp only [State.getdefReply, h, hr, Bool.true_eq_false, if_false, hl]
  rfl

/-! ## FIND (R17) -/

/-- The records that a FIND may return: from the starting key on, of the class, and readable by the port (R17). -/
theorem State.findable_iff (s : State) (p : Port) (k : Nat) (cls : Option ClassId) (r : Record) :
    s.findable p k cls r = true ↔
      k ≤ r.key ∧ (∀ c, cls = some c → r.defn.cls = c) ∧ s.rights.allows p r.key .read = true := by
  cases cls <;> simp [State.findable, and_assoc]

/-- The records in LIVE slots. -/
theorem State.mem_records_iff (s : State) (r : Record) :
    r ∈ s.slots.toList.filterMap Slot.record ↔ ∃ i : SlotId, s.slot i = .live r := by
  have hrecord : ∀ x : Slot, x.record = some r ↔ x = .live r := fun x => by cases x <;> simp [Slot.record]
  simp only [List.mem_filterMap, hrecord, exists_eq_right, Vector.mem_toList_iff, Vector.mem_iff_getElem]
  exact ⟨fun ⟨n, hn, h⟩ => ⟨⟨n, hn⟩, h⟩, fun ⟨i, h⟩ => ⟨i.val, i.isLt, h⟩⟩

/-- The records that a FIND chooses from. -/
theorem State.mem_findable_iff (s : State) (p : Port) (k : Nat) (cls : Option ClassId) (r : Record) :
    r ∈ (s.slots.toList.filterMap Slot.record).filter (s.findable p k cls) ↔
      (∃ i : SlotId, s.slot i = .live r) ∧ s.findable p k cls r = true := by
  rw [List.mem_filter, s.mem_records_iff]

/-- The search for the smallest key is the library's search for a least element. -/
theorem foldl_smallerKey_eq_argmin (records : List Record) :
    records.foldl smallerKey none = records.argmin Record.key := by
  have hstep : smallerKey = List.argAux fun x y => x.key < y.key := by
    funext x r
    cases x <;> rfl
  rw [hstep]
  rfl

/-- Keys being unique (R4), two LIVE slots of one key are one slot. -/
theorem State.keysUnique.record_eq {s : State} (hu : s.keysUnique) {i j : SlotId} {r r' : Record}
    (hi : s.slot i = .live r) (hj : s.slot j = .live r') (hk : r'.key = r.key) : r' = r := by
  by_cases hij : i = j
  · subst hij
    rw [hi] at hj
    exact (Slot.live.inj hj).symm
  · have hnot := (hu i j r.key hij (by simp [hi, Slot.holds])).1
    simp [hj, Slot.holds, hk] at hnot

/-- FIND takes the findable record whose key no other findable record's is below (R17). -/
theorem State.findRecord_of_least {s : State} {p : Port} {k : Nat} {cls : Option ClassId} {i : SlotId} {r : Record}
    (hu : s.keysUnique) (hi : s.slot i = .live r) (hf : s.findable p k cls r = true)
    (hleast : ∀ (j : SlotId) (r' : Record), s.slot j = .live r' → s.findable p k cls r' = true → r.key ≤ r'.key) :
    s.findRecord p k cls = some r := by
  have hmem := (s.mem_findable_iff p k cls r).mpr ⟨⟨i, hi⟩, hf⟩
  rw [State.findRecord, foldl_smallerKey_eq_argmin]
  cases ha : List.argmin Record.key ((s.slots.toList.filterMap Slot.record).filter (s.findable p k cls)) with
  | none => exact absurd hmem (by rw [List.argmin_eq_none.mp ha]; exact List.not_mem_nil)
  | some x =>
    obtain ⟨⟨j, hj⟩, hx⟩ := (s.mem_findable_iff p k cls x).mp (List.argmin_mem ha)
    have hle : x.key ≤ r.key := List.le_of_mem_argmin hmem ha
    rw [hu.record_eq hi hj (le_antisymm hle (hleast j x hj hx))]

/-- FIND takes none where no LIVE record is findable (R17). -/
theorem State.findRecord_of_no_findable {s : State} {p : Port} {k : Nat} {cls : Option ClassId}
    (h : ∀ (i : SlotId) (r : Record), s.slot i = .live r → ¬ s.findable p k cls r = true) :
    s.findRecord p k cls = none := by
  rw [State.findRecord, foldl_smallerKey_eq_argmin, List.argmin_eq_none, List.eq_nil_iff_forall_not_mem]
  intro r hr
  obtain ⟨⟨i, hi⟩, hf⟩ := (s.mem_findable_iff p k cls r).mp hr
  exact h i r hi hf

theorem State.findReply_of_unread {s : State} {p : Port} {params : List Byte} (h : readFind params = none) :
    s.findReply p params = ⟨.badParam, []⟩ := by
  simp only [State.findReply, h]
  rfl

theorem State.findReply_of_found {s : State} {p : Port} {params : List Byte} {k : Nat} {cls : Option ClassId}
    {r : Record} (h : readFind params = some (k, cls)) (hf : s.findRecord p k cls = some r) :
    s.findReply p params = ⟨.ok, enc16 r.key ++ enc8 r.defn.cls.val⟩ := by
  simp only [State.findReply, h, hf]
  rfl

theorem State.findReply_of_not_found {s : State} {p : Port} {params : List Byte} {k : Nat} {cls : Option ClassId}
    (h : readFind params = some (k, cls)) (hf : s.findRecord p k cls = none) :
    s.findReply p params = ⟨.notFound, []⟩ := by
  simp only [State.findReply, h, hf]
  rfl

/-- Settles O16: GETDEF by the look-up of its key, FIND by the least element of the findable records. -/
theorem getdefAndFind : Obligations.GetdefAndFind := by
  unfold Obligations.GetdefAndFind
  intro s p tag k hk
  refine ⟨fun h => ?getdef, fun cls h => ?find, fun c hc h => ?badClass⟩
  case getdef =>
    refine ⟨fun hbad => ?_, fun h1 h2 => ?_⟩
    · have hread : readKeyAlone (enc16 k) = none := by simp [readKeyAlone_enc16 hk, validKey_eq_false hbad]
      exact exec_getdef_of_working h (State.getdefReply_of_unread hread)
    have hread : readKeyAlone (enc16 k) = some k := by
      rw [readKeyAlone_enc16 hk, if_pos ((validKey_iff k).mpr ⟨h1, h2⟩)]
    exact ⟨fun hr => exec_getdef_of_working h (State.getdefReply_of_denied hread hr),
      fun hr => ⟨fun _ _ hl => exec_getdef_of_working h (State.getdefReply_of_live hread hr hl),
        fun hl => exec_getdef_of_working h (State.getdefReply_of_absent hread hr hl)⟩⟩
  case find =>
    intro found
    have hfound : ∀ r, s.findable p k cls r = true ↔ found r := s.findable_iff p k cls
    refine ⟨fun hbad => ?_, fun h1 h2 => ?_⟩
    · exact exec_find_of_working h
        (State.findReply_of_unread (readFind_eq_none_of_key hk (validKey_eq_false hbad) _))
    have hread := readFind_params ((validKey_iff k).mpr ⟨h1, h2⟩) cls
    simp only [← hfound]
    exact ⟨fun i r hu hi hf hleast =>
        exec_find_of_working h (State.findReply_of_found hread (State.findRecord_of_least hu hi hf hleast)),
      fun hnone => exec_find_of_working h
        (State.findReply_of_not_found hread (State.findRecord_of_no_findable hnone))⟩
  case badClass => exact exec_find_of_working h (State.findReply_of_unread (readFind_eq_none_of_class hk hc))

/-! ## SETQUOTA (R14) -/

/-- A class number of 16 or more, or a quota above 384, is refused (R14). -/
theorem readQuota_params_eq_none {c : Byte} {quota : Nat} (hq : quota ≤ 65535)
    (h : 16 ≤ c.toNat ∨ 384 < quota) : readQuota (c :: enc16 quota) = none := by
  rw [readQuota_eq_none_iff]
  rintro ⟨c', quota', hq', he⟩
  obtain ⟨rfl, hfield⟩ := List.cons.inj he
  have hsame : quota = quota' := enc16_inj hq (by omega) hfield
  have hlt : c'.val < 16 := c'.isLt
  rw [BitVec.toNat_ofNat] at h
  omega

/-- The parameters of a SETQUOTA read back (R14). -/
theorem readQuota_params {c : Byte} {i : ClassId} {quota : Nat} (hc : i.val = c.toNat) (hq : quota ≤ 384) :
    readQuota (c :: enc16 quota) = some (i, quota) := by
  obtain rfl : c = BitVec.ofNat 8 i.val := by simp [hc]
  simp [enc16_eq, readQuota, u16_enc16 (show quota ≤ 65535 by omega), Config.maxQuota, hq, readClass_enc8]

theorem State.setQuota_of_unread {s : State} {params : List Byte} (h : readQuota params = none) :
    s.setQuota params = (s, ⟨.badParam, []⟩) := by
  simp only [State.setQuota, h]
  rfl

/-- A quota below the class's count is refused (R14). -/
theorem State.setQuota_of_below {s : State} {params : List Byte} {c : ClassId} {quota : Nat}
    (h : readQuota params = some (c, quota)) (hq : quota < (s.classDesc c).count) :
    s.setQuota params = (s, ⟨.belowCount, []⟩) := by
  simp only [State.setQuota, h, if_pos hq]
  rfl

/-- The class takes a quota that its count is within (R14). -/
theorem State.setQuota_of_within {s : State} {params : List Byte} {c : ClassId} {quota : Nat}
    (h : readQuota params = some (c, quota)) (hq : (s.classDesc c).count ≤ quota) :
    s.setQuota params = (s.setClass c { s.classDesc c with quota := quota }, ⟨.ok, []⟩) := by
  simp only [State.setQuota, h, if_neg (Nat.not_lt.mpr hq)]
  rfl

/-! ## SETROLE (R102) -/

/-- A port code other than P1's and P2's, or a role code that is none, is refused (R102). -/
theorem readSetrole_params_eq_none {q r : Byte}
    (h : q.toNat = 0 ∨ 3 ≤ q.toNat ∨ r.toNat = 0 ∨ 4 ≤ r.toNat) : readSetrole [q, r] = none := by
  rw [readSetrole_eq_none_iff]
  rintro ⟨q', r', hq', hr', he⟩
  obtain ⟨rfl, rfl⟩ : q = q' ∧ r = r' := by simpa using he
  have hq : q.toNat = 1 ∨ q.toNat = 2 := by
    simp only [List.mem_cons, List.not_mem_nil, or_false] at hq'
    rcases hq' with rfl | rfl <;> decide
  have hr : r.toNat = 1 ∨ r.toNat = 2 ∨ r.toNat = 3 := by
    simp only [List.mem_cons, List.not_mem_nil, or_false] at hr'
    rcases hr' with rfl | rfl | rfl <;> decide
  omega

theorem State.setRole_of_unread {s : State} {params : List Byte} (h : readSetrole params = none) :
    s.setRole params = (s, ⟨.badParam, []⟩) := by
  simp only [State.setRole, h]
  rfl

/-- The named port takes the new role (R102). -/
theorem State.setRole_of_read {s : State} {params : List Byte} {port : Port} {role : Role}
    (h : readSetrole params = some (port, role)) :
    s.setRole params =
      ({ s with rights := { s.rights with roles := s.rights.roles.set port role } }, ⟨.ok, []⟩) := by
  simp only [State.setRole, h]
  rfl

/-- The parameters of a SETROLE read back: P1 and P2, and the three roles (R102). -/
theorem readSetrole_params {port : Port} {role : Role} {q r : Byte}
    (hq : (port, q) ∈ [(Port.p1, 0x01#8), (Port.p2, 0x02#8)])
    (hr : (role, r) ∈ [(Role.admin, 0x01#8), (Role.editor, 0x02#8), (Role.reader, 0x03#8)]) :
    readSetrole [q, r] = some (port, role) := by
  obtain ⟨hport, hother⟩ : readPort q = some port ∧ port ≠ .p0 := by
    simp only [List.mem_cons, Prod.mk.injEq, List.not_mem_nil, or_false] at hq
    rcases hq with ⟨rfl, rfl⟩ | ⟨rfl, rfl⟩ <;> decide
  have hrole : readRole r = some role := by
    simp only [List.mem_cons, Prod.mk.injEq, List.not_mem_nil, or_false] at hr
    rcases hr with ⟨rfl, rfl⟩ | ⟨rfl, rfl⟩ | ⟨rfl, rfl⟩ <;> decide
  simp [readSetrole, hport, hrole, hother]

/-- Settles O47: NOT_ADMIN before every other check (R103), then the form of the parameters, then the effect. -/
theorem setquotaAndSetrole : Obligations.SetquotaAndSetrole := by
  unfold Obligations.SetquotaAndSetrole
  intro s p tag
  refine ⟨fun hrole params => ?notAdmin, fun hadmin => ⟨fun c quota hquota h => ?quota, fun q r h => ?role⟩⟩
  case notAdmin =>
    exact ⟨fun h => exec_setquota_of_working h (State.adminOnly_of_not_admin hrole _),
      fun h => exec_setrole_of_working h (State.adminOnly_of_not_admin hrole _)⟩
  case quota =>
    have hexec := fun {t r data} (ht : s.setQuota (c :: enc16 quota) = (t, ⟨r, data⟩)) =>
      exec_setquota_of_working h ((State.adminOnly_of_admin hadmin _).trans ht)
    refine ⟨fun hbad => hexec (State.setQuota_of_unread (readQuota_params_eq_none hquota hbad)), fun i hi hq => ?_⟩
    have hread := readQuota_params hi hq
    exact ⟨fun hlt => hexec (State.setQuota_of_below hread hlt),
      fun hle => hexec (State.setQuota_of_within hread hle)⟩
  case role =>
    have hexec := fun {t x data} (ht : s.setRole [q, r] = (t, ⟨x, data⟩)) =>
      exec_setrole_of_working h ((State.adminOnly_of_admin hadmin _).trans ht)
    exact ⟨fun hbad => hexec (State.setRole_of_unread (readSetrole_params_eq_none hbad)),
      fun port role hq hr => hexec (State.setRole_of_read (readSetrole_params hq hr))⟩

end Sys2Proof.Machine
end

section
/-! PROOFS. Value types and checks (chapter 2): which values pass the value check, which bytes a value's type can read,
and which definitions are consistent. -/

namespace Sys2Proof.Machine

/-! ## The value check (R24 to R28) -/

/-- A value of another type than the constraints' fails step 1 (R24). -/
theorem checkValue_of_type_ne {c : Constraints} {v : Value} (reference : Value) (h : v.type ≠ c.type) :
    checkValue c reference v = some .type := by
  unfold checkValue
  split
  case h_5 => rfl
  all_goals exact absurd rfl h

/-- The grid test: the exact difference is a multiple of the step when a whole number of steps leads from `mn` to `x`. A
step of 0, which only an inconsistent definition has, leads nowhere but to `mn` itself. -/
theorem dvd_sub_iff_exists_steps (mn x : Int) (n : Nat) : (n : Int) ∣ x - mn ↔ ∃ j : Int, x = mn + j * n := by
  rw [dvd_iff_exists_eq_mul_left]
  exact exists_congr fun j => sub_eq_iff_eq_add'

/-- Within min and max and on the grid (R25). -/
theorem integerPasses_iff (mn mx : Word32) (step : Option Nat) (x : Word32) :
    integerPasses mn mx step x = true ↔
      mn.toInt ≤ x.toInt ∧ x.toInt ≤ mx.toInt ∧ ∀ n : Nat, step = some n → ∃ j : Int, x.toInt = mn.toInt + j * n := by
  cases step with
  | none => simp [integerPasses]
  | some n => simp [integerPasses, and_assoc, dvd_sub_iff_exists_steps]

/-- An INTEGER that does not pass fails with RANGE, whichever of the three causes it is (R25). -/
theorem checkValue_integer (mn mx : Word32) (step : Option Nat) (reference : Value) (x : Word32) :
    checkValue (.integer mn mx step) reference (.integer x) =
      if integerPasses mn mx step x then none else some .range := rfl

/-- No bit that the mask fixes differs between two words (R27). -/
theorem fixedBits_eq_zero_iff (writable f g : Word32) : (f ^^^ g) &&& ~~~writable = 0#32 ↔
    ∀ i : Nat, i < 32 → writable.getLsbD i = false → f.getLsbD i = g.getLsbD i := by
  have hbit (i : Nat) (hi : i < 32) : ((f ^^^ g) &&& ~~~writable).getLsbD i = (0#32).getLsbD i ↔
      (writable.getLsbD i = false → f.getLsbD i = g.getLsbD i) := by
    rw [BitVec.getLsbD_and, BitVec.getLsbD_not, BitVec.getLsbD_xor, BitVec.getLsbD_zero]
    cases writable.getLsbD i <;> simp [hi]
  exact ⟨fun h i hi => (hbit i hi).mp (by rw [h]),
    fun h => BitVec.eq_of_getLsbD_eq fun i hi => (hbit i hi).mpr (h i hi)⟩

/-- A FLAGS value that does not keep the fixed bits of the reference fails with FIXED_BITS (R27). -/
theorem checkValue_flags (writable f g : Word32) : checkValue (.flags writable) (.flags g) (.flags f) =
    if (f ^^^ g) &&& ~~~writable = 0#32 then none else some .fixedBits := rfl

/-! ## Encodings of the right size (R24 step 1, R21) -/

theorem decodeValue_eq_some_iff (ty : ValueType) (bytes : List Byte) (v : Value) :
    decodeValue ty bytes = some v ↔ v.type = ty ∧ v.fits ∧ bytes = v.encode := by
  refine ⟨decodeValue_eq_some, ?_⟩
  rintro ⟨rfl, hfits, rfl⟩
  exact decodeValue_encode hfits

/-- INTEGER and FLAGS take 4 bytes. -/
theorem decodeValue_word_eq_none_iff {ty : ValueType} (h : ty = .integer ∨ ty = .flags) (bytes : List Byte) :
    decodeValue ty bytes = none ↔ bytes.length ≠ 4 := by
  rcases h with rfl | rfl <;>
  match bytes with
  | [] | [_] | [_, _] | [_, _, _] | [_, _, _, _] | _ :: _ :: _ :: _ :: _ :: _ => simp [decodeValue]

/-- ENUM takes 1 byte. -/
theorem decodeValue_enum_eq_none_iff (bytes : List Byte) : decodeValue .enum bytes = none ↔ bytes.length ≠ 1 := by
  match bytes with
  | [] | [_] | _ :: _ :: _ => simp [decodeValue]

/-- TEXT takes a length byte and as many bytes as it states. -/
theorem decodeValue_text_eq_none_iff (bytes : List Byte) : decodeValue .text bytes = none ↔
    ∀ (n : Byte) (rest : List Byte), bytes = n :: rest → rest.length ≠ n.toNat := by
  cases bytes with
  | nil => simp [decodeValue]
  | cons n rest => simp [decodeValue]

/-! ## Consistent definitions (R32) -/

/-- The constraints make sense on their own, and the default passes the check against its own definition. -/
theorem Definition.consistent_iff (d : Definition) : d.consistent = true ↔
    d.constraints.consistent = true ∧ ∀ v : Value, d.default = some v → checkValue d.constraints v v = none := by
  unfold Definition.consistent
  cases d.default <;> simp

theorem Constraints.consistent_integer_iff (mn mx : Word32) (step : Option Nat) :
    (Constraints.integer mn mx step).consistent = true ↔ mn.toInt ≤ mx.toInt ∧ step ≠ some 0 := by
  simp [Constraints.consistent]

theorem Constraints.consistent_enum_iff (codes : List Byte) :
    (Constraints.enum codes).consistent = true ↔ 1 ≤ codes.length ∧ codes.length ≤ 8 ∧ codes.Nodup := by
  simp [Constraints.consistent, and_assoc]

theorem Constraints.consistent_flags (writable : Word32) : (Constraints.flags writable).consistent = true := rfl

theorem Constraints.consistent_text_iff (n : Nat) : (Constraints.text n).consistent = true ↔ 1 ≤ n ∧ n ≤ 32 := by
  simp [Constraints.consistent, Config.maxText]

/-- Settles O17: the value check type by type, then the encodings that are read, then the definitions. -/
theorem valueCheckSteps : Obligations.ValueCheckSteps := by
  unfold Obligations.ValueCheckSteps
  refine ⟨fun c reference v => ⟨checkValue_of_type_ne reference, ?integer, ?enum, ?flags, ?text⟩,
    decodeValue_eq_some_iff, fun ty bytes => ?size, fun d => ?consistent⟩
  case integer =>
    rintro mn mx step x rfl rfl
    rw [checkValue_integer, ← integerPasses_iff]
    exact ⟨fun hpass => if_pos hpass, fun hfail => if_neg hfail⟩
  case enum =>
    rintro codes x rfl rfl
    rfl
  case flags =>
    rintro writable f g rfl rfl rfl
    rw [checkValue_flags, ← fixedBits_eq_zero_iff]
    exact ⟨fun hkept => if_pos hkept, fun hdiffers => if_neg hdiffers⟩
  case text =>
    rintro n bytes rfl rfl
    rfl
  case size =>
    cases ty with
    | integer => exact decodeValue_word_eq_none_iff (.inl rfl) bytes
    | enum => exact decodeValue_enum_eq_none_iff bytes
    | flags => exact decodeValue_word_eq_none_iff (.inr rfl) bytes
    | text => exact decodeValue_text_eq_none_iff bytes
  case consistent =>
    rw [Definition.consistent_iff]
    refine and_congr_left' ?_
    cases d.constraints with
    | integer mn mx step => exact Constraints.consistent_integer_iff mn mx step
    | enum codes => exact Constraints.consistent_enum_iff codes
    | flags writable => exact iff_true_intro (Constraints.consistent_flags writable)
    | text n => exact Constraints.consistent_text_iff n

end Sys2Proof.Machine
end

section
/-! PROOFS. The Staging Unit's view of a key and its levels (chapter 3): what a search down a stack passes over and where
it ends, the rows of R40's table, and what BEGIN and ABANDON do to a stack and to the pool. -/

namespace Sys2Proof.Machine

/-! ## The search down a stack (R40) -/

/-- Changesets without an entry for the key are passed over. -/
theorem topmost_append_of_no_entry {above : Stack} {k : Nat} (h : ∀ x ∈ above, Changeset.entryFor x k = none)
    (lower : Stack) : topmost (above ++ lower) k = topmost lower k := by
  induction above with
  | nil => rfl
  | cons x above ih =>
    rw [List.forall_mem_cons] at h
    rw [List.cons_append, topmost, h.1]
    exact ih h.2

theorem topmost_eq_none {st : Stack} {k : Nat} (h : ∀ x ∈ st, Changeset.entryFor x k = none) :
    topmost st k = none := by
  rw [← List.append_nil st, topmost_append_of_no_entry h]
  rfl

/-- The first changeset that holds an entry for the key gives the topmost entry. -/
theorem topmost_of_split {above below : Stack} {c : Changeset} {k : Nat} {e : Entry}
    (habove : ∀ x ∈ above, Changeset.entryFor x k = none) (he : Changeset.entryFor c k = some e) :
    topmost (above ++ c :: below) k = some (e.change, below) := by
  rw [topmost_append_of_no_entry habove, topmost, he]

/-- Changesets without a CREATE for the key are passed over, whatever else they hold for it. -/
theorem createIn_append_of_no_create {mid : Stack} {k : Nat}
    (h : ∀ x ∈ mid, ∀ (d : Definition) (v : Value), Changeset.entryFor x k ≠ some ⟨k, .create d v⟩)
    (low : Stack) : createIn (mid ++ low) k = createIn low k := by
  induction mid with
  | nil => rfl
  | cons x mid ih =>
    rw [List.forall_mem_cons] at h
    rw [List.cons_append, createIn]
    split
    · next key d v he =>
      obtain rfl : key = k := (Changeset.entryFor_eq_some he).2
      exact absurd he (h.1 d v)
    · exact ih h.2

theorem createIn_eq_none {st : Stack} {k : Nat}
    (h : ∀ x ∈ st, ∀ (d : Definition) (v : Value), Changeset.entryFor x k ≠ some ⟨k, .create d v⟩) :
    createIn st k = none := by
  rw [← List.append_nil st, createIn_append_of_no_create h]
  rfl

/-- The topmost CREATE for the key gives the definition. -/
theorem createIn_of_split {mid low : Stack} {c : Changeset} {k : Nat} {d : Definition} {w : Value}
    (hmid : ∀ x ∈ mid, ∀ (d' : Definition) (w' : Value), Changeset.entryFor x k ≠ some ⟨k, .create d' w'⟩)
    (hc : Changeset.entryFor c k = some ⟨k, .create d w⟩) : createIn (mid ++ c :: low) k = some d := by
  rw [createIn_append_of_no_create hmid, createIn, hc]

/-! ## The rows of the view (R40) -/

section
variable {s : State} {p : Port} {k : Nat} {lower : Stack} {v : Value} {g : Option Nat}

theorem State.view_of_create {d : Definition} (h : topmost (s.stack p) k = some (.create d v, lower)) :
    s.view p k = .staged d v := by
  simp only [State.view, h]

theorem State.view_of_set_over_create {d : Definition} (h : topmost (s.stack p) k = some (.set v g, lower))
    (hc : createIn lower k = some d) : s.view p k = .staged d v := by
  simp only [State.view, h, hc]

theorem State.view_of_set_over_live {i : SlotId} {r : Record} (h : topmost (s.stack p) k = some (.set v g, lower))
    (hc : createIn lower k = none) (hl : s.liveRecord k = some (i, r)) : s.view p k = .live i r v := by
  simp only [State.view, h, hc, hl]

theorem State.view_of_stale_set (h : topmost (s.stack p) k = some (.set v g, lower))
    (hc : createIn lower k = none) (hl : s.liveRecord k = none) : s.view p k = .stale := by
  simp only [State.view, h, hc, hl]

theorem State.view_of_retire (h : topmost (s.stack p) k = some (.retire g, lower)) : s.view p k = .retired := by
  simp only [State.view, h]

theorem State.view_of_live {i : SlotId} {r : Record} (h : topmost (s.stack p) k = none)
    (hl : s.liveRecord k = some (i, r)) : s.view p k = .live i r r.live := by
  simp only [State.view, h, hl]

theorem State.view_of_absent (h : topmost (s.stack p) k = none) (hl : s.liveRecord k = none) :
    s.view p k = .absent := by
  simp only [State.view, h, hl]

end

/-- Settles O18: the search ends at the topmost entry or finds none, and a SET goes on to the CREATE below it. -/
theorem viewOfKey : Obligations.ViewOfKey := by
  unfold Obligations.ViewOfKey
  intro s p k
  refine ⟨fun hnone => ?_, fun above below c ch hstack habove hentry => ?_⟩
  · have htop := topmost_eq_none hnone
    exact ⟨fun i r hl => State.view_of_live htop hl, fun hl => State.view_of_absent htop hl⟩
  · have htop : topmost (s.stack p) k = some (ch, below) := hstack ▸ topmost_of_split habove hentry
    refine ⟨?create, ?retire, ?set⟩
    case create =>
      rintro d v rfl
      exact State.view_of_create htop
    case retire =>
      rintro g rfl
      exact State.view_of_retire htop
    case set =>
      rintro v g rfl
      refine ⟨fun mid low c' d w hbelow hmid hcreate => ?_, fun hno => ?_⟩
      · exact State.view_of_set_over_create htop (hbelow ▸ createIn_of_split hmid hcreate)
      · have hc := createIn_eq_none hno
        exact ⟨fun i r hl => State.view_of_set_over_live htop hc hl, fun hl => State.view_of_stale_set htop hc hl⟩

/-! ## Commands without parameters -/

theorem State.bareCommand_of_params {params : List Byte} (h : params ≠ []) (s : State) (act : State × Reply) :
    s.bareCommand params act = (s, ⟨.badParam, []⟩) := if_neg h

theorem State.bareCommand_of_none {params : List Byte} (h : params = []) (s : State) (act : State × Reply) :
    s.bareCommand params act = act := if_pos h

/-- A BEGIN has the effect and the answer that stand behind the check of its form. -/
theorem exec_begin_of_working {s t : State} {p : Port} {tag : Byte} {params data : List Byte} {r : Result}
    (h : s.isWorkingOn p tag 0x20#8 params) (ht : s.bareCommand params (s.begin p) = (t, ⟨r, data⟩)) :
    exec (.beginChangeset p) s = .next (t.answers p tag r data) :=
  congrArg Host.Outcome.next (State.serve_eq_answers h ht)

/-- An ABANDON has the effect and the answer that stand behind the check of its form. -/
theorem exec_abandon_of_working {s t : State} {p : Port} {tag : Byte} {params data : List Byte} {r : Result}
    (h : s.isWorkingOn p tag 0x27#8 params) (ht : s.bareCommand params (s.abandon p) = (t, ⟨r, data⟩)) :
    exec (.abandon p) s = .next (t.answers p tag r data) :=
  congrArg Host.Outcome.next (State.serve_eq_answers h ht)

/-! ## BEGIN (R42) -/

@[simp] theorem State.setStack_depth_self (s : State) (p : Port) (st : Stack) :
    (s.setStack p st).depth p = st.length := by
  simp [State.depth]

theorem State.begin_of_room {s : State} {p : Port} (h : s.depth p ≤ 3) :
    s.begin p = (s.setStack p ([] :: s.stack p), ⟨.ok, enc8 (s.depth p + 1)⟩) := by
  have hroom : ¬ Config.maxDepth ≤ s.depth p := Nat.not_le.mpr (Nat.lt_succ_of_le h)
  simp only [State.begin, if_neg hroom, State.setStack_depth_self]
  rfl

theorem State.begin_of_deepest {s : State} {p : Port} (h : 4 ≤ s.depth p) : s.begin p = (s, ⟨.depth, []⟩) :=
  if_pos h

/-! ## ABANDON (R54) and the pool (R39) -/

theorem State.abandon_of_depth_zero {s : State} {p : Port} (h : s.stack p = []) :
    s.abandon p = (s, ⟨.noChangeset, []⟩) := by
  simp only [State.abandon, h]
  rfl

theorem State.abandon_of_top {s : State} {p : Port} {top : Changeset} {lower : Stack} (h : s.stack p = top :: lower) :
    s.abandon p = (s.setStack p lower, ⟨.ok, enc8 lower.length ++ enc8 top.length⟩) := by
  simp only [State.abandon, h, State.setStack_depth_self]
  rfl

theorem stackEntries_cons (top : Changeset) (lower : Stack) :
    stackEntries (top :: lower) = top.length + stackEntries lower := by
  simp [stackEntries]

/-- Another stack of one port changes the entries held by what that port's stack gains or gives up, and by no other
port's. -/
theorem State.setStack_heldEntries (s : State) (p : Port) (st : Stack) :
    (s.setStack p st).heldEntries + stackEntries (s.stack p) = s.heldEntries + stackEntries st := by
  cases p <;> simp only [State.heldEntries, State.setStack, State.stack, PortMap.set, PortMap.get] <;> omega

/-- A top changeset that is given up returns its entries to the pool (R39, R54). -/
theorem State.setStack_heldEntries_of_top {s : State} {p : Port} {top : Changeset} {lower : Stack}
    (h : s.stack p = top :: lower) : (s.setStack p lower).heldEntries + top.length = s.heldEntries := by
  have hheld := s.setStack_heldEntries p lower
  rw [h, stackEntries_cons] at hheld
  omega

/-- Settles O19: the form is checked, and then the depth decides. -/
theorem beginAndAbandon : Obligations.BeginAndAbandon := by
  unfold Obligations.BeginAndAbandon
  intro s p tag params
  refine ⟨fun h => ⟨fun hbad => ?_, fun hform hroom => ?_, fun hform hdeep => ?_⟩,
    fun h => ⟨fun hbad => ?_, fun hform hzero => ?_, fun top lower hform htop => ⟨?_, ?_⟩⟩⟩
  · exact exec_begin_of_working h (State.bareCommand_of_params hbad s _)
  · exact exec_begin_of_working h ((State.bareCommand_of_none hform s _).trans (State.begin_of_room hroom))
  · exact exec_begin_of_working h ((State.bareCommand_of_none hform s _).trans (State.begin_of_deepest hdeep))
  · exact exec_abandon_of_working h (State.bareCommand_of_params hbad s _)
  · exact exec_abandon_of_working h ((State.bareCommand_of_none hform s _).trans (State.abandon_of_depth_zero hzero))
  · exact exec_abandon_of_working h ((State.bareCommand_of_none hform s _).trans (State.abandon_of_top htop))
  · exact State.setStack_heldEntries_of_top htop

end Sys2Proof.Machine
end

section
/-! PROOFS. The commands of the Claim Table (chapter 5): CLAIM row by row of R87's table, RELEASE by each part that a port
can have in a claim, and the look-up of CLAIMINFO. -/

namespace Sys2Proof.Machine

/-! ## Claim commands taken by the Claim Table -/

/-- A CLAIM has the effect and the answer of `State.claim`. -/
theorem exec_claim_of_working {s t : State} {p : Port} {tag : Byte} {params data : List Byte} {r : Result}
    (h : s.isWorkingOn p tag 0x30#8 params) (ht : s.claim p params = (t, ⟨r, data⟩)) :
    exec (.claim p) s = .next (t.answers p tag r data) :=
  congrArg Host.Outcome.next (State.serve_eq_answers h ht)

/-- A RELEASE has the effect and the answer of `State.release`. -/
theorem exec_release_of_working {s t : State} {p : Port} {tag : Byte} {params data : List Byte} {r : Result}
    (h : s.isWorkingOn p tag 0x31#8 params) (ht : s.release p params = (t, ⟨r, data⟩)) :
    exec (.release p) s = .next (t.answers p tag r data) :=
  congrArg Host.Outcome.next (State.serve_eq_answers h ht)

/-- A CLAIMINFO is answered with its reply, and nothing else changes. -/
theorem exec_claiminfo_of_working {s : State} {p : Port} {tag : Byte} {params data : List Byte} {r : Result}
    (h : s.isWorkingOn p tag 0x13#8 params) (hr : s.claiminfoReply p params = ⟨r, data⟩) :
    exec (.claiminfo p) s = .next (s.answers p tag r data) :=
  congrArg Host.Outcome.next (State.serve_eq_answers h (congrArg (Prod.mk s) hr))

/-! ## Parameters -/

/-- The key of a command that carries a key alone reads back (R4). -/
theorem readKeyAlone_params {k : Nat} (h : validKey k = true) : readKeyAlone (enc16 k) = some k := by
  rw [readKeyAlone_enc16 (validKey_le h), if_pos h]

/-- The two keys that are none are refused by a command that carries a key alone (R4). -/
theorem readKeyAlone_params_eq_none {k : Nat} (hk : k ≤ 65535) (h : k = 0 ∨ k = 65535) :
    readKeyAlone (enc16 k) = none := by
  rw [readKeyAlone_enc16 hk, validKey_eq_false h]
  rfl

/-- A key that is none, a lease outside 1 to 60000 and an option above 1 are refused (R86). -/
theorem readClaim_params_eq_none {k lease : Nat} {options : List Byte} (hk : k ≤ 65535) (hl : lease ≤ 65535)
    (h : k = 0 ∨ k = 65535 ∨ lease = 0 ∨ 60000 < lease ∨ ∃ o : Byte, options = [o] ∧ 2 ≤ o.toNat) :
    readClaim (enc16 k ++ enc16 lease ++ options) = none := by
  rw [readClaim_eq_none_iff]
  rintro ⟨k', lease', options', hk', hl', ho, he⟩
  have hkey := (validKey_iff k').mp hk'
  obtain ⟨hlow, hhigh⟩ : 1 ≤ lease' ∧ lease' ≤ 60000 := hl'
  rw [List.append_assoc, List.append_assoc] at he
  obtain ⟨rfl, hrest⟩ := enc16_append_inj hk (validKey_le hk') he
  obtain ⟨rfl, rfl⟩ := enc16_append_inj hl (by omega) hrest
  rcases h with h | h | h | h | ⟨o, rfl, h⟩
  · omega
  · omega
  · omega
  · omega
  · simp only [List.mem_cons, List.cons.injEq, and_true, List.not_mem_nil, or_false, reduceCtorEq, false_or] at ho
    rcases ho with rfl | rfl <;> exact absurd h (by decide)

/-- The parameters of a CLAIM read back, without WAIT where its byte is omitted (R86). -/
theorem readClaim_params {k lease : Nat} {wait : Bool} {options : List Byte} (hk : validKey k = true)
    (hl : validLease lease) (ho : options = [if wait then 0x01#8 else 0x00#8] ∨ wait = false ∧ options = []) :
    readClaim (enc16 k ++ enc16 lease ++ options) = some ⟨k, lease, wait⟩ := by
  have hkey := readKey_enc16 (validKey_le hk)
  have hlease := readLease_enc16 hl
  rcases ho with rfl | ⟨rfl, rfl⟩
  · cases wait <;> simp [enc16_eq, readClaim, hkey, hk, hlease]
  · simp [enc16_eq, readClaim, hkey, hk, hlease]

/-! ## The Claim Table and its waiter lists -/

/-- The entry under a key is replaced, or freed, where it stands (R84). -/
theorem State.setClaim_of_split {s : State} {k : Nat} {a b : List ClaimEntry} {e : ClaimEntry}
    (hs : s.claims = a ++ e :: b) (hk : e.key = k) (h : ∀ x ∈ a ++ b, x.key ≠ k) (new : Option ClaimEntry) :
    s.setClaim k new = { s with claims := a ++ new.toList ++ b } := by
  subst hk
  rw [State.setClaim, hs, replaceClaim_of_split a b e new h]

/-- A port has no place in a list exactly where it does not wait (R87). -/
theorem waiterPosition_eq_none_iff (ws : List Waiter) (p : Port) :
    waiterPosition ws p = none ↔ p ∉ ws.map Waiter.port := by
  simp [waiterPosition]

/-- The place of a waiter is one more than the number of waiters before it (R87). -/
theorem waiterPosition_of_split {u w : List Waiter} {x : Waiter} {p : Port} (hx : x.port = p)
    (hu : ∀ y ∈ u, y.port ≠ p) : waiterPosition (u ++ x :: w) p = some (u.length + 1) := by
  have hnone : u.findIdx? (fun y => y.port == p) = none := by simpa using hu
  simp [waiterPosition, List.findIdx?_append, List.findIdx?_cons, hnone, hx]

/-- A map that changes one place of a list alone: a waiter that asks again keeps its place, and the others stay (R87). -/
theorem map_of_split_of_fixed {α : Type} {f : α → α} {u w : List α} (x : α) (h : ∀ y ∈ u ++ w, f y = y) :
    (u ++ x :: w).map f = u ++ f x :: w := by
  have hstay : ∀ l : List α, (∀ y ∈ l, f y = y) → l.map f = l :=
    fun l hl => (List.map_congr_left hl).trans (List.map_id' l)
  rw [List.map_append, List.map_cons, hstay u fun y hy => h y (List.mem_append_left _ hy),
    hstay w fun y hy => h y (List.mem_append_right _ hy)]

/-! ## CLAIM (R86, R87) -/

section
variable {s : State} {p : Port} {params : List Byte} {q : ClaimParams}

theorem State.claim_of_unread (h : readClaim params = none) : s.claim p params = (s, ⟨.badParam, []⟩) := by
  simp only [State.claim, h]
  rfl

theorem State.claim_of_denied (h : readClaim params = some q) (hr : s.rights.allows p q.key .stage = false) :
    s.claim p params = (s, ⟨.denied, []⟩) := by
  simp only [State.claim, h, hr, if_true]
  rfl

theorem State.claim_of_absent (h : readClaim params = some q) (hr : s.rights.allows p q.key .stage = true)
    (hl : s.liveRecord q.key = none) : s.claim p params = (s, ⟨.notFound, []⟩) := by
  simp only [State.claim, h, hr, hl]
  rfl

/-- A CLAIM that has passed its checks, of a key with an entry (R87). -/
theorem State.claim_of_entry {e : ClaimEntry} (h : readClaim params = some q)
    (hr : s.rights.allows p q.key .stage = true) (hl : s.liveRecord q.key ≠ none) (he : s.claimOn q.key = some e) :
    s.claim p params = s.claimHeld p q e := by
  obtain ⟨found, hfound⟩ := Option.ne_none_iff_exists'.mp hl
  simp only [State.claim, h, hr, hfound, he, Bool.true_eq_false, if_false]

/-- A CLAIM that has passed its checks, of a key without an entry, where all 24 are in use (R87). -/
theorem State.claim_of_full (h : readClaim params = some q) (hr : s.rights.allows p q.key .stage = true)
    (hl : s.liveRecord q.key ≠ none) (he : s.claimOn q.key = none) (hfull : 24 ≤ s.claims.length) :
    s.claim p params = (s, ⟨.claimFull, []⟩) := by
  obtain ⟨found, hfound⟩ := Option.ne_none_iff_exists'.mp hl
  simp only [State.claim, h, hr, hfound, he, Config.claimEntries, if_pos hfull]
  rfl

/-- A CLAIM that has passed its checks, of a key without an entry, takes a free one (R87). -/
theorem State.claim_of_room (h : readClaim params = some q) (hr : s.rights.allows p q.key .stage = true)
    (hl : s.liveRecord q.key ≠ none) (he : s.claimOn q.key = none) (hroom : s.claims.length < 24) :
    s.claim p params =
      ({ s with claims := s.claims ++ [⟨q.key, p, q.lease, []⟩] }, ⟨.ok, enc16 q.lease⟩) := by
  obtain ⟨found, hfound⟩ := Option.ne_none_iff_exists'.mp hl
  simp only [State.claim, h, hr, hfound, he, Config.claimEntries, if_neg (Nat.not_le.mpr hroom)]
  rfl

end

section
variable {s : State} {p : Port} {q : ClaimParams} {a b : List ClaimEntry} {e : ClaimEntry}

/-- The holder renews its lease (R87). -/
theorem State.claimHeld_of_holder (hs : s.claims = a ++ e :: b) (hk : e.key = q.key)
    (ho : ∀ x ∈ a ++ b, x.key ≠ q.key) (h : e.holder = p) :
    s.claimHeld p q e =
      ({ s with claims := a ++ { e with remaining := q.lease } :: b }, ⟨.ok, enc16 q.lease⟩) := by
  rw [State.claimHeld, if_pos h, State.setClaim_of_split hs hk ho, Option.toList_some, List.append_assoc]
  rfl

/-- Another port's claim refuses a CLAIM that does not wait (R87). -/
theorem State.claimHeld_of_no_wait (h : e.holder ≠ p) (hw : q.wait = false) :
    s.claimHeld p q e = (s, ⟨.claimed, [portCode e.holder]⟩) := by
  rw [State.claimHeld, if_neg h, if_pos hw]

/-- A port that does not wait yet joins the list at its end (R87). -/
theorem State.claimHeld_of_new_waiter (hs : s.claims = a ++ e :: b) (hk : e.key = q.key)
    (ho : ∀ x ∈ a ++ b, x.key ≠ q.key) (h : e.holder ≠ p) (hw : q.wait = true)
    (hp : p ∉ e.waiters.map Waiter.port) :
    s.claimHeld p q e =
      ({ s with claims := a ++ { e with waiters := e.waiters ++ [⟨p, q.lease⟩] } :: b },
        ⟨.waiting, enc8 (e.waiters.length + 1)⟩) := by
  simp only [State.claimHeld, if_neg h, hw, Bool.true_eq_false, if_false, (waiterPosition_eq_none_iff _ _).mpr hp,
    State.setClaim_of_split hs hk ho, Option.toList_some, List.append_assoc]
  rfl

/-- A port that waits already keeps its place, with its new lease (R87). -/
theorem State.claimHeld_of_waiter {u w : List Waiter} {x : Waiter} (hs : s.claims = a ++ e :: b)
    (hk : e.key = q.key) (ho : ∀ x ∈ a ++ b, x.key ≠ q.key) (h : e.holder ≠ p) (hw : q.wait = true)
    (hsplit : e.waiters = u ++ x :: w) (hx : x.port = p) (hy : ∀ y ∈ u ++ w, y.port ≠ p) :
    s.claimHeld p q e =
      ({ s with claims := a ++ { e with waiters := u ++ ⟨p, q.lease⟩ :: w } :: b },
        ⟨.waiting, enc8 (u.length + 1)⟩) := by
  have hposition : waiterPosition e.waiters p = some (u.length + 1) := by
    rw [hsplit]
    exact waiterPosition_of_split hx fun y hu => hy y (List.mem_append_left _ hu)
  have hrenewed : (e.waiters.map fun y => if y.port = p then ⟨p, q.lease⟩ else y) = u ++ ⟨p, q.lease⟩ :: w := by
    rw [hsplit, map_of_split_of_fixed x fun y hu => if_neg (hy y hu), if_pos hx]
  simp only [State.claimHeld, if_neg h, hw, Bool.true_eq_false, if_false, hposition, hrenewed,
    State.setClaim_of_split hs hk ho, Option.toList_some, List.append_assoc]
  rfl

end

/-- Settles O30: the parameters are read or refused, the checks follow in their order, and then the table's entry for the
key, or the lack of one, selects the row of R87. -/
theorem claimActs : Obligations.ClaimActs := by
  unfold Obligations.ClaimActs
  intro s p tag
  refine ⟨fun k lease options hk hl _ h hbad => ?badParam, fun k lease wait hk hl h => ?read⟩
  case badParam => exact exec_claim_of_working h (State.claim_of_unread (readClaim_params_eq_none hk hl hbad))
  case read =>
    obtain ⟨params, hwork, hread⟩ :
        ∃ params, s.isWorkingOn p tag 0x30#8 params ∧ readClaim params = some ⟨k, lease, wait⟩ := by
      rcases h with h | ⟨rfl, h⟩
      · exact ⟨_, h, readClaim_params hk hl (.inl rfl)⟩
      · exact ⟨_, h, (List.append_nil (enc16 k ++ enc16 lease)) ▸ readClaim_params hk hl (.inr ⟨rfl, rfl⟩)⟩
    refine ⟨fun hr => exec_claim_of_working hwork (State.claim_of_denied hread hr),
      fun hr hlive => exec_claim_of_working hwork (State.claim_of_absent hread hr hlive),
      fun hr hlive => ?_⟩
    refine ⟨fun hno hfull => ?full, fun hno hroom => ?room, fun a b e hs hkey hother => ?held⟩
    case full =>
      exact exec_claim_of_working hwork
        (State.claim_of_full hread hr hlive ((s.claimOn_eq_none_iff k).mpr hno) hfull)
    case room =>
      exact exec_claim_of_working hwork
        (State.claim_of_room hread hr hlive ((s.claimOn_eq_none_iff k).mpr hno) hroom)
    case held =>
      have hclaim := State.claim_of_entry hread hr hlive
        (State.claimOn_of_split hs hkey fun x hx => hother x (List.mem_append_left _ hx))
      exact ⟨fun hh => exec_claim_of_working hwork (hclaim.trans (State.claimHeld_of_holder hs hkey hother hh)),
        fun hh hw => exec_claim_of_working hwork (hclaim.trans (State.claimHeld_of_no_wait hh hw)),
        fun hh hw hp =>
          exec_claim_of_working hwork (hclaim.trans (State.claimHeld_of_new_waiter hs hkey hother hh hw hp)),
        fun u w x hh hw hsplit hx hy =>
          exec_claim_of_working hwork (hclaim.trans (State.claimHeld_of_waiter hs hkey hother hh hw hsplit hx hy))⟩

/-! ## RELEASE (R88, R89) -/

section
variable {s : State} {p : Port} {params : List Byte} {k : Nat} {e : ClaimEntry}

theorem State.release_of_unread (h : readKeyAlone params = none) : s.release p params = (s, ⟨.badParam, []⟩) := by
  simp only [State.release, h]
  rfl

theorem State.release_of_absent (h : readKeyAlone params = some k) (hn : s.claimOn k = none) :
    s.release p params = (s, ⟨.notHeld, []⟩) := by
  simp only [State.release, h, hn]
  rfl

/-- The holder's RELEASE hands the claim on and answers its next holder (R88, R89). -/
theorem State.release_of_holder (h : readKeyAlone params = some k) (hc : s.claimOn k = some e)
    (hh : e.holder = p) :
    s.release p params = (s.handOn e, ⟨.ok, [portOrNone (e.handOn.map ClaimEntry.holder)]⟩) := by
  simp only [State.release, h, hc, if_pos hh]
  rfl

/-- A waiter's RELEASE takes it out of the list (R88). -/
theorem State.release_of_waiter (h : readKeyAlone params = some k) (hc : s.claimOn k = some e)
    (hh : e.holder ≠ p) (hp : p ∈ e.waiters.map Waiter.port) :
    s.release p params =
      (s.setClaim k (some { e with waiters := dropWaiter e.waiters p }), ⟨.ok, [portCode e.holder]⟩) := by
  have hplace : (waiterPosition e.waiters p).isSome = true :=
    Option.isSome_iff_ne_none.mpr fun hn => (waiterPosition_eq_none_iff _ _).mp hn hp
  simp only [State.release, h, hc, if_neg hh, if_pos hplace]
  rfl

/-- A port with no part in the claim has nothing to give up (R88). -/
theorem State.release_of_other (h : readKeyAlone params = some k) (hc : s.claimOn k = some e)
    (hh : e.holder ≠ p) (hp : p ∉ e.waiters.map Waiter.port) : s.release p params = (s, ⟨.notHeld, []⟩) := by
  simp only [State.release, h, hc, if_neg hh, (waiterPosition_eq_none_iff _ _).mpr hp]
  rfl

end

section
variable {s : State} {a b : List ClaimEntry} {e : ClaimEntry}

/-- A hand-over with no waiter frees the entry (R89). -/
theorem State.handOn_of_no_waiter (hs : s.claims = a ++ e :: b) (ho : ∀ x ∈ a ++ b, x.key ≠ e.key)
    (hw : e.waiters = []) : s.handOn e = { s with claims := a ++ b } := by
  have hfreed : e.handOn = none := by rw [ClaimEntry.handOn, hw]
  rw [State.handOn_eq, hs, replaceClaim_of_split a b e _ ho, hfreed, hw, Option.toList_none, List.append_nil]

/-- A hand-over to the first waiter, which is told where it has READ (R89, R125). -/
theorem State.handOn_of_waiter {w : Waiter} {rest : List Waiter} (hs : s.claims = a ++ e :: b)
    (ho : ∀ x ∈ a ++ b, x.key ≠ e.key) (hw : e.waiters = w :: rest) :
    s.handOn e = { s with
      claims := a ++ ⟨e.key, w.port, w.lease, rest⟩ :: b
      notices := s.notices.set w.port ((s.notices.get w.port).postIf
        (s.rights.allows w.port e.key .read = true) (.claimGranted e.key)) } := by
  have hheld : e.handOn = some ⟨e.key, w.port, w.lease, rest⟩ := by rw [ClaimEntry.handOn, hw]
  rw [State.handOn_eq, hs, replaceClaim_of_split a b e _ ho, hheld, hw, Option.toList_some, List.append_assoc]
  rfl

end

/-- Settles O31: the key is read or refused, and then the port's part in the claim decides: holder with and without
waiters, waiter, or none. -/
theorem releaseActs : Obligations.ReleaseActs := by
  unfold Obligations.ReleaseActs
  intro s p tag k hk hwork
  refine ⟨fun hbad => ?badParam, fun hvalid => ⟨fun hno => ?absent, fun a b e hs hkey hother => ?held⟩⟩
  case badParam =>
    exact exec_release_of_working hwork (State.release_of_unread (readKeyAlone_params_eq_none hk hbad))
  case absent =>
    exact exec_release_of_working hwork
      (State.release_of_absent (readKeyAlone_params hvalid) ((s.claimOn_eq_none_iff k).mpr hno))
  case held =>
    subst hkey
    have hread := readKeyAlone_params hvalid
    have hclaim := State.claimOn_of_split hs rfl fun x hx => hother x (List.mem_append_left _ hx)
    refine ⟨fun hh hw => ?freed, fun w rest hh hw => ?handed, fun hh hp => ?waiter, fun hh hp => ?other⟩
    case freed =>
      refine exec_release_of_working hwork ((State.release_of_holder hread hclaim hh).trans ?_)
      rw [State.handOn_of_no_waiter hs hother hw, ClaimEntry.handOn, hw]
      rfl
    case handed =>
      refine exec_release_of_working hwork ((State.release_of_holder hread hclaim hh).trans ?_)
      rw [State.handOn_of_waiter hs hother hw, ClaimEntry.handOn, hw]
      rfl
    case waiter =>
      refine exec_release_of_working hwork ((State.release_of_waiter hread hclaim hh hp).trans ?_)
      rw [State.setClaim_of_split hs rfl hother, Option.toList_some, List.append_assoc]
      rfl
    case other => exact exec_release_of_working hwork (State.release_of_other hread hclaim hh hp)

/-! ## CLAIMINFO (R96) -/

/-- The data of a CLAIMINFO answer: the holder, the remaining lease, and the waiters in list order (R96). -/
theorem ClaimEntry.encode_eq (e : ClaimEntry) :
    e.encode = portCode e.holder :: (enc16 e.remaining ++ enc8 e.waiters.length ++
      e.waiters.flatMap fun w => portCode w.port :: enc16 w.lease) := rfl

section
variable {s : State} {p : Port} {params : List Byte} {k : Nat}

theorem State.claiminfoReply_of_unread (h : readKeyAlone params = none) :
    s.claiminfoReply p params = ⟨.badParam, []⟩ := by
  simp only [State.claiminfoReply, h]
  rfl

theorem State.claiminfoReply_of_denied (h : readKeyAlone params = some k)
    (hr : s.rights.allows p k .read = false) : s.claiminfoReply p params = ⟨.denied, []⟩ := by
  simp only [State.claiminfoReply, h, hr, if_true]
  rfl

theorem State.claiminfoReply_of_absent (h : readKeyAlone params = some k)
    (hr : s.rights.allows p k .read = true) (hn : s.claimOn k = none) :
    s.claiminfoReply p params = ⟨.notFound, []⟩ := by
  simp only [State.claiminfoReply, h, hr, hn]
  rfl

theorem State.claiminfoReply_of_claim {e : ClaimEntry} (h : readKeyAlone params = some k)
    (hr : s.rights.allows p k .read = true) (hc : s.claimOn k = some e) :
    s.claiminfoReply p params = ⟨.ok, e.encode⟩ := by
  simp only [State.claiminfoReply, h, hr, hc]
  rfl

end

/-- Settles O33: the key, the READ right and the look-up are checked in this order, and the entry found is encoded. -/
theorem claiminfoReturnsClaim : Obligations.ClaiminfoReturnsClaim := by
  unfold Obligations.ClaiminfoReturnsClaim
  intro s p tag k hk hwork
  refine ⟨fun hbad => ?badParam, fun hvalid => ?read⟩
  case badParam =>
    exact exec_claiminfo_of_working hwork (State.claiminfoReply_of_unread (readKeyAlone_params_eq_none hk hbad))
  case read =>
    have hread := readKeyAlone_params hvalid
    refine ⟨fun hr => exec_claiminfo_of_working hwork (State.claiminfoReply_of_denied hread hr),
      fun hr => ⟨fun hno => ?absent, fun a b e hs hkey ha => ?claim⟩⟩
    case absent =>
      exact exec_claiminfo_of_working hwork
        (State.claiminfoReply_of_absent hread hr ((s.claimOn_eq_none_iff k).mpr hno))
    case claim =>
      rw [← ClaimEntry.encode_eq]
      exact exec_claiminfo_of_working hwork
        (State.claiminfoReply_of_claim hread hr (State.claimOn_of_split hs hkey ha))

end Sys2Proof.Machine
end

section
/-! PROOFS. The Rights Unit (chapter 6): the effective right as the lowest of those that bear on a key, what the end of a
FREEZE job does, and the window commands by the state of their window. -/

namespace Sys2Proof.Machine

/-! ## The order of the rights (R104) -/

theorem Right.atLeast_iff (r need : Right) : r.atLeast need = true ↔
    (match r with
      | .none => need = .none
      | .read => need = .none ∨ need = .read
      | .stage => need ≠ .full
      | .full => True) := by
  cases r <;> cases need <;> decide

/-- The lower of two rights reaches what both reach. -/
theorem Right.atLeast_lower_iff (a b need : Right) :
    (a.lower b).atLeast need = true ↔ a.atLeast need = true ∧ b.atLeast need = true := by
  unfold Right.lower
  split <;> simp only [Right.atLeast, decide_eq_true_eq] <;> omega

theorem Role.cap_atLeast_iff (role : Role) (need : Right) : role.cap.atLeast need = true ↔
    (match role with
      | .admin => True
      | .editor => True
      | .reader => need = .none ∨ need = .read) := by
  cases role <;> exact Right.atLeast_iff _ need

/-! ## The windows that cover a key (R105) -/

theorem WindowDef.covers_iff (d : WindowDef) (k : Nat) : d.covers k = true ↔
    (if d.invert then k < d.lo ∨ d.hi < k else d.lo ≤ k ∧ k ≤ d.hi) := by
  unfold WindowDef.covers
  split <;> simp

theorem Window.definition_eq_some_iff (w : Window) (d : WindowDef) :
    w.definition = some d ↔ w = .active d ∨ w = .freezing d ∨ w = .frozen d := by
  cases w <;> simp [Window.definition]

/-- A window lowers a right below what is needed only where it covers the key and gives the port less. -/
theorem Window.limit_atLeast_iff (w : Window) (p : Port) (k : Nat) (r need : Right) :
    (w.limit p k r).atLeast need = true ↔
      r.atLeast need = true ∧
        ∀ d, w.definition = some d → d.covers k = true → (d.rights.get p).atLeast need = true := by
  unfold Window.limit
  cases w.definition with
  | none => simp
  | some d => cases hc : d.covers k <;> simp [hc, Right.atLeast_lower_iff]

/-- A right that windows lower one after another reaches what it and all of them reach. -/
theorem foldl_limit_atLeast_iff (p : Port) (k : Nat) (need : Right) (ws : List Window) (r : Right) :
    (ws.foldl (fun acc w => w.limit p k acc) r).atLeast need = true ↔
      r.atLeast need = true ∧
        ∀ w ∈ ws, ∀ d, w.definition = some d → d.covers k = true → (d.rights.get p).atLeast need = true := by
  induction ws generalizing r with
  | nil => simp
  | cons w ws ih => rw [List.foldl_cons, ih, Window.limit_atLeast_iff, List.forall_mem_cons, and_assoc]

/-- What holds of every window in the list holds of the window of every number. -/
theorem Rights.forall_mem_windows_iff (g : Rights) (P : Window → Prop) :
    (∀ w ∈ g.windows.toList, P w) ↔ ∀ i : WindowId, P g.windows[i.val] := by
  simp only [Vector.mem_toList_iff, Vector.mem_iff_getElem]
  exact ⟨fun h i => h _ ⟨i.val, i.isLt, rfl⟩, fun h w ⟨n, hn, hw⟩ => hw ▸ h ⟨n, hn⟩⟩

/-- Settles O46: the rights of the cap and of the covering windows are lowered one by one, and the lowest reaches
what each of them reaches. -/
theorem effectiveRightIsLowest : Obligations.EffectiveRightIsLowest := by
  unfold Obligations.EffectiveRightIsLowest
  intro g p k need
  unfold Rights.allows Rights.effective
  rw [foldl_limit_atLeast_iff, Rights.forall_mem_windows_iff]
  exact and_congr (Role.cap_atLeast_iff _ need) (forall₂_congr fun i d =>
    imp_congr (Window.definition_eq_some_iff _ d) (imp_congr (d.covers_iff k) (Right.atLeast_iff _ need)))

/-! ## The end of the job in flight (R142, R144, R149) -/

/-- A phase runs in BUSY and in PAUSING, and in no other state (R143). -/
theorem Engine.running_eq_some_iff (e : Engine) (f : Flight) :
    e.running = some f ↔ e = .busy f ∨ ∃ pz, e = .pausing f pz := by
  cases e <;> simp [Engine.running]

/-- A queue to which nothing is posted stays as it is. -/
theorem PortMap.build_postIf_of_not (m : PortMap NoticeQueue) {c : Port → Prop} [DecidablePred c] (n : Notice)
    (h : ∀ q, ¬ c q) : (PortMap.build fun q => (m.get q).postIf (c q) n) = m :=
  PortMap.ext_get fun q => by rw [PortMap.get_build, NoticeQueue.postIf_false _ _ _ (h q)]

/-- The part in the middle of the end of a job: the job is gone and the mark stands, and no other job is yet taken. -/
def State.jobDropped (s : State) (marks : Bool) : State :=
  let mark := if marks then markOf s.queueAfterJob s.applyNumber else s.persist.mark
  { s with
    persist :=
      { queue := s.queueAfterJob
        engine := s.persist.engine.dropJob
        mark := mark
        requests := if marks then s.requestsLeft mark else s.persist.requests }
    startup := { s.startup with backlog := s.startup.backlog.tail }
    notices := .build fun q =>
      (s.notices.get q).postIf (marks = true ∧ s.reached mark q = true) (.durable mark) }

/-- The jobs left when the job in flight has ended are those of the queue, to which the backlog has added (R142). -/
theorem Persist.jobs_of_dropJob {f : Flight} {pe : Persist} (h : pe.engine.running = some f) (queue : List Job) :
    Persist.jobs { pe with queue := queue, engine := pe.engine.dropJob } = queue := by
  rcases (Engine.running_eq_some_iff _ f).mp h with he | ⟨pz, he⟩ <;>
    simp [he, Persist.jobs, Engine.dropJob, Engine.job, Engine.faultRecord]

/-- The job in flight is dropped, with the mark recomputed where `marks` holds, before the engine goes on (R149). -/
theorem State.endJob_eq_goOn {s : State} {f : Flight} (h : s.persist.engine.running = some f) (marks : Bool) :
    s.endJob marks = (s.jobDropped marks).goOn := by
  have hjobs := Persist.jobs_of_dropJob h s.queueAfterJob
  unfold State.endJob State.jobDropped
  rw [State.fillPlace_eq]
  cases marks with
  | false =>
    simp only [Bool.false_eq_true, false_and, if_false, PortMap.build_postIf_of_not _ _ fun _ => not_false]
    rfl
  | true =>
    unfold State.queueAfterJob at hjobs
    simp only [State.remark_eq, if_true, true_and, hjobs]
    rfl

/-- The end of the job in flight is what the claims call it: its place is offered to the backlog, the mark recomputed
where `marks` holds, and the next job taken unless the engine was PAUSING (R142, R144, R149). -/
theorem State.endJob_eq_jobEnded {s : State} {f : Flight} (h : s.persist.engine.running = some f) (marks : Bool) :
    s.endJob marks = s.jobEnded marks := by
  rw [State.endJob_eq_goOn h]
  unfold State.goOn State.jobEnded State.jobDropped Persist.takeHead
  rcases (Engine.running_eq_some_iff _ f).mp h with he | ⟨pz, he⟩
  · cases hq : s.queueAfterJob <;> simp [he, Engine.dropJob]
  · simp [he, Engine.dropJob]

/-- The end of a job without an apply number takes no part in the Rights Unit and posts nothing. -/
theorem State.endJob_with_rights_notices {s : State} {f : Flight} (h : s.persist.engine.running = some f) (g : Rights)
    (notices : PortMap NoticeQueue) :
    State.endJob { s with rights := g, notices := notices } false =
      { s.jobEnded false with rights := g, notices := notices } := by
  refine (State.endJob_eq_jobEnded (s := { s with rights := g, notices := notices }) h false).trans ?_
  unfold State.jobEnded
  simp only [Bool.false_eq_true, false_and, if_false, PortMap.build_postIf_of_not _ _ fun _ => not_false]
  rfl

/-! ## The end of a FREEZE job (R113, R114, R147) -/

/-- A freeze that succeeds changes the window, its entry and the notices to the ADMIN ports (R113). -/
theorem State.freezeSucceeds_eq (s : State) (i : WindowId) (d : WindowDef) :
    s.freezeSucceeds i d = { s with
      rights := { s.rights with
        windows := s.rights.windows.set i.val (.frozen d)
        entries := s.rights.entries.set i.val .valid }
      notices := .build fun q => (s.notices.get q).postIf (s.rights.roles.get q = .admin) (.freezeDone i) } := by
  simp only [State.freezeSucceeds, State.deliverAdmins_eq, Rights.admits_of_key_eq_none _ _ (n := .freezeDone i) rfl,
    and_true]
  rfl

/-- A freeze that fails returns a FREEZING window to ACTIVE, spoils its entry and tells the ADMIN ports (R114). -/
theorem State.freezeFails_eq {s : State} {i : WindowId} {d : WindowDef} (h : s.rights.windows[i.val] = .freezing d) :
    s.freezeFails i = { s with
      rights := { s.rights with
        windows := s.rights.windows.set i.val (.active d)
        entries := s.rights.entries.set i.val .spoiled }
      notices := .build fun q => (s.notices.get q).postIf (s.rights.roles.get q = .admin) (.freezeFailed i) } := by
  have hwindow : (s.rights.window i).unfreeze = .active d := congrArg Window.unfreeze h
  simp only [State.freezeFails, hwindow, State.deliverAdmins_eq,
    Rights.admits_of_key_eq_none _ _ (n := .freezeFailed i) rfl, and_true]
  rfl

section
variable {s : State} {i : WindowId} {d : WindowDef} {attempt : Nat}

/-- The VERIFY of a FREEZE finds the entry as meant, and the freeze succeeds (R113, R147). -/
theorem exec_freezeJobEnd_of_match (h : s.persist.engine.running = some ⟨.freeze i d, attempt, .verifyEntry⟩)
    (hv : s.nv.entry i = .valid d) : exec .freezeJobEnd s = .next ((s.freezeSucceeds i d).endJob false) := by
  have houtcome : verifyOutcome s.nv ⟨.freeze i d, attempt, .verifyEntry⟩ = some true := by simp [verifyOutcome, hv]
  show execFreezeJobEnd s = _
  simp only [execFreezeJobEnd, h, houtcome]

/-- The VERIFY of a FREEZE finds the entry otherwise, and the freeze fails (R114, R147). -/
theorem exec_freezeJobEnd_of_mismatch (h : s.persist.engine.running = some ⟨.freeze i d, attempt, .verifyEntry⟩)
    (hv : s.nv.entry i ≠ .valid d) : exec .freezeJobEnd s = .next ((s.freezeFails i).endJob false) := by
  have houtcome : verifyOutcome s.nv ⟨.freeze i d, attempt, .verifyEntry⟩ = some false := by
    simp [verifyOutcome, hv]
  show execFreezeJobEnd s = _
  simp only [execFreezeJobEnd, h, houtcome]

end

/-- Settles O45: the VERIFY decides the window's and the entry's state, and the job ends without an apply number. -/
theorem freezeJobEnds : Obligations.FreezeJobEnds := by
  unfold Obligations.FreezeJobEnds
  intro s i d attempt h hwindow
  refine ⟨fun hmatch => ?_, fun hmismatch => ?_⟩
  · rw [exec_freezeJobEnd_of_match h hmatch, State.freezeSucceeds_eq]
    exact congrArg Host.Outcome.next (State.endJob_with_rights_notices h _ _)
  · rw [exec_freezeJobEnd_of_mismatch h hmismatch, State.freezeFails_eq hwindow]
    exact congrArg Host.Outcome.next (State.endJob_with_rights_notices h _ _)

/-! ## The window commands taken by the Rights Unit -/

/-- A WINDOW has the effect and the answer that stand behind its NOT_ADMIN check (R103). -/
theorem exec_window_of_working {s t : State} {p : Port} {tag : Byte} {params data : List Byte} {r : Result}
    (h : s.isWorkingOn p tag 0x62#8 params) (ht : s.adminOnly p (s.defineWindow params) = (t, ⟨r, data⟩)) :
    exec (.window p) s = .next (t.answers p tag r data) :=
  congrArg Host.Outcome.next (State.serve_eq_answers h ht)

/-- An UNWINDOW has the effect and the answer that stand behind its NOT_ADMIN check (R103). -/
theorem exec_unwindow_of_working {s t : State} {p : Port} {tag : Byte} {params data : List Byte} {r : Result}
    (h : s.isWorkingOn p tag 0x63#8 params) (ht : s.adminOnly p (s.removeWindow params) = (t, ⟨r, data⟩)) :
    exec (.unwindow p) s = .next (t.answers p tag r data) :=
  congrArg Host.Outcome.next (State.serve_eq_answers h ht)

/-- A FREEZE has the effect and the answer that stand behind its NOT_ADMIN check (R103). -/
theorem exec_freeze_of_working {s t : State} {p : Port} {tag : Byte} {params data : List Byte} {r : Result}
    (h : s.isWorkingOn p tag 0x64#8 params) (ht : s.adminOnly p (s.freezeWindow params) = (t, ⟨r, data⟩)) :
    exec (.freeze p) s = .next (t.answers p tag r data) :=
  congrArg Host.Outcome.next (State.serve_eq_answers h ht)

/-- A WINDOWINFO is answered with its reply, and nothing else changes. -/
theorem exec_windowinfo_of_working {s : State} {p : Port} {tag : Byte} {params data : List Byte} {r : Result}
    (h : s.isWorkingOn p tag 0x65#8 params) (hr : s.windowinfoReply params = ⟨r, data⟩) :
    exec (.windowinfo p) s = .next (s.answers p tag r data) :=
  congrArg Host.Outcome.next (State.serve_eq_answers h (congrArg (Prod.mk s) hr))

/-! ## Parameters of the window commands -/

theorem readWindowAlone_enc8 (i : WindowId) : readWindowAlone (enc8 i.val) = some i := readWindow_enc8 i

/-- An index of 6 or more is refused (R109, R110, R112). -/
theorem readWindowAlone_eq_none {b : Byte} (h : 6 ≤ b.toNat) : readWindowAlone [b] = none :=
  dif_neg (Nat.not_lt.mpr h)

theorem Right.code_toNat_lt (r : Right) : r.code.toNat < 4 := by cases r <;> decide

/-- The codes of a WINDOW are an index, an inversion and three rights; any other code is refused (R108). -/
theorem readWindowDef_eq_none_of_code {b inv r0 r1 r2 : Byte} {lo hi : Nat}
    (h : 6 ≤ b.toNat ∨ 2 ≤ inv.toNat ∨ 4 ≤ r0.toNat ∨ 4 ≤ r1.toNat ∨ 4 ≤ r2.toNat) :
    readWindowDef (b :: (enc16 lo ++ enc16 hi ++ [inv, r0, r1, r2])) = none := by
  rw [readWindowDef_eq_none_iff]
  rintro ⟨i, d, -, he⟩
  simp only [windowParams, enc8, enc16_eq, List.cons_append, List.nil_append, List.cons.injEq, and_true] at he
  obtain ⟨rfl, -, -, -, -, rfl, rfl, rfl, rfl⟩ := he
  have hindex : (BitVec.ofNat 8 i.val).toNat < 6 := by
    rw [BitVec.toNat_ofNat]
    exact lt_of_le_of_lt (Nat.mod_le _ _) i.isLt
  have hinvert : (if d.invert then 0x01#8 else 0x00#8 : Byte).toNat < 2 := by cases d.invert <;> decide
  have := d.rights.p0.code_toNat_lt
  have := d.rights.p1.code_toNat_lt
  have := d.rights.p2.code_toNat_lt
  omega

theorem readWindowDef_params_of_wf {i : WindowId} {d : WindowDef} (h : d.wf) :
    readWindowDef (windowParams i d) = some (i, d) := by
  have ⟨hlo, hhi, _⟩ := h
  exact (readWindowDef_params (validKey_le hlo) (validKey_le hhi)).trans (if_pos h)

theorem readWindowDef_params_of_not_wf {i : WindowId} {d : WindowDef} (hlo : d.lo ≤ 65535) (hhi : d.hi ≤ 65535)
    (h : ¬ d.wf) : readWindowDef (windowParams i d) = none :=
  (readWindowDef_params hlo hhi).trans (if_neg h)

/-! ## WINDOW (R108) -/

/-- A window that neither a WINDOW nor an UNWINDOW may change, nor a FREEZE begin again: FREEZING or FROZEN. -/
def Window.settled (w : Window) : Prop := (∃ d, w = .freezing d) ∨ ∃ d, w = .frozen d

section
variable {s : State} {params : List Byte} {i : WindowId} {d : WindowDef}

theorem State.defineWindow_of_unread (h : readWindowDef params = none) :
    s.defineWindow params = (s, ⟨.badParam, []⟩) := by
  simp only [State.defineWindow, h]
  rfl

theorem State.defineWindow_of_settled (h : readWindowDef params = some (i, d)) (hw : (s.rights.window i).settled) :
    s.defineWindow params = (s, ⟨.frozen, []⟩) := by
  rcases hw with ⟨d', hw⟩ | ⟨d', hw⟩ <;> simp only [State.defineWindow, h, hw] <;> rfl

/-- A window that is UNUSED or ACTIVE becomes ACTIVE with the definition (R108). -/
theorem State.defineWindow_of_not_settled (h : readWindowDef params = some (i, d))
    (hw : ¬ (s.rights.window i).settled) : s.defineWindow params = (s.setWindow i (.active d), ⟨.ok, []⟩) := by
  simp only [State.defineWindow, h]
  cases hs : s.rights.window i with
  | unused => rfl
  | active d' => rfl
  | freezing d' => exact absurd (.inl ⟨d', hs⟩) hw
  | frozen d' => exact absurd (.inr ⟨d', hs⟩) hw

/-! ## UNWINDOW (R109) -/

theorem State.removeWindow_of_unread (h : readWindowAlone params = none) :
    s.removeWindow params = (s, ⟨.badParam, []⟩) := by
  simp only [State.removeWindow, h]
  rfl

theorem State.removeWindow_of_settled (h : readWindowAlone params = some i) (hw : (s.rights.window i).settled) :
    s.removeWindow params = (s, ⟨.frozen, []⟩) := by
  rcases hw with ⟨d', hw⟩ | ⟨d', hw⟩ <;> simp only [State.removeWindow, h, hw] <;> rfl

theorem State.removeWindow_of_unused (h : readWindowAlone params = some i) (hw : s.rights.window i = .unused) :
    s.removeWindow params = (s, ⟨.badParam, []⟩) := by
  simp only [State.removeWindow, h, hw]
  rfl

theorem State.removeWindow_of_active (h : readWindowAlone params = some i) (hw : s.rights.window i = .active d) :
    s.removeWindow params = (s.setWindow i .unused, ⟨.ok, []⟩) := by
  simp only [State.removeWindow, h, hw]
  rfl

/-! ## FREEZE (R112) -/

theorem State.freezeWindow_of_unread (h : readWindowAlone params = none) :
    s.freezeWindow params = (s, ⟨.badParam, []⟩) := by
  simp only [State.freezeWindow, h]
  rfl

theorem State.freezeWindow_of_settled (h : readWindowAlone params = some i) (hw : (s.rights.window i).settled) :
    s.freezeWindow params = (s, ⟨.frozen, []⟩) := by
  rcases hw with ⟨d', hw⟩ | ⟨d', hw⟩ <;> simp only [State.freezeWindow, h, hw] <;> rfl

theorem State.freezeWindow_of_unused (h : readWindowAlone params = some i) (hw : s.rights.window i = .unused) :
    s.freezeWindow params = (s, ⟨.badParam, []⟩) := by
  simp only [State.freezeWindow, h, hw]
  rfl

theorem State.freezeWindow_of_written (h : readWindowAlone params = some i) (hw : s.rights.window i = .active d)
    (he : s.rights.entry i ≠ .unwritten) : s.freezeWindow params = (s, ⟨.oneTimeUsed, []⟩) := by
  simp only [State.freezeWindow, h, hw, if_pos he]
  rfl

/-- There is no free place exactly where the jobs hold the 32 of them (R139). -/
theorem Persist.freePlaces_eq_zero_iff (pe : Persist) : pe.freePlaces = 0 ↔ 32 ≤ pe.jobs.length :=
  Nat.sub_eq_zero_iff_le

theorem Persist.freePlaces_ne_zero {pe : Persist} (h : pe.jobs.length < 32) : pe.freePlaces ≠ 0 :=
  fun hz => Nat.not_le.mpr h (pe.freePlaces_eq_zero_iff.mp hz)

theorem State.freezeWindow_of_full (h : readWindowAlone params = some i) (hw : s.rights.window i = .active d)
    (he : s.rights.entry i = .unwritten) (hfull : 32 ≤ s.persist.jobs.length) :
    s.freezeWindow params = (s, ⟨.persistFull, []⟩) := by
  simp only [State.freezeWindow, h, hw, if_neg (not_not.mpr he), if_pos ((Persist.freePlaces_eq_zero_iff _).mpr hfull)]
  rfl

theorem State.freezeWindow_of_faulted (h : readWindowAlone params = some i) (hw : s.rights.window i = .active d)
    (he : s.rights.entry i = .unwritten) (hroom : s.persist.jobs.length < 32)
    (hf : s.persist.engine.isFaulted = true) : s.freezeWindow params = (s, ⟨.persistFault, []⟩) := by
  simp only [State.freezeWindow, h, hw, if_neg (not_not.mpr he), if_neg (Persist.freePlaces_ne_zero hroom), if_pos hf]
  rfl

/-- The window becomes FREEZING, and its FREEZE job joins the queue (R112). -/
theorem State.freezeWindow_of_room (h : readWindowAlone params = some i) (hw : s.rights.window i = .active d)
    (he : s.rights.entry i = .unwritten) (hroom : s.persist.jobs.length < 32)
    (hf : s.persist.engine.isFaulted = false) :
    s.freezeWindow params =
      ({ s.setWindow i (.freezing d) with persist := s.persist.withJob s.nv (.freeze i d) }, ⟨.ok, []⟩) := by
  simp only [State.freezeWindow, h, hw, if_neg (not_not.mpr he), if_neg (Persist.freePlaces_ne_zero hroom), hf,
    Bool.false_eq_true, if_false, Persist.enqueue_eq]
  rfl

/-! ## WINDOWINFO (R110) -/

theorem State.windowinfoReply_of_unread (h : readWindowAlone params = none) :
    s.windowinfoReply params = ⟨.badParam, []⟩ := by
  simp only [State.windowinfoReply, h]
  rfl

/-- The definition in a WINDOWINFO answer is laid out as in the parameters of a WINDOW, behind the index (R110). -/
theorem State.windowinfoReply_of_read (h : readWindowAlone params = some i) :
    s.windowinfoReply params = ⟨.ok, [(s.rights.window i).code, (s.rights.entry i).code] ++
      ((s.rights.window i).definition.elim [] fun d => (windowParams i d).drop 1)⟩ := by
  simp only [State.windowinfoReply, h]
  cases (s.rights.window i).definition <;> rfl

/-- A window has a definition in every state but UNUSED (R107). -/
theorem Window.definitionData_eq (i : WindowId) (w : Window) :
    (w.definition.elim [] fun d => (windowParams i d).drop 1) =
      match w with
      | .unused => []
      | .active d => (windowParams i d).drop 1
      | .freezing d => (windowParams i d).drop 1
      | .frozen d => (windowParams i d).drop 1 := by
  cases w <;> rfl

end

/-- Settles O48: NOT_ADMIN before every other check but for WINDOWINFO (R103), then the form of the parameters, and then
the window's state decides. -/
theorem windowCommands : Obligations.WindowCommands := by
  unfold Obligations.WindowCommands
  intro s p tag i window settled goes
  refine ⟨fun hrole params => ?notAdmin, fun hadmin => ⟨?code, fun d hlo hhi h => ?define, fun h => ?remove,
    fun h => ?freeze⟩, fun h => ?info, fun b hb => ?index⟩
  case notAdmin =>
    exact ⟨fun h => exec_window_of_working h (State.adminOnly_of_not_admin hrole _),
      fun h => exec_unwindow_of_working h (State.adminOnly_of_not_admin hrole _),
      fun h => exec_freeze_of_working h (State.adminOnly_of_not_admin hrole _)⟩
  case code =>
    intro b inv r0 r1 r2 lo hi _ _ h hbad
    exact exec_window_of_working h ((State.adminOnly_of_admin hadmin _).trans
      (State.defineWindow_of_unread (readWindowDef_eq_none_of_code hbad)))
  case define =>
    have hexec := fun {t r data} (ht : s.defineWindow (windowParams i d) = (t, ⟨r, data⟩)) =>
      exec_window_of_working h ((State.adminOnly_of_admin hadmin _).trans ht)
    exact ⟨fun hbad => hexec (State.defineWindow_of_unread (readWindowDef_params_of_not_wf hlo hhi hbad)),
      fun hwf hw => hexec (State.defineWindow_of_settled (readWindowDef_params_of_wf hwf) hw),
      fun hwf hw => hexec (State.defineWindow_of_not_settled (readWindowDef_params_of_wf hwf) hw)⟩
  case remove =>
    have hread := readWindowAlone_enc8 i
    have hexec := fun {t r data} (ht : s.removeWindow (enc8 i.val) = (t, ⟨r, data⟩)) =>
      exec_unwindow_of_working h ((State.adminOnly_of_admin hadmin _).trans ht)
    exact ⟨fun hw => hexec (State.removeWindow_of_settled hread hw),
      fun hw => hexec (State.removeWindow_of_unused hread hw),
      fun d hw => hexec (State.removeWindow_of_active hread hw)⟩
  case freeze =>
    have hread := readWindowAlone_enc8 i
    have hexec := fun {t r data} (ht : s.freezeWindow (enc8 i.val) = (t, ⟨r, data⟩)) =>
      exec_freeze_of_working h ((State.adminOnly_of_admin hadmin _).trans ht)
    exact ⟨fun hw => hexec (State.freezeWindow_of_settled hread hw),
      fun hw => hexec (State.freezeWindow_of_unused hread hw),
      fun d hw => ⟨fun he => hexec (State.freezeWindow_of_written hread hw he),
        fun he hfull => hexec (State.freezeWindow_of_full hread hw he hfull),
        fun he hroom hf => hexec (State.freezeWindow_of_faulted hread hw he hroom hf),
        fun he hroom hf => hexec (State.freezeWindow_of_room hread hw he hroom hf)⟩⟩
  case info =>
    have hreply := State.windowinfoReply_of_read (s := s) (readWindowAlone_enc8 i)
    rw [Window.definitionData_eq] at hreply
    exact exec_windowinfo_of_working h hreply
  case index =>
    have hread := readWindowAlone_eq_none hb
    exact ⟨fun hadmin =>
        ⟨fun h => exec_unwindow_of_working h
          ((State.adminOnly_of_admin hadmin _).trans (State.removeWindow_of_unread hread)),
        fun h => exec_freeze_of_working h
          ((State.adminOnly_of_admin hadmin _).trans (State.freezeWindow_of_unread hread))⟩,
      fun h => exec_windowinfo_of_working h (State.windowinfoReply_of_unread hread)⟩

end Sys2Proof.Machine
end

section
/-! PROOFS. The admin-only commands (R103): the NOT_ADMIN check stands before all others, and nothing else that takes a
command answers NOT_ADMIN. -/

namespace Sys2Proof.Machine

/-! ## No check and no effect of a command answers NOT_ADMIN (R103) -/

section
variable {s : State} {p : Port} {params : List Byte} {r : Result}

/-- A command without parameters is answered BAD_PARAM or as its effect answers. -/
theorem State.bareCommand_ne_notAdmin {act : State × Reply} (h : act.2.result ≠ .notAdmin) :
    (s.bareCommand params act).2.result ≠ .notAdmin := by
  unfold State.bareCommand
  split
  · exact h
  · exact nofun

theorem checkValue_ne_notAdmin {c : Constraints} {reference v : Value} (h : checkValue c reference v = some r) :
    r ≠ .notAdmin := by
  rintro rfl
  unfold checkValue at h
  repeat' split at h
  all_goals exact absurd h nofun

/-! ### Look-ups, claims and watches -/

theorem State.getReply_ne_notAdmin : (s.getReply p params).result ≠ .notAdmin := by
  unfold State.getReply State.getView State.getStored State.getPlain
  repeat' split
  all_goals exact nofun

theorem State.getdefReply_ne_notAdmin : (s.getdefReply p params).result ≠ .notAdmin := by
  unfold State.getdefReply
  repeat' split
  all_goals exact nofun

theorem State.findReply_ne_notAdmin : (s.findReply p params).result ≠ .notAdmin := by
  unfold State.findReply
  repeat' split
  all_goals exact nofun

theorem State.claiminfoReply_ne_notAdmin : (s.claiminfoReply p params).result ≠ .notAdmin := by
  unfold State.claiminfoReply
  repeat' split
  all_goals exact nofun

theorem State.claim_ne_notAdmin : (s.claim p params).2.result ≠ .notAdmin := by
  unfold State.claim State.claimHeld
  repeat' split
  all_goals exact nofun

theorem State.release_ne_notAdmin : (s.release p params).2.result ≠ .notAdmin := by
  unfold State.release
  repeat' split
  all_goals exact nofun

theorem State.watchCommand_ne_notAdmin {act : SlotId → Record → State × Reply}
    (h : ∀ i record, (act i record).2.result ≠ .notAdmin) :
    (s.watchCommand p params act).2.result ≠ .notAdmin := by
  unfold State.watchCommand
  iterate 2 (split; · exact nofun)
  split
  · exact nofun
  · exact h _ _

theorem State.watchClass_ne_notAdmin {member : Bool} : (s.watchClass p member params).2.result ≠ .notAdmin := by
  unfold State.watchClass
  split <;> exact nofun

theorem State.nextNotice_ne_notAdmin : (s.nextNotice p).2.result ≠ .notAdmin := by
  unfold State.nextNotice
  split <;> exact nofun

theorem State.sync_ne_notAdmin : (s.sync p params).2.result ≠ .notAdmin := by
  unfold State.sync
  repeat' split
  all_goals exact nofun

theorem State.windowinfoReply_ne_notAdmin : (s.windowinfoReply params).result ≠ .notAdmin := by
  unfold State.windowinfoReply
  split <;> exact nofun

/-! ### The apply (chapter 4) -/

theorem firstFailure_mem {checks : List (Option Result)} (h : firstFailure checks = some r) : some r ∈ checks := by
  obtain ⟨check, hmem, hcheck⟩ := List.exists_of_findSome?_eq_some h
  exact hcheck ▸ hmem

theorem State.presentCheck_ne_notAdmin {k : Nat} : s.presentCheck k ≠ some .notAdmin := by
  unfold State.presentCheck
  split <;> exact nofun

theorem State.absentCheck_ne_notAdmin {k : Nat} : s.absentCheck k ≠ some .notAdmin := by
  unfold State.absentCheck
  repeat' split
  all_goals exact nofun

theorem State.existenceCheck_ne_notAdmin {e : Entry} : s.existenceCheck e ≠ some .notAdmin := by
  unfold State.existenceCheck
  split
  · exact State.absentCheck_ne_notAdmin
  · exact State.presentCheck_ne_notAdmin

theorem State.generationCheck_ne_notAdmin {k : Nat} {expect : Option Nat} :
    s.generationCheck k expect ≠ some .notAdmin := by
  unfold State.generationCheck
  repeat' split
  all_goals exact nofun

theorem State.valueCheck_ne_notAdmin {e : Entry} : s.valueCheck e ≠ some .notAdmin := by
  unfold State.valueCheck
  split
  · split
    · exact fun h => checkValue_ne_notAdmin h rfl
    · exact nofun
  · exact fun h => checkValue_ne_notAdmin h rfl
  · exact nofun

theorem State.claimCheck_ne_notAdmin {e : Entry} : s.claimCheck p e ≠ some .notAdmin := by
  unfold State.claimCheck
  repeat' split
  all_goals exact nofun

theorem State.roomCheck_ne_notAdmin {passed : List ClassId} {e : Entry} :
    s.roomCheck passed e ≠ some .notAdmin := by
  unfold State.roomCheck
  repeat' split
  all_goals exact nofun

theorem State.entryCheck_ne_notAdmin {mode : Persistence} {passed : List ClassId} {e : Entry}
    (h : s.entryCheck p mode passed e = some r) : r ≠ .notAdmin := by
  rintro rfl
  have hmem := firstFailure_mem h
  simp only [List.mem_cons, List.not_mem_nil, or_false] at hmem
  rcases hmem with hright | hexists | hgeneration | hclaim | hvalue | hroom | hmode
  · unfold State.rightCheck at hright
    split at hright <;> exact absurd hright nofun
  · exact State.existenceCheck_ne_notAdmin hexists.symm
  · exact State.generationCheck_ne_notAdmin hgeneration.symm
  · exact State.claimCheck_ne_notAdmin hclaim.symm
  · exact State.valueCheck_ne_notAdmin hvalue.symm
  · exact State.roomCheck_ne_notAdmin hroom.symm
  · unfold modeCheck at hmode
    split at hmode <;> exact absurd hmode nofun

theorem State.entriesCheck_ne_notAdmin {mode : Persistence} {es : List Entry} {n index : Nat} {passed : List ClassId}
    (h : s.entriesCheck p mode n passed es = some (r, index)) : r ≠ .notAdmin := by
  induction es generalizing n passed with
  | nil => exact absurd h nofun
  | cons e rest ih =>
    unfold State.entriesCheck at h
    split at h
    · next hc =>
      obtain ⟨rfl, -⟩ := Prod.mk.inj (Option.some.inj h)
      exact State.entryCheck_ne_notAdmin hc
    · exact ih h

theorem State.wholeCheck_ne_notAdmin {mode : Persistence} {es : List Entry} :
    s.wholeCheck mode es ≠ some .notAdmin := by
  unfold State.wholeCheck
  repeat' split
  all_goals exact nofun

theorem State.applyCheck_ne_notAdmin {mode : Persistence} {es : List Entry} {index : Nat}
    (h : s.applyCheck p mode es = some (r, index)) : r ≠ .notAdmin := by
  unfold State.applyCheck at h
  split at h
  · next hc => exact State.entriesCheck_ne_notAdmin (hc.trans h)
  · obtain ⟨r', hc, he⟩ := Option.map_eq_some_iff.mp h
    rintro rfl
    obtain ⟨rfl, -⟩ := Prod.mk.inj he
    exact State.wholeCheck_ne_notAdmin hc

theorem State.apply_ne_notAdmin {mode : Persistence} {es : List Entry} :
    (s.apply p mode es).2.result ≠ .notAdmin := by
  unfold State.apply
  split
  · next hc => exact State.applyCheck_ne_notAdmin hc
  · exact nofun

/-! ### Direct staging (R56) -/

theorem State.directMisencoded_ne_notAdmin {k : Nat} {create : Bool} {expect : Option Nat} :
    (s.directMisencoded p k create expect).result ≠ .notAdmin := by
  unfold State.directMisencoded
  intro h
  rcases Option.getD_eq_iff.mp (show (firstFailure _).getD .type = .notAdmin from h) with hf | ⟨-, htype⟩
  · have hmem := firstFailure_mem hf
    split at hmem <;> simp only [List.mem_cons, List.not_mem_nil, or_false] at hmem
    · exact State.absentCheck_ne_notAdmin hmem.symm
    · rcases hmem with hpresent | hgeneration | hclaim
      · exact State.presentCheck_ne_notAdmin hpresent.symm
      · exact State.generationCheck_ne_notAdmin hgeneration.symm
      · exact State.claimCheck_ne_notAdmin (e := ⟨k, .retire none⟩) hclaim.symm
  · exact absurd htype nofun

theorem State.directSet_ne_notAdmin : (s.directSet p params).2.result ≠ .notAdmin := by
  unfold State.directSet
  iterate 2 (split; · exact nofun)
  split
  · exact State.directMisencoded_ne_notAdmin
  · exact State.apply_ne_notAdmin

theorem State.directCreate_ne_notAdmin : (s.directCreate p params).2.result ≠ .notAdmin := by
  unfold State.directCreate
  iterate 3 (split; · exact nofun)
  split
  · exact nofun
  · exact State.directMisencoded_ne_notAdmin
  · exact State.apply_ne_notAdmin

theorem State.directRetire_ne_notAdmin : (s.directRetire p params).2.result ≠ .notAdmin := by
  unfold State.directRetire
  split; · exact nofun
  split
  · exact nofun
  · exact State.apply_ne_notAdmin

theorem State.directDefault_ne_notAdmin : (s.directDefault p params).2.result ≠ .notAdmin := by
  unfold State.directDefault
  iterate 3 (split; · exact nofun)
  split
  · exact nofun
  · exact State.apply_ne_notAdmin

theorem State.directRevert_ne_notAdmin : (s.directRevert p params).2.result ≠ .notAdmin := by
  unfold State.directRevert
  iterate 3 (split; · exact nofun)
  split
  · exact nofun
  · exact State.apply_ne_notAdmin

/-! ### Staging at depth 1 to 4 (R43) -/

theorem View.present_ne_notAdmin {view : View} (h : view.present = .error r) : r ≠ .notAdmin := by
  rintro rfl
  cases view <;> exact absurd h nofun

theorem State.stage_ne_notAdmin {top : Changeset} {lower : Stack} {k : Nat} {ch : Change} {resolved : List Byte} :
    (s.stage p top lower k ch resolved).2.result ≠ .notAdmin := by
  unfold State.stage
  split <;> exact nofun

theorem State.stageSet_ne_notAdmin {top : Changeset} {lower : Stack} :
    (s.stageSet p top lower params).2.result ≠ .notAdmin := by
  unfold State.stageSet
  iterate 2 (split; · exact nofun)
  split
  · next hview => exact View.present_ne_notAdmin hview
  iterate 2 (split; · exact nofun)
  split
  · next hvalue => exact checkValue_ne_notAdmin hvalue
  · exact State.stage_ne_notAdmin

theorem State.createRefusal_ne_notAdmin {k : Nat} (h : s.createRefusal p k = some r) : r ≠ .notAdmin := by
  rintro rfl
  unfold State.createRefusal at h
  repeat' split at h
  all_goals exact absurd h nofun

theorem State.stageCreate_ne_notAdmin {top : Changeset} {lower : Stack} :
    (s.stageCreate p top lower params).2.result ≠ .notAdmin := by
  unfold State.stageCreate
  iterate 2 (split; · exact nofun)
  split
  · next hview => exact State.createRefusal_ne_notAdmin hview
  split; · exact nofun
  split
  · exact nofun
  · exact nofun
  split
  · next hvalue => exact checkValue_ne_notAdmin hvalue
  · exact State.stage_ne_notAdmin

theorem State.stageRetire_ne_notAdmin {top : Changeset} {lower : Stack} :
    (s.stageRetire p top lower params).2.result ≠ .notAdmin := by
  unfold State.stageRetire
  iterate 2 (split; · exact nofun)
  split
  · next hview => exact View.present_ne_notAdmin hview
  split
  · exact nofun
  · exact State.stage_ne_notAdmin

theorem State.stageResolved_ne_notAdmin {top : Changeset} {lower : Stack} {k : Nat} {d : Definition}
    {reference v : Value} : (s.stageResolved p top lower k d reference v).2.result ≠ .notAdmin := by
  unfold State.stageResolved
  split
  · next hvalue => exact checkValue_ne_notAdmin hvalue
  · exact State.stage_ne_notAdmin

theorem State.stageDefault_ne_notAdmin {top : Changeset} {lower : Stack} :
    (s.stageDefault p top lower params).2.result ≠ .notAdmin := by
  unfold State.stageDefault
  iterate 2 (split; · exact nofun)
  split
  · next hview => exact View.present_ne_notAdmin hview
  split
  · exact nofun
  · exact State.stageResolved_ne_notAdmin

theorem State.stageRevert_ne_notAdmin {top : Changeset} {lower : Stack} :
    (s.stageRevert p top lower params).2.result ≠ .notAdmin := by
  unfold State.stageRevert
  iterate 2 (split; · exact nofun)
  split
  · next hview => exact View.present_ne_notAdmin hview
  split
  · exact nofun
  · exact State.stageResolved_ne_notAdmin

/-- A staging command is applied at once at depth 0 and staged at any other. -/
theorem State.byDepth_ne_notAdmin {direct : State × Reply} {staged : Changeset → Stack → State × Reply}
    (hd : direct.2.result ≠ .notAdmin) (hs : ∀ top lower, (staged top lower).2.result ≠ .notAdmin) (st : Stack) :
    (match st with | [] => direct | top :: lower => staged top lower).2.result ≠ .notAdmin := by
  cases st with
  | nil => exact hd
  | cons top lower => exact hs top lower

theorem State.begin_ne_notAdmin : (s.begin p).2.result ≠ .notAdmin := by
  unfold State.begin
  split <;> exact nofun

theorem State.abandon_ne_notAdmin : (s.abandon p).2.result ≠ .notAdmin := by
  unfold State.abandon
  split <;> exact nofun

theorem State.commit_ne_notAdmin : (s.commit p params).2.result ≠ .notAdmin := by
  unfold State.commit
  split; · exact nofun
  split
  · exact nofun
  · unfold State.commitOutermost
    split
    · next hc => exact State.applyCheck_ne_notAdmin hc
    · exact nofun
  · exact nofun

/-! ### The admin-only commands behind their NOT_ADMIN check -/

theorem State.pauseEngine_ne_notAdmin : (s.pauseEngine p params).2.result ≠ .notAdmin := by
  unfold State.pauseEngine
  repeat' split
  all_goals exact nofun

theorem State.resumeEngine_ne_notAdmin : (s.resumeEngine p).2.result ≠ .notAdmin := by
  unfold State.resumeEngine
  split <;> exact nofun

theorem State.clearFault_ne_notAdmin : s.clearFault.2.result ≠ .notAdmin := by
  unfold State.clearFault
  split <;> exact nofun

theorem State.setQuota_ne_notAdmin : (s.setQuota params).2.result ≠ .notAdmin := by
  unfold State.setQuota
  repeat' split
  all_goals exact nofun

theorem State.setRole_ne_notAdmin : (s.setRole params).2.result ≠ .notAdmin := by
  unfold State.setRole
  split <;> exact nofun

theorem State.defineWindow_ne_notAdmin : (s.defineWindow params).2.result ≠ .notAdmin := by
  unfold State.defineWindow
  repeat' split
  all_goals exact nofun

theorem State.removeWindow_ne_notAdmin : (s.removeWindow params).2.result ≠ .notAdmin := by
  unfold State.removeWindow
  repeat' split
  all_goals exact nofun

theorem State.freezeWindow_ne_notAdmin : (s.freezeWindow params).2.result ≠ .notAdmin := by
  unfold State.freezeWindow
  repeat' split
  all_goals exact nofun

end

/-! ## The command that a row stands for (R103) -/

/-- How the command with a code is taken from a port: an admin-only command behind its NOT_ADMIN check, RESTART, or a
command that any port may send. In each, what the command itself answers is not NOT_ADMIN. -/
inductive CommandTaken (c : Instr) (p : Port) (code : Byte) : Prop
  | adminOnly (act : State → List Byte → State × Reply) (hcode : code ∈ adminCodes)
      (hexec : ∀ s, exec c s = .next (s.serve p code fun params => s.adminOnly p (act s params)))
      (hact : ∀ s params, (act s params).2.result ≠ .notAdmin)
  | restart (cut : NvResult) (hc : c = .restart p cut) (hcode : code = 0x6F#8)
  | anyPort (act : State → List Byte → State × Reply) (hcode : code ∉ adminCodes)
      (hexec : ∀ s, exec c s = .next (s.serve p code (act s)))
      (hact : ∀ s params, (act s params).2.result ≠ .notAdmin)

theorem commandTaken_of_takenFrom :
    ∀ {c : Instr} {p : Port} {code : Byte}, c.takenFrom = some (p, code) → CommandTaken c p code
  | .ident _, _, _, rfl => .anyPort _ (by decide) (fun _ => rfl) fun _ _ => State.bareCommand_ne_notAdmin nofun
  | .status _, _, _, rfl => .anyPort _ (by decide) (fun _ => rfl) fun _ _ => State.bareCommand_ne_notAdmin nofun
  | .ack _, _, _, rfl => .anyPort _ (by decide) (fun _ => rfl) fun _ _ => State.bareCommand_ne_notAdmin nofun
  | .detach _, _, _, rfl => .anyPort _ (by decide) (fun _ => rfl) fun _ _ => State.bareCommand_ne_notAdmin nofun
  | .get _, _, _, rfl => .anyPort _ (by decide) (fun _ => rfl) fun _ _ => State.getReply_ne_notAdmin
  | .getdef _, _, _, rfl => .anyPort _ (by decide) (fun _ => rfl) fun _ _ => State.getdefReply_ne_notAdmin
  | .find _, _, _, rfl => .anyPort _ (by decide) (fun _ => rfl) fun _ _ => State.findReply_ne_notAdmin
  | .claiminfo _, _, _, rfl => .anyPort _ (by decide) (fun _ => rfl) fun _ _ => State.claiminfoReply_ne_notAdmin
  | .beginChangeset _, _, _, rfl =>
    .anyPort _ (by decide) (fun _ => rfl) fun _ _ => State.bareCommand_ne_notAdmin State.begin_ne_notAdmin
  | .set _, _, _, rfl => .anyPort _ (by decide) (fun _ => rfl) fun _ _ =>
    State.byDepth_ne_notAdmin State.directSet_ne_notAdmin (fun _ _ => State.stageSet_ne_notAdmin) _
  | .create _, _, _, rfl => .anyPort _ (by decide) (fun _ => rfl) fun _ _ =>
    State.byDepth_ne_notAdmin State.directCreate_ne_notAdmin (fun _ _ => State.stageCreate_ne_notAdmin) _
  | .retire _, _, _, rfl => .anyPort _ (by decide) (fun _ => rfl) fun _ _ =>
    State.byDepth_ne_notAdmin State.directRetire_ne_notAdmin (fun _ _ => State.stageRetire_ne_notAdmin) _
  | .default _, _, _, rfl => .anyPort _ (by decide) (fun _ => rfl) fun _ _ =>
    State.byDepth_ne_notAdmin State.directDefault_ne_notAdmin (fun _ _ => State.stageDefault_ne_notAdmin) _
  | .revert _, _, _, rfl => .anyPort _ (by decide) (fun _ => rfl) fun _ _ =>
    State.byDepth_ne_notAdmin State.directRevert_ne_notAdmin (fun _ _ => State.stageRevert_ne_notAdmin) _
  | .commit _, _, _, rfl => .anyPort _ (by decide) (fun _ => rfl) fun _ _ => State.commit_ne_notAdmin
  | .abandon _, _, _, rfl =>
    .anyPort _ (by decide) (fun _ => rfl) fun _ _ => State.bareCommand_ne_notAdmin State.abandon_ne_notAdmin
  | .claim _, _, _, rfl => .anyPort _ (by decide) (fun _ => rfl) fun _ _ => State.claim_ne_notAdmin
  | .release _, _, _, rfl => .anyPort _ (by decide) (fun _ => rfl) fun _ _ => State.release_ne_notAdmin
  | .watch _, _, _, rfl =>
    .anyPort _ (by decide) (fun _ => rfl) fun _ _ => State.watchCommand_ne_notAdmin fun _ _ => nofun
  | .unwatch _, _, _, rfl =>
    .anyPort _ (by decide) (fun _ => rfl) fun _ _ => State.watchCommand_ne_notAdmin fun _ _ => nofun
  | .watchclass _, _, _, rfl => .anyPort _ (by decide) (fun _ => rfl) fun _ _ => State.watchClass_ne_notAdmin
  | .unwatchclass _, _, _, rfl => .anyPort _ (by decide) (fun _ => rfl) fun _ _ => State.watchClass_ne_notAdmin
  | .nextnotice _, _, _, rfl =>
    .anyPort _ (by decide) (fun _ => rfl) fun _ _ => State.bareCommand_ne_notAdmin State.nextNotice_ne_notAdmin
  | .sync _, _, _, rfl => .anyPort _ (by decide) (fun _ => rfl) fun _ _ => State.sync_ne_notAdmin
  | .windowinfo _, _, _, rfl => .anyPort _ (by decide) (fun _ => rfl) fun _ _ => State.windowinfoReply_ne_notAdmin
  | .pause _, _, _, rfl => .adminOnly _ (by decide) (fun _ => rfl) fun _ _ => State.pauseEngine_ne_notAdmin
  | .resume _, _, _, rfl =>
    .adminOnly _ (by decide) (fun _ => rfl) fun _ _ => State.bareCommand_ne_notAdmin State.resumeEngine_ne_notAdmin
  | .clearfault _, _, _, rfl =>
    .adminOnly _ (by decide) (fun _ => rfl) fun _ _ => State.bareCommand_ne_notAdmin State.clearFault_ne_notAdmin
  | .setquota _, _, _, rfl => .adminOnly _ (by decide) (fun _ => rfl) fun _ _ => State.setQuota_ne_notAdmin
  | .setrole _, _, _, rfl => .adminOnly _ (by decide) (fun _ => rfl) fun _ _ => State.setRole_ne_notAdmin
  | .window _, _, _, rfl => .adminOnly _ (by decide) (fun _ => rfl) fun _ _ => State.defineWindow_ne_notAdmin
  | .unwindow _, _, _, rfl => .adminOnly _ (by decide) (fun _ => rfl) fun _ _ => State.removeWindow_ne_notAdmin
  | .freeze _, _, _, rfl => .adminOnly _ (by decide) (fun _ => rfl) fun _ _ => State.freezeWindow_ne_notAdmin
  | .restart _ cut, _, _, rfl => .restart cut rfl rfl

section
variable {s t : State} {p : Port} {code tag : Byte} {params : List Byte}

/-- The answer that a port holds after its command was taken is the one that `act` gives. -/
theorem State.serve_command_ne_notAdmin {act : List Byte → State × Reply} (h : s.isWorkingOn p tag code params)
    (ha : (act params).2.result ≠ .notAdmin) (data : List Byte) :
    ((s.serve p code act).port p).command ≠ .answered tag ⟨.notAdmin, data⟩ false := by
  rw [State.serve_of_working h, State.answers_port]
  intro he
  simp only [CommandState.answered.injEq, Reply.mk.injEq] at he
  exact ha he.2.1.1

theorem exec_restart_of_not_admin (h : s.isWorkingOn p tag 0x6F#8 params) (hrole : s.rights.roles.get p ≠ .admin)
    (cut : NvResult) : exec (.restart p cut) s = .next (s.answers p tag .notAdmin []) := by
  unfold State.isWorkingOn at h
  show execRestart p cut s = _
  simp only [execRestart, h, ne_eq, not_true_eq_false, if_false, if_pos hrole]
  rfl

/-- A RESTART from an ADMIN port is refused with BAD_PARAM, or clears the port (R165, R166). -/
theorem exec_restart_of_admin (h : s.isWorkingOn p tag 0x6F#8 params) (hrole : s.rights.roles.get p = .admin)
    (cut : NvResult) : exec (.restart p cut) s =
      .next (if params ≠ [] then s.answers p tag .badParam [] else s.beginStartup .command .scanning cut) := by
  unfold State.isWorkingOn at h
  show execRestart p cut s = _
  simp only [execRestart, h, ne_eq, not_true_eq_false, if_false, hrole]
  split <;> rfl

/-- A start-up leaves no answer at a port (R166). -/
theorem State.beginStartup_command (cause : Cause) (entered : StartupState) (cut : NvResult) :
    ((s.beginStartup cause entered cut).port p).command = .idle := by
  rw [State.beginStartup_eq, State.port, State.begun, PortMap.get_build]
  rfl

end

/-- Settles O49: the NOT_ADMIN check stands before all the others of an admin-only command, and is the only one that
answers NOT_ADMIN. -/
theorem adminOnlyRefused : Obligations.AdminOnlyRefused := by
  unfold Obligations.AdminOnlyRefused
  intro s c p code tag params htaken h
  cases commandTaken_of_takenFrom htaken with
  | adminOnly act hcode hexec hact =>
    refine ⟨fun _ hrole => ?_, fun t data hallowed ht => ?_⟩
    · rw [hexec, State.serve_eq_answers h (State.adminOnly_of_not_admin hrole _)]
    · have hadmin := hallowed.resolve_left (not_not.mpr hcode)
      obtain rfl := Host.Outcome.next.inj ((hexec s).symm.trans ht)
      refine State.serve_command_ne_notAdmin h ?_ data
      rw [State.adminOnly_of_admin hadmin]
      exact hact s params
  | restart cut hc hcode =>
    subst hc hcode
    refine ⟨fun _ hrole => exec_restart_of_not_admin h hrole cut, fun t data hallowed ht => ?_⟩
    have hadmin := hallowed.resolve_left (not_not.mpr (by decide))
    obtain rfl := Host.Outcome.next.inj ((exec_restart_of_admin h hadmin cut).symm.trans ht)
    split
    · rw [State.answers_port]
      exact nofun
    · rw [State.beginStartup_command]
      exact nofun
  | anyPort act hcode hexec hact =>
    refine ⟨fun hin => absurd hin hcode, fun t data _ ht => ?_⟩
    obtain rfl := Host.Outcome.next.inj ((hexec s).symm.trans ht)
    exact State.serve_command_ne_notAdmin h (hact s params) data

end Sys2Proof.Machine
end

section
/-! PROOFS. The Notice Unit (chapter 7): what a posting does to a queue, whose watch set a port joins or leaves, and which
notice leaves a queue. -/

namespace Sys2Proof.Machine

/-! ## The notices that coalesce (R126) -/

/-- Only a CHANGED or a RETIRED looks for a queued CHANGED, and for the one of its own key (R126). -/
theorem Notice.coalescesFor_eq_some_iff (n : Notice) (k : Nat) :
    n.coalescesFor = some k ↔ n = .retired k ∨ ∃ g : Nat, n = .changed k g := by
  cases n <;> simp [Notice.coalescesFor, eq_comm]

theorem Notice.isChangedFor_eq_false_iff (m : Notice) (k : Nat) :
    m.isChangedFor k = false ↔ ∀ g : Nat, m ≠ .changed k g := by
  cases m <;> simp [Notice.isChangedFor]

theorem Notice.isChangedFor_changed (k g : Nat) : (Notice.changed k g).isChangedFor k = true := by
  simp [Notice.isChangedFor]

/-! ## A posting to a NORMAL queue (R126 to R129) -/

/-- A notice that coalesces takes the place of the one queued CHANGED for its key (R127, R128). -/
theorem NoticeQueue.post_of_queued_changed {n : Notice} {a b : List Notice} {k : Nat} (g : Nat)
    (hn : n.coalescesFor = some k) (hother : ∀ m ∈ a ++ b, ∀ g' : Nat, m ≠ .changed k g') :
    NoticeQueue.post (.normal (a ++ .changed k g :: b)) n = .normal (a ++ n :: b) := by
  have hqueued : (a ++ .changed k g :: b).any (Notice.isChangedFor k) = true :=
    List.any_eq_true.mpr ⟨_, by simp, Notice.isChangedFor_changed k g⟩
  have hstay : ∀ m ∈ a ++ b, (if m.isChangedFor k then n else m) = m := fun m hm => by
    rw [(m.isChangedFor_eq_false_iff k).mpr (hother m hm), if_neg Bool.false_ne_true]
  simp only [NoticeQueue.post, hn, if_pos hqueued]
  rw [map_of_split_of_fixed _ hstay, if_pos (Notice.isChangedFor_changed k g)]

/-- A notice that finds no CHANGED to coalesce with needs a place of its own (R126). -/
theorem NoticeQueue.post_of_no_queued_changed {n : Notice} {l : List Notice}
    (h : ∀ k : Nat, n.coalescesFor = some k → ∀ m ∈ l, ∀ g : Nat, m ≠ .changed k g) :
    NoticeQueue.post (.normal l) n = appendNotice l n := by
  cases hn : n.coalescesFor with
  | none => simp only [NoticeQueue.post, hn]
  | some k =>
    have hnone : l.any (Notice.isChangedFor k) = false :=
      List.any_eq_false.mpr fun m hm => by rw [(m.isChangedFor_eq_false_iff k).mpr (h k hn m hm)]; exact nofun
    simp only [NoticeQueue.post, hn, hnone, Bool.false_eq_true, if_false]

/-- There is a place for a notice behind fewer than 16 others (R126). -/
theorem appendNotice_of_room {l : List Notice} (n : Notice) (h : l.length < 16) :
    appendNotice l n = .normal (l ++ [n]) := if_pos h

/-- A queue of 16 notices overflows (R129). -/
theorem appendNotice_of_full {l : List Notice} (n : Notice) (h : l.length = 16) : appendNotice l n = .resync :=
  if_neg (Nat.not_lt.mpr (Nat.le_of_eq h.symm))

/-- Settles O36: a RESYNC queue takes nothing, and in a NORMAL one it decides whether a CHANGED to coalesce with is
queued, and then whether there is room. -/
theorem postedNoticeJoinsQueue : Obligations.PostedNoticeJoinsQueue := by
  unfold Obligations.PostedNoticeJoinsQueue
  refine ⟨NoticeQueue.post_resync, fun a b k g hother => ?coalesces, fun l n hno => ?place⟩
  case coalesces =>
    exact ⟨fun _ => NoticeQueue.post_of_queued_changed g rfl hother,
      NoticeQueue.post_of_queued_changed g rfl hother⟩
  case place =>
    have hplace := NoticeQueue.post_of_no_queued_changed fun k hk => hno k ((n.coalescesFor_eq_some_iff k).mp hk)
    exact ⟨fun hroom => hplace.trans (appendNotice_of_room n hroom),
      fun hfull => hplace.trans (appendNotice_of_full n hfull)⟩

/-! ## WATCH and UNWATCH (R119, R120) -/

/-- What WATCH, by its code, and UNWATCH do with the record found: the port is in its watch set or out of it, and WATCH
answers the generation. -/
def State.joinOrLeave (s : State) (p : Port) (code : Byte) (i : SlotId) (r : Record) : State × Reply :=
  ({ s with slots := s.slots.set i.val (.live { r with watchers := r.watchers.set p (code == 0x40#8) }) },
    ⟨.ok, if code = 0x40#8 then enc16 r.generation else []⟩)

/-- A WATCH or an UNWATCH has the effect and the answer that stand behind the checks that the two share. -/
theorem exec_watch_or_unwatch_of_working {s t : State} {p : Port} {tag code : Byte} {c : Instr}
    {params data : List Byte} {r : Result}
    (hc : (c, code) ∈ [(Instr.watch p, 0x40#8), (Instr.unwatch p, 0x41#8)]) (h : s.isWorkingOn p tag code params)
    (ht : s.watchCommand p params (s.joinOrLeave p code) = (t, ⟨r, data⟩)) :
    exec c s = .next (t.answers p tag r data) := by
  simp only [List.mem_cons, Prod.mk.injEq, List.not_mem_nil, or_false] at hc
  rcases hc with ⟨rfl, rfl⟩ | ⟨rfl, rfl⟩
  · exact congrArg Host.Outcome.next (State.serve_eq_answers h ht)
  · exact congrArg Host.Outcome.next (State.serve_eq_answers h ht)

section
variable {s : State} {p : Port} {params : List Byte} {k : Nat} {act : SlotId → Record → State × Reply}

theorem State.watchCommand_of_unread (h : readKeyAlone params = none) :
    s.watchCommand p params act = (s, ⟨.badParam, []⟩) := by
  simp only [State.watchCommand, h]
  rfl

theorem State.watchCommand_of_denied (h : readKeyAlone params = some k) (hr : s.rights.allows p k .read = false) :
    s.watchCommand p params act = (s, ⟨.denied, []⟩) := by
  simp only [State.watchCommand, h, hr, if_true]
  rfl

theorem State.watchCommand_of_absent (h : readKeyAlone params = some k) (hr : s.rights.allows p k .read = true)
    (hl : s.liveRecord k = none) : s.watchCommand p params act = (s, ⟨.notFound, []⟩) := by
  simp only [State.watchCommand, h, hr, hl]
  rfl

theorem State.watchCommand_of_live {i : SlotId} {r : Record} (h : readKeyAlone params = some k)
    (hr : s.rights.allows p k .read = true) (hl : s.liveRecord k = some (i, r)) :
    s.watchCommand p params act = act i r := by
  simp only [State.watchCommand, h, hr, hl, Bool.true_eq_false, if_false]

end

/-! ## WATCHCLASS and UNWATCHCLASS (R121) -/

/-- A WATCHCLASS, by its code, or an UNWATCHCLASS has the effect and the answer of `State.watchClass`. -/
theorem exec_watchclass_or_unwatchclass_of_working {s t : State} {p : Port} {tag code : Byte} {c : Instr}
    {params data : List Byte} {r : Result}
    (hc : (c, code) ∈ [(Instr.watchclass p, 0x42#8), (Instr.unwatchclass p, 0x43#8)])
    (h : s.isWorkingOn p tag code params) (ht : s.watchClass p (code == 0x42#8) params = (t, ⟨r, data⟩)) :
    exec c s = .next (t.answers p tag r data) := by
  simp only [List.mem_cons, Prod.mk.injEq, List.not_mem_nil, or_false] at hc
  rcases hc with ⟨rfl, rfl⟩ | ⟨rfl, rfl⟩
  · exact congrArg Host.Outcome.next (State.serve_eq_answers h ht)
  · exact congrArg Host.Outcome.next (State.serve_eq_answers h ht)

/-- A class number of 16 or more is refused (R121). -/
theorem readClassAlone_eq_none {b : Byte} (h : 16 ≤ b.toNat) : readClassAlone [b] = none :=
  dif_neg (Nat.not_lt.mpr h)

theorem readClassAlone_of_val {b : Byte} {i : ClassId} (h : i.val = b.toNat) : readClassAlone [b] = some i := by
  obtain rfl : b = BitVec.ofNat 8 i.val := by simp [h]
  exact readClass_enc8 i

section
variable {s : State} {p : Port} {member : Bool} {params : List Byte}

theorem State.watchClass_of_unread (h : readClassAlone params = none) :
    s.watchClass p member params = (s, ⟨.badParam, []⟩) := by
  simp only [State.watchClass, h]
  rfl

theorem State.watchClass_of_read {i : ClassId} (h : readClassAlone params = some i) :
    s.watchClass p member params =
      ({ s with classes := s.classes.set i.val { s.classDesc i with
          watchers := (s.classDesc i).watchers.set p member } }, ⟨.ok, []⟩) := by
  simp only [State.watchClass, h]
  rfl

end

/-- Settles O34: the key, the READ right and the look-up are checked in this order for the watch set of a record, and the
class number alone for that of a class. -/
theorem watchCommands : Obligations.WatchCommands := by
  unfold Obligations.WatchCommands
  intro s p tag
  refine ⟨fun k hk c code hc h => ?record, fun b c code hc h => ?cls⟩
  case record =>
    have hexec := fun {t r data} (ht : s.watchCommand p (enc16 k) (s.joinOrLeave p code) = (t, ⟨r, data⟩)) =>
      exec_watch_or_unwatch_of_working hc h ht
    refine ⟨fun hbad => hexec (State.watchCommand_of_unread (readKeyAlone_params_eq_none hk hbad)),
      fun hvalid => ?_⟩
    have hread := readKeyAlone_params hvalid
    exact ⟨fun hr => hexec (State.watchCommand_of_denied hread hr),
      fun hr => ⟨fun hl => hexec (State.watchCommand_of_absent hread hr hl),
        fun _ _ hl => hexec (State.watchCommand_of_live hread hr hl)⟩⟩
  case cls =>
    exact ⟨fun hbad => exec_watchclass_or_unwatchclass_of_working hc h
        (State.watchClass_of_unread (readClassAlone_eq_none hbad)),
      fun _ hi => exec_watchclass_or_unwatchclass_of_working hc h
        (State.watchClass_of_read (readClassAlone_of_val hi))⟩

/-! ## NEXTNOTICE (R130, R196) -/

/-- A NEXTNOTICE without parameters has the effect and the answer of `State.nextNotice`. -/
theorem exec_nextnotice_of_working {s t : State} {p : Port} {tag : Byte} {data : List Byte} {r : Result}
    (h : s.isWorkingOn p tag 0x44#8 []) (ht : s.nextNotice p = (t, ⟨r, data⟩)) :
    exec (.nextnotice p) s = .next (t.answers p tag r data) :=
  congrArg Host.Outcome.next (State.serve_eq_answers h ((State.bareCommand_of_none rfl s _).trans ht))

section
variable {s : State} {p : Port}

theorem State.nextNotice_of_empty (h : s.notices.get p = .normal []) : s.nextNotice p = (s, ⟨.empty, []⟩) := by
  simp only [State.nextNotice, h]
  rfl

/-- The RESYNC notice is taken from a RESYNC queue, which becomes NORMAL and empty (R130). -/
theorem State.nextNotice_of_resync (h : s.notices.get p = .resync) :
    s.nextNotice p = ({ s with notices := s.notices.set p (.normal []) }, ⟨.ok, Notice.resync.encode⟩) := by
  simp only [State.nextNotice, h]
  rfl

/-- The oldest notice is taken from a queue with notices (R130). -/
theorem State.nextNotice_of_notices {n : Notice} {rest : List Notice} (h : s.notices.get p = .normal (n :: rest)) :
    s.nextNotice p = ({ s with notices := s.notices.set p (.normal rest) }, ⟨.ok, n.encode⟩) := by
  simp only [State.nextNotice, h]
  rfl

end

/-- Settles O35: the queue is empty, RESYNC, or has an oldest notice, whose kind gives its 8 bytes. -/
theorem nextnoticeRemovesOldest : Obligations.NextnoticeRemovesOldest := by
  unfold Obligations.NextnoticeRemovesOldest
  intro s p tag h
  refine ⟨fun hq => exec_nextnotice_of_working h (State.nextNotice_of_empty hq),
    fun hq => exec_nextnotice_of_working h (State.nextNotice_of_resync hq), fun n rest hq => ?_⟩
  refine (exec_nextnotice_of_working h (State.nextNotice_of_notices hq)).trans ?_
  cases n with
  | pauseEnded reason => cases reason <;> rfl
  | engineFault kind slot => cases kind <;> rfl
  | _ => rfl

end Sys2Proof.Machine
end

section
/-! PROOFS. The Persist Engine (chapter 8): what SYNC, PAUSE and CLEARFAULT answer and do, how a VERIFY completes a job,
retries it or faults the engine, and what a fault leaves. -/

namespace Sys2Proof.Machine

/-! ## Commands taken by the Persist Engine -/

/-- A SYNC has the effect and the answer of `State.sync`. -/
theorem exec_sync_of_working {s t : State} {p : Port} {tag : Byte} {params data : List Byte} {r : Result}
    (h : s.isWorkingOn p tag 0x50#8 params) (ht : s.sync p params = (t, ⟨r, data⟩)) :
    exec (.sync p) s = .next (t.answers p tag r data) :=
  congrArg Host.Outcome.next (State.serve_eq_answers h ht)

/-- A PAUSE has the effect and the answer that stand behind its NOT_ADMIN check (R103). -/
theorem exec_pause_of_working {s t : State} {p : Port} {tag : Byte} {params data : List Byte} {r : Result}
    (h : s.isWorkingOn p tag 0x51#8 params) (ht : s.adminOnly p (s.pauseEngine p params) = (t, ⟨r, data⟩)) :
    exec (.pause p) s = .next (t.answers p tag r data) :=
  congrArg Host.Outcome.next (State.serve_eq_answers h ht)

/-- A CLEARFAULT without parameters has the effect and the answer that stand behind its NOT_ADMIN check (R103). -/
theorem exec_clearfault_of_working {s t : State} {p : Port} {tag : Byte} {data : List Byte} {r : Result}
    (h : s.isWorkingOn p tag 0x53#8 []) (ht : s.adminOnly p s.clearFault = (t, ⟨r, data⟩)) :
    exec (.clearfault p) s = .next (t.answers p tag r data) :=
  congrArg Host.Outcome.next
    (State.serve_eq_answers h ((congrArg (s.adminOnly p) (State.bareCommand_of_none rfl s _)).trans ht))

/-! ## Engine states (R143) -/

/-- An engine with a fault record is FAULTED, and no other is. -/
theorem Engine.isFaulted_eq_false_iff (e : Engine) : e.isFaulted = false ↔ ∀ j : SlotJob, e ≠ .faulted j := by
  cases e <;> simp [Engine.isFaulted, Engine.faultRecord]

/-- No pause is held in FAULTED. -/
theorem Engine.isFaulted_eq_false_of_pause {e : Engine} {pz : Pause} (h : e.pause = some pz) : e.isFaulted = false :=
  e.isFaulted_eq_false_iff.mpr fun _ he => by rw [he] at h; exact nomatch h

/-! ## SYNC (R160) -/

theorem readSync_enc32 {n : Nat} (h : n ≤ 4294967295) : readSync (enc32 n) = some n :=
  congrArg some (u32_enc32 h)

section
variable {s : State} {p : Port} {params : List Byte} {n : Nat}

/-- Apply number 0, and one that no apply has had yet, are refused. -/
theorem State.sync_of_out_of_range (h : readSync params = some n) (hn : n = 0 ∨ s.applyNumber < n) :
    s.sync p params = (s, ⟨.badParam, []⟩) := by
  simp only [State.sync, h, if_pos hn]
  rfl

theorem State.sync_of_faulted (h : readSync params = some n) (hn : ¬ (n = 0 ∨ s.applyNumber < n))
    (hf : s.persist.engine.isFaulted = true) : s.sync p params = (s, ⟨.persistFault, []⟩) := by
  simp only [State.sync, h, if_neg hn, if_pos hf]
  rfl

/-- The mark has reached the number, and no request is recorded. -/
theorem State.sync_of_reached (h : readSync params = some n) (hn : ¬ (n = 0 ∨ s.applyNumber < n))
    (hf : s.persist.engine.isFaulted = false) (hm : n ≤ s.persist.mark) :
    s.sync p params = (s, ⟨.ok, enc32 s.persist.mark⟩) := by
  simp only [State.sync, h, if_neg hn, hf, Bool.false_eq_true, if_false, if_pos hm]
  rfl

/-- The mark is below the number, which becomes the port's request. -/
theorem State.sync_of_ahead (h : readSync params = some n) (hn : ¬ (n = 0 ∨ s.applyNumber < n))
    (hf : s.persist.engine.isFaulted = false) (hm : s.persist.mark < n) :
    s.sync p params =
      ({ s with persist := { s.persist with requests := s.persist.requests.set p (some n) } },
        ⟨.waiting, enc32 s.persist.mark⟩) := by
  simp only [State.sync, h, if_neg hn, hf, Bool.false_eq_true, if_false, if_neg (Nat.not_le.mpr hm)]

end

/-- Settles O37: the number, the engine and then the mark decide. -/
theorem syncAnswered : Obligations.SyncAnswered := by
  unfold Obligations.SyncAnswered
  intro s p tag n hn h
  have hread := readSync_enc32 hn
  refine ⟨fun hbad => exec_sync_of_working h (State.sync_of_out_of_range hread hbad), fun hlow hhigh => ?_⟩
  have hrange : ¬ (n = 0 ∨ s.applyNumber < n) := by omega
  exact ⟨fun hf => exec_sync_of_working h (State.sync_of_faulted hread hrange hf),
    fun hf => ⟨fun hm => exec_sync_of_working h (State.sync_of_reached hread hrange hf hm),
      fun hm => exec_sync_of_working h (State.sync_of_ahead hread hrange hf hm)⟩⟩

/-! ## PAUSE (R153) -/

/-- A limit of 1 to 10000 ticks is read, and no other. -/
theorem readPause_enc16 {limit : Nat} (h : limit ≤ 65535) :
    readPause (enc16 limit) = if 1 ≤ limit ∧ limit ≤ 10000 then some limit else none := by
  simp only [enc16_eq, readPause, u16_enc16 h, Config.maxPause]

section
variable {s : State} {p : Port} {params : List Byte} {limit : Nat}

theorem State.pauseEngine_of_unread (h : readPause params = none) :
    s.pauseEngine p params = (s, ⟨.badParam, []⟩) := by
  simp only [State.pauseEngine, h]
  rfl

theorem State.pauseEngine_of_faulted (h : readPause params = some limit) {j : SlotJob}
    (he : s.persist.engine = .faulted j) : s.pauseEngine p params = (s, ⟨.persistFault, []⟩) := by
  simp only [State.pauseEngine, h, he]
  rfl

theorem State.pauseEngine_of_held_by_other (h : readPause params = some limit) {pz : Pause}
    (he : s.persist.engine.pause = some pz) (hp : pz.holder ≠ p) :
    s.pauseEngine p params = (s, ⟨.pauseHeld, []⟩) := by
  simp only [State.pauseEngine, h, Engine.isFaulted_eq_false_of_pause he, Bool.false_eq_true, if_false, he, if_neg hp]
  rfl

/-- The holder renews the pause: the limit alone changes. -/
theorem State.pauseEngine_of_holder (h : readPause params = some limit) {e : Engine} {pz : Pause}
    (he : s.persist.engine = e) (hpause : e.pause = some pz) :
    s.pauseEngine pz.holder params = (s.setEngine (e.setLimit limit), ⟨.ok, [e.code]⟩) := by
  subst he
  simp only [State.pauseEngine, h, Engine.isFaulted_eq_false_of_pause hpause, Bool.false_eq_true, if_false, hpause,
    if_true]
  rfl

/-- A new pause, of an engine with no fault and no pause. -/
theorem State.pauseEngine_of_unpaused (h : readPause params = some limit) {e : Engine}
    (he : s.persist.engine = e) (hf : e.isFaulted = false) (hpause : e.pause = none) :
    s.pauseEngine p params =
      (s.setEngine (e.beginPause ⟨p, limit⟩), ⟨.ok, [(e.beginPause ⟨p, limit⟩).code]⟩) := by
  subst he
  simp only [State.pauseEngine, h, hf, Bool.false_eq_true, if_false, hpause]
  rfl

end

/-- Settles O38: NOT_ADMIN before every other check (R103), then the limit, and then the engine's state decides. -/
theorem pauseActs : Obligations.PauseActs := by
  unfold Obligations.PauseActs
  intro s p tag limit hlimit h
  refine ⟨fun hrole => exec_pause_of_working h (State.adminOnly_of_not_admin hrole _), fun hadmin => ?_⟩
  intro goes
  have hread := readPause_enc16 hlimit
  have hexec := fun {t r data} (ht : s.pauseEngine p (enc16 limit) = (t, ⟨r, data⟩)) =>
    exec_pause_of_working h ((State.adminOnly_of_admin hadmin _).trans ht)
  refine ⟨fun hbad => ?badLimit, fun hlow hhigh => ?_⟩
  case badLimit =>
    rw [if_neg (by omega)] at hread
    exact hexec (State.pauseEngine_of_unread hread)
  rw [if_pos ⟨hlow, hhigh⟩] at hread
  refine ⟨fun j he => hexec (State.pauseEngine_of_faulted hread he),
    fun pz he hp => hexec (State.pauseEngine_of_held_by_other hread he hp),
    fun f pz he hp => ?pausing, fun w pz he hp => ?paused,
    fun he => hexec (State.pauseEngine_of_unpaused hread he rfl rfl),
    fun f he => hexec (State.pauseEngine_of_unpaused hread he rfl rfl)⟩
  case pausing =>
    subst hp
    exact hexec (State.pauseEngine_of_holder hread he rfl)
  case paused =>
    subst hp
    exact hexec (State.pauseEngine_of_holder hread he rfl)

/-! ## The completions (R149, R150) -/

/-- A change of one slot has no part in the end of the job in flight, and the end of a job has none in the slots. -/
theorem State.endJob_setSlot {s : State} {f : Flight} (h : s.persist.engine.running = some f) (i : SlotId) (x : Slot)
    (marks : Bool) : (s.setSlot i x).endJob marks = { s.jobEnded marks with slots := s.slots.set i.val x } :=
  State.endJob_eq_jobEnded (s := s.setSlot i x) h marks

/-- The VERIFY of a WRITE finds the cell that its attempt programmed (R145). -/
theorem exec_writeCompletion_of_match {s : State} {w : WriteJob} {attempt : Nat} {c : CellName} {seq : Nat}
    (h : s.persist.engine.running = some ⟨.slot (.write w), attempt, .verify c seq⟩)
    (hv : (s.nv.pair w.slot).get c = .written false (w.copy seq)) :
    exec .writeCompletion s =
      .next ((s.setSlot w.slot ((s.slot w.slot).completeWrite w.value)).endJob true) := by
  have houtcome : verifyOutcome s.nv ⟨.slot (.write w), attempt, .verify c seq⟩ = some true := by
    simp [verifyOutcome, hv]
  show execWriteCompletion s = _
  simp only [execWriteCompletion, h, houtcome]

/-- The VERIFY-ERASED of an ERASE finds both cells of the pair erased (R146). -/
theorem exec_eraseCompletion_of_match {s : State} {e : EraseJob} {attempt : Nat}
    (h : s.persist.engine.running = some ⟨.slot (.erase e), attempt, .verifyErased⟩)
    (hv : s.nv.pair e.slot = ⟨.erased, .erased⟩) :
    exec .eraseCompletion s =
      .next ((s.setSlot e.slot (s.slot e.slot).completeErase).endJob e.applies.isSome) := by
  have houtcome : verifyOutcome s.nv ⟨.slot (.erase e), attempt, .verifyErased⟩ = some true := by
    simp [verifyOutcome, hv]
  show execEraseCompletion s = _
  simp only [execEraseCompletion, h, houtcome]

/-- Settles O43: the VERIFY matches, the slot takes the job's result, and the job in flight ends. -/
theorem jobCompletes : Obligations.JobCompletes := by
  unfold Obligations.JobCompletes
  intro s attempt
  refine ⟨fun w c seq h hv => ?write, fun e h hv => ?erase⟩
  case write =>
    rw [exec_writeCompletion_of_match h hv, State.endJob_setSlot h]
    rfl
  case erase =>
    rw [exec_eraseCompletion_of_match h hv, State.endJob_setSlot h]
    rfl

/-! ## CLEARFAULT (R158) -/

/-- The engine goes on as after the end of any job: the record's place is released, the mark is recomputed and the next
job is taken. -/
theorem State.clearFault_of_faulted {s : State} {j : SlotJob} (h : s.persist.engine = .faulted j) :
    s.clearFault = (((s.giveUp j).setEngine .idle).endJob true, ⟨.ok, j.clearfaultData⟩) := by
  simp only [State.clearFault, h]
  rfl

theorem State.clearFault_of_not_faulted {s : State} (h : s.persist.engine.isFaulted = false) :
    s.clearFault = (s, ⟨.notFaulted, []⟩) := by
  unfold State.clearFault
  split
  · next j he => exact absurd he ((Engine.isFaulted_eq_false_iff _).mp h j)
  · rfl

/-- With the engine IDLE the queue, to which the backlog has added, holds all the jobs there are. -/
theorem State.endJob_of_idle {s : State} (h : s.persist.engine = .idle) : s.endJob true = s.jobEnded true := by
  have hjobs : Persist.jobs { s.persist with queue := s.queueAfterJob, engine := .idle } = s.queueAfterJob := by
    simp [Persist.jobs, Engine.job, Engine.faultRecord]
  unfold State.queueAfterJob at hjobs
  unfold State.endJob State.jobEnded State.goOn Persist.takeHead State.queueAfterJob
  simp only [State.fillPlace_eq, State.remark_eq, h, Engine.dropJob, if_true, true_and, hjobs]
  cases s.persist.queue ++ (s.startup.backlog.head?.map cleanupJob).toList <;> rfl

/-- The end of the job in the fault record, which is no longer there, is the end of a job as the claims put it. -/
theorem State.jobEnded_setEngine_idle {s : State} {j : SlotJob} (h : s.persist.engine = .faulted j) (marks : Bool) :
    (s.setEngine .idle).jobEnded marks = s.jobEnded marks := by
  have hqueue : (s.setEngine .idle).queueAfterJob = s.queueAfterJob := rfl
  unfold State.jobEnded
  rw [hqueue, h]
  cases s.queueAfterJob <;> rfl

/-- What CLEARFAULT leaves where the given-up job changes one slot. -/
theorem State.endJob_of_given_up {s : State} {j : SlotJob} (h : s.persist.engine = .faulted j) (i : SlotId) (x : Slot) :
    ((s.setSlot i x).setEngine .idle).endJob true = { s.jobEnded true with slots := s.slots.set i.val x } := by
  rw [State.endJob_of_idle rfl, State.jobEnded_setEngine_idle (s := s.setSlot i x) h]
  rfl

theorem State.clearFault_of_write {s : State} {w : WriteJob} (h : s.persist.engine = .faulted (.write w)) :
    s.clearFault = ({ s.jobEnded true with slots := s.slots.set w.slot.val (s.slot w.slot).giveUpWrite },
      ⟨.ok, (SlotJob.write w).clearfaultData⟩) := by
  rw [State.clearFault_of_faulted h, State.giveUp, State.endJob_of_given_up h]

theorem State.clearFault_of_erase {s : State} {e : EraseJob} (h : s.persist.engine = .faulted (.erase e)) :
    s.clearFault = ({ s.jobEnded true with slots := s.slots.set e.slot.val (s.slot e.slot).giveUpErase },
      ⟨.ok, (SlotJob.erase e).clearfaultData⟩) := by
  rw [State.clearFault_of_faulted h, State.giveUp, State.endJob_of_given_up h]

/-- Settles O40: NOT_ADMIN before every other check (R103), then the engine's state, and then the kind of the given-up
job decides what becomes of its slot. -/
theorem clearfaultGivesUp : Obligations.ClearfaultGivesUp := by
  unfold Obligations.ClearfaultGivesUp
  intro s p tag h
  have hexec := fun {t r data} (hadmin : s.rights.roles.get p = .admin) (ht : s.clearFault = (t, ⟨r, data⟩)) =>
    exec_clearfault_of_working h ((State.adminOnly_of_admin hadmin _).trans ht)
  exact ⟨fun hrole => exec_clearfault_of_working h (State.adminOnly_of_not_admin hrole _),
    fun hadmin hf => hexec hadmin (State.clearFault_of_not_faulted hf),
    fun hadmin _ => ⟨fun _ he => hexec hadmin (State.clearFault_of_write he),
      fun _ he => hexec hadmin (State.clearFault_of_erase he)⟩⟩

/-! ## An engine fault (R156) -/

/-- PAUSE_ENDED goes to the port that held the pause, if one did. -/
theorem State.faultPause_eq (s : State) (pz : Option Pause) :
    s.faultPause pz = { s with
      notices := .build fun q => (s.notices.get q).postIf (pz.map Pause.holder = some q) (.pauseEnded .fault) } := by
  cases pz with
  | none =>
    have hnone : ∀ q : Port, ¬ (Option.map Pause.holder none = some q) := fun _ => nofun
    rw [PortMap.build_postIf_of_not _ _ hnone]
    rfl
  | some pz =>
    simp only [State.faultPause, State.deliver_eq]
    congr 1
    refine PortMap.ext_get fun q => ?_
    rw [PortMap.get_set_postIf, PortMap.get_build]
    simp [Rights.admits_of_key_eq_none _ _ (n := .pauseEnded .fault) rfl]

/-- One port's durability request ends with NOT_DURABLE, where it has one. -/
theorem State.failRequest_eq (p : Port) (s : State) :
    s.failRequest p = { s with
      persist := { s.persist with requests := s.persist.requests.set p none }
      notices := s.notices.set p
        ((s.notices.get p).postIf (s.persist.requests.get p ≠ none) (.notDurable s.persist.mark)) } := by
  unfold State.failRequest
  cases hr : s.persist.requests.get p with
  | none =>
    have hset := s.persist.requests.set_get p
    rw [hr] at hset
    simp [hset]
  | some n =>
    simp [State.deliver_eq, Rights.admits_of_key_eq_none _ _ (n := .notDurable s.persist.mark) rfl]

/-- Every durability request ends with NOT_DURABLE. -/
theorem State.failRequests_eq (s : State) :
    eachPort State.failRequest s = { s with
      persist := { s.persist with requests := ⟨none, none, none⟩ }
      notices := .build fun q =>
        (s.notices.get q).postIf (s.persist.requests.get q ≠ none) (.notDurable s.persist.mark) } := by
  simp only [eachPort, State.failRequest_eq]
  rfl

/-- The engine faults: the holder of a pause, the ADMIN ports and then the ports with a request are told. -/
theorem State.engineFault_eq (s : State) (j : SlotJob) :
    s.engineFault j = { s with
      persist := { s.persist with engine := .faulted j, requests := ⟨none, none, none⟩ }
      notices := .build fun q =>
        (((s.notices.get q).postIf (s.persist.engine.pause.map Pause.holder = some q)
          (.pauseEnded .fault)).postIf (s.rights.roles.get q = .admin) (.engineFault j.kind j.slot)).postIf
          (s.persist.requests.get q ≠ none) (.notDurable s.persist.mark) } := by
  simp only [State.engineFault, State.failRequests_eq, State.deliverAdmins_eq, State.faultPause_eq,
    Rights.admits_of_key_eq_none _ _ (n := .engineFault j.kind j.slot) rfl, and_true, PortMap.get_build]

/-! ## A failed attempt (R151) -/

/-- The VERIFY of a WRITE finds another cell than its attempt programmed (R145; log entry 25). -/
theorem verifyOutcome_of_write_mismatch {nv : NvArray} {f : Flight} {w : WriteJob} {c : CellName} {seq : Nat}
    (hj : f.job = .slot (.write w)) (hp : f.phase = .verify c seq)
    (hv : (nv.pair w.slot).get c ≠ .written false (w.copy seq)) : verifyOutcome nv f = some false := by
  simp [verifyOutcome, hj, hp, hv]

/-- The VERIFY-ERASED of an ERASE finds a cell of the pair that is not erased (R146). -/
theorem verifyOutcome_of_erase_mismatch {nv : NvArray} {f : Flight} {e : EraseJob} (hj : f.job = .slot (.erase e))
    (hp : f.phase = .verifyErased) (hv : nv.pair e.slot ≠ ⟨.erased, .erased⟩) : verifyOutcome nv f = some false := by
  have hcells : (nv.pair e.slot).a = .erased → (nv.pair e.slot).b ≠ .erased :=
    fun ha hb => hv (congrArg₂ CellPair.mk ha hb)
  simpa [verifyOutcome, hj, hp] using hcells

section
variable {s : State} {f : Flight} {j : SlotJob}

/-- A failed attempt before the third leads to another (R151). -/
theorem exec_verifyMismatch_of_attempts_left {e : Engine} (he : s.persist.engine = e) (h : e.running = some f)
    (hj : f.job = .slot j) (hv : verifyOutcome s.nv f = some false) (ha : f.attempt < 3) :
    exec .verifyMismatch s = .next (s.setEngine (e.retry s.nv)) := by
  subst he
  show execVerifyMismatch s = _
  simp only [execVerifyMismatch, h, hj, hv, if_pos ha]

/-- The third failed attempt faults the engine (R156). -/
theorem exec_verifyMismatch_of_last_attempt (h : s.persist.engine.running = some f) (hj : f.job = .slot j)
    (hv : verifyOutcome s.nv f = some false) (ha : f.attempt = 3) :
    exec .verifyMismatch s = .next (s.engineFault j) := by
  show execVerifyMismatch s = _
  simp only [execVerifyMismatch, h, hj, hv, ha, Nat.lt_irrefl, if_false]

end

/-- Settles O44: the VERIFY finds a mismatch, and the attempt's number decides between a retry, which waits where the
engine is PAUSING, and the fault. -/
theorem mismatchRetriesOrFaults : Obligations.MismatchRetriesOrFaults := by
  unfold Obligations.MismatchRetriesOrFaults
  intro s f j hj hmismatch
  have hv : verifyOutcome s.nv f = some false := by
    rcases hmismatch with ⟨w, c, seq, rfl, hp, hcell⟩ | ⟨e, rfl, hp, hpair⟩
    · exact verifyOutcome_of_write_mismatch hj hp hcell
    · exact verifyOutcome_of_erase_mismatch hj hp hpair
  refine ⟨fun ha => ?retry, fun ha h => ?fault⟩
  case retry =>
    have hleft : f.attempt < 3 := by omega
    rw [← hj]
    exact ⟨fun he => exec_verifyMismatch_of_attempts_left he rfl hj hv hleft,
      fun _ he => exec_verifyMismatch_of_attempts_left he rfl hj hv hleft⟩
  case fault =>
    rw [exec_verifyMismatch_of_last_attempt h hj hv ha, State.engineFault_eq]
    cases j with
    | write w => rfl
    | erase e => rfl

end Sys2Proof.Machine
end

section
/-! PROOFS. Frames on the wire (R180 to R186): what the bytes of a POLL and of a command frame leave on the line, which
bytes are read as a command frame, how a frame is judged at the rise of CSn, and that every byte of such a frame
carries the status byte. -/

namespace Sys2Proof.Machine

/-! ## The parts of a frame (R180) -/

section
variable {s : State} {p : Port} {l : Line} {code bytes : List Byte} {extra : Bool}

/-- The part before the rise of CSn, with `bytes` received on port `p` and each of them sent with the status byte. -/
def State.collected (s : State) (p : Port) (bytes : List Byte) : State :=
  s.setPort p { s.port p with
    line := some ⟨bytes, s.statusByte p, none, false⟩
    sdo := List.replicate bytes.length (s.statusByte p) }

@[simp] theorem State.port_collected (s : State) (p : Port) (bytes : List Byte) :
    (s.collected p bytes).port p = { s.port p with
      line := some ⟨bytes, s.statusByte p, none, false⟩
      sdo := List.replicate bytes.length (s.statusByte p) } := State.port_setPort_self _ _ _

@[simp] theorem State.setPort_collected (s : State) (p : Port) (bytes : List Byte) (x : PortState) :
    (s.collected p bytes).setPort p x = s.setPort p x := State.setPort_setPort _ _ _ _

@[simp] theorem State.startup_collected (s : State) (p : Port) (bytes : List Byte) :
    (s.collected p bytes).startup = s.startup := rfl

/-- After the fall of CSn the bytes of a frame that is no FETCH are collected. -/
theorem State.clockBytes_csFall (hf : bytes.head? ≠ some 0x05#8) :
    (s.csFall p).clockBytes p bytes = s.collected p bytes := by
  have hport : (s.csFall p).port p =
      { s.port p with line := some (.opened (s.statusByte p) false), sdo := [] } := State.port_setPort_self _ _ _
  have hstatus : (s.csFall p).statusByte p = s.statusByte p := State.statusByte_setPort _ _ _ _
  rw [State.clockBytes_status _ _ _ (.opened (s.statusByte p) false) (by rw [hport]) hstatus.symm rfl fun _ => hf,
    hport, hstatus]
  exact State.setPort_setPort _ _ _ _

/-- At the rise of CSn the frame is judged and the frame state becomes IDLE. -/
theorem State.csRise_of_line (hl : (s.port p).line = some l) :
    s.csRise p extra = s.setPort p { s.judgeFrame p l extra with line := none } := by
  simp only [State.csRise, hl]

/-- The first part of a frame that is no FETCH. -/
theorem State.frame_first (hv : s.vdd = true) (hl : (s.port p).line = none)
    (hf : (code ++ bytes).head? ≠ some 0x05#8) : s.frame p code (.first bytes) = s.collected p (code ++ bytes) := by
  simp only [State.frame, hv, hl, reduceCtorEq, if_false, State.clockBytes_csFall hf]

/-- A whole frame that is no FETCH is judged by the bytes received. -/
theorem State.frame_whole (hv : s.vdd = true) (hl : (s.port p).line = none)
    (hf : (code ++ bytes).head? ≠ some 0x05#8) :
    s.frame p code (.whole bytes extra) = s.setPort p { (s.collected p (code ++ bytes)).judgeFrame p
      ⟨code ++ bytes, s.statusByte p, none, false⟩ extra with line := none } := by
  simp only [State.frame, hv, hl, reduceCtorEq, if_false, State.clockBytes_csFall hf]
  rw [State.csRise_of_line (by rw [State.port_collected]), State.setPort_collected]

/-- A frame ended after other happenings is judged by the bytes received until then. -/
theorem State.frame_last_nil (hv : s.vdd = true) (hl : (s.port p).line = some l) (hk : l.kindIs code = true) :
    s.frame p code (.last [] extra) = s.setPort p { s.judgeFrame p l extra with line := none } := by
  simp only [State.frame, hv, hl, hk, reduceCtorEq, if_false, if_true]
  exact State.csRise_of_line hl

/-- A further byte of a frame that is no FETCH: the next outgoing byte is the status byte of this moment. -/
theorem State.frame_next_byte {b : Byte} (hv : s.vdd = true) (hl : (s.port p).line = some l)
    (hk : l.kindIs code = true) (hc : l.content = none) (hf : l.received = [] → b ≠ 0x05#8) :
    s.frame p code (.next [b]) = s.setPort p { s.port p with
      line := some { l with received := l.received ++ [b], sending := s.statusByte p }
      sdo := (s.port p).sdo ++ [l.sending] } := by
  have hafter : l.contentAfter b (s.port p).command.fetchContent = none := by
    by_cases hr : l.received = []
    · rw [Line.contentAfter, if_pos hr, if_neg (hf hr)]
    · rw [Line.contentAfter, if_neg hr, hc]
  simp only [State.frame, hv, hl, hk, reduceCtorEq, if_false, if_true]
  show s.clockByte p b = _
  simp only [State.clockByte, hl, hafter, outgoing, hc]

/-! ## Which row a frame goes on with (R181) -/

theorem Line.kindIs_cons {c : Byte} (h : l.received.head? = some c) : l.kindIs [c] = true := by
  simp [Line.kindIs, h]

/-- A frame whose first byte is no code of a POLL or FETCH, or has not come, goes on with the COMMAND_FRAME row. -/
theorem Line.kindIs_nil (h0 : l.received.head? ≠ some 0x00#8) (h5 : l.received.head? ≠ some 0x05#8) :
    l.kindIs [] = true := by
  unfold Line.kindIs
  cases hr : l.received with
  | nil => rfl
  | cons c rest =>
    rw [hr, List.head?_cons, ne_eq, Option.some.injEq] at h0 h5
    simp [isPollOrFetchCode, h0, h5]

/-! ## The judgement of a frame (R181 to R184) -/

/-- The bytes read as a command frame are those of a well-formed one (R182). -/
theorem readFrame_eq_some_iff {c tag : Byte} {params : List Byte} :
    readFrame bytes extra = some (c, tag, params) ↔
      extra = false ∧ params.length ≤ 80 ∧ bytes = commandFrameBytes c tag params := by
  constructor
  · intro h
    unfold readFrame at h
    split at h
    · next c' tag' n rest =>
      split at h
      · next hframe =>
        obtain ⟨hlength, hparams, hextra, hlast⟩ := hframe
        simp only [Option.some.injEq, Prod.mk.injEq] at h
        obtain ⟨rfl, rfl, rfl⟩ := h
        have hn : rest.dropLast.length = n.toNat := by rw [List.length_dropLast, hlength, Nat.add_sub_cancel]
        have hrest : rest = rest.dropLast ++ [crc8 (c' :: tag' :: n :: rest.dropLast)] :=
          (List.dropLast_append_getLast? _ hlast).symm
        refine ⟨hextra, hn ▸ hparams, ?_⟩
        simpa [commandFrameBytes, enc8, hn] using hrest
      · exact absurd h nofun
    · exact absurd h nofun
  · rintro ⟨rfl, hparams, rfl⟩
    have hn : (BitVec.ofNat 8 params.length).toNat = params.length := by
      rw [BitVec.toNat_ofNat]
      omega
    simp [commandFrameBytes, enc8, readFrame, hn, hparams, Config.maxParams]

/-- Bytes that are no well-formed command frame are not read as one (R182). -/
theorem readFrame_eq_none (h : ¬ isCommandFrame bytes extra) : readFrame bytes extra = none := by
  cases hread : readFrame bytes extra with
  | none => rfl
  | some frame =>
    obtain ⟨c, tag, params⟩ := frame
    obtain ⟨hextra, hparams, hbytes⟩ := readFrame_eq_some_iff.mp hread
    exact absurd ⟨hextra, c, tag, params, hparams, hbytes⟩ h

/-- A POLL changes nothing at the rise of CSn (R186). -/
theorem State.judgeFrame_of_poll (h : l.received.head? = some 0x00#8) : s.judgeFrame p l extra = s.port p := by
  unfold State.judgeFrame
  cases hr : l.received with
  | nil => rw [hr] at h; exact absurd h nofun
  | cons c rest =>
    rw [hr, List.head?_cons, Option.some.injEq] at h
    simp only [h, if_true]

/-- A frame that begins with neither code of a POLL or FETCH is judged as a command frame. -/
theorem State.judgeFrame_of_command (h0 : l.received.head? ≠ some 0x00#8) (h5 : l.received.head? ≠ some 0x05#8) :
    s.judgeFrame p l extra = s.judgeCommand p l extra := by
  unfold State.judgeFrame
  cases hr : l.received with
  | nil => simp only [State.judgeCommand, hr, readFrame]
  | cons c rest =>
    rw [hr, List.head?_cons, ne_eq, Option.some.injEq] at h0 h5
    simp only [h0, h5, if_false]

/-- A command frame that is not well formed, or has no whole byte, is dropped. -/
theorem State.judgeFrame_of_malformed (h0 : l.received.head? ≠ some 0x00#8)
    (h5 : l.received.head? ≠ some 0x05#8) (h : ¬ isCommandFrame l.received extra) :
    s.judgeFrame p l extra = { s.port p with frameErr := true } := by
  rw [State.judgeFrame_of_command h0 h5, State.judgeCommand, readFrame_eq_none h]

end

section
variable {s : State} {p : Port} {l : Line} {code tag : Byte} {params : List Byte}

theorem head?_commandFrameBytes_ne {c : Byte} (h : code ≠ c) :
    (commandFrameBytes code tag params).head? ≠ some c := fun he => h (Option.some.inj he)

theorem length_commandFrameBytes (code tag : Byte) (params : List Byte) :
    (commandFrameBytes code tag params).length = params.length + 4 := by
  simp only [commandFrameBytes, List.length_append, List.length_cons, length_enc8, List.length_nil]
  omega

/-- A well-formed command frame is refused or taken. -/
theorem State.judgeFrame_of_wellFormed (h0 : code ≠ 0x00#8) (h5 : code ≠ 0x05#8) (hp : params.length ≤ 80)
    (hr : l.received = commandFrameBytes code tag params) :
    s.judgeFrame p l false = if s.refusesFrame p l then { s.port p with refused := true }
      else { s.port p with command := .working tag code params, frameErr := false, refused := false } := by
  have hread : readFrame l.received false = some (code, tag, params) := readFrame_eq_some_iff.mpr ⟨rfl, hp, hr⟩
  rw [State.judgeFrame_of_command (hr ▸ head?_commandFrameBytes_ne h0) (hr ▸ head?_commandFrameBytes_ne h5),
    State.judgeCommand, hread]

theorem CommandState.isWorking_iff (c : CommandState) :
    c.isWorking = true ↔ ∃ (t k : Byte) (ps : List Byte), c = .working t k ps := by
  cases c <;> simp [CommandState.isWorking]

theorem CommandState.isUnfetched_iff (c : CommandState) :
    c.isUnfetched = true ↔ ∃ (t : Byte) (r : Reply), c = .answered t r false := by
  cases c with
  | answered t r fetched => cases fetched <;> simp [CommandState.isUnfetched]
  | _ => simp [CommandState.isUnfetched]

theorem State.running_iff (s : State) : s.running = true ↔ s.startup.state = .running := beq_iff_eq

/-- The conditions on which a well-formed command frame is refused (R183). -/
theorem State.refusesFrame_iff (s : State) (p : Port) (l : Line) : s.refusesFrame p l = true ↔
    l.startup = true ∨ s.startup.state ≠ .running ∨
      (∃ (t c : Byte) (ps : List Byte), (s.port p).command = .working t c ps) ∨
      ∃ (t : Byte) (r : Reply), (s.port p).command = .answered t r false := by
  rw [State.refusesFrame, Bool.or_eq_true, Bool.or_eq_true, Bool.or_eq_true, CommandState.isWorking_iff,
    CommandState.isUnfetched_iff, Bool.not_eq_true', ← Bool.not_eq_true, State.running_iff,
    or_assoc, or_assoc, or_left_comm]

/-- No condition of R183 holds at a running part whose port is IDLE or has had its answer fetched. -/
theorem State.refusesFrame_eq_false (hrun : s.startup.state = .running) (hl : l.startup = false)
    (h : (s.port p).command = .idle ∨ ∃ (t : Byte) (r : Reply), (s.port p).command = .answered t r true) :
    s.refusesFrame p l = false := by
  rw [← Bool.not_eq_true, State.refusesFrame_iff]
  rcases h with h | ⟨t, r, h⟩ <;> simp [h, hrun, hl]

theorem State.refusesFrame_collected (s : State) (p : Port) (bytes : List Byte) (l : Line) :
    (s.collected p bytes).refusesFrame p l = s.refusesFrame p l := by
  simp only [State.refusesFrame, State.running, State.port_collected, State.startup_collected]

/-- A whole well-formed command frame, judged. -/
theorem State.frame_whole_command (hv : s.vdd = true) (hl : (s.port p).line = none) (h0 : code ≠ 0x00#8)
    (h5 : code ≠ 0x05#8) (hp : params.length ≤ 80) :
    s.frame p [] (.whole (commandFrameBytes code tag params) false) =
      s.setPort p (if s.refusesFrame p ⟨commandFrameBytes code tag params, s.statusByte p, none, false⟩ then
          { s.port p with refused := true, sdo := List.replicate (params.length + 4) (s.statusByte p) }
        else { s.port p with
          command := .working tag code params
          frameErr := false
          refused := false
          sdo := List.replicate (params.length + 4) (s.statusByte p) }) := by
  rw [State.frame_whole (code := []) (bytes := commandFrameBytes code tag params) hv hl
    (head?_commandFrameBytes_ne h5), List.nil_append, State.judgeFrame_of_wellFormed h0 h5 hp rfl,
    State.refusesFrame_collected, State.port_collected, length_commandFrameBytes, ← hl]
  split <;> rfl

/-- A well-formed command frame ended after other happenings, judged. -/
theorem State.frame_last_command (hv : s.vdd = true) (hl : (s.port p).line = some l) (h0 : code ≠ 0x00#8)
    (h5 : code ≠ 0x05#8) (hp : params.length ≤ 80) (hr : l.received = commandFrameBytes code tag params) :
    s.frame p [] (.last [] false) =
      s.setPort p (if s.refusesFrame p l then { s.port p with line := none, refused := true }
        else { s.port p with
          line := none
          command := .working tag code params
          frameErr := false
          refused := false }) := by
  have hk : l.kindIs [] = true :=
    Line.kindIs_nil (hr ▸ head?_commandFrameBytes_ne h0) (hr ▸ head?_commandFrameBytes_ne h5)
  rw [State.frame_last_nil hv hl hk, State.judgeFrame_of_wellFormed h0 h5 hp hr]
  split <;> rfl

end

/-! ## The statements about frames -/

theorem exec_poll (p : Port) (part : FramePart) (s : State) :
    exec (.poll p part) s = .next (s.frame p [0x00#8] part) := rfl

theorem exec_commandFrame (p : Port) (part : FramePart) (s : State) :
    exec (.commandFrame p part) s = .next (s.frame p [] part) := rfl

/-- Settles O2: a POLL is no FETCH, so each byte is formed as the status byte, and its judgement changes nothing. -/
theorem pollSendsStatus : Obligations.PollSendsStatus := by
  unfold Obligations.PollSendsStatus
  intro s p bytes extra hv
  refine ⟨fun hl => ?whole, fun l b hl hhead hc => ?byte⟩
  case whole =>
    rw [exec_poll, State.frame_whole hv hl (by simp), State.judgeFrame_of_poll rfl, State.port_collected, ← hl]
    simp
  case byte =>
    have hne : l.received ≠ [] := fun h => by simp [h] at hhead
    rw [exec_poll, State.frame_next_byte hv hl (Line.kindIs_cons hhead) hc (absurd · hne)]

/-- Settles O5: no condition of R183 holds, whole or at the end of a line on which no start-up has begun. -/
theorem commandFrameTaken : Obligations.CommandFrameTaken := by
  unfold Obligations.CommandFrameTaken
  intro s p code tag params hv h0 h5 hp hrun hc
  refine ⟨fun hl => ?whole, fun l hl hr hstartup => ?pieces⟩
  case whole =>
    rw [exec_commandFrame, State.frame_whole_command hv hl h0 h5 hp, State.refusesFrame_eq_false hrun rfl hc]
    rfl
  case pieces =>
    rw [exec_commandFrame, State.frame_last_command hv hl h0 h5 hp hr, State.refusesFrame_eq_false hrun hstartup hc]
    rfl

/-- Settles O6: a condition of R183 holds; a whole frame has no start-up within it. -/
theorem commandFrameRefused : Obligations.CommandFrameRefused := by
  unfold Obligations.CommandFrameRefused
  intro s p code tag params hv h0 h5 hp
  refine ⟨fun hl h => ?whole, fun l hl hr h => ?pieces⟩
  case whole =>
    rw [exec_commandFrame, State.frame_whole_command hv hl h0 h5 hp,
      if_pos ((s.refusesFrame_iff p _).mpr (.inr h))]
  case pieces =>
    rw [exec_commandFrame, State.frame_last_command hv hl h0 h5 hp hr, if_pos ((s.refusesFrame_iff p l).mpr h)]

/-- Settles O7: bytes that begin with neither code of a POLL or FETCH go on with the COMMAND_FRAME row, and what is not
read as a command frame is dropped. -/
theorem commandFrameMalformed : Obligations.CommandFrameMalformed := by
  unfold Obligations.CommandFrameMalformed
  intro s p bytes extra hv h0 h5
  refine ⟨fun hl => ⟨fun hbad => ?whole, ?first⟩, ?pieces⟩
  case whole =>
    rw [exec_commandFrame, State.frame_whole (code := []) hv hl h5, List.nil_append,
      State.judgeFrame_of_malformed h0 h5 hbad, State.port_collected, ← hl]
  case first =>
    rw [exec_commandFrame, State.frame_first (code := []) hv hl h5]
    rfl
  case pieces =>
    rintro l hl rfl hc
    have hk : l.kindIs [] = true := Line.kindIs_nil h0 h5
    refine ⟨fun hbad => ?last, fun b hb => ?next⟩
    case last =>
      rw [exec_commandFrame, State.frame_last_nil hv hl hk, State.judgeFrame_of_malformed h0 h5 hbad]
    case next =>
      rw [exec_commandFrame, State.frame_next_byte hv hl hk hc hb]

end Sys2Proof.Machine
end

section
/-! PROOFS. What the part reports of itself: the bits of the status byte (R189) and the picture that STATUS answers
(R193). -/

namespace Sys2Proof.Machine

/-! ## The status byte (R189) -/

/-- A flag shows its condition in the bits of its mask. -/
theorem getLsbD_flag (condition : Bool) (mask : Byte) (i : Nat) :
    (flag condition mask).getLsbD i = (condition && mask.getLsbD i) := by
  cases condition <;> simp [flag]

/-- ATTNn is driven low exactly while the notice queue holds something (R131). -/
theorem NoticeQueue.attn_eq (q : NoticeQueue) : q.attn = decide (q ≠ .normal []) := by
  cases q with
  | normal l => cases l <;> simp [NoticeQueue.attn]
  | resync => simp [NoticeQueue.attn]

theorem CommandState.isWorking_eq (c : CommandState) :
    c.isWorking = (match c with | .working _ _ _ => true | _ => false) := by
  cases c <;> rfl

theorem CommandState.isUnfetched_eq (c : CommandState) :
    c.isUnfetched = (match c with | .answered _ _ false => true | _ => false) := by
  cases c with
  | answered t r fetched => cases fetched <;> rfl
  | _ => rfl

theorem Engine.isFaulted_eq (e : Engine) : e.isFaulted = (match e with | .faulted _ => true | _ => false) := by
  cases e <;> rfl

/-- Each mask has one bit, so a bit of the status byte is the condition of the flag with that mask. -/
theorem State.getLsbD_statusByte (s : State) (p : Port) :
    (s.statusByte p).getLsbD 7 = s.running ∧
    (s.statusByte p).getLsbD 6 = (s.port p).command.isWorking ∧
    (s.statusByte p).getLsbD 5 = (s.port p).command.isUnfetched ∧
    (s.statusByte p).getLsbD 4 = s.attn p ∧
    (s.statusByte p).getLsbD 3 = (s.port p).frameErr ∧
    (s.statusByte p).getLsbD 2 = (s.port p).refused ∧
    (s.statusByte p).getLsbD 1 = (s.port p).started ∧
    (s.statusByte p).getLsbD 0 = s.persist.engine.isFaulted := by
  simp only [State.statusByte, BitVec.getLsbD_or, getLsbD_flag]
  simp

/-- Settles O3: the conditions of the eight flags, each in the words of R189. -/
theorem statusByteBits : Obligations.StatusByteBits := by
  unfold Obligations.StatusByteBits
  intro s p
  obtain ⟨hready, hworking, hunfetched, hattn, hframeErr, hrefused, hstarted, hfault⟩ := s.getLsbD_statusByte p
  exact ⟨hready.trans (Bool.beq_eq_decide_eq _ _), hworking.trans (CommandState.isWorking_eq _),
    hunfetched.trans (CommandState.isUnfetched_eq _), hattn.trans (NoticeQueue.attn_eq _), hframeErr, hrefused,
    hstarted, hfault.trans (Engine.isFaulted_eq _)⟩

/-! ## STATUS (R193) -/

/-- A STATUS is answered with its reply, and nothing else changes. -/
theorem exec_status_of_working {s : State} {p : Port} {tag : Byte} {params data : List Byte} {r : Result}
    (h : s.isWorkingOn p tag 0x02#8 params) (hr : s.bareCommand params (s, .ok s.statusData) = (s, ⟨r, data⟩)) :
    exec (.status p) s = .next (s.answers p tag r data) :=
  congrArg Host.Outcome.next (State.serve_eq_answers h hr)

/-- The engine's code and the holder of its pause, as STATUS reports them. -/
theorem Engine.code_and_holder_eq (e : Engine) : [e.code, portOrNone (e.pause.map Pause.holder)] =
    match e with
    | .idle => [0x00#8, 0xFF#8]
    | .busy _ => [0x01#8, 0xFF#8]
    | .pausing _ pz => [0x02#8, portCode pz.holder]
    | .paused _ pz => [0x03#8, portCode pz.holder]
    | .faulted _ => [0x04#8, 0xFF#8] := by
  cases e <;> rfl

/-- The fault record as STATUS reports it. -/
theorem faultData_faultRecord_eq (e : Engine) : faultData e.faultRecord =
    match e with
    | .faulted (.write w) => 0x01#8 :: (enc16 w.slot.val ++ enc16 w.key)
    | .faulted (.erase x) => 0x02#8 :: (enc16 x.slot.val ++ enc16 (x.key.getD 0))
    | _ => [0x00#8, 0x00#8, 0x00#8, 0x00#8, 0x00#8] := by
  cases e with
  | faulted j => cases j <;> rfl
  | _ => rfl

theorem Cause.singleton_code_eq (c : Cause) :
    [c.code] = [match c with | .power => 0x01#8 | .pin => 0x02#8 | .command => 0x03#8] := by
  cases c <;> rfl

/-- Every slot is in exactly one of the four slot states (R1). -/
theorem countP_slot_states (slots : List Slot) :
    slots.countP Slot.isLive + slots.countP Slot.isFree + slots.countP Slot.isDraining +
      slots.countP Slot.isBroken = slots.length := by
  induction slots with
  | nil => rfl
  | cons x rest ih =>
    have hone : (if x.isLive then 1 else 0) + (if x.isFree then 1 else 0) + (if x.isDraining then 1 else 0) +
        (if x.isBroken then 1 else 0) = 1 := by cases x <;> rfl
    simp only [List.countP_cons, List.length_cons]
    omega

/-- Settles O12: the answer's engine bytes, fault record and cause are read off by their cases, and the rest is the
layout of section 10.8. -/
theorem statusReportsPart : Obligations.StatusReportsPart := by
  unfold Obligations.StatusReportsPart
  intro s p tag
  refine ⟨fun params hp h => ?params, fun h => ?picture, ?total⟩
  case params => exact exec_status_of_working h (State.bareCommand_of_params hp _ _)
  case picture =>
    have hdata := exec_status_of_working h (State.bareCommand_of_none rfl s (s, .ok s.statusData))
    rw [State.statusData, Engine.code_and_holder_eq, faultData_faultRecord_eq, Cause.singleton_code_eq] at hdata
    exact hdata
  case total =>
    have hslots : s.slots.toList.length = 384 := Vector.length_toList
    exact (countP_slot_states s.slots.toList).trans hslots

end Sys2Proof.Machine
end

section
/-! PROOFS. The queue and the beginning of a start-up (chapter 9): each happening of the Start-up Controller as the claims
put it. -/

namespace Sys2Proof.Machine

/-- Settles O1: both sides are the same by the definition of a step. -/
theorem stepTakesFront : Obligations.StepTakesFront := by
  unfold Obligations.StepTakesFront
  intro s c rest h
  simp only [step, h]

/-! ## The beginning of a start-up (R164 to R167) -/

/-- RESTART without parameters from an ADMIN port begins a start-up (R165). -/
theorem exec_restart_of_passed {s : State} {p : Port} {tag : Byte} {cut : NvResult} (h : s.isWorkingOn p tag 0x6F#8 [])
    (hrole : s.rights.roles.get p = .admin) : exec (.restart p cut) s = .next (s.begun .command .scanning cut) := by
  unfold State.isWorkingOn at h
  show execRestart p cut s = _
  simp [execRestart, h, hrole, State.beginStartup_eq]

/-- RESTART with parameters is refused (R165). -/
theorem exec_restart_of_params {s : State} {p : Port} {tag : Byte} {params : List Byte} {cut : NvResult}
    (h : s.isWorkingOn p tag 0x6F#8 params) (hrole : s.rights.roles.get p = .admin) (hp : params ≠ []) :
    exec (.restart p cut) s = .next (s.answers p tag .badParam []) := by
  unfold State.isWorkingOn at h
  show execRestart p cut s = _
  simp [execRestart, h, hrole, hp]
  rfl

/-- A second beginning finds the engine IDLE, so that it cuts nothing, and every block cleared already; a frame on
which VDD was lost is marked already (log entry 4). -/
theorem State.beginStartup_losePower (s : State) (cause : Cause) (entered : StartupState) (cut : NvResult) :
    { (s.losePower cut).beginStartup cause entered cut with vdd := true } =
      { (s.begun cause entered cut).framesRestarted with vdd := true } := by
  have hports : ∀ p : Port, ((s.losePower cut).port p).afterClearing =
      { (s.port p).afterClearing with line := (s.port p).line.map fun _ => ⟨[], 0x02#8, none, true⟩ } := by
    intro p
    rw [State.losePower_eq]
    cases h : (s.port p).line <;> simp_all [State.framesRestarted, State.begun, State.port, PortState.afterClearing]
  have hfields : (s.losePower cut).begun cause entered cut =
      { s.begun cause entered cut with ports := .build fun p => ((s.losePower cut).port p).afterClearing, vdd := false } := by
    rw [State.losePower_eq]
    rfl
  rw [State.beginStartup_eq, hfields]
  simp only [hports, State.framesRestarted]
  simp only [State.begun, State.port, PortMap.get_build, PortState.afterClearing, Option.map_map]
  rfl

/-- POWER_UP, as the claims put it (R164, R166). -/
theorem exec_powerUp (s : State) (cut : NvResult) : exec (.powerUp cut) s =
    .next { (s.begun .power (if s.resetnLow then .held else .scanning) cut).framesRestarted with vdd := true } :=
  congrArg Host.Outcome.next (s.beginStartup_losePower _ _ _)

/-- RESETN_ASSERT, as the claims put it (R164, R166). -/
theorem exec_resetnAssert (s : State) (cut : NvResult) : exec (.resetnAssert cut) s =
    .next (if s.resetnLow then s else if s.vdd then { s.begun .pin .held cut with resetnLow := true }
      else { s with resetnLow := true }) := by
  show execResetnAssert cut s = _
  unfold execResetnAssert
  rw [State.beginStartup_eq]
  split <;> (try split) <;> rfl

/-- Settles O50: each happening by its own lemma. -/
theorem startupBegins : Obligations.StartupBegins := by
  unfold Obligations.StartupBegins
  intro s cut
  refine ⟨fun p tag params h hrole => ⟨?_, exec_restart_of_params h hrole⟩, fun hv hl => ?_, fun hv => ?_, fun hl => ?_,
    fun hl => ?_, fun hv => ?_, fun hv hs => ?_, fun h => ?_⟩
  · rintro rfl
    exact exec_restart_of_passed h hrole
  · simp [exec_resetnAssert, hv, hl]
  · rw [exec_resetnAssert]
    cases hl : s.resetnLow with
    | true => simp only [if_true, ← hl]
    | false => simp [hv]
  · simp [exec_powerUp, hl]
  · simp [exec_powerUp, hl]
  · show execPowerLoss cut s = _
    simp [execPowerLoss, hv, State.losePower_eq]
  · show execResetnRelease s = _
    simp [execResetnRelease, hv, hs]
  · show execResetnRelease s = _
    obtain hv | hs := h
    · simp [execResetnRelease, hv]
    · simp [execResetnRelease, hs]

end Sys2Proof.Machine
end

section
/-! PROOFS. What a happening can do, said once: every command and happening is a chain of small moves, each of one block, or
begins a freeze, or is one of the start-up's. The laws that every step keeps are proved move by move. -/

namespace Sys2Proof.Machine

/-! ## Notices (R123 to R129) -/

/-- Every notice queue that is well formed stays so. -/
def PortMap.QueuesKept (m m' : PortMap NoticeQueue) : Prop := ∀ q : Port, (m.get q).wf → (m'.get q).wf

theorem PortMap.QueuesKept.refl (m : PortMap NoticeQueue) : m.QueuesKept m := fun _ h => h

theorem PortMap.QueuesKept.trans {m m' m'' : PortMap NoticeQueue} (h : m.QueuesKept m') (h' : m'.QueuesKept m'') :
    m.QueuesKept m'' :=
  fun q hq => h' q (h q hq)

/-- A notice in place of the CHANGED for its key leaves no key with more CHANGED notices than before (R126). -/
theorem changedKeys_coalesced {n : Notice} {k : Nat} (h : n.coalescesFor = some k) (l : List Notice) :
    ((l.map fun m => if m.isChangedFor k then n else m).filterMap Notice.changedKey).Sublist
      (l.filterMap Notice.changedKey) := by
  induction l with
  | nil => exact List.Sublist.refl _
  | cons m l ih =>
    rw [List.map_cons]
    cases hm : m.isChangedFor k with
    | false =>
      cases hk : m.changedKey with
      | none => rwa [if_neg (by simp), List.filterMap_cons_none hk, List.filterMap_cons_none hk]
      | some _ => rw [if_neg (by simp), List.filterMap_cons_some hk, List.filterMap_cons_some hk]; exact ih.cons_cons _
    | true =>
      have hmk : m.changedKey = some k := by cases m <;> simp_all [Notice.isChangedFor, Notice.changedKey]
      have hnk : n.changedKey = none ∨ n.changedKey = some k := by
        cases n <;> simp_all [Notice.coalescesFor, Notice.changedKey]
      rw [if_pos rfl, List.filterMap_cons_some hmk]
      obtain hnk | hnk := hnk
      · rw [List.filterMap_cons_none hnk]; exact ih.trans (List.sublist_cons_self _ _)
      · rw [List.filterMap_cons_some hnk]; exact ih.cons_cons _

/-- A notice appended, or the overflow, keeps a queue well formed (R126, R129). -/
theorem appendNotice_wf {l : List Notice} {n : Notice} (hn : n ≠ .resync) (hl : (NoticeQueue.normal l).wf)
    (hc : ∀ k, n.changedKey = some k → l.any (Notice.isChangedFor k) = false) : (appendNotice l n).wf := by
  obtain ⟨_, hkeys, hresync⟩ := hl
  unfold appendNotice
  split
  · next hlen =>
    refine ⟨by simpa using hlen, ?_, by simpa [hresync] using hn.symm⟩
    rw [List.filterMap_append, List.nodup_append]
    refine ⟨hkeys, by cases hk : n.changedKey <;> simp [hk], fun a ha b hb => ?_⟩
    rintro rfl
    have hk : n.changedKey = some a := by cases hk : n.changedKey <;> simp_all
    obtain ⟨m, hm, hma⟩ := List.mem_filterMap.mp ha
    have := List.any_eq_false.mp (hc a hk) m hm
    cases m <;> simp_all [Notice.changedKey, Notice.isChangedFor]
  · trivial

/-- A posting keeps a queue well formed; a RESYNC notice is never posted (R126 to R129). -/
theorem NoticeQueue.post_wf {q : NoticeQueue} {n : Notice} (hn : n ≠ .resync) (h : q.wf) : (q.post n).wf := by
  cases q with
  | resync => trivial
  | normal l =>
    cases hk : n.coalescesFor with
    | none =>
      simp only [NoticeQueue.post, hk]
      exact appendNotice_wf hn h fun k hc => by cases n <;> simp_all [Notice.coalescesFor, Notice.changedKey]
    | some k =>
      simp only [NoticeQueue.post, hk]
      split
      · obtain ⟨hlen, hkeys, hresync⟩ := h
        refine ⟨by simpa using hlen, (changedKeys_coalesced hk l).nodup hkeys, fun hm => ?_⟩
        obtain ⟨m, hm, he⟩ := List.mem_map.mp hm
        split at he
        · exact hn he
        · exact hresync (he ▸ hm)
      · next hany =>
        refine appendNotice_wf hn h fun k' hc => ?_
        have : k' = k := by cases n <;> simp_all [Notice.coalescesFor, Notice.changedKey]
        simpa [this] using hany

theorem NoticeQueue.postIf_wf {q : NoticeQueue} {n : Notice} {c : Prop} [Decidable c] (hn : n ≠ .resync) (h : q.wf) :
    (q.postIf c n).wf := by
  unfold NoticeQueue.postIf
  split
  · exact NoticeQueue.post_wf hn h
  · exact h

/-- Postings to every port at once keep the queues well formed. -/
theorem PortMap.QueuesKept.build {m : PortMap NoticeQueue} {n : Notice} {c : Port → Prop} [DecidablePred c]
    (hn : n ≠ .resync) : m.QueuesKept (.build fun q => (m.get q).postIf (c q) n) := fun q h => by
  rw [PortMap.get_build]
  exact NoticeQueue.postIf_wf hn h

theorem State.deliver_queuesKept (s : State) (p : Port) {n : Notice} (hn : n ≠ .resync) :
    s.notices.QueuesKept (s.deliver p n).notices := fun q h => by
  simp only [State.deliver_eq, PortMap.get_set_postIf]
  exact NoticeQueue.postIf_wf hn h

/-! ## The Persist Engine (chapter 8) -/

/-- The engine moves no job in or out: the jobs are the same, none joins the queue, and the mark stands; an IDLE engine has no
job waiting, and a FAULTED one no durability request, if that was so before. -/
structure Persist.Rearranged (pe pe' : Persist) : Prop where
  jobs : pe'.jobs.Perm pe.jobs
  queue : pe'.queue.Sublist pe.queue
  mark : pe'.mark = pe.mark
  idle : (pe.engine = .idle → pe.queue = []) → pe'.engine = .idle → pe'.queue = []
  faulted : (pe.engine.isFaulted = true → ∀ p, pe.requests.get p = none) →
    pe'.engine.isFaulted = true → ∀ p, pe'.requests.get p = none

/-- Another engine state with the same job in flight or in the fault record. -/
theorem Persist.Rearranged.of_engine {pe : Persist} {e : Engine} (hj : e.job = pe.engine.job)
    (hf : e.faultRecord = pe.engine.faultRecord) (hi : e ≠ .idle ∨ e = pe.engine) :
    pe.Rearranged { pe with engine := e } where
  jobs := by simp [Persist.jobs, hj, hf]
  queue := List.Sublist.refl _
  mark := rfl
  idle := fun h he => hi.elim (fun hi => absurd he hi) fun hi => h (hi ▸ he)
  faulted := fun h hf' => h (by simpa [Engine.isFaulted, hf] using hf')

/-- The head job is taken by an engine that holds none (R144). -/
theorem Persist.Rearranged.takeHead {pe : Persist} (nv : NvArray) (hj : pe.engine.job = none)
    (hf : pe.engine.faultRecord = none) : pe.Rearranged (pe.takeHead nv) := by
  unfold Persist.takeHead
  split
  · next hq => exact ⟨by simp [Persist.jobs, hj, hf]; simp [Engine.job, Engine.faultRecord],
      List.Sublist.refl _, rfl, fun _ _ => hq, fun _ h => by simp [Engine.isFaulted, Engine.faultRecord] at h⟩
  · next j rest hq =>
    refine ⟨?_, by simp [hq], rfl, fun _ h => (nomatch h), fun _ h => by simp [Engine.isFaulted, Engine.faultRecord] at h⟩
    simp only [Persist.jobs, hj, hf]
    simp [hq, startAttempt, Engine.job, Engine.faultRecord]

/-- The end of a pause (R154). -/
theorem Persist.Rearranged.endPause (nv : NvArray) (pe : Persist) : pe.Rearranged (pe.endPause nv) := by
  unfold Persist.endPause
  split
  · next f pz he => exact .of_engine (by simp [he, Engine.job]) (by simp [he, Engine.faultRecord]) (.inl nofun)
  · next w pz he =>
    refine .of_engine ?_ (by simp [he, Engine.faultRecord]) (.inl nofun)
    cases hn : w.next <;> simp [he, Engine.job, Waiting.resume, hn, startAttempt]
  · next pz he => exact .takeHead nv (by simp [he, Engine.job]) (by simp [he, Engine.faultRecord])
  · exact .of_engine rfl rfl (.inr rfl)

/-! ## Records -/

/-- The slot goes on holding what it held, but for fields of a LIVE record other than key, definition and generation. -/
def Slot.SameRecord (x y : Slot) : Prop :=
  y = x ∨ ∃ r r' : Record, x = .live r ∧ y = .live r' ∧ r'.key = r.key ∧ r'.defn = r.defn ∧ r'.generation = r.generation

/-! ## Moves -/

/-- A small change of one block, with what it keeps. -/
inductive Move (s : State) : State → Prop
  | port (p : Port) (x : PortState) : Move s (s.setPort p x)
  | pin (low : Bool) : Move s { s with resetnLow := low }
  | staging (p : Port) (st : Stack) (h : s.stagingWf → (s.setStack p st).stagingWf) : Move s (s.setStack p st)
  | notices (m : PortMap NoticeQueue) (h : s.notices.QueuesKept m) : Move s { s with notices := m }
  | claims (c : List ClaimEntry) (hwf : s.claimsWf → State.claimsWf { s with claims := c })
      (hlive : s.claimsLive → State.claimsLive { s with claims := c }) : Move s { s with claims := c }
  | records (v : Vector Slot Config.slotCount) (h : ∀ i : SlotId, (s.slot i).SameRecord v[i.val]) :
      Move s { s with slots := v }
  | classes (v : Vector ClassDesc Config.classCount)
      (h : ∀ c : ClassId, v[c.val].count = (s.classDesc c).count ∧
        (v[c.val].quota = (s.classDesc c).quota ∨ v[c.val].count ≤ v[c.val].quota ∧ v[c.val].quota ≤ Config.maxQuota)) :
      Move s { s with classes := v }
  | roles (roles : PortMap Role) (h : roles.get .p0 = s.rights.roles.get .p0) :
      Move s { s with rights := { s.rights with roles := roles } }
  | window (i : WindowId) (w : Window) (h : (∀ d, s.rights.window i ≠ .freezing d) ∧ ∀ d, s.rights.window i ≠ .frozen d)
      (hw : (∀ d, w ≠ .freezing d) ∧ ∀ d, w ≠ .frozen d) : Move s (s.setWindow i w)
  | nv (nv : NvArray) (h : ∀ i : WindowId, nv.entry i = s.nv.entry i ∨
        nv.entry i ≠ .unwritten ∧ ∃ d, .freeze i d ∈ s.persist.jobs) : Move s { s with nv := nv }
  | engine (pe : Persist) (h : s.persist.Rearranged pe) : Move s { s with persist := pe }
  | writeEnds (w : WriteJob) (hj : s.persist.jobs.Perm (.slot (.write w) :: s.persist.queue)) : Move s (s.jobEnded true)
  | eraseEnds (e : EraseJob) (x : Slot) (marks : Bool) (hj : s.persist.jobs.Perm (.slot (.erase e) :: s.persist.queue))
      (hm : marks = false → e.applies = none)
      (hx : if (s.slot e.slot).isDraining then x = .free ∨ x = .broken else x = s.slot e.slot) :
      Move s ((s.setSlot e.slot x).jobEnded marks)
  | freezeEnds (i : WindowId) (d : WindowDef) (w : Window) (e : EntryState)
      (hj : s.persist.jobs.Perm (.freeze i d :: s.persist.queue))
      (hw : w = .frozen d ∧ e = .valid ∧ s.nv.entry i = .valid d ∨ w = (s.rights.window i).unfreeze ∧ e = .spoiled) :
      Move s (((s.setEntryState i e).setWindow i w).jobEnded false)
  | apply (p : Port) (mode : Persistence) (es : List Entry) (hc : s.applyCheck p mode es = none)
      (hes : es ∈ s.stack p ∨ ∃ e, es = [e]) : Move s (s.runApply mode es)

/-- A chain of moves. -/
abbrev Moves : State → State → Prop := Relation.ReflTransGen Move

theorem Move.moves {s t : State} (h : Move s t) : Moves s t := .single h

/-- A law that every move keeps is kept by every chain of them. -/
theorem Moves.keeps {P : State → Prop} (hP : ∀ {s t : State}, Move s t → P s → P t) {s t : State} (h : Moves s t)
    (hs : P s) : P t := by
  induction h with
  | refl => exact hs
  | tail _ hm ih => exact hP hm ih

theorem State.placeAnswer_moves {s t : State} (h : Moves s t) (p : Port) (tag : Byte) (r : Reply) :
    Moves s (t.placeAnswer p tag r) := h.tail (.port _ _)

/-- A command is a chain of moves where its effect is one. -/
theorem State.serve_moves {s : State} {p : Port} {code : Byte} {act : List Byte → State × Reply}
    (h : ∀ params, Moves s (act params).1) : Moves s (s.serve p code act) := by
  unfold State.serve
  split
  · split
    · exact State.placeAnswer_moves (h _) _ _ _
    · exact .refl
  · exact .refl

theorem State.bareCommand_moves {s : State} {act : State × Reply} (h : Moves s act.1) (params : List Byte) :
    Moves s (s.bareCommand params act).1 := by
  unfold State.bareCommand
  split
  · exact h
  · exact .refl

theorem State.adminOnly_moves {s : State} {act : State × Reply} (h : Moves s act.1) (p : Port) :
    Moves s (s.adminOnly p act).1 := by
  unfold State.adminOnly
  split
  · exact h
  · exact .refl

theorem State.deliver_moves (s : State) (p : Port) {n : Notice} (hn : n ≠ .resync) : Moves s (s.deliver p n) := by
  have := s.deliver_queuesKept p hn
  rw [State.deliver_eq] at this ⊢
  exact (Move.notices _ this).moves

/-! ## Frames (R180 to R188) -/

theorem State.csRise_eq_setPort (s : State) (p : Port) (extra : Bool) : ∃ x, s.csRise p extra = s.setPort p x := by
  unfold State.csRise
  split
  · exact ⟨_, (s.setPort_port p).symm⟩
  · exact ⟨_, rfl⟩

theorem State.clockBytes_eq_setPort (s : State) (p : Port) (bytes : List Byte) :
    ∃ x, s.clockBytes p bytes = s.setPort p x := by
  obtain ⟨l, o, h, -⟩ := s.clockBytes_eq p bytes
  exact ⟨_, h⟩

/-- A frame, or a part of one, reaches the state of its own port alone (R179). -/
theorem State.frame_eq_setPort (s : State) (p : Port) (code : List Byte) (part : FramePart) :
    ∃ x, s.frame p code part = s.setPort p x := by
  have hrise : ∀ (t : State) (bytes : List Byte) (extra : Bool), (∃ x, t = s.setPort p x) →
      ∃ x, (t.clockBytes p bytes).csRise p extra = s.setPort p x := by
    rintro t bytes extra ⟨x, rfl⟩
    obtain ⟨y, hy⟩ := (s.setPort p x).clockBytes_eq_setPort p bytes
    rw [hy, State.setPort_setPort]
    obtain ⟨z, hz⟩ := (s.setPort p y).csRise_eq_setPort p extra
    exact ⟨z, by rw [hz, State.setPort_setPort]⟩
  unfold State.frame
  split
  · obtain ⟨l, o, h⟩ := s.frameUnpowered_eq p part
    exact ⟨_, h⟩
  · split
    · exact hrise _ _ _ ⟨_, rfl⟩
    · obtain ⟨y, hy⟩ := (s.csFall p).clockBytes_eq_setPort p (code ++ _)
      exact ⟨y, by rw [hy]; exact State.setPort_setPort s p _ _⟩
    · split
      · exact s.clockBytes_eq_setPort p _
      · exact ⟨_, (s.setPort_port p).symm⟩
    · split
      · exact hrise _ _ _ ⟨_, (s.setPort_port p).symm⟩
      · exact ⟨_, (s.setPort_port p).symm⟩
    · exact ⟨_, (s.setPort_port p).symm⟩

theorem State.frame_moves (s : State) (p : Port) (code : List Byte) (part : FramePart) :
    Moves s (s.frame p code part) := by
  obtain ⟨x, h⟩ := s.frame_eq_setPort p code part
  rw [h]
  exact (Move.port p x).moves

end Sys2Proof.Machine
end

section
/-! PROOFS. The moves that each command and happening is made of, block by block. -/

namespace Sys2Proof.Machine

/-! ## The Claim Table (chapter 5) -/

theorem mem_replaceClaim {l : List ClaimEntry} {k : Nat} {new : Option ClaimEntry} {x : ClaimEntry}
    (h : x ∈ replaceClaim l k new) : x ∈ l ∧ x.key ≠ k ∨ new = some x ∧ ∃ e ∈ l, e.key = k := by
  obtain ⟨e, he, h⟩ := List.mem_filterMap.mp h
  split at h
  · exact .inr ⟨h, e, he, ‹_›⟩
  · obtain ⟨rfl⟩ := h
    exact .inl ⟨he, ‹_›⟩

/-- Entries that each keep their key or are freed leave at most the keys that there were, in their order. -/
theorem filterMap_keys_sublist {f : ClaimEntry → Option ClaimEntry} (hf : ∀ e, ∀ e' ∈ f e, e'.key = e.key)
    (l : List ClaimEntry) : ((l.filterMap f).map ClaimEntry.key).Sublist (l.map ClaimEntry.key) := by
  induction l with
  | nil => exact List.Sublist.refl _
  | cons e l ih =>
    cases he : f e with
    | none => rw [List.filterMap_cons_none he]; exact ih.cons _
    | some x =>
      rw [List.filterMap_cons_some he, List.map_cons, hf e x he]
      exact ih.cons_cons _

theorem replaceClaim_keys_sublist (l : List ClaimEntry) {k : Nat} {new : Option ClaimEntry}
    (hk : ∀ e ∈ new, e.key = k) : ((replaceClaim l k new).map ClaimEntry.key).Sublist (l.map ClaimEntry.key) := by
  refine filterMap_keys_sublist (fun e e' he' => ?_) l
  split at he'
  · next h => exact (hk e' he').trans h.symm
  · obtain ⟨rfl⟩ := he'; rfl

/-- The Claim Table stays well formed where an entry is replaced by a well-formed one under its key (R84). -/
theorem State.setClaim_claimsWf {s : State} {k : Nat} {new : Option ClaimEntry} (hk : ∀ e ∈ new, e.key = k)
    (hw : ∀ e ∈ new, e.wf) (h : s.claimsWf) : (s.setClaim k new).claimsWf := by
  obtain ⟨hlen, hnodup, hwf⟩ := h
  refine ⟨(List.length_filterMap_le _ _).trans hlen, hnodup.sublist (replaceClaim_keys_sublist _ hk), fun e he => ?_⟩
  obtain ⟨he, -⟩ | ⟨he, -⟩ := mem_replaceClaim he
  · exact hwf e he
  · exact hw e he

theorem State.setClaim_claimsLive {s : State} {k : Nat} {new : Option ClaimEntry} (hk : ∀ e ∈ new, e.key = k)
    (h : s.claimsLive) : (s.setClaim k new).claimsLive := by
  intro x hx
  obtain ⟨hx, -⟩ | ⟨hx, e, he, hek⟩ := mem_replaceClaim hx
  · exact h x hx
  · rw [hk x hx, ← hek]
    exact h e he

theorem State.setClaim_moves {s : State} {k : Nat} {new : Option ClaimEntry} (hk : ∀ e ∈ new, e.key = k)
    (hw : s.claimsWf → ∀ e ∈ new, e.wf) : Moves s (s.setClaim k new) :=
  (Move.claims _ (fun h => State.setClaim_claimsWf hk (hw h) h) (State.setClaim_claimsLive hk)).moves

/-- A hand-over leaves a well-formed entry of the same key, or none (R89). -/
theorem ClaimEntry.handOn_key {e e' : ClaimEntry} (h : e' ∈ e.handOn) : e'.key = e.key := by
  unfold ClaimEntry.handOn at h
  cases hw : e.waiters with
  | nil => simp [hw] at h
  | cons w rest => rw [hw] at h; obtain ⟨rfl⟩ := h; rfl

theorem ClaimEntry.handOn_wf {e e' : ClaimEntry} (h : e' ∈ e.handOn) (he : e.wf) : e'.wf := by
  obtain ⟨-, hn, -, hl⟩ := he
  unfold ClaimEntry.handOn at h
  cases hw : e.waiters with
  | nil => simp [hw] at h
  | cons w rest =>
    rw [hw] at h hn hl
    obtain ⟨rfl⟩ := h
    obtain ⟨h1, h2⟩ := List.nodup_cons.mp hn
    exact ⟨hl w List.mem_cons_self, h2, h1, fun x hx => hl x (List.mem_cons_of_mem _ hx)⟩

theorem State.handOn_moves {s : State} {e : ClaimEntry} (he : s.claimsWf → e.wf) : Moves s (s.handOn e) := by
  have hset : Moves s (s.setClaim e.key e.handOn) :=
    State.setClaim_moves (fun _ h => ClaimEntry.handOn_key h) fun h _ h' => ClaimEntry.handOn_wf h' (he h)
  unfold State.handOn
  cases hh : e.handOn with
  | none => rwa [hh] at hset
  | some e' => rw [hh] at hset; exact hset.trans (State.deliver_moves _ _ nofun)

theorem State.claimsWf_wf {s : State} {k : Nat} {e : ClaimEntry} (h : s.claimOn k = some e) (hs : s.claimsWf) : e.wf :=
  hs.2.2 e (State.claimOn_eq_some h).1

theorem State.expireClaim_moves {s : State} {k : Nat} {e : ClaimEntry} (h : s.claimOn k = some e) :
    Moves s (s.expireClaim e) := by
  unfold State.expireClaim
  refine (State.deliver_moves s e.holder (n := .claimExpired e.key) nofun).trans (State.handOn_moves fun hs => ?_)
  rw [State.deliver_eq] at hs
  exact State.claimsWf_wf h hs

/-- The leases of a well-formed entry and those of its successor entries. -/
theorem ClaimEntry.wf_tick {e : ClaimEntry} (h : e.wf) (h1 : e.remaining ≠ 1) :
    ClaimEntry.wf { e with remaining := e.remaining - 1 } := by
  obtain ⟨⟨hlo, hhi⟩, hrest⟩ := h
  exact ⟨⟨by dsimp only; omega, by dsimp only; omega⟩, hrest⟩

theorem State.tickClaim_moves (s : State) (k : Nat) : Moves s (s.tickClaim k) := by
  unfold State.tickClaim
  split
  · exact .refl
  · next e he =>
    split
    · exact State.expireClaim_moves he
    · next h1 =>
      exact State.setClaim_moves (by simpa using (State.claimOn_eq_some he).2) fun h e' he' => by
        obtain ⟨rfl⟩ := he'
        exact ClaimEntry.wf_tick (State.claimsWf_wf he h) h1

theorem State.foldl_tickClaim_moves (s : State) (ks : List Nat) : Moves s (ks.foldl State.tickClaim s) := by
  induction ks generalizing s with
  | nil => exact .refl
  | cons k ks ih => exact (s.tickClaim_moves k).trans (ih _)

theorem dropWaiter_wf {e : ClaimEntry} (p : Port) (h : e.wf) :
    ClaimEntry.wf { e with waiters := dropWaiter e.waiters p } := by
  obtain ⟨hl, hn, hh, hw⟩ := h
  have hsub : (dropWaiter e.waiters p).Sublist e.waiters := List.filter_sublist
  exact ⟨hl, hn.sublist (hsub.map _), fun hm => hh ((hsub.map _).subset hm), fun w hx => hw w (hsub.subset hx)⟩

/-- The lease that a reader of parameters accepts (R86). -/
theorem readClaim_lease {params : List Byte} {q : ClaimParams} (h : readClaim params = some q) : validLease q.lease := by
  have hread : ∀ {hi lo : Byte} {l : Nat}, readLease hi lo = some l → validLease l := by
    intro hi lo l h
    unfold readLease at h
    split at h
    · obtain ⟨rfl⟩ := h; assumption
    · cases h
  unfold readClaim at h
  split at h
  · obtain ⟨k, -, h⟩ := Option.bind_eq_some_iff.mp h
    obtain ⟨l, hl, rfl⟩ := Option.map_eq_some_iff.mp h
    exact hread hl
  · obtain ⟨k, -, h⟩ := Option.bind_eq_some_iff.mp h
    obtain ⟨l, hl, h⟩ := Option.bind_eq_some_iff.mp h
    split at h
    · obtain ⟨rfl⟩ := h; exact hread hl
    · split at h
      · obtain ⟨rfl⟩ := h; exact hread hl
      · cases h
  · cases h

theorem State.claimHeld_moves {s : State} {q : ClaimParams} {e : ClaimEntry} (p : Port) (hl : validLease q.lease)
    (he : s.claimOn q.key = some e) : Moves s (s.claimHeld p q e).1 := by
  have hk := (State.claimOn_eq_some he).2
  unfold State.claimHeld
  split
  · refine State.setClaim_moves (by simpa using hk) fun h e' he' => ?_
    obtain ⟨rfl⟩ := he'
    exact ⟨hl, (State.claimsWf_wf he h).2⟩
  · next hp =>
    split
    · exact .refl
    · split
      · refine State.setClaim_moves (by simpa using hk) fun h e' he' => ?_
        obtain ⟨rfl⟩ := he'
        obtain ⟨h1, h2, h3, h4⟩ := State.claimsWf_wf he h
        have hports : (e.waiters.map fun w => if w.port = p then (⟨p, q.lease⟩ : Waiter) else w).map Waiter.port =
            e.waiters.map Waiter.port := by
          rw [List.map_map]
          refine List.map_congr_left fun w _ => ?_
          by_cases hw : w.port = p <;> simp [hw]
        refine ⟨h1, by rwa [hports], by rwa [hports], fun w hw => ?_⟩
        obtain ⟨x, hx, rfl⟩ := List.mem_map.mp hw
        split
        · exact hl
        · exact h4 x hx
      · next hpos =>
        refine State.setClaim_moves (by simpa using hk) fun h e' he' => ?_
        obtain ⟨rfl⟩ := he'
        obtain ⟨h1, h2, h3, h4⟩ := State.claimsWf_wf he h
        have hnew := (waiterPosition_eq_none_iff _ _).mp hpos
        refine ⟨h1, ?_, ?_, ?_⟩
        · rw [List.map_append, List.nodup_append]
          refine ⟨h2, by simp, fun a ha b hb => ?_⟩
          obtain ⟨w, hw, rfl⟩ := List.mem_map.mp ha
          rw [List.mem_singleton.mp hb]
          exact fun h => hnew (List.mem_map.mpr ⟨w, hw, h⟩)
        · rw [List.map_append, List.mem_append]
          rintro (hm | hm)
          · exact h3 hm
          · exact hp (List.mem_singleton.mp hm)
        · intro w hw
          obtain hw | hw := List.mem_append.mp hw
          · exact h4 w hw
          · rw [List.mem_singleton.mp hw]; exact hl

theorem State.claim_moves (s : State) (p : Port) (params : List Byte) : Moves s (s.claim p params).1 := by
  unfold State.claim
  split
  · exact .refl
  · next q hq =>
    have hl := readClaim_lease hq
    split
    · exact .refl
    · split
      · exact .refl
      · next x hx =>
        split
        · next e he => exact State.claimHeld_moves p hl he
        · next hn =>
          split
          · exact .refl
          · next hlen =>
            rw [State.claimOn_eq_none_iff] at hn
            refine (Move.claims _ (fun h => ?_) fun h e he => ?_).moves
            · obtain ⟨-, hnodup, hwf⟩ := h
              refine ⟨by simpa using hlen, ?_, fun e he => ?_⟩
              · rw [List.map_append, List.nodup_append]
                refine ⟨hnodup, by simp, fun a ha b hb => ?_⟩
                obtain ⟨e, he, rfl⟩ := List.mem_map.mp ha
                rw [List.mem_singleton.mp hb]
                exact hn e he
              · obtain he | he := List.mem_append.mp he
                · exact hwf e he
                · rw [List.mem_singleton.mp he]
                  exact ⟨hl, by simp, by simp, by simp⟩
            · obtain he | he := List.mem_append.mp he
              · exact h e he
              · rw [List.mem_singleton.mp he]
                exact ⟨x.1, (State.slot_of_liveRecord (r := x.2) hx).1⟩

theorem State.release_moves (s : State) (p : Port) (params : List Byte) : Moves s (s.release p params).1 := by
  unfold State.release
  split
  · exact .refl
  · split
    · exact .refl
    · next e he =>
      split
      · exact State.handOn_moves fun h => State.claimsWf_wf he h
      · split
        · refine State.setClaim_moves (by simpa using (State.claimOn_eq_some he).2) fun h e' he' => ?_
          obtain ⟨rfl⟩ := he'
          exact dropWaiter_wf p (State.claimsWf_wf he h)
        · exact .refl

/-! ## DETACH (R191) -/

/-- What a DETACH leaves of a claim entry (R98). -/
def ClaimEntry.detached (p : Port) (e : ClaimEntry) : Option ClaimEntry :=
  if e.holder = p then e.handOn else some { e with waiters := dropWaiter e.waiters p }

theorem ClaimEntry.detached_key {p : Port} {e e' : ClaimEntry} (h : e' ∈ e.detached p) : e'.key = e.key := by
  unfold ClaimEntry.detached at h
  split at h
  · exact ClaimEntry.handOn_key h
  · obtain ⟨rfl⟩ := h; rfl

theorem ClaimEntry.detached_wf {p : Port} {e e' : ClaimEntry} (h : e' ∈ e.detached p) (he : e.wf) : e'.wf := by
  unfold ClaimEntry.detached at h
  split at h
  · exact ClaimEntry.handOn_wf h he
  · obtain ⟨rfl⟩ := h; exact dropWaiter_wf p he

/-- The queue of a port after DETACH's part in one claim entry: CLAIM_GRANTED to a waiter that is granted it (R98). -/
def State.detachQueue (s : State) (p q : Port) (queue : NoticeQueue) (e : ClaimEntry) : NoticeQueue :=
  queue.postIf (e.holder = p ∧ e.waiters.head?.map Waiter.port = some q ∧ s.rights.allows q e.key .read = true)
    (.claimGranted e.key)

/-- DETACH's part in one claim entry: the entry, and the queues (R98). -/
theorem State.detachClaim_eq (p : Port) (s : State) (e : ClaimEntry) : State.detachClaim p s e = { s with
    claims := replaceClaim s.claims e.key (e.detached p)
    notices := .build fun q => s.detachQueue p q (s.notices.get q) e } := by
  unfold State.detachClaim ClaimEntry.detached State.detachQueue
  by_cases hp : e.holder = p
  · simp only [hp, if_true, true_and, State.handOn_eq]
    congr 1
    refine PortMap.ext_get fun q => ?_
    rw [PortMap.get_build]
    cases e.waiters with
    | nil => simp
    | cons w rest =>
      simp only [PortMap.get_set_postIf, List.head?_cons, Option.map_some, Option.some.injEq]
      by_cases hq : w.port = q
      · subst hq; rfl
      · simp [hq]
  · have hm : (PortMap.build fun q => (s.notices.get q).postIf (False ∧ e.waiters.head?.map Waiter.port = some q ∧
        s.rights.allows q e.key .read = true) (.claimGranted e.key)) = s.notices :=
      PortMap.build_postIf_of_not _ _ fun _ h => h.1
    simp only [hp, if_false, hm]
    rfl

/-- DETACH's part in a list of claim entries, where no key stands twice (R98). -/
theorem State.foldl_detachClaim_eq (p : Port) (todo : List ClaimEntry) : ∀ (s : State) (done : List ClaimEntry),
    s.claims = done ++ todo → (s.claims.map ClaimEntry.key).Nodup →
    todo.foldl (State.detachClaim p) s = { s with
      claims := done ++ todo.filterMap (ClaimEntry.detached p)
      notices := .build fun q => todo.foldl (s.detachQueue p q) (s.notices.get q) } := by
  induction todo with
  | nil =>
    intro s done h _
    have hm : (PortMap.build fun q => s.notices.get q) = s.notices := PortMap.ext_get fun q => by simp
    simp only [List.foldl_nil, List.filterMap_nil, ← h, hm]
  | cons e todo ih =>
    intro s done h hn
    rw [h, List.map_append, List.map_cons, List.nodup_append, List.nodup_cons] at hn
    obtain ⟨hd, ⟨he, ht⟩, hdt⟩ := hn
    have hother : ∀ x ∈ done ++ todo, x.key ≠ e.key := fun x hx hk => by
      obtain hx | hx := List.mem_append.mp hx
      · exact hdt _ (List.mem_map_of_mem hx) _ List.mem_cons_self hk
      · exact he (hk ▸ List.mem_map_of_mem hx)
    have hs := State.detachClaim_eq p s e
    rw [h, replaceClaim_of_split _ _ _ _ hother] at hs
    rw [List.foldl_cons, hs, ih _ (done ++ (e.detached p).toList) rfl]
    · cases hd' : e.detached p <;> simp [hd'] <;> rfl
    · have hkeys : ((e.detached p).toList.map ClaimEntry.key).Sublist [e.key] := by
        cases hd' : e.detached p with
        | none => simp
        | some e' => simp [ClaimEntry.detached_key hd']
      simp only [List.map_append, List.append_assoc]
      refine List.Nodup.sublist ((List.Sublist.refl _).append (hkeys.append (List.Sublist.refl _))) ?_
      rw [List.nodup_append, List.singleton_append, List.nodup_cons]
      exact ⟨hd, ⟨he, ht⟩, hdt⟩

/-- DETACH's part in the Claim Table, where it is well formed (R98). -/
theorem State.detachClaims_eq {s : State} (p : Port) (h : s.claimsWf) : s.detachClaims p = { s with
    claims := s.claims.filterMap (ClaimEntry.detached p)
    notices := .build fun q => s.claims.foldl (s.detachQueue p q) (s.notices.get q) } :=
  State.foldl_detachClaim_eq p s.claims s [] rfl h.2.1

/-- DETACH's part in a list of claim entries changes the Claim Table and the queues and nothing else; each entry that it leaves
has the key of one that was there. -/
theorem State.foldl_detachClaim_frame (p : Port) (todo : List ClaimEntry) (s : State) :
    ∃ c m, todo.foldl (State.detachClaim p) s = { s with claims := c, notices := m } ∧ s.notices.QueuesKept m ∧
      (s.claimsLive → State.claimsLive { s with claims := c }) := by
  induction todo generalizing s with
  | nil => exact ⟨s.claims, s.notices, rfl, .refl _, id⟩
  | cons e todo ih =>
    obtain ⟨c, m, heq, hm, hl⟩ := ih (State.detachClaim p s e)
    rw [State.detachClaim_eq] at heq hm hl
    rw [List.foldl_cons, State.detachClaim_eq]
    have hposted : s.notices.QueuesKept (.build fun q => s.detachQueue p q (s.notices.get q) e) := .build nofun
    exact ⟨c, m, heq, hposted.trans hm,
      fun h => hl (State.setClaim_claimsLive (fun _ => ClaimEntry.detached_key) h)⟩

theorem State.detachClaims_moves (s : State) (p : Port) : Moves s (s.detachClaims p) := by
  obtain ⟨c, m, heq, hm, hl⟩ := State.foldl_detachClaim_frame p s.claims s
  have heq' : s.detachClaims p = { s with claims := c, notices := m } := heq
  have hwf : s.claimsWf → State.claimsWf { s with claims := c } := fun h => by
    have hc : c = s.claims.filterMap (ClaimEntry.detached p) := by
      have := heq'.symm.trans (State.detachClaims_eq p h)
      exact congrArg State.claims this
    obtain ⟨hlen, hnodup, hw⟩ := h
    subst hc
    refine ⟨(List.length_filterMap_le _ _).trans hlen, ?_, fun e he => ?_⟩
    · exact hnodup.sublist (filterMap_keys_sublist (fun _ _ => ClaimEntry.detached_key) _)
    · obtain ⟨x, hx, he⟩ := List.mem_filterMap.mp he
      exact ClaimEntry.detached_wf he (hw x hx)
  rw [heq']
  exact (Move.claims c hwf hl).moves.trans (Move.notices (s := { s with claims := c }) m hm).moves

end Sys2Proof.Machine
end

section
/-! PROOFS. The moves that each command and happening is made of, and the three ways in which one can end: a chain of moves, the
beginning of a freeze, or a start-up. -/

namespace Sys2Proof.Machine

/-! ## Watch sets and notice queues (chapter 7) -/

theorem Slot.SameRecord.refl (x : Slot) : x.SameRecord x := .inl rfl

theorem State.setSlot_moves {s : State} {i : SlotId} {x : Slot} (h : (s.slot i).SameRecord x) :
    Moves s (s.setSlot i x) := by
  refine (Move.records _ fun j => ?_).moves
  by_cases hj : i = j
  · subst hj; simpa using h
  · have : i.val ≠ j.val := fun e => hj (Fin.ext e)
    simpa [this, State.slot] using Slot.SameRecord.refl (s.slot j)

/-- The LIVE record found for a key stands in its slot. -/
theorem State.slot_eq_live {s : State} {k : Nat} {i : SlotId} {r : Record} (h : s.liveRecord k = some (i, r)) :
    s.slot i = .live r := by
  have := (State.slot_of_liveRecord h).2
  cases hs : s.slot i <;> simp_all [Slot.record]

theorem State.setWatcher_moves {s : State} {k : Nat} {i : SlotId} {r : Record} (h : s.liveRecord k = some (i, r))
    (p : Port) (member : Bool) : Moves s (s.setWatcher i r p member) :=
  State.setSlot_moves (.inr ⟨r, _, State.slot_eq_live h, rfl, rfl, rfl, rfl⟩)

theorem State.watchCommand_moves {s : State} {p : Port} {params : List Byte} {act : SlotId → Record → State × Reply}
    (h : ∀ k i r, s.liveRecord k = some (i, r) → Moves s (act i r).1) : Moves s (s.watchCommand p params act).1 := by
  unfold State.watchCommand
  split
  · exact .refl
  · split
    · exact .refl
    · split
      · exact .refl
      · next hl => exact h _ _ _ hl

/-- A class descriptor whose count and quota are as they were. -/
theorem State.setClass_watchers_moves (s : State) (c : ClassId) (w : PortSet) :
    Moves s (s.setClass c { s.classDesc c with watchers := w }) := by
  refine (Move.classes _ fun d => ?_).moves
  by_cases hd : c = d
  · subst hd; simp
  · have : c.val ≠ d.val := fun e => hd (Fin.ext e)
    simp [this, State.classDesc]

theorem State.watchClass_moves (s : State) (p : Port) (member : Bool) (params : List Byte) :
    Moves s (s.watchClass p member params).1 := by
  unfold State.watchClass
  split
  · exact .refl
  · exact s.setClass_watchers_moves _ _

theorem State.nextNotice_moves (s : State) (p : Port) : Moves s (s.nextNotice p).1 := by
  unfold State.nextNotice
  split
  · exact .refl
  · next n q h =>
    refine (Move.notices _ fun r hr => ?_).moves
    by_cases hp : r = p
    · subst hp
      rw [PortMap.get_set_self]
      cases hq : s.notices.get r with
      | resync => rw [hq] at h; obtain ⟨rfl, rfl⟩ := h; exact ⟨by simp, by simp, by simp⟩
      | normal l =>
        cases l with
        | nil => rw [hq] at h; cases h
        | cons m l =>
          rw [hq] at h hr
          obtain ⟨rfl, rfl⟩ := h
          obtain ⟨hlen, hkeys, hresync⟩ := hr
          have hsub := List.sublist_cons_self n l
          exact ⟨hsub.length_le.trans hlen, hkeys.sublist (hsub.filterMap _), fun hm => hresync (hsub.subset hm)⟩
    · rwa [PortMap.get_set_of_ne _ _ hp]

theorem State.detachNotices_moves (s : State) (p : Port) : Moves s (s.detachNotices p) := by
  have hslots : Move s { s with slots := s.slots.map (Slot.unwatch p) } := .records _ fun i => by
    rw [Vector.getElem_map]
    show (s.slot i).SameRecord (Slot.unwatch p (s.slot i))
    cases hs : s.slot i with
    | live r => exact .inr ⟨r, _, rfl, rfl, rfl, rfl, rfl⟩
    | _ => exact .inl rfl
  have hclasses : Move { s with slots := s.slots.map (Slot.unwatch p) }
      { s with slots := s.slots.map (Slot.unwatch p), classes := s.classes.map (ClassDesc.unwatch p) } :=
    .classes _ fun c => by rw [Vector.getElem_map]; exact ⟨rfl, .inl rfl⟩
  have hnotices : s.notices.QueuesKept (s.notices.set p (.normal [])) := fun q hq => by
    by_cases hp : q = p
    · subst hp; rw [PortMap.get_set_self]; exact ⟨by simp, by simp, by simp⟩
    · rwa [PortMap.get_set_of_ne _ _ hp]
  exact (hslots.moves.tail hclasses).tail (.notices _ hnotices)

/-! ## The Persist Engine (chapter 8) -/

theorem State.endPause_moves (s : State) : Moves s s.endPause := (Move.engine _ (.endPause _ _)).moves

/-- A port's durability request changes, to none while the engine is FAULTED (R160). -/
theorem State.setRequest_moves {s : State} {p : Port} {x : Option Nat}
    (hx : s.persist.engine.isFaulted = true → x = none) :
    Moves s { s with persist := { s.persist with requests := s.persist.requests.set p x } } := by
  refine (Move.engine { s.persist with requests := s.persist.requests.set p x }
    ⟨.refl _, .refl _, rfl, fun h => h, fun h hf q => ?_⟩).moves
  show (s.persist.requests.set p x).get q = none
  by_cases hq : q = p
  · subst hq; rw [PortMap.get_set_self, hx hf]
  · rw [PortMap.get_set_of_ne _ _ hq]; exact h hf q

theorem State.detachEngine_moves (s : State) (p : Port) : Moves s (s.detachEngine p) := by
  have hrequests : Moves s { s with persist := { s.persist with requests := s.persist.requests.set p none } } :=
    State.setRequest_moves fun _ => rfl
  unfold State.detachEngine
  simp only
  split
  · exact hrequests.trans (State.endPause_moves _)
  · exact hrequests

theorem State.sync_moves (s : State) (p : Port) (params : List Byte) : Moves s (s.sync p params).1 := by
  unfold State.sync
  split
  · exact .refl
  · split
    · exact .refl
    · split
      · exact .refl
      · next hf =>
        split
        · exact .refl
        · exact State.setRequest_moves fun h => absurd h hf

theorem State.setEngine_moves {s : State} {e : Engine} (hj : e.job = s.persist.engine.job)
    (hf : e.faultRecord = s.persist.engine.faultRecord) (hi : e ≠ .idle ∨ e = s.persist.engine) :
    Moves s (s.setEngine e) :=
  (Move.engine _ (.of_engine hj hf hi)).moves

theorem State.setLimit_moves (s : State) (limit : Nat) : Moves s (s.setEngine (s.persist.engine.setLimit limit)) := by
  cases he : s.persist.engine with
  | pausing f pz => exact State.setEngine_moves (by rw [he]; rfl) (by rw [he]; rfl) (.inl nofun)
  | paused w pz => exact State.setEngine_moves (by rw [he]; cases w <;> rfl) (by rw [he]; rfl) (.inl nofun)
  | _ => exact State.setEngine_moves (by rw [he]; rfl) (by rw [he]; rfl) (.inr he.symm)

theorem State.pauseEngine_moves (s : State) (p : Port) (params : List Byte) : Moves s (s.pauseEngine p params).1 := by
  unfold State.pauseEngine
  split
  · exact .refl
  · next limit _ =>
    split
    · exact .refl
    · split
      · split
        · exact s.setLimit_moves limit
        · exact .refl
      · cases he : s.persist.engine with
        | idle => exact State.setEngine_moves (by rw [he]; rfl) (by rw [he]; rfl) (.inl nofun)
        | busy f => exact State.setEngine_moves (by rw [he]; rfl) (by rw [he]; rfl) (.inl nofun)
        | _ => exact State.setEngine_moves (by rw [he]; rfl) (by rw [he]; rfl) (.inr he.symm)

theorem State.resumeEngine_moves (s : State) (p : Port) : Moves s (s.resumeEngine p).1 := by
  unfold State.resumeEngine
  split
  · exact s.endPause_moves
  · exact .refl

theorem State.endPause_deliver_moves (s : State) (p : Port) :
    Moves s (s.endPause.deliver p (.pauseEnded .limit)) :=
  s.endPause_moves.trans (State.deliver_moves _ _ nofun)

theorem State.tickPause_moves (s : State) : Moves s s.tickPause := by
  unfold State.tickPause
  split
  · exact .refl
  · split
    · exact s.endPause_deliver_moves _
    · exact s.setLimit_moves _

theorem execClaimExpiry_moves {s t : State} {k : Nat} (h : execClaimExpiry k s = .next t) : Moves s t := by
  unfold execClaimExpiry at h
  split at h
  · cases h; exact .refl
  · next e he =>
    split at h
    · cases h; exact State.expireClaim_moves he
    · cases h; exact .refl

theorem execPauseLimitExpiry_moves {s t : State} (h : execPauseLimitExpiry s = .next t) : Moves s t := by
  unfold execPauseLimitExpiry at h
  split at h
  · cases h; exact .refl
  · split at h
    · cases h; exact s.endPause_deliver_moves _
    · cases h; exact .refl

/-- The job in flight, or in the fault record, and the queue are all the jobs. -/
theorem Persist.jobs_of_running {pe : Persist} {f : Flight} (h : pe.engine.running = some f) :
    pe.jobs.Perm (f.job :: pe.queue) := by
  obtain h | ⟨pz, h⟩ := (Engine.running_eq_some_iff _ _).mp h <;>
    simp [Persist.jobs, h, Engine.job, Engine.faultRecord]

theorem Persist.jobs_of_faulted {pe : Persist} {j : SlotJob} (h : pe.engine = .faulted j) :
    pe.jobs.Perm (.slot j :: pe.queue) := by
  simp [Persist.jobs, h, Engine.job, Engine.faultRecord]

theorem execPhaseEnd_moves {s t : State} {r : NvResult} (h : execPhaseEnd r s = .next t) : Moves s t := by
  unfold execPhaseEnd at h
  split at h
  · cases h; exact .refl
  · next f hf =>
    split at h
    · cases h; exact .refl
    · next ph hph =>
      cases h
      have hnv : Move s { s with nv := s.nv.endPhase f r } := .nv _ fun i => by
        unfold NvArray.endPhase
        split <;> try exact .inl rfl
        next i' d hjob _ =>
        by_cases hi : i' = i
        · subst hi
          refine .inr ⟨?_, d, (Persist.jobs_of_running hf).symm.subset (by simp [hjob])⟩
          cases he : s.nv.entry i' <;> cases r <;> simp [NvArray.setEntry, NvArray.entry, programmedEntry]
        · have : i'.val ≠ i.val := fun e => hi (Fin.ext e)
          simp [NvArray.setEntry, NvArray.entry, this]
      refine hnv.moves.trans (State.setEngine_moves ?_ ?_ (.inl ?_)) <;>
        obtain he | ⟨pz, he⟩ := (Engine.running_eq_some_iff _ _).mp hf <;> rw [he] <;>
          simp [Engine.nextPhase, Engine.job, Engine.faultRecord]

theorem execVerifyMismatch_moves {s t : State} (h : execVerifyMismatch s = .next t) : Moves s t := by
  unfold execVerifyMismatch at h
  split at h
  · cases h; exact .refl
  · next f hf =>
    have hjobs := Persist.jobs_of_running hf
    split at h
    · next j hj _ =>
      split at h
      · cases h
        refine State.setEngine_moves ?_ ?_ (.inl ?_) <;>
          obtain he | ⟨pz, he⟩ := (Engine.running_eq_some_iff _ _).mp hf <;> rw [he] <;>
            simp [Engine.retry, Engine.job, Engine.faultRecord, startAttempt]
      · cases h
        rw [State.engineFault_eq]
        have hengine : s.persist.Rearranged
            { s.persist with engine := .faulted j, requests := ⟨none, none, none⟩ } :=
          ⟨(Persist.jobs_of_faulted rfl).trans (hj ▸ hjobs.symm), .refl _, rfl, fun _ h => (nomatch h),
            fun _ _ p => by cases p <;> rfl⟩
        refine (Move.engine _ hengine).moves.trans (Move.notices _ fun q hq => ?_).moves
        rw [PortMap.get_build]
        exact NoticeQueue.postIf_wf nofun (NoticeQueue.postIf_wf nofun (NoticeQueue.postIf_wf nofun hq))
    · cases h; exact .refl

/-- A WRITE completion at a slot leaves its record's key, definition and generation (R11). -/
theorem Slot.sameRecord_completeWrite (x : Slot) (v : Value) : x.SameRecord (x.completeWrite v) := by
  cases x with
  | live r => exact .inr ⟨r, _, rfl, rfl, rfl, rfl, rfl⟩
  | _ => exact .inl rfl

theorem Slot.sameRecord_giveUpWrite (x : Slot) : x.SameRecord x.giveUpWrite := by
  cases x with
  | live r => exact .inr ⟨r, _, rfl, rfl, rfl, rfl, rfl⟩
  | _ => exact .inl rfl

theorem execWriteCompletion_moves {s t : State} (h : execWriteCompletion s = .next t) : Moves s t := by
  unfold execWriteCompletion at h
  split at h
  · cases h; exact .refl
  · next f hf =>
    split at h
    · next w hw _ =>
      cases h
      rw [State.endJob_eq_jobEnded (by exact hf)]
      exact (State.setSlot_moves (Slot.sameRecord_completeWrite _ _)).tail
        (Move.writeEnds (s := s.setSlot w.slot _) w (hw ▸ Persist.jobs_of_running hf))
    · cases h; exact .refl

theorem execEraseCompletion_moves {s t : State} (h : execEraseCompletion s = .next t) : Moves s t := by
  unfold execEraseCompletion at h
  split at h
  · cases h; exact .refl
  · next f hf =>
    split at h
    · next e he _ =>
      cases h
      rw [State.endJob_eq_jobEnded (by exact hf)]
      refine (Move.eraseEnds e _ _ (he ▸ Persist.jobs_of_running hf) (by simp) ?_).moves
      cases s.slot e.slot <;> simp [Slot.isDraining, Slot.completeErase]
    · cases h; exact .refl

theorem State.clearFault_moves (s : State) : Moves s s.clearFault.1 := by
  by_cases hf : s.persist.engine.isFaulted = false
  · rw [State.clearFault_of_not_faulted hf]
  · obtain ⟨j, hj⟩ : ∃ j, s.persist.engine = .faulted j := by
      cases he : s.persist.engine <;> simp_all [Engine.isFaulted, Engine.faultRecord]
    cases j with
    | write w =>
      rw [State.clearFault_of_write hj]
      exact (State.setSlot_moves (Slot.sameRecord_giveUpWrite _)).tail
        (Move.writeEnds (s := s.setSlot w.slot (s.slot w.slot).giveUpWrite) w (Persist.jobs_of_faulted hj))
    | erase e =>
      rw [State.clearFault_of_erase hj]
      refine (Move.eraseEnds e (s.slot e.slot).giveUpErase true (Persist.jobs_of_faulted hj) (by simp) ?_).moves
      cases s.slot e.slot <;> simp [Slot.isDraining, Slot.giveUpErase]

/-! ## The Rights Unit (chapter 6) -/

theorem State.setRole_moves (s : State) (params : List Byte) : Moves s (s.setRole params).1 := by
  unfold State.setRole
  split
  · exact .refl
  · next p role h =>
    have hp : p ≠ .p0 := by
      unfold readSetrole at h
      split at h
      · obtain ⟨_, -, h⟩ := Option.bind_eq_some_iff.mp h
        obtain ⟨_, -, h⟩ := Option.bind_eq_some_iff.mp h
        split at h
        · cases h
        · cases h; assumption
      · cases h
    exact (Move.roles _ (PortMap.get_set_of_ne _ _ hp.symm)).moves

theorem State.defineWindow_moves (s : State) (params : List Byte) : Moves s (s.defineWindow params).1 := by
  unfold State.defineWindow
  split
  · exact .refl
  · split
    · exact .refl
    · exact .refl
    · next h1 h2 => exact (Move.window _ _ ⟨fun d h => h1 d h, fun d h => h2 d h⟩ ⟨by simp, by simp⟩).moves

theorem State.removeWindow_moves (s : State) (params : List Byte) : Moves s (s.removeWindow params).1 := by
  unfold State.removeWindow
  split
  · exact .refl
  · split
    · exact .refl
    · exact .refl
    · exact .refl
    · next h => exact (Move.window _ _ ⟨by simp [h], by simp [h]⟩ ⟨by simp, by simp⟩).moves

theorem execFreezeJobEnd_moves {s t : State} (h : execFreezeJobEnd s = .next t) : Moves s t := by
  have hends : ∀ (i : WindowId) (d : WindowDef) (w : Window) (e : EntryState) (n : Notice), n ≠ .resync →
      (∃ f, s.persist.engine.running = some f ∧ f.job = .freeze i d) →
      (w = .frozen d ∧ e = .valid ∧ s.nv.entry i = .valid d ∨ w = (s.rights.window i).unfreeze ∧ e = .spoiled) →
      Moves s (State.endJob (((s.setEntryState i e).setWindow i w).deliverAdmins n) false) := by
    rintro i d w e n hn ⟨f, hf, hj⟩ hw
    rw [State.endJob_eq_jobEnded (by rw [State.deliverAdmins_eq]; exact hf), State.deliverAdmins_eq]
    have hm : s.notices.QueuesKept (.build fun q => (s.notices.get q).postIf
        (((s.setEntryState i e).setWindow i w).rights.roles.get q = .admin ∧
          ((s.setEntryState i e).setWindow i w).rights.admits q n = true) n) := .build hn
    exact (Move.notices _ hm).moves.tail (Move.freezeEnds (s := { s with notices := _ }) i d w e
      (hj ▸ Persist.jobs_of_running hf) hw)
  unfold execFreezeJobEnd at h
  split at h
  · cases h; exact .refl
  · next f hf =>
    split at h
    · next i d hj hv =>
      cases h
      refine hends i d _ _ _ nofun ⟨f, hf, hj⟩ (.inl ⟨rfl, rfl, ?_⟩)
      unfold verifyOutcome at hv
      rw [hj] at hv
      cases hp : f.phase <;> simp_all
    · next i d hj hv =>
      cases h
      exact hends i d _ _ _ nofun ⟨f, hf, hj⟩ (.inr ⟨rfl, rfl⟩)
    · cases h; exact .refl

end Sys2Proof.Machine
end

section
/-! PROOFS. The moves of the Staging Unit and the Apply Logic, and what can become of the part in one happening: a chain of
moves, the beginning of a freeze, or a part of a start-up. -/

namespace Sys2Proof.Machine

/-! ## The Staging Unit (chapter 3) -/

/-- Another stack of one port keeps the limits of staging where it keeps them itself and the pool has room for it (R37,
R39). -/
theorem State.setStack_stagingWf {s : State} {p : Port} {st : Stack} (h : s.stagingWf) (hd : st.length ≤ Config.maxDepth)
    (hc : ∀ c ∈ st, Changeset.wf c) (hheld : s.heldEntries + stackEntries st ≤ Config.poolSize + stackEntries (s.stack p)) :
    (s.setStack p st).stagingWf := by
  obtain ⟨hstacks, hpool⟩ := h
  have hsum := s.setStack_heldEntries p st
  refine ⟨fun q => ?_, by omega⟩
  by_cases hq : q = p
  · subst hq
    exact ⟨by rwa [State.depth, State.setStack_stack_self], by rwa [State.setStack_stack_self]⟩
  · rw [State.depth, State.setStack_stack_of_ne _ _ hq]
    exact hstacks q

/-- The changesets of a stack are well formed, and it is not too deep (R37). -/
theorem State.stack_wf {s : State} {p : Port} {st : Stack} (hs : s.stack p = st) (h : s.stagingWf) :
    st.length ≤ Config.maxDepth ∧ ∀ c ∈ st, Changeset.wf c := by
  obtain ⟨hd, hc⟩ := h.1 p
  rw [State.depth, hs] at hd
  rw [hs] at hc
  exact ⟨hd, hc⟩

/-- An entry placed in a changeset takes a new place only where its key is new (R50). -/
theorem length_placeEntry_le (c : Changeset) (e : Entry) :
    (placeEntry c e).length ≤ c.length + 1 ∧
      (Changeset.entryFor c e.key ≠ none → (placeEntry c e).length ≤ c.length) := by
  induction c with
  | nil => simp [placeEntry, Changeset.entryFor]
  | cons x c ih =>
    rw [placeEntry]
    split
    · split
      · simp
      · simp only [List.length_cons]; omega
    · next hx =>
      have : Changeset.entryFor (x :: c) e.key = Changeset.entryFor c e.key :=
        List.find?_cons_of_neg (by simpa using hx)
      rw [this]
      simpa using ih

theorem length_mergeInto_le (top below : Changeset) : (mergeInto top below).length ≤ top.length + below.length := by
  unfold mergeInto
  induction top generalizing below with
  | nil => simp
  | cons e top ih =>
    have h1 := ih (placeEntry below e)
    have h2 := (length_placeEntry_le below e).1
    simp only [List.foldl_cons, List.length_cons]
    omega

theorem mergeInto_wf (top : Changeset) {below : Changeset} (h : Changeset.wf below) :
    Changeset.wf (mergeInto top below) := by
  unfold mergeInto
  induction top generalizing below with
  | nil => exact h
  | cons e top ih => exact ih (placeEntry_wf e h)

theorem State.stage_moves {s : State} {p : Port} {top : Changeset} {lower : Stack} (hs : s.stack p = top :: lower)
    (k : Nat) (ch : Change) (resolved : List Byte) : Moves s (s.stage p top lower k ch resolved).1 := by
  unfold State.stage
  split
  · exact .refl
  · next hroom =>
    refine (Move.staging p _ fun h => ?_).moves
    obtain ⟨hd, hc⟩ := State.stack_wf hs h
    rw [List.forall_mem_cons] at hc
    refine State.setStack_stagingWf h (by simpa using hd) ?_ ?_
    · rw [List.forall_mem_cons]
      exact ⟨placeEntry_wf _ hc.1, hc.2⟩
    · obtain ⟨h1, h2⟩ := length_placeEntry_le top ⟨k, ch⟩
      have hfree : Changeset.entryFor top k = none → s.heldEntries < Config.poolSize := by
        intro hn
        simp only [hn, Option.isNone_none, Bool.true_and, beq_iff_eq, State.freeEntries] at hroom
        omega
      have hpool := h.2
      rw [hs, stackEntries_cons, stackEntries_cons]
      by_cases hn : Changeset.entryFor top k = none
      · have := hfree hn; omega
      · have := h2 hn; omega

theorem State.begin_moves (s : State) (p : Port) : Moves s (s.begin p).1 := by
  unfold State.begin
  split
  · exact .refl
  · next hdepth =>
    refine (Move.staging p _ fun h => State.setStack_stagingWf h ?_ ?_ ?_).moves
    · simp only [State.depth] at hdepth
      simp only [List.length_cons]; omega
    · rw [List.forall_mem_cons]
      exact ⟨List.nodup_nil, (State.stack_wf rfl h).2⟩
    · have := h.2
      rw [stackEntries_cons]; simpa using this

theorem State.dropTop_moves {s : State} {p : Port} {top : Changeset} {lower : Stack} (hs : s.stack p = top :: lower) :
    Moves s (s.setStack p lower) := by
  refine (Move.staging p _ fun h => State.setStack_stagingWf h ?_ ?_ ?_).moves
  · have := (State.stack_wf hs h).1
    simp only [List.length_cons] at this; omega
  · exact fun c hc => (State.stack_wf hs h).2 c (List.mem_cons_of_mem _ hc)
  · have := h.2
    rw [hs, stackEntries_cons]; omega

theorem State.emptyStack_moves (s : State) (p : Port) : Moves s (s.setStack p []) := by
  refine (Move.staging p _ fun h => State.setStack_stagingWf h (by simp) (by simp) ?_).moves
  have := h.2
  simp only [stackEntries, List.map_nil, List.sum_nil]; omega

theorem State.abandon_moves (s : State) (p : Port) : Moves s (s.abandon p).1 := by
  unfold State.abandon
  split
  · exact .refl
  · next hs => exact State.dropTop_moves hs

theorem State.merge_moves {s : State} {p : Port} {top below : Changeset} {lower : Stack}
    (hs : s.stack p = top :: below :: lower) : Moves s (s.merge p top below lower).1 := by
  refine (Move.staging p _ fun h => ?_).moves
  obtain ⟨hd, hc⟩ := State.stack_wf hs h
  rw [List.forall_mem_cons, List.forall_mem_cons] at hc
  refine State.setStack_stagingWf h ?_ ?_ ?_
  · simp only [List.length_cons] at hd ⊢; omega
  · rw [List.forall_mem_cons]
    exact ⟨mergeInto_wf top hc.2.1, hc.2.2⟩
  · have := length_mergeInto_le top below
    have := h.2
    rw [hs, stackEntries_cons, stackEntries_cons, stackEntries_cons]; omega

theorem State.direct_moves (s : State) (p : Port) (k : Nat) (ch : Change) : Moves s (s.direct p k ch).1 := by
  unfold State.direct State.apply
  split
  · exact .refl
  · next hc => exact (Move.apply p _ _ hc (.inr ⟨_, rfl⟩)).moves

theorem State.commit_moves (s : State) (p : Port) (params : List Byte) : Moves s (s.commit p params).1 := by
  unfold State.commit
  split
  · exact .refl
  · next mode _ =>
    split
    · exact .refl
    · next c hs =>
      unfold State.commitOutermost
      split
      · exact .refl
      · next hc => exact (Move.apply p mode c hc (.inl (by simp [hs]))).moves.trans (State.emptyStack_moves _ p)
    · next hs => exact State.merge_moves hs

section
variable {s : State} {p : Port} {params : List Byte} {top : Changeset} {lower : Stack}

theorem State.stageSet_moves (hs : s.stack p = top :: lower) : Moves s (s.stageSet p top lower params).1 := by
  unfold State.stageSet
  repeat' split
  all_goals first | exact .refl | exact State.stage_moves hs _ _ _

theorem State.directSet_moves : Moves s (s.directSet p params).1 := by
  unfold State.directSet
  repeat' split
  all_goals first | exact .refl | exact s.direct_moves _ _ _

theorem State.stageCreate_moves (hs : s.stack p = top :: lower) : Moves s (s.stageCreate p top lower params).1 := by
  unfold State.stageCreate
  repeat' split
  all_goals first | exact .refl | exact State.stage_moves hs _ _ _

theorem State.directCreate_moves : Moves s (s.directCreate p params).1 := by
  unfold State.directCreate
  repeat' split
  all_goals first | exact .refl | exact s.direct_moves _ _ _

theorem State.stageRetire_moves (hs : s.stack p = top :: lower) : Moves s (s.stageRetire p top lower params).1 := by
  unfold State.stageRetire
  repeat' split
  all_goals first | exact .refl | exact State.stage_moves hs _ _ _

theorem State.directRetire_moves : Moves s (s.directRetire p params).1 := by
  unfold State.directRetire
  repeat' split
  all_goals first | exact .refl | exact s.direct_moves _ _ _

theorem State.stageResolved_moves (hs : s.stack p = top :: lower) (k : Nat) (d : Definition) (reference v : Value) :
    Moves s (s.stageResolved p top lower k d reference v).1 := by
  unfold State.stageResolved
  split
  · exact .refl
  · exact State.stage_moves hs _ _ _

theorem State.stageDefault_moves (hs : s.stack p = top :: lower) : Moves s (s.stageDefault p top lower params).1 := by
  unfold State.stageDefault
  repeat' split
  all_goals first | exact .refl | exact State.stageResolved_moves hs _ _ _ _

theorem State.directDefault_moves : Moves s (s.directDefault p params).1 := by
  unfold State.directDefault
  repeat' split
  all_goals first | exact .refl | exact s.direct_moves _ _ _

theorem State.stageRevert_moves (hs : s.stack p = top :: lower) : Moves s (s.stageRevert p top lower params).1 := by
  unfold State.stageRevert
  repeat' split
  all_goals first | exact .refl | exact State.stageResolved_moves hs _ _ _ _

theorem State.directRevert_moves : Moves s (s.directRevert p params).1 := by
  unfold State.directRevert
  repeat' split
  all_goals first | exact .refl | exact s.direct_moves _ _ _

/-- A staging command is a chain of moves where it is one direct and staged. -/
theorem State.byDepth_moves {direct : State × Reply} {staged : Changeset → Stack → State × Reply}
    (hd : Moves s direct.1) (hs : ∀ top lower, s.stack p = top :: lower → Moves s (staged top lower).1) :
    Moves s (match s.stack p with | [] => direct | top :: lower => staged top lower).1 := by
  split
  · exact hd
  · next h => exact hs _ _ h

end

/-! ## DETACH, SETQUOTA and the port's own commands -/

theorem State.detach_moves (s : State) (p : Port) : Moves s (s.detach p) :=
  (((s.emptyStack_moves p).trans (State.detachClaims_moves _ p)).trans (State.detachEngine_moves _ p)).trans
    (State.detachNotices_moves _ p)

theorem State.setQuota_moves (s : State) (params : List Byte) : Moves s (s.setQuota params).1 := by
  unfold State.setQuota
  split
  · exact .refl
  · next c quota h =>
    split
    · exact .refl
    · next hlow =>
      have hmax : quota ≤ Config.maxQuota := by
        unfold readQuota at h
        split at h
        · split at h
          · next hq =>
            obtain ⟨c', _, he⟩ := Option.map_eq_some_iff.mp h
            cases he; exact hq
          · cases h
        · cases h
      refine (Move.classes _ fun d => ?_).moves
      by_cases hd : c = d
      · subst hd; simpa using Or.inr ⟨by omega, hmax⟩
      · have : c.val ≠ d.val := fun e => hd (Fin.ext e)
        simp [this, State.classDesc]

theorem execBadCommand_moves {s t : State} {p : Port} (h : execBadCommand p s = .next t) : Moves s t := by
  unfold execBadCommand at h
  split at h
  · split at h
    · cases h; exact .refl
    · cases h; exact State.placeAnswer_moves .refl _ _ _
  · cases h; exact .refl

/-! ## FREEZE (R112) -/

/-- A freeze begins: an ACTIVE window whose entry is UNWRITTEN becomes FREEZING with a FREEZE job (R112). -/
def State.FreezeBegins (s t : State) : Prop :=
  ∃ (i : WindowId) (d : WindowDef), s.rights.window i = .active d ∧ s.rights.entry i = .unwritten ∧
    s.persist.freePlaces ≠ 0 ∧ s.persist.engine.isFaulted = false ∧
    t = { s.setWindow i (.freezing d) with persist := s.persist.enqueue s.nv (.freeze i d) }

theorem State.freezeWindow_cases (s : State) (params : List Byte) :
    (s.freezeWindow params).1 = s ∨ s.FreezeBegins (s.freezeWindow params).1 := by
  unfold State.freezeWindow
  split
  · exact .inl rfl
  · next i _ =>
    split
    · exact .inl rfl
    · exact .inl rfl
    · exact .inl rfl
    · next d hw =>
      split
      · exact .inl rfl
      · next he =>
        split
        · exact .inl rfl
        · next hp =>
          split
          · exact .inl rfl
          · next hf => exact .inr ⟨i, d, hw, not_not.mp he, hp, by simpa using hf, rfl⟩

/-! ## What a happening can do -/

/-- Nothing volatile stands, and every port is IDLE with STARTED 1 (R166, R168). -/
def State.isCleared (s : State) : Prop :=
  (∀ p : Port, (s.port p).command = .idle ∧ (s.port p).started = true ∧ s.stack p = [] ∧ s.notices.get p = .normal []) ∧
    (∀ i : SlotId, s.slot i = .free) ∧
    (∀ c : ClassId, s.classDesc c = ⟨384, 0, ⟨false, false, false⟩⟩) ∧
    s.startup.backlog = [] ∧
    s.claims = [] ∧ s.persist = Persist.initial ∧ s.applyNumber = 0 ∧ s.rights = Rights.initial

/-- What the part can be after one happening. -/
inductive Happens (s : State) : State → Prop
  | moves {t : State} (h : Moves s t) : Happens s t
  | freeze {u : State} (h : s.FreezeBegins u) (p : Port) (x : PortState) : Happens s (u.setPort p x)
  | startup {t : State} (cut : NvResult) (hc : t.isCleared) (hr : t.startup.state ≠ .running) (hn : t.nv = s.cutNv cut) :
      Happens s t
  | scan (hs : s.startup.state = .held) :
      Happens s { s with resetnLow := false, startup := { s.startup with state := .scanning } }
  | ready (hs : s.startup.state = .scanning) : Happens s s.finishScan

theorem State.isCleared_begun (s : State) (cause : Cause) (entered : StartupState) (cut : NvResult) :
    (s.begun cause entered cut).isCleared := by
  refine ⟨fun p => ?_, fun i => by simp [State.begun, State.slot], fun c => by simp [State.begun, State.classDesc], rfl,
    rfl, rfl, rfl, rfl⟩
  cases p <;> exact ⟨rfl, rfl, rfl, rfl⟩

theorem State.isCleared_framesRestarted {s : State} (h : s.isCleared) : s.framesRestarted.isCleared := by
  obtain ⟨hp, hrest⟩ := h
  exact ⟨fun p => by have := hp p; cases p <;> exact this, hrest⟩

theorem State.begun_nv (s : State) (cause : Cause) (entered : StartupState) (cut : NvResult) :
    (s.begun cause entered cut).nv = s.cutNv cut := (s.cutNv_eq cut).symm

theorem execRestart_happens {s t : State} {p : Port} {cut : NvResult} (h : execRestart p cut s = .next t) :
    Happens s t := by
  unfold execRestart at h
  split at h
  · split at h
    · cases h; exact .moves .refl
    · split at h
      · cases h; exact .moves (State.placeAnswer_moves .refl _ _ _)
      · split at h
        · cases h; exact .moves (State.placeAnswer_moves .refl _ _ _)
        · cases h
          rw [State.beginStartup_eq]
          exact .startup cut (s.isCleared_begun _ _ _) nofun (s.begun_nv _ _ _)
  · cases h; exact .moves .refl

theorem exec_powerUp_happens {s t : State} {cut : NvResult} (h : exec (.powerUp cut) s = .next t) : Happens s t := by
  rw [exec_powerUp] at h
  cases h
  have hc := State.isCleared_framesRestarted (s.isCleared_begun .power (if s.resetnLow then .held else .scanning) cut)
  refine .startup cut hc ?_ (s.begun_nv .power (if s.resetnLow then .held else .scanning) cut)
  show (if s.resetnLow then StartupState.held else .scanning) ≠ .running
  split <;> exact nofun

theorem exec_powerLoss_happens {s t : State} {cut : NvResult} (h : execPowerLoss cut s = .next t) : Happens s t := by
  unfold execPowerLoss at h
  split at h
  · cases h
    rw [State.losePower_eq]
    have hc := State.isCleared_framesRestarted (s.isCleared_begun s.startup.cause .held cut)
    exact .startup cut hc nofun (s.begun_nv s.startup.cause .held cut)
  · cases h; exact .moves .refl

theorem exec_resetnAssert_happens {s t : State} {cut : NvResult} (h : exec (.resetnAssert cut) s = .next t) :
    Happens s t := by
  rw [exec_resetnAssert] at h
  cases h
  split
  · exact .moves .refl
  · split
    · exact .startup cut (s.isCleared_begun .pin .held cut) nofun (s.begun_nv .pin .held cut)
    · exact .moves (Move.pin true).moves

theorem execResetnRelease_happens {s t : State} (h : execResetnRelease s = .next t) : Happens s t := by
  unfold execResetnRelease at h
  split at h
  · next hs =>
    cases h
    exact .scan (by simpa using (Bool.and_eq_true_iff.mp hs).2)
  · cases h; exact .moves (Move.pin false).moves

theorem execReady_happens {s t : State} (h : execReady s = .next t) : Happens s t := by
  unfold execReady at h
  split at h
  · next hs =>
    cases h
    exact .ready (by simpa using (Bool.and_eq_true_iff.mp hs).2)
  · cases h; exact .moves .refl

theorem execFreeze_happens (s : State) (p : Port) :
    Happens s (s.serve p 0x64#8 fun params => s.adminOnly p (s.freezeWindow params)) := by
  unfold State.serve State.adminOnly
  split
  · next params _ =>
    split
    · split
      · obtain h | h := s.freezeWindow_cases params
        · rw [h]; exact .moves (State.placeAnswer_moves .refl _ _ _)
        · exact .freeze h _ _
      · exact .moves (State.placeAnswer_moves .refl _ _ _)
    · exact .moves .refl
  · exact .moves .refl

/-- Every command and happening, row by row. -/
theorem exec_happens {s t : State} : ∀ {i : Instr}, exec i s = .next t → Happens s t
  | .poll _ _, rfl | .fetch _ _, rfl | .commandFrame _ _, rfl => .moves (s.frame_moves _ _ _)
  | .badCommand _, h => .moves (execBadCommand_moves h)
  | .ident _, rfl => .moves (State.serve_moves fun _ => State.bareCommand_moves (act := (s, _)) .refl _)
  | .status _, rfl => .moves (State.serve_moves fun _ => State.bareCommand_moves (act := (s, _)) .refl _)
  | .ack _, rfl => .moves (State.serve_moves fun _ => State.bareCommand_moves (Move.port _ _).moves _)
  | .detach p, rfl => .moves (State.serve_moves fun _ => State.bareCommand_moves (s.detach_moves p) _)
  | .get _, rfl | .getdef _, rfl | .find _, rfl | .claiminfo _, rfl | .windowinfo _, rfl =>
    .moves (State.serve_moves fun _ => .refl)
  | .beginChangeset p, rfl => .moves (State.serve_moves fun _ => State.bareCommand_moves (s.begin_moves p) _)
  | .set _, rfl => .moves (State.serve_moves fun _ =>
    State.byDepth_moves State.directSet_moves fun _ _ h => State.stageSet_moves h)
  | .create _, rfl => .moves (State.serve_moves fun _ =>
    State.byDepth_moves State.directCreate_moves fun _ _ h => State.stageCreate_moves h)
  | .retire _, rfl => .moves (State.serve_moves fun _ =>
    State.byDepth_moves State.directRetire_moves fun _ _ h => State.stageRetire_moves h)
  | .default _, rfl => .moves (State.serve_moves fun _ =>
    State.byDepth_moves State.directDefault_moves fun _ _ h => State.stageDefault_moves h)
  | .revert _, rfl => .moves (State.serve_moves fun _ =>
    State.byDepth_moves State.directRevert_moves fun _ _ h => State.stageRevert_moves h)
  | .commit p, rfl => .moves (State.serve_moves fun params => s.commit_moves p params)
  | .abandon p, rfl => .moves (State.serve_moves fun _ => State.bareCommand_moves (s.abandon_moves p) _)
  | .claim p, rfl => .moves (State.serve_moves fun params => s.claim_moves p params)
  | .release p, rfl => .moves (State.serve_moves fun params => s.release_moves p params)
  | .watch p, rfl | .unwatch p, rfl => .moves (State.serve_moves fun _ =>
    State.watchCommand_moves fun _ _ _ h => State.setWatcher_moves h p _)
  | .watchclass p, rfl | .unwatchclass p, rfl => .moves (State.serve_moves fun params => s.watchClass_moves p _ params)
  | .nextnotice p, rfl => .moves (State.serve_moves fun _ => State.bareCommand_moves (s.nextNotice_moves p) _)
  | .sync p, rfl => .moves (State.serve_moves fun params => s.sync_moves p params)
  | .pause p, rfl => .moves (State.serve_moves fun params => State.adminOnly_moves (s.pauseEngine_moves p params) p)
  | .resume p, rfl => .moves (State.serve_moves fun _ =>
    State.adminOnly_moves (State.bareCommand_moves (s.resumeEngine_moves p) _) p)
  | .clearfault p, rfl => .moves (State.serve_moves fun _ =>
    State.adminOnly_moves (State.bareCommand_moves s.clearFault_moves _) p)
  | .setquota p, rfl => .moves (State.serve_moves fun params => State.adminOnly_moves (s.setQuota_moves params) p)
  | .setrole p, rfl => .moves (State.serve_moves fun params => State.adminOnly_moves (s.setRole_moves params) p)
  | .window p, rfl => .moves (State.serve_moves fun params => State.adminOnly_moves (s.defineWindow_moves params) p)
  | .unwindow p, rfl => .moves (State.serve_moves fun params => State.adminOnly_moves (s.removeWindow_moves params) p)
  | .freeze p, rfl => execFreeze_happens s p
  | .restart _ _, h => execRestart_happens h
  | .tick .all, rfl => .moves ((s.foldl_tickClaim_moves _).trans (State.tickPause_moves _))
  | .tick (.claim k), rfl => .moves (s.tickClaim_moves k)
  | .tick .pauseLimit, rfl => .moves s.tickPause_moves
  | .claimExpiry _, h => .moves (execClaimExpiry_moves h)
  | .pauseLimitExpiry, h => .moves (execPauseLimitExpiry_moves h)
  | .phaseEnd _, h => .moves (execPhaseEnd_moves h)
  | .writeCompletion, h => .moves (execWriteCompletion_moves h)
  | .eraseCompletion, h => .moves (execEraseCompletion_moves h)
  | .freezeJobEnd, h => .moves (execFreezeJobEnd_moves h)
  | .verifyMismatch, h => .moves (execVerifyMismatch_moves h)
  | .powerUp _, h => exec_powerUp_happens h
  | .powerLoss _, h => exec_powerLoss_happens h
  | .resetnAssert _, h => exec_resetnAssert_happens h
  | .resetnRelease, h => execResetnRelease_happens h
  | .ready, h => execReady_happens h

/-- A step is a happening on the state with the queue's rest, or nothing. -/
theorem step_happens {s t : State} (h : step s = .next t) : t = s ∨ ∃ rest, Happens { s with pending := rest } t := by
  unfold step at h
  split at h
  · cases h; exact .inl rfl
  · exact .inr ⟨_, exec_happens h⟩

/-- A law that does not speak of the queue is kept by every step where every happening keeps it. -/
theorem step_keeps {P : State → State → Prop} (hself : ∀ s, P s s)
    (hqueue : ∀ s rest t, P { s with pending := rest } t → P s t) (hP : ∀ s t, Happens s t → P s t) {s t : State}
    (h : step s = .next t) : P s t := by
  obtain rfl | ⟨rest, h⟩ := step_happens h
  · exact hself t
  · exact hqueue s rest t (hP _ _ h)

end Sys2Proof.Machine
end

section
/-! PROOFS. What the effect of one entry of an apply can be, and the end of a job: said once for the laws that every step
keeps. -/

namespace Sys2Proof.Machine

/-! ## The effect of one entry (R73 to R78) -/

/-- The Persist Engine after the job counted for a SET is carried out (R74 step 4, R77). -/
def State.setPersist (s : State) (mode : Persistence) (i : SlotId) (r : Record) (v : Value) : Persist :=
  match s.setJob mode i r v with
  | .none => s.persist
  | .update => s.persist.coalesce i v s.applyNumber
  | .queue => s.persist.enqueue s.nv (.slot (.write ⟨i, r.key, r.defn, v, s.applyNumber, s.applyNumber⟩))

/-- What the effect of one entry does to the blocks: the effect of a SET on a LIVE record, of a CREATE in a FREE slot, or of a
RETIRE of a LIVE record; or nothing. `m` stands for the notice queues, of which it is said that they stay well formed. -/
inductive EntryEffect (mode : Persistence) (s : State) : Entry → State → Prop
  | none (e : Entry) : EntryEffect mode s e s
  | set (k : Nat) (v : Value) (g : Option Nat) (i : SlotId) (r : Record) (m : PortMap NoticeQueue)
      (hr : s.liveRecord k = some (i, r)) (hm : s.notices.QueuesKept m) :
      EntryEffect mode s ⟨k, .set v g⟩ { s with
        slots := s.slots.set i.val (.live (r.afterSet mode v))
        persist := s.setPersist mode i r v
        notices := m }
  | create (k : Nat) (d : Definition) (v : Value) (i : SlotId) (m : PortMap NoticeQueue)
      (hi : (s.slot i).isFree = true) (hm : s.notices.QueuesKept m) :
      EntryEffect mode s ⟨k, .create d v⟩ { s with
        slots := s.slots.set i.val (.live (newRecord k d v))
        classes := s.classes.set d.cls.val { s.classDesc d.cls with count := (s.classDesc d.cls).count + 1 }
        persist :=
          if d.persistence = .lasting then
            s.persist.enqueue s.nv (.slot (.write ⟨i, k, d, v, s.applyNumber, s.applyNumber⟩))
          else s.persist
        notices := m }
  | retire (k : Nat) (g : Option Nat) (i : SlotId) (r : Record) (m : PortMap NoticeQueue)
      (hr : s.liveRecord k = some (i, r)) (hm : s.notices.QueuesKept m) :
      EntryEffect mode s ⟨k, .retire g⟩ { s with
        slots := s.slots.set i.val (if r.isLasting then .draining (some r.key) else .free)
        classes := s.classes.set r.defn.cls.val { s.classDesc r.defn.cls with count := (s.classDesc r.defn.cls).count - 1 }
        claims := replaceClaim s.claims k none
        persist :=
          if r.isLasting then (s.persist.cancelWrite i).enqueue s.nv (s.eraseJob i r.key) else s.persist
        notices := m }

/-- CLAIM_VOID and the freed entry change the Claim Table and the queues and nothing else (R93). -/
theorem State.voidClaim_frame (s : State) (k : Nat) :
    ∃ m, s.voidClaim k = { s with claims := replaceClaim s.claims k none, notices := m } ∧ s.notices.QueuesKept m := by
  have hwaiters : ∀ (ws : List Waiter) (t : State), ∃ m, ws.foldl (fun s w => s.deliver w.port (.claimVoid k)) t =
      { t with notices := m } ∧ t.notices.QueuesKept m := by
    intro ws
    induction ws with
    | nil => exact fun t => ⟨t.notices, rfl, .refl _⟩
    | cons w ws ih =>
      intro t
      obtain ⟨m, heq, hm⟩ := ih (t.deliver w.port (.claimVoid k))
      refine ⟨m, ?_, (t.deliver_queuesKept w.port (n := .claimVoid k) nofun).trans hm⟩
      rw [List.foldl_cons, heq, State.deliver_eq]
  unfold State.voidClaim
  split
  · next h =>
    rw [State.claimOn_eq_none_iff] at h
    exact ⟨s.notices, by rw [replaceClaim_of_absent _ _ _ h], .refl _⟩
  · next e _ =>
    obtain ⟨m, heq, hm⟩ := hwaiters e.waiters ((s.setClaim k none).deliver e.holder (.claimVoid k))
    refine ⟨m, ?_, ((s.setClaim k none).deliver_queuesKept e.holder (n := .claimVoid k) nofun).trans hm⟩
    rw [heq, State.deliver_eq]
    rfl

theorem State.runEntry_effect (mode : Persistence) (s : State) (e : Entry) :
    EntryEffect mode s e (State.runEntry mode s e) := by
  obtain ⟨k, ch⟩ := e
  cases ch with
  | set v g =>
    show EntryEffect mode s _ (s.runSet mode k v)
    unfold State.runSet
    split
    · exact .none _
    · next i r hr =>
      have hp : ((s.setSlot i (.live (r.afterSet mode v))).runSetJob i (r.afterSet mode v) (s.setJob mode i r v)) =
          { s with slots := s.slots.set i.val (.live (r.afterSet mode v)), persist := s.setPersist mode i r v } := by
        unfold State.setPersist
        cases s.setJob mode i r v <;> rfl
      simp only [hp, State.deliverSet_eq]
      exact .set k v g i r _ hr (.build nofun)
  | create d v =>
    show EntryEffect mode s _ (s.runCreate k d v)
    unfold State.runCreate
    split
    · exact .none _
    · next i hi =>
      have heffect := EntryEffect.create (mode := mode) (s := s) k d v i
        (.build fun q => (s.notices.get q).postIf ((s.classDesc d.cls).watchers.get q = true ∧
          s.rights.admits q (.created k) = true) (.created k)) ((lowestSlot_eq_some_iff _ _ _).mp hi).1 (.build nofun)
      by_cases hl : d.persistence = .lasting
      · simp only [hl, if_true, State.deliverSet_eq] at heffect ⊢; exact heffect
      · simp only [hl, if_false, State.deliverSet_eq] at heffect ⊢; exact heffect
  | retire g =>
    show EntryEffect mode s _ (s.runRetire k)
    unfold State.runRetire
    split
    · exact .none _
    · next i r hr =>
      obtain ⟨m, heq, hm⟩ := (s.setClass r.defn.cls { s.classDesc r.defn.cls with
        count := (s.classDesc r.defn.cls).count - 1 }).voidClaim_frame k
      have heffect := EntryEffect.retire (mode := mode) (s := s) k g i r
        (.build fun q => (m.get q).postIf ((r.watchers.union (s.classDesc r.defn.cls).watchers).get q = true ∧
          s.rights.admits q (.retired k) = true) (.retired k)) hr (hm.trans (.build nofun))
      simp only [heq, State.deliverSet_eq, State.vacate]
      cases hl : r.isLasting with
      | true => simp only [hl, if_true] at heffect ⊢; exact heffect
      | false => simp only [hl, if_false, Bool.false_eq_true] at heffect ⊢; exact heffect

/-- A law that the effect of each entry keeps is kept by all of them. -/
theorem State.runEntries_keeps {P : State → Prop} {mode : Persistence}
    (he : ∀ {s t : State} {e : Entry}, EntryEffect mode s e t → P s → P t) (es : List Entry) {s : State} (h : P s) :
    P (es.foldl (State.runEntry mode) s) := by
  induction es generalizing s with
  | nil => exact h
  | cons e es ih => exact ih (he (s.runEntry_effect mode e) h)

/-- A law that the rise of the apply number, the effect of each entry and the recomputing of the mark keep is kept by an
apply. -/
theorem State.runApply_keeps {P : State → Prop} (hn : ∀ (s : State) (n : Nat), P s → P { s with applyNumber := n })
    (he : ∀ {mode : Persistence} {s t : State} {e : Entry}, EntryEffect mode s e t → P s → P t)
    (hm : ∀ s : State, P s → P s.remark) {s : State} (mode : Persistence) (es : List Entry) (h : P s) :
    P (s.runApply mode es) :=
  hm _ (State.runEntries_keeps he es (hn _ _ h))

/-! ## What a SET does to the queue (R71) -/

theorem State.setJob_eq_update {s : State} {mode : Persistence} {i : SlotId} {r : Record} {v : Value}
    (h : s.setJob mode i r v = .update) : s.persist.queue.any (Job.isWriteFor i) = true := by
  unfold State.setJob at h
  rw [Persist.queuedWrite_isSome] at h
  split at h
  · cases h
  · split at h
    · assumption
    · split at h <;> cases h

theorem State.setJob_eq_queue {s : State} {mode : Persistence} {i : SlotId} {r : Record} {v : Value}
    (h : s.setJob mode i r v = .queue) :
    r.isLasting = true ∧ s.persist.queue.any (Job.isWriteFor i) = false := by
  unfold State.setJob at h
  rw [Persist.queuedWrite_isSome] at h
  split at h
  · cases h
  · next hl =>
    split at h
    · cases h
    · next hq => exact ⟨by simp_all, by simpa using hq⟩

/-- What a SET does to the engine: nothing, an update of a waiting WRITE, or a new WRITE (R71, R77). -/
theorem State.setPersist_cases (s : State) (mode : Persistence) (i : SlotId) (r : Record) (v : Value) :
    s.setPersist mode i r v = s.persist ∨
      s.persist.queue.any (Job.isWriteFor i) = true ∧
        s.setPersist mode i r v = s.persist.coalesce i v s.applyNumber ∨
      (r.isLasting = true ∧ s.persist.queue.any (Job.isWriteFor i) = false) ∧
        s.setPersist mode i r v =
          s.persist.enqueue s.nv (.slot (.write ⟨i, r.key, r.defn, v, s.applyNumber, s.applyNumber⟩)) := by
  unfold State.setPersist
  cases h : s.setJob mode i r v with
  | none => exact .inl rfl
  | update => exact .inr (.inl ⟨State.setJob_eq_update h, rfl⟩)
  | queue => exact .inr (.inr ⟨State.setJob_eq_queue h, rfl⟩)

/-- A job updated in the queue stays a job of its kind for its slot, with its first apply number (R141). -/
theorem Job.coalesce_same (i : SlotId) (v : Value) (n : Nat) (j : Job) :
    (∀ i', (j.coalesce i v n).isWriteFor i' = j.isWriteFor i') ∧
      (∀ i', (j.coalesce i v n).isEraseFor i' = j.isEraseFor i') ∧
      (∀ i', (j.coalesce i v n).isFreezeFor i' = j.isFreezeFor i') ∧
      (j.coalesce i v n).firstApply = j.firstApply ∧ (∀ i' d, j.coalesce i v n = .freeze i' d ↔ j = .freeze i' d) := by
  cases j with
  | freeze => exact ⟨fun _ => rfl, fun _ => rfl, fun _ => rfl, rfl, fun _ _ => Iff.rfl⟩
  | slot j =>
    cases j with
    | erase => exact ⟨fun _ => rfl, fun _ => rfl, fun _ => rfl, rfl, fun _ _ => Iff.rfl⟩
    | write w =>
      by_cases hw : w.slot = i
      · have hc : Job.coalesce i v n (.slot (.write w)) = .slot (.write { w with value := v, last := n }) := if_pos hw
        rw [hc]
        refine ⟨fun i' => ?_, fun _ => rfl, fun _ => rfl, rfl, by simp⟩
        simp only [Job.isWriteFor, Job.writeFor]; split <;> rfl
      · have hc : Job.coalesce i v n (.slot (.write w)) = .slot (.write w) := if_neg hw
        rw [hc]
        exact ⟨fun _ => rfl, fun _ => rfl, fun _ => rfl, rfl, fun _ _ => Iff.rfl⟩

/-- A count of jobs of a kind is not changed by an update. -/
theorem Persist.coalesce_countP (pe : Persist) (i : SlotId) (v : Value) (n : Nat) (f : Job → Bool)
    (hf : ∀ j : Job, f (j.coalesce i v n) = f j) : (pe.coalesce i v n).jobs.countP f = pe.jobs.countP f := by
  have hc : f ∘ Job.coalesce i v n = f := funext hf
  simp only [Persist.jobs, Persist.coalesce, List.countP_append, List.countP_map, hc]

/-- The queue that an engine leaves after a job has joined: at most the queue with the job at its tail (R139, R144). -/
theorem Persist.enqueue_queue_sublist (nv : NvArray) (pe : Persist) (j : Job) :
    (pe.enqueue nv j).queue.Sublist (pe.queue ++ [j]) := by
  unfold Persist.enqueue Persist.takeHead
  split
  · split
    · next h => simp at h
    · next h =>
      simp only at h
      rw [h]
      exact List.sublist_cons_self _ _
  · exact .refl _

/-- An engine that a job has joined is not IDLE, and is FAULTED only where it was (R144). -/
theorem Persist.enqueue_engine (nv : NvArray) (pe : Persist) (j : Job) :
    (pe.enqueue nv j).engine ≠ .idle ∧ ((pe.enqueue nv j).engine.isFaulted = true → pe.engine.isFaulted = true) := by
  unfold Persist.enqueue Persist.takeHead
  split
  · split
    · next h => simp at h
    · exact ⟨nofun, nofun⟩
  · next h => exact ⟨fun he => h he, id⟩

/-- The jobs after a waiting WRITE is cancelled (R141). -/
theorem Persist.cancelWrite_jobs_sublist (pe : Persist) (i : SlotId) : (pe.cancelWrite i).jobs.Sublist pe.jobs := by
  unfold Persist.jobs Persist.cancelWrite
  exact (List.filter_sublist.append (.refl _)).append (.refl _)

theorem Persist.cancelWrite_countP (pe : Persist) (i : SlotId) (f : Job → Bool)
    (hf : ∀ j : Job, f j = true → j.writeFor i = none) : (pe.cancelWrite i).jobs.countP f = pe.jobs.countP f := by
  have : (pe.queue.filter fun j => (j.writeFor i).isNone).countP f = pe.queue.countP f := by
    rw [List.countP_filter]
    congr 1
    funext j
    cases h : f j
    · simp
    · simp [hf j h]
  simp [Persist.jobs, Persist.cancelWrite, List.countP_append, this]

/-! ## The end of a job (R142, R144) -/

/-- The jobs left when a job has ended are those of the queue, to which the backlog has added. -/
theorem State.jobEnded_jobs (s : State) (marks : Bool) : (s.jobEnded marks).persist.jobs.Perm s.queueAfterJob := by
  unfold State.jobEnded
  cases s.persist.engine <;> cases hq : s.queueAfterJob <;>
    simp [Persist.jobs, Engine.job, Engine.faultRecord, startAttempt]

theorem State.jobEnded_queue_sublist (s : State) (marks : Bool) :
    (s.jobEnded marks).persist.queue.Sublist s.queueAfterJob := by
  unfold State.jobEnded
  cases s.persist.engine <;> simp [List.tail_sublist]

/-- When a job has ended the engine is IDLE only with an empty queue, and is not FAULTED. -/
theorem State.jobEnded_engine (s : State) (marks : Bool) :
    ((s.jobEnded marks).persist.engine = .idle → (s.jobEnded marks).persist.queue = []) ∧
      (s.jobEnded marks).persist.engine.isFaulted = false := by
  unfold State.jobEnded
  cases s.persist.engine <;> cases hq : s.queueAfterJob <;> simp [Engine.isFaulted, Engine.faultRecord]

/-- The queue with what the backlog adds holds no WRITE and no FREEZE that was not there, and no apply number (R142). -/
theorem State.mem_queueAfterJob {s : State} {j : Job} (h : j ∈ s.queueAfterJob) :
    j ∈ s.persist.queue ∨ ∃ i, j = cleanupJob i := by
  unfold State.queueAfterJob at h
  obtain h | h := List.mem_append.mp h
  · exact .inl h
  · cases hb : s.startup.backlog <;> simp_all

theorem State.queueAfterJob_countP {s : State} {f : Job → Bool} (hf : ∀ i, f (cleanupJob i) = false) :
    s.queueAfterJob.countP f = s.persist.queue.countP f := by
  unfold State.queueAfterJob
  cases s.startup.backlog <;> simp [List.countP_append, hf]

/-- The notices of the end of a job. -/
theorem State.jobEnded_queuesKept (s : State) (marks : Bool) : s.notices.QueuesKept (s.jobEnded marks).notices :=
  .build nofun

theorem State.remark_queuesKept (s : State) : s.notices.QueuesKept s.remark.notices := by
  rw [State.remark_eq]
  exact .build nofun

end Sys2Proof.Machine
end

section
/-! PROOFS. The laws of the notices, the claims and the Record Table: each is kept move by move, and by a start-up. -/

namespace Sys2Proof.Machine

/-- A law is kept by every step where every move and the beginning of a freeze keep it, and a start-up brings it about. -/
theorem step_keeps_law {P : State → Prop} (hpending : ∀ (s : State) (rest : List Instr), P s → P { s with pending := rest })
    (hmove : ∀ {s t : State}, Move s t → P s → P t) (hfreeze : ∀ {s t : State}, s.FreezeBegins t → P s → P t)
    (hcleared : ∀ {t : State}, t.isCleared → P t)
    (hscan : ∀ s : State, P s → P { s with resetnLow := false, startup := { s.startup with state := .scanning } })
    (hready : ∀ s : State, P s.finishScan) {s t : State} (h : step s = .next t) (hs : P s) : P t := by
  refine step_keeps (P := fun s t => P s → P t) (fun _ => id) (fun s rest t h hs => h (hpending s rest hs)) ?_ h hs
  intro s t h hs
  cases h with
  | moves h => exact h.keeps hmove hs
  | freeze h p x => exact hmove (.port p x) (hfreeze h hs)
  | startup cut hc => exact hcleared hc
  | scan => exact hscan s hs
  | ready => exact hready s

/-! ## The notice queues (R126) -/

theorem Move.noticesWf {s t : State} (h : Move s t) (hs : s.noticesWf) : t.noticesWf := by
  cases h with
  | notices m h => exact fun p => h p (hs p)
  | writeEnds w => exact fun p => State.jobEnded_queuesKept s true p (hs p)
  | eraseEnds e x marks => exact fun p => State.jobEnded_queuesKept (s.setSlot e.slot x) marks p (hs p)
  | freezeEnds i d w e =>
    exact fun p => State.jobEnded_queuesKept ((s.setEntryState i e).setWindow i w) false p (hs p)
  | apply p mode es =>
    refine State.runApply_keeps (fun _ _ h => h) (fun he h => ?_) (fun s h p => s.remark_queuesKept p (h p)) mode es hs
    cases he with
    | none => exact h
    | set _ _ _ _ _ _ _ hm => exact fun p => hm p (h p)
    | create _ _ _ _ _ _ hm => exact fun p => hm p (h p)
    | retire _ _ _ _ _ _ hm => exact fun p => hm p (h p)
  | _ => exact hs

theorem State.isCleared.noticesWf {s : State} (h : s.isCleared) : s.noticesWf := fun p => by
  obtain ⟨-, -, -, hn⟩ := h.1 p
  rw [hn]
  exact ⟨by simp, by simp, by simp⟩

/-- What the end of the scan leaves of the blocks that it empties (R176). -/
theorem State.finishScan_volatile (s : State) : s.finishScan.notices = .all (.normal []) ∧ s.finishScan.claims = [] ∧
    s.finishScan.staged = .all [] ∧ s.finishScan.applyNumber = 0 := by
  simp [State.finishScan, State.goOn]

theorem State.finishScan_noticesWf (s : State) : s.finishScan.noticesWf := fun p => by
  rw [s.finishScan_volatile.1, PortMap.get_all]
  exact ⟨by simp, by simp, by simp⟩

theorem State.FreezeBegins.noticesWf {s t : State} (h : s.FreezeBegins t) (hs : s.noticesWf) : t.noticesWf := by
  obtain ⟨_, _, _, _, _, _, rfl⟩ := h
  exact hs

/-! ## The Claim Table (R84, R93) -/

theorem State.replaceClaim_none_claimsWf {s : State} (k : Nat) (h : s.claimsWf) : (s.setClaim k none).claimsWf :=
  State.setClaim_claimsWf (by simp) (by simp) h

theorem State.remark_claims (s : State) : s.remark.claims = s.claims := by rw [State.remark_eq]

theorem Move.claimsWf {s t : State} (h : Move s t) (hs : s.claimsWf) : t.claimsWf := by
  cases h with
  | claims c hwf => exact hwf hs
  | apply p mode es =>
    refine State.runApply_keeps (fun _ _ h => h) (fun he h => ?_) (fun s h => ?_) mode es hs
    · cases he with
      | retire k => exact State.replaceClaim_none_claimsWf k h
      | _ => exact h
    · unfold State.claimsWf; rwa [State.remark_claims]
  | _ => exact hs

theorem State.isCleared.claimsWf {s : State} (h : s.isCleared) : s.claimsWf := by
  obtain ⟨-, -, -, -, hc, -⟩ := h
  unfold State.claimsWf
  simp [hc]

theorem State.finishScan_claimsWf (s : State) : s.finishScan.claimsWf := by
  unfold State.claimsWf
  simp [s.finishScan_volatile.2.1]

theorem State.FreezeBegins.claimsWf {s t : State} (h : s.FreezeBegins t) (hs : s.claimsWf) : t.claimsWf := by
  obtain ⟨_, _, _, _, _, _, rfl⟩ := h
  exact hs

theorem Slot.SameRecord.holds {x y : Slot} (h : x.SameRecord y) (k : Nat) : y.holds k = x.holds k := by
  obtain rfl | ⟨r, r', rfl, rfl, hk, -, -⟩ := h
  · rfl
  · simp [Slot.holds, hk]

/-- What a slot holds after another content is written to some slot. -/
theorem State.slot_set (slots : Vector Slot Config.slotCount) (i j : SlotId) (x : Slot) :
    (slots.set i.val x)[j.val] = if i = j then x else slots[j.val] := by
  rw [Vector.getElem_set]
  simp only [Fin.ext_iff]

/-- Every claim goes on naming the key of a LIVE record where no slot loses the key of a claim that stays. -/
theorem State.claimsLive_of_holds {s t : State} (hs : s.claimsLive) (hc : t.claims.Sublist s.claims)
    (h : ∀ e ∈ t.claims, ∀ i : SlotId, (s.slot i).holds e.key = true → (t.slot i).holds e.key = true) : t.claimsLive :=
  fun e he => (hs e (hc.subset he)).imp fun i hi => h e he i hi

theorem replaceClaim_none_sublist (l : List ClaimEntry) (k : Nat) : (replaceClaim l k none).Sublist l := by
  have : replaceClaim l k none = l.filter fun e => e.key ≠ k := by
    unfold replaceClaim
    rw [← List.filterMap_eq_filter]
    congr 1
    funext e
    by_cases he : e.key = k <;> simp [he, Option.guard]
  rw [this]
  exact List.filter_sublist

theorem Move.claimsLive {s t : State} (h : Move s t) (hs : s.claimsLive) : t.claimsLive := by
  cases h with
  | claims c _ hlive => exact hlive hs
  | records v h =>
    exact State.claimsLive_of_holds hs (.refl _) fun e _ i hi => ((h i).holds e.key).trans hi
  | eraseEnds e x marks _ _ hx =>
    refine State.claimsLive_of_holds hs (.refl _) fun c _ i hi => ?_
    show ((s.setSlot e.slot x).slot i).holds c.key = true
    by_cases hie : e.slot = i
    · subst hie
      rw [State.slot_setSlot_self]
      split at hx
      · cases hse : s.slot e.slot <;> simp_all [Slot.isDraining, Slot.holds]
      · rwa [hx]
    · rwa [State.slot_setSlot_of_ne _ _ hie]
  | apply p mode es =>
    refine State.runApply_keeps (fun _ _ h => h) (fun {mode s t e} he h => ?_) (fun s h => ?_) mode es hs
    · cases he with
      | none => exact h
      | set k v g i r m hr =>
        refine State.claimsLive_of_holds h (.refl _) fun c _ j hj => ?_
        have hlive := State.slot_eq_live hr
        simp only [State.slot, State.slot_set] at hj hlive ⊢
        split
        · next hij => subst hij; rw [hlive] at hj; exact hj
        · exact hj
      | create k d v i m hi =>
        refine State.claimsLive_of_holds h (.refl _) fun c _ j hj => ?_
        simp only [State.slot, State.slot_set] at hj hi ⊢
        split
        · next hij => subst hij; cases hs : s.slots[i.val] <;> simp_all [Slot.isFree, Slot.holds]
        · exact hj
      | retire k g i r m hr =>
        refine State.claimsLive_of_holds h (replaceClaim_none_sublist _ _) fun c hc j hj => ?_
        have hlive := State.slot_eq_live hr
        have hne : c.key ≠ k := by
          obtain ⟨-, hne⟩ | ⟨hn, -⟩ := mem_replaceClaim hc
          · exact hne
          · cases hn
        simp only [State.slot, State.slot_set] at hj hlive ⊢
        split
        · next hij =>
          subst hij
          rw [hlive] at hj
          simp only [Slot.holds, beq_iff_eq, State.liveRecord_key hr] at hj
          exact absurd hj.symm hne
        · exact hj
    · unfold State.claimsLive State.slot
      rw [State.remark_eq]
      exact h
  | _ => exact hs

theorem State.isCleared.claimsLive {s : State} (h : s.isCleared) : s.claimsLive := by
  obtain ⟨-, -, -, -, hc, -⟩ := h
  unfold State.claimsLive
  simp [hc]

theorem State.finishScan_claimsLive (s : State) : s.finishScan.claimsLive := by
  unfold State.claimsLive
  simp [s.finishScan_volatile.2.1]

theorem State.FreezeBegins.claimsLive {s t : State} (h : s.FreezeBegins t) (hs : s.claimsLive) : t.claimsLive := by
  obtain ⟨_, _, _, _, _, _, rfl⟩ := h
  exact hs

/-- Settles O52: each of the three laws is kept by every move and brought about by a start-up. -/
theorem noticesAndClaimsStayWellFormed : Obligations.NoticesAndClaimsStayWellFormed := by
  unfold Obligations.NoticesAndClaimsStayWellFormed
  intro s t h
  exact ⟨step_keeps_law (fun _ _ h => h) Move.noticesWf State.FreezeBegins.noticesWf State.isCleared.noticesWf
      (fun _ h => h) State.finishScan_noticesWf h,
    step_keeps_law (fun _ _ h => h) Move.claimsWf State.FreezeBegins.claimsWf State.isCleared.claimsWf
      (fun _ h => h) State.finishScan_claimsWf h,
    step_keeps_law (fun _ _ h => h) Move.claimsLive State.FreezeBegins.claimsLive State.isCleared.claimsLive
      (fun _ h => h) State.finishScan_claimsLive h⟩

end Sys2Proof.Machine
end

section
/-! PROOFS. The laws of the Record Table: the look-up of a key, unique keys, class counts and generations, and the limits of
staging. -/

namespace Sys2Proof.Machine

/-! ## The look-up of a key (R1, R4) -/

theorem Slot.holds_iff (x : Slot) (k : Nat) : x.holds k = true ↔ ∃ r, x = .live r ∧ r.key = k := by
  cases x <;> simp [Slot.holds]

theorem Slot.drains_iff (x : Slot) (k : Nat) : x.drains k = true ↔ x = .draining (some k) := by
  cases x with
  | draining key => cases key <;> simp [Slot.drains]
  | _ => simp [Slot.drains]

/-- Nothing is found for a key exactly where no slot holds it. -/
theorem State.liveRecord_eq_none_iff (s : State) (k : Nat) :
    s.liveRecord k = none ↔ ∀ i : SlotId, (s.slot i).holds k = false := by
  rw [show (∀ i : SlotId, (s.slot i).holds k = false) ↔ _ from (lowestSlot_eq_none_iff s.slots (Slot.holds k)).symm]
  unfold State.liveRecord
  cases hl : lowestSlot s.slots (Slot.holds k) with
  | none => simp
  | some i =>
    obtain ⟨r, hr, -⟩ := ((s.slot i).holds_iff k).mp ((lowestSlot_eq_some_iff _ _ _).mp hl).1
    simp [hr, Slot.record]

theorem State.keyDraining_iff (s : State) (k : Nat) :
    s.keyDraining k = true ↔ ∃ i : SlotId, s.slot i = .draining (some k) := by
  have hnone := lowestSlot_eq_none_iff s.slots (Slot.drains k)
  unfold State.keyDraining
  rw [Option.isSome_iff_ne_none, ne_eq, hnone, not_forall]
  exact exists_congr fun i => by rw [Bool.not_eq_false]; exact (s.slot i).drains_iff k

/-- A LIVE slot of a key is the one found where keys are unique (R4). -/
theorem State.liveRecord_of_slot {s : State} (hu : s.keysUnique) {i : SlotId} {r : Record} (h : s.slot i = .live r) :
    s.liveRecord r.key = some (i, r) := by
  have hholds : (s.slot i).holds r.key = true := ((s.slot i).holds_iff _).mpr ⟨r, h, rfl⟩
  have hlow : lowestSlot s.slots (Slot.holds r.key) = some i :=
    (lowestSlot_eq_some_iff _ _ _).mpr ⟨hholds, fun j hj => (hu i j r.key (ne_of_gt hj) hholds).1⟩
  simp [State.liveRecord, hlow, h, Slot.record]

/-- Settles O14: what the lowest slot of a key is, and that it is the only one where keys are unique. -/
theorem liveRecordIsTheRecord : Obligations.LiveRecordIsTheRecord := by
  unfold Obligations.LiveRecordIsTheRecord
  intro s k
  refine ⟨fun i r h => ⟨State.slot_eq_live h, State.liveRecord_key h⟩, ?_, fun hu i r => State.liveRecord_of_slot hu,
    s.keyDraining_iff k⟩
  rw [State.liveRecord_eq_none_iff]
  refine forall_congr' fun i => ?_
  rw [← Bool.not_eq_true, Slot.holds_iff]
  exact ⟨fun h r hr hk => h ⟨r, hr, hk⟩, fun h ⟨r, hr, hk⟩ => h r hr hk⟩

/-! ## Unique keys (R4) -/

/-- The slot names the key: it is LIVE with a record of it, or DRAINING with it. -/
def Slot.names (k : Nat) (x : Slot) : Prop := x.holds k = true ∨ x.drains k = true

/-- Keys stay unique where no slot comes to hold a key or to name one that it did not. -/
theorem State.keysUnique_of_names {s t : State} (hu : s.keysUnique)
    (hh : ∀ (i : SlotId) (k : Nat), (t.slot i).holds k = true → (s.slot i).holds k = true)
    (hn : ∀ (i : SlotId) (k : Nat), (t.slot i).names k → (s.slot i).names k) : t.keysUnique := by
  intro i j k hij hi
  have hj := hu i j k hij (hh i k hi)
  have hnot : ¬ (t.slot j).names k := fun h => by
    obtain h | h := hn j k h
    · exact Bool.eq_false_iff.mp hj.1 h
    · exact Bool.eq_false_iff.mp hj.2 h
  exact ⟨Bool.eq_false_iff.mpr fun h => hnot (.inl h), Bool.eq_false_iff.mpr fun h => hnot (.inr h)⟩

/-- The effect of an entry leaves the keys that slots hold and name as they are, but for its own key: a CREATE makes one slot
hold it, and a RETIRE makes the slot that held it drain it. -/
theorem EntryEffect.names {mode : Persistence} {s t : State} {e : Entry} (h : EntryEffect mode s e t) (i : SlotId) (k : Nat)
    (hk : k ≠ e.key ∨ ∀ d v, e.change ≠ .create d v) :
    ((t.slot i).holds k = true → (s.slot i).holds k = true) ∧ ((t.slot i).names k → (s.slot i).names k) := by
  cases h with
  | none => exact ⟨id, id⟩
  | set k' v g j r m hr =>
    have hlive := State.slot_eq_live hr
    simp only [State.slot, State.slot_set, Slot.names] at hlive ⊢
    split
    · next hij => subst hij; rw [hlive]; exact ⟨id, id⟩
    · exact ⟨id, id⟩
  | create k' d v j m hj =>
    have hne : k' ≠ k := fun e => hk.elim (fun h => h e.symm) fun h => h d v rfl
    simp only [State.slot, State.slot_set, Slot.names]
    split
    · simp [Slot.holds, Slot.drains, newRecord, hne]
    · exact ⟨id, id⟩
  | retire k' g j r m hr =>
    have hlive := State.slot_eq_live hr
    simp only [State.slot, State.slot_set, Slot.names] at hlive ⊢
    split
    · next hij =>
      subst hij
      rw [hlive]
      split <;> simp [Slot.holds, Slot.drains]
    · exact ⟨id, id⟩

/-- Keys stay unique through the effect of an entry; where it is a CREATE, no slot may name its key before (R65). -/
theorem EntryEffect.keysUnique {mode : Persistence} {s t : State} {e : Entry} (h : EntryEffect mode s e t)
    (hnew : ∀ d v, e.change = .create d v → ∀ i : SlotId, ¬ (s.slot i).names e.key) (hu : s.keysUnique) :
    t.keysUnique := by
  by_cases hc : ∀ d v, e.change ≠ .create d v
  · exact State.keysUnique_of_names hu (fun i k => (h.names i k (.inr hc)).1) fun i k => (h.names i k (.inr hc)).2
  · push Not at hc
    obtain ⟨d, v, hc⟩ := hc
    have hnew := hnew d v hc
    cases h with
    | none => exact hu
    | create k d v j m hj =>
      intro a b k' hab ha
      have hother : ∀ i : SlotId, i ≠ j → (s.slots.set j.val (.live (newRecord k d v)))[i.val] = s.slot i := fun i hi => by
        rw [State.slot_set, if_neg (Ne.symm hi)]; rfl
      have hself : (s.slots.set j.val (.live (newRecord k d v)))[j.val] = .live (newRecord k d v) := by
        rw [State.slot_set, if_pos rfl]
      simp only [State.slot] at ha ⊢
      by_cases haj : a = j
      · subst haj
        rw [hself] at ha
        obtain rfl : k = k' := by simpa [Slot.holds, newRecord] using ha
        rw [hother b (Ne.symm hab)]
        exact ⟨Bool.eq_false_iff.mpr fun h => hnew b (.inl h), Bool.eq_false_iff.mpr fun h => hnew b (.inr h)⟩
      · rw [hother a haj] at ha
        by_cases hbj : b = j
        · subst hbj
          rw [hself]
          have hne : k ≠ k' := by rintro rfl; exact hnew a (.inl ha)
          exact ⟨by simpa [Slot.holds, newRecord] using hne, rfl⟩
        · rw [hother b hbj]
          exact hu a b k' hab ha
    | _ => cases hc

/-! ## The checks that an apply has passed -/

/-- Every entry of an apply that passes has passed each of its checks (R63). -/
theorem State.entriesCheck_none {s : State} {p : Port} {mode : Persistence} {es : List Entry} {n : Nat}
    {passed : List ClassId} (h : s.entriesCheck p mode n passed es = none) :
    ∀ e ∈ es, ∃ passed, s.entryCheck p mode passed e = none := by
  induction es generalizing n passed with
  | nil => exact fun e he => (nomatch he)
  | cons e es ih =>
    unfold State.entriesCheck at h
    split at h
    · cases h
    · next he => exact List.forall_mem_cons.mpr ⟨⟨_, he⟩, ih h⟩

theorem State.entryCheck_none {s : State} {p : Port} {mode : Persistence} {passed : List ClassId} {e : Entry}
    (h : s.entryCheck p mode passed e = none) :
    s.rightCheck p e = none ∧ s.existenceCheck e = none ∧ s.generationCheck e.key e.change.expect = none ∧
      s.claimCheck p e = none ∧ s.valueCheck e = none ∧ s.roomCheck passed e = none ∧ modeCheck mode e = none := by
  unfold State.entryCheck firstFailure at h
  simpa using h

theorem State.applyCheck_none {s : State} {p : Port} {mode : Persistence} {es : List Entry}
    (h : s.applyCheck p mode es = none) : s.entriesCheck p mode 0 [] es = none ∧ s.wholeCheck mode es = none := by
  unfold State.applyCheck at h
  split at h
  · cases h
  · next he => exact ⟨he, Option.map_eq_none_iff.mp h⟩

/-- No slot names the key of a CREATE that passes (R65). -/
theorem State.not_names_of_absentCheck {s : State} {k : Nat} (h : s.absentCheck k = none) (i : SlotId) :
    ¬ (s.slot i).names k := by
  unfold State.absentCheck at h
  split at h
  · cases h
  · next hl =>
    split at h
    · cases h
    · next hd =>
      rintro (hi | hi)
      · exact Bool.eq_false_iff.mp ((s.liveRecord_eq_none_iff k).mp hl i) hi
      · exact hd ((s.keyDraining_iff k).mpr ⟨i, ((s.slot i).drains_iff k).mp hi⟩)

/-- Keys stay unique through the effects of entries with distinct keys, where no slot names the key of a CREATE. -/
theorem runEntries_keysUnique (mode : Persistence) (es : List Entry) (s : State) (hn : (es.map Entry.key).Nodup)
    (hnew : ∀ e ∈ es, ∀ d v, e.change = .create d v → ∀ i : SlotId, ¬ (s.slot i).names e.key) (hu : s.keysUnique) :
    (es.foldl (State.runEntry mode) s).keysUnique := by
  induction es generalizing s with
  | nil => exact hu
  | cons e es ih =>
    rw [List.map_cons, List.nodup_cons] at hn
    rw [List.forall_mem_cons] at hnew
    have heffect := s.runEntry_effect mode e
    refine ih _ hn.2 (fun x hx d v hc i h => ?_) (heffect.keysUnique hnew.1 hu)
    have hne : x.key ≠ e.key := fun h => hn.1 (h ▸ List.mem_map_of_mem hx)
    exact hnew.2 x hx d v hc i ((heffect.names i x.key (.inl hne)).2 h)

/-- The entries of an apply have distinct keys: they are those of a changeset, or a single one (R37, R56). -/
theorem State.apply_keys_nodup {s : State} {p : Port} {es : List Entry} (h : s.stagingWf)
    (hes : es ∈ s.stack p ∨ ∃ e, es = [e]) : (es.map Entry.key).Nodup := by
  obtain hes | ⟨e, rfl⟩ := hes
  · exact (h.1 p).2 es hes
  · simp

theorem State.remark_slots (s : State) : s.remark.slots = s.slots := by rw [State.remark_eq]

theorem Move.keysUnique {s t : State} (h : Move s t) (hs : s.stagingWf) (hu : s.keysUnique) : t.keysUnique := by
  cases h with
  | records v h =>
    refine State.keysUnique_of_names hu (fun i k hi => ((h i).holds k).symm.trans hi) fun i k hi => ?_
    obtain hi | hi := hi
    · exact .inl (((h i).holds k).symm.trans hi)
    · obtain he | ⟨_, _, _, he, _⟩ := h i
      · exact .inr (by rw [← he]; exact hi)
      · simp only [State.slot] at hi; rw [he] at hi; cases hi
  | eraseEnds e x marks _ _ hx =>
    have hx' : x = s.slot e.slot ∨ ∀ k, ¬ x.names k := by
      split at hx
      · obtain rfl | rfl := hx <;> exact .inr fun k h => by cases h <;> contradiction
      · exact .inl hx
    have hslot : ∀ i k, ((s.setSlot e.slot x).slot i).names k → ((s.setSlot e.slot x).slot i) = s.slot i := by
      intro i k h
      by_cases hi : e.slot = i
      · subst hi
        rw [State.slot_setSlot_self] at h ⊢
        exact hx'.resolve_right fun hn => hn k h
      · exact State.slot_setSlot_of_ne _ _ hi
    exact State.keysUnique_of_names hu (fun i k h => hslot i k (.inl h) ▸ h) fun i k h => hslot i k h ▸ h
  | apply p mode es hc hes =>
    unfold State.keysUnique State.slot State.runApply
    rw [State.remark_slots]
    refine runEntries_keysUnique mode es _ (State.apply_keys_nodup hs hes) (fun e he d v hcr i => ?_) hu
    obtain ⟨passed, hpass⟩ := State.entriesCheck_none (State.applyCheck_none hc).1 e he
    obtain ⟨-, hexists, -⟩ := State.entryCheck_none hpass
    rw [State.existenceCheck, hcr] at hexists
    exact State.not_names_of_absentCheck hexists i
  | _ => exact hu

theorem State.isCleared.keysUnique {s : State} (h : s.isCleared) : s.keysUnique := fun i j k _ hi => by
  rw [h.2.1 i] at hi
  cases hi

/-- The slot of a cell pair after the scan holds a key only where its newest copy has it, and no lower-numbered slot does
(R169, R171). -/
theorem NvArray.scannedSlot_holds {nv : NvArray} {i : SlotId} {k : Nat} (h : (nv.scannedSlot i).holds k = true) :
    (nv.pair i).provisional.holds k = true ∧ nv.heldBelow i k = false := by
  unfold NvArray.scannedSlot at h
  split at h
  · next r hr =>
    split at h
    · cases h
    · next hb =>
      obtain rfl : r.key = k := by simpa [Slot.holds] using h
      exact ⟨by simp [hr, Slot.holds], by simpa using hb⟩
  · next hnot =>
    exfalso
    obtain ⟨r, hr, -⟩ := ((nv.pair i).provisional.holds_iff k).mp h
    exact hnot r hr

theorem NvArray.scannedSlot_drains (nv : NvArray) (i : SlotId) (k : Nat) : (nv.scannedSlot i).drains k = false := by
  unfold NvArray.scannedSlot CellPair.provisional
  split
  · split <;> rfl
  · next h =>
    split
    · rfl
    · split <;> rfl

theorem State.finishScan_slot (s : State) (i : SlotId) : s.finishScan.slot i = s.nv.scannedSlot i := by
  rw [State.slot, s.finishScan_frame.1, NvArray.scan_slot]

theorem State.finishScan_keysUnique (s : State) : s.finishScan.keysUnique := by
  intro i j k hij hi
  rw [State.finishScan_slot] at hi ⊢
  refine ⟨Bool.eq_false_iff.mpr fun hj => ?_, s.nv.scannedSlot_drains j k⟩
  obtain ⟨hpi, hbi⟩ := NvArray.scannedSlot_holds hi
  obtain ⟨hpj, hbj⟩ := NvArray.scannedSlot_holds hj
  simp only [NvArray.heldBelow, List.any_eq_false, List.mem_finRange, Bool.and_eq_true, decide_eq_true_eq, not_and,
    true_implies] at hbi hbj
  obtain hlt | hlt := Nat.lt_or_gt_of_ne (fun h => hij (Fin.ext h))
  · exact hbj i hlt hpi
  · exact hbi j hlt hpj

/-! ## The limits of staging (R37, R39) -/

theorem State.remark_staged (s : State) : s.remark.staged = s.staged := by rw [State.remark_eq]

theorem State.stagingWf_of_staged {s t : State} (h : t.staged = s.staged) (hs : s.stagingWf) : t.stagingWf := by
  unfold State.stagingWf State.depth State.heldEntries State.stack at hs ⊢
  rwa [h]

theorem Move.stagingWf {s t : State} (h : Move s t) (hs : s.stagingWf) : t.stagingWf := by
  cases h with
  | staging p st h => exact h hs
  | apply p mode es =>
    refine State.runApply_keeps (fun _ _ h => h) (fun he h => ?_) (fun s h => ?_) mode es hs
    · cases he <;> exact h
    · exact State.stagingWf_of_staged s.remark_staged h
  | _ => exact hs

theorem State.stagingWf_of_empty {s : State} (h : ∀ p, s.stack p = []) : s.stagingWf := by
  have hheld : s.heldEntries = 0 := by
    have h0 : s.staged.p0 = [] := h .p0
    have h1 : s.staged.p1 = [] := h .p1
    have h2 : s.staged.p2 = [] := h .p2
    simp [State.heldEntries, stackEntries, h0, h1, h2]
  exact ⟨fun p => by simp [State.depth, h p], by simp [hheld]⟩

theorem State.isCleared.stagingWf {s : State} (h : s.isCleared) : s.stagingWf :=
  State.stagingWf_of_empty fun p => (h.1 p).2.2.1

theorem State.finishScan_stagingWf (s : State) : s.finishScan.stagingWf :=
  State.stagingWf_of_empty fun p => by rw [State.stack, s.finishScan_volatile.2.2.1, PortMap.get_all]

theorem State.FreezeBegins.stagingWf {s t : State} (h : s.FreezeBegins t) (hs : s.stagingWf) : t.stagingWf := by
  obtain ⟨_, _, _, _, _, _, rfl⟩ := h
  exact hs

/-- Settles O55: the limits of staging are kept by every move, and with them unique keys are. -/
theorem keysStayUnique : Obligations.KeysStayUnique := by
  unfold Obligations.KeysStayUnique
  intro s t hs h
  have hstaging := step_keeps_law (P := State.stagingWf) (fun _ _ h => h) Move.stagingWf State.FreezeBegins.stagingWf
    State.isCleared.stagingWf (fun _ h => h) State.finishScan_stagingWf h hs
  refine ⟨hstaging, fun hu => ?_⟩
  have hboth := step_keeps_law (P := fun s => s.stagingWf ∧ s.keysUnique) (fun _ _ h => h)
    (fun hm h => ⟨hm.stagingWf h.1, hm.keysUnique h.1 h.2⟩)
    (fun hf h => ⟨hf.stagingWf h.1, by obtain ⟨_, _, _, _, _, _, rfl⟩ := hf; exact h.2⟩)
    (fun hc => ⟨hc.stagingWf, hc.keysUnique⟩) (fun _ h => h)
    (fun s => ⟨s.finishScan_stagingWf, s.finishScan_keysUnique⟩) h ⟨hs, hu⟩
  exact hboth.2

/-! ## Class counts (R13) -/

theorem State.countSlots_set {s t : State} (i : SlotId) (x : Slot) (ht : t.slots = s.slots.set i.val x) (f : Slot → Bool) :
    t.countSlots f = (s.countSlots f - if f (s.slot i) then 1 else 0) + if f x then 1 else 0 := by
  unfold State.countSlots
  rw [ht, Vector.toList_set, List.countP_set (by simp)]
  simp only [State.slot, Vector.getElem_toList]
  rfl

theorem State.one_le_countSlots {s : State} {i : SlotId} {f : Slot → Bool} (h : f (s.slot i) = true) :
    1 ≤ s.countSlots f :=
  List.countP_pos_iff.mpr ⟨s.slot i, by simp [State.slot], h⟩

theorem State.countSlots_congr {s t : State} {f : Slot → Bool} (h : ∀ i : SlotId, f (t.slot i) = f (s.slot i)) :
    t.countSlots f = s.countSlots f := by
  have hmap : t.slots.toList.map f = s.slots.toList.map f := by
    refine List.ext_getElem (by simp) fun n h1 h2 => ?_
    simpa [State.slot] using h ⟨n, by simpa using h1⟩
  have hcount : ∀ l : List Slot, l.countP f = (l.map f).countP id := fun l => by rw [List.countP_map]; rfl
  unfold State.countSlots
  rw [hcount, hcount, hmap]

theorem Slot.SameRecord.hasClass {x y : Slot} (h : x.SameRecord y) (c : ClassId) : y.hasClass c = x.hasClass c := by
  obtain rfl | ⟨r, r', rfl, rfl, -, hd, -⟩ := h
  · rfl
  · simp [Slot.hasClass, Slot.record, hd]

/-- A class descriptor after another is written for some class. -/
theorem State.class_set (classes : Vector ClassDesc Config.classCount) (c d : ClassId) (x : ClassDesc) :
    (classes.set c.val x)[d.val] = if c = d then x else classes[d.val] := by
  rw [Vector.getElem_set]
  simp only [Fin.ext_iff]

/-- The effect of an entry leaves the quotas; a CREATE takes one of its class, and no other entry takes any (R69, R75). -/
theorem EntryEffect.classes {mode : Persistence} {s t : State} {e : Entry} (h : EntryEffect mode s e t)
    (passed : List ClassId) (c : ClassId) : (t.classDesc c).quota = (s.classDesc c).quota ∧
      (t.classDesc c).count + passed.count c ≤ (s.classDesc c).count + (e.change.addPassed passed).count c := by
  cases h with
  | none e =>
    refine ⟨rfl, Nat.add_le_add_left ?_ _⟩
    unfold Change.addPassed
    split
    · exact List.count_le_count_cons
    · exact Nat.le_refl _
  | set => exact ⟨rfl, Nat.le_refl _⟩
  | create k d v i m =>
    simp only [State.classDesc, State.class_set, Change.addPassed, List.count_cons]
    by_cases hc : d.cls = c
    · subst hc; simp only [if_true, beq_self_eq_true, true_and]; omega
    · simp [hc]
  | retire k g i r m =>
    simp only [State.classDesc, State.class_set, Change.addPassed]
    by_cases hc : r.defn.cls = c
    · subst hc; simp only [if_true, true_and]; omega
    · simp [hc]

/-- Class counts stay right through the effect of an entry; a CREATE needs one left of its quota (R69, R75, R76). -/
theorem EntryEffect.countsRight {mode : Persistence} {s t : State} {e : Entry} (h : EntryEffect mode s e t)
    (hq : ∀ d v, e.change = .create d v → (s.classDesc d.cls).count < (s.classDesc d.cls).quota) (hs : s.countsRight) :
    t.countsRight := by
  intro c
  obtain ⟨hcount, hquota, hmax⟩ := hs c
  cases h with
  | none => exact ⟨hcount, hquota, hmax⟩
  | set k v g i r m hr =>
    refine ⟨?_, hquota, hmax⟩
    have hlive := State.slot_eq_live hr
    refine hcount.trans (State.countSlots_congr fun j => ?_).symm
    simp only [State.slot, State.slot_set] at hlive ⊢
    split
    · next hij => subst hij; rw [hlive]; rfl
    · rfl
  | create k d v i m hi =>
    have hq := hq d v rfl
    rw [State.countSlots_set i _ rfl]
    have hfree : (s.slot i).hasClass c = false := by
      cases hs : s.slot i <;> simp_all [Slot.isFree, Slot.hasClass, Slot.record]
    have hnew : (Slot.live (newRecord k d v)).hasClass c = (d.cls == c) := rfl
    rw [hfree, hnew]
    simp only [State.classDesc, State.class_set] at hcount hquota hmax hq ⊢
    by_cases hc : d.cls = c
    · subst hc
      simp only [if_true, beq_self_eq_true, Bool.false_eq_true, if_false]
      omega
    · simp only [hc, if_false, beq_iff_eq, Bool.false_eq_true]
      omega
  | retire k g i r m hr =>
    have hlive := State.slot_eq_live hr
    rw [State.countSlots_set i _ rfl]
    have hgone : Slot.hasClass c (if r.isLasting then .draining (some r.key) else .free) = false := by split <;> rfl
    have hold : (s.slot i).hasClass c = (r.defn.cls == c) := by rw [hlive]; rfl
    rw [hgone, hold]
    by_cases hc : r.defn.cls = c
    · subst hc
      have hone := State.one_le_countSlots (f := Slot.hasClass r.defn.cls) (by rw [hold]; simp)
      simp only [State.classDesc, State.class_set] at hcount hquota hmax ⊢
      simp only [if_true, beq_self_eq_true, Bool.false_eq_true, if_false]
      omega
    · simp only [State.classDesc, State.class_set] at hcount hquota hmax ⊢
      simp only [hc, if_false, beq_iff_eq, Bool.false_eq_true]
      omega

theorem runEntries_countsRight {s : State} {p : Port} {mode : Persistence} (es : List Entry) :
    ∀ (n : Nat) (passed : List ClassId) (u : State), s.entriesCheck p mode n passed es = none →
      (∀ c, (u.classDesc c).quota = (s.classDesc c).quota ∧
        (u.classDesc c).count ≤ (s.classDesc c).count + passed.count c) →
      u.countsRight → (es.foldl (State.runEntry mode) u).countsRight := by
  induction es with
  | nil => exact fun _ _ _ _ _ h => h
  | cons e es ih =>
    intro n passed u hcheck hu hr
    unfold State.entriesCheck at hcheck
    split at hcheck
    · cases hcheck
    · next hpass =>
      have heffect := u.runEntry_effect mode e
      refine ih _ _ _ hcheck (fun c => ?_) (heffect.countsRight (fun d v hc => ?_) hr)
      · obtain ⟨h1, h2⟩ := heffect.classes passed c
        obtain ⟨h3, h4⟩ := hu c
        exact ⟨h1.trans h3, by omega⟩
      · obtain ⟨-, -, -, -, -, hroom, -⟩ := State.entryCheck_none hpass
        obtain ⟨h3, h4⟩ := hu d.cls
        unfold State.roomCheck at hroom
        rw [hc] at hroom
        simp only at hroom
        split at hroom
        · cases hroom
        · omega

theorem State.remark_classes (s : State) : s.remark.classes = s.classes := by rw [State.remark_eq]

theorem State.countsRight_of_slots {s t : State} (hc : t.classes = s.classes)
    (h : ∀ (c : ClassId) (i : SlotId), (t.slot i).hasClass c = (s.slot i).hasClass c) (hs : s.countsRight) :
    t.countsRight := fun c => by
  rw [State.countSlots_congr (h c), State.classDesc, hc]
  exact hs c

theorem Move.countsRight {s t : State} (h : Move s t) (hs : s.countsRight) : t.countsRight := by
  cases h with
  | classes v h =>
    intro c
    obtain ⟨h1, h2, h3⟩ := hs c
    obtain ⟨hcount, hquota⟩ := h c
    refine ⟨hcount.trans h1, ?_⟩
    obtain hq | hq := hquota
    · exact ⟨by simp only [State.classDesc] at *; omega, by simp only [State.classDesc] at *; omega⟩
    · exact hq
  | records v h => exact State.countsRight_of_slots (s := s) rfl (fun c i => (h i).hasClass c) hs
  | eraseEnds e x marks _ _ hx =>
    refine State.countsRight_of_slots (s := s) rfl (fun c i => ?_) hs
    show Slot.hasClass c ((s.setSlot e.slot x).slot i) = _
    by_cases hi : e.slot = i
    · subst hi
      rw [State.slot_setSlot_self]
      split at hx
      · obtain rfl | rfl := hx <;> cases hse : s.slot e.slot <;>
          simp_all [Slot.isDraining, Slot.hasClass, Slot.record]
      · rw [hx]
    · rw [State.slot_setSlot_of_ne _ _ hi]
  | apply p mode es hc =>
    refine State.countsRight_of_slots (State.remark_classes _) (fun c i => ?_)
      (runEntries_countsRight es 0 [] { s with applyNumber := s.applyNumber + 1 } (State.applyCheck_none hc).1
        (fun c => ⟨rfl, Nat.le_add_right _ _⟩) hs)
    unfold State.slot State.runApply
    rw [State.remark_slots]
  | _ => exact hs

theorem State.isCleared.countsRight {s : State} (h : s.isCleared) : s.countsRight := by
  obtain ⟨-, hs, hc, -⟩ := h
  intro c
  have hzero : s.countSlots (Slot.hasClass c) = 0 := by
    unfold State.countSlots
    rw [List.countP_eq_zero]
    intro x hx
    obtain ⟨n, hn, rfl⟩ := List.getElem_of_mem hx
    have hfree := hs ⟨n, by simpa using hn⟩
    simp only [State.slot] at hfree
    simp [hfree, Slot.hasClass, Slot.record]
  rw [hc c, hzero]
  exact ⟨rfl, by simp, by simp⟩

/-- The descriptors of the classes at READY (R176 step 2). -/
theorem State.finishScan_classDesc (s : State) (c : ClassId) :
    s.finishScan.classDesc c = ⟨Config.maxQuota, s.finishScan.countSlots (Slot.hasClass c), .all false⟩ := by
  have hclass : Slot.inClass c = Slot.hasClass c := by
    funext x
    cases x <;> rfl
  unfold State.classDesc State.countSlots
  rw [s.finishScan_frame.2.1, s.finishScan_frame.1]
  simp [scannedClasses, hclass]

theorem State.finishScan_countsRight (s : State) : s.finishScan.countsRight := by
  intro c
  have hmax : s.finishScan.countSlots (Slot.hasClass c) ≤ Config.maxQuota := List.countP_le_length.trans (by simp)
  rw [s.finishScan_classDesc c]
  generalize s.finishScan.countSlots (Slot.hasClass c) = n at hmax ⊢
  exact ⟨rfl, hmax, Nat.le_refl _⟩

/-! ## Generations (R7) -/

theorem successor_range {n : Nat} (h : 1 ≤ n ∧ n ≤ Config.maxGeneration) :
    1 ≤ successor n ∧ successor n ≤ Config.maxGeneration := by
  unfold successor
  split <;> constructor <;> simp only [Config.maxGeneration] at * <;> omega

theorem Move.generationsWf {s t : State} (h : Move s t) (hs : s.generationsWf) : t.generationsWf := by
  cases h with
  | records v h =>
    intro i r hr
    obtain he | ⟨r', r'', hs', he, -, -, hg⟩ := h i
    · exact hs i r (he.symm.trans hr)
    · obtain rfl := Slot.live.inj (he.symm.trans hr)
      rw [hg]
      exact hs i r' hs'
  | eraseEnds e x marks _ _ hx =>
    intro i r hr
    have hr : (s.setSlot e.slot x).slot i = .live r := hr
    by_cases hi : e.slot = i
    · subst hi
      rw [State.slot_setSlot_self] at hr
      split at hx
      · obtain rfl | rfl := hx <;> cases hr
      · exact hs _ r (hx.symm.trans hr)
    · exact hs i r ((State.slot_setSlot_of_ne _ _ hi).symm.trans hr)
  | apply p mode es =>
    refine State.runApply_keeps (fun _ _ h => h) (fun {mode s t e} he h => ?_) (fun s h => ?_) mode es hs
    · intro j r' hr'
      cases he with
      | none => exact h j r' hr'
      | set k v g i r m hr =>
        simp only [State.slot, State.slot_set] at hr'
        split at hr'
        · cases hr'; exact successor_range (h i r (State.slot_eq_live hr))
        · exact h j r' hr'
      | create k d v i m hi =>
        simp only [State.slot, State.slot_set] at hr'
        split at hr'
        · cases hr'; exact ⟨Nat.le_refl 1, by simp [newRecord]⟩
        · exact h j r' hr'
      | retire k g i r m hr =>
        simp only [State.slot, State.slot_set] at hr'
        split at hr'
        · split at hr' <;> cases hr'
        · exact h j r' hr'
    · unfold State.generationsWf State.slot
      rw [State.remark_slots]
      exact h
  | _ => exact hs

theorem State.isCleared.generationsWf {s : State} (h : s.isCleared) : s.generationsWf := fun i r hr => by
  rw [h.2.1 i] at hr
  cases hr

theorem State.finishScan_generationsWf (s : State) : s.finishScan.generationsWf := by
  intro i r hr
  rw [State.finishScan_slot] at hr
  unfold NvArray.scannedSlot CellPair.provisional at hr
  split at hr
  · next r' hr' =>
    split at hr
    · cases hr
    · cases hr
      split at hr'
      · cases hr'; exact ⟨Nat.le_refl 1, by simp [CellCopy.restored]⟩
      · split at hr' <;> cases hr'
  · next hnot => exact absurd hr (hnot r)

/-- Settles O54: both laws are kept by every move and brought about by a start-up. -/
theorem countsStayRight : Obligations.CountsStayRight := by
  unfold Obligations.CountsStayRight
  intro s t h
  exact ⟨step_keeps_law (fun _ _ h => h) Move.countsRight
      (fun hf h => by obtain ⟨_, _, _, _, _, _, rfl⟩ := hf; exact h) State.isCleared.countsRight (fun _ h => h)
      State.finishScan_countsRight h,
    step_keeps_law (fun _ _ h => h) Move.generationsWf
      (fun hf h => by obtain ⟨_, _, _, _, _, _, rfl⟩ := hf; exact h) State.isCleared.generationsWf (fun _ h => h)
      State.finishScan_generationsWf h⟩

end Sys2Proof.Machine
end

section
/-! PROOFS. The laws of the Persist Engine: the engine state, the durable mark and the apply number, and the 32 places. -/

namespace Sys2Proof.Machine

/-! ## The engine state (R143, R156) -/

/-- An IDLE engine has no job waiting, and a FAULTED one no durability request. -/
def Persist.engineWf (pe : Persist) : Prop :=
  (pe.engine = .idle → pe.queue = []) ∧ (pe.engine.isFaulted = true → ∀ p : Port, pe.requests.get p = none)

theorem Persist.engineWf_enqueue {pe : Persist} (nv : NvArray) (j : Job) (h : pe.engineWf) :
    (pe.enqueue nv j).engineWf := by
  obtain ⟨h1, h2⟩ := Persist.enqueue_engine nv pe j
  refine ⟨fun he => absurd he h1, fun hf p => ?_⟩
  rw [Persist.enqueue_requests]
  exact h.2 (h2 hf) p

theorem Persist.engineWf_coalesce {pe : Persist} (i : SlotId) (v : Value) (n : Nat) (h : pe.engineWf) :
    (pe.coalesce i v n).engineWf :=
  ⟨fun he => by simp [Persist.coalesce, h.1 he], h.2⟩

theorem Persist.engineWf_cancelWrite {pe : Persist} (i : SlotId) (h : pe.engineWf) : (pe.cancelWrite i).engineWf :=
  ⟨fun he => by simp [Persist.cancelWrite, h.1 he], h.2⟩

/-- The engine state stays well formed through the effect of an entry. -/
theorem EntryEffect.engineWf {mode : Persistence} {s t : State} {e : Entry} (h : EntryEffect mode s e t)
    (hs : s.persist.engineWf) : t.persist.engineWf := by
  cases h with
  | none => exact hs
  | set k v g i r m =>
    show (s.setPersist mode i r v).engineWf
    obtain h | ⟨-, h⟩ | ⟨-, h⟩ := s.setPersist_cases mode i r v <;> rw [h]
    · exact hs
    · exact Persist.engineWf_coalesce _ _ _ hs
    · exact Persist.engineWf_enqueue _ _ hs
  | create k d v i m =>
    dsimp only
    split
    · exact Persist.engineWf_enqueue _ _ hs
    · exact hs
  | retire k g i r m =>
    dsimp only
    split
    · exact Persist.engineWf_enqueue _ _ (Persist.engineWf_cancelWrite i hs)
    · exact hs

theorem State.remark_engineWf {s : State} (h : s.persist.engineWf) : s.remark.persist.engineWf := by
  rw [State.remark_eq]
  refine ⟨h.1, fun hf p => ?_⟩
  simp only [State.requestsLeft, PortMap.get_build]
  split
  · rfl
  · exact h.2 hf p

theorem State.jobEnded_engineWf (s : State) (marks : Bool) : (s.jobEnded marks).persist.engineWf := by
  obtain ⟨h1, h2⟩ := s.jobEnded_engine marks
  exact ⟨h1, fun hf => by rw [h2] at hf; cases hf⟩

theorem Move.engineWf {s t : State} (h : Move s t) (hs : s.engineWf) : t.engineWf := by
  cases h with
  | engine pe h => exact ⟨h.idle hs.1, h.faulted hs.2⟩
  | writeEnds w => exact s.jobEnded_engineWf true
  | eraseEnds e x marks => exact State.jobEnded_engineWf _ marks
  | freezeEnds i d w e => exact State.jobEnded_engineWf _ false
  | apply p mode es =>
    exact State.runApply_keeps (P := fun s => s.persist.engineWf) (fun _ _ h => h) EntryEffect.engineWf
      (fun _ => State.remark_engineWf) mode es hs
  | _ => exact hs

theorem State.FreezeBegins.engineWf {s t : State} (h : s.FreezeBegins t) (hs : s.engineWf) : t.engineWf := by
  obtain ⟨_, _, _, _, _, _, rfl⟩ := h
  exact Persist.engineWf_enqueue _ _ hs

theorem State.isCleared.persist_eq {s : State} (h : s.isCleared) : s.persist = Persist.initial := h.2.2.2.2.2.1

theorem State.isCleared.engineWf {s : State} (h : s.isCleared) : s.engineWf := by
  unfold State.engineWf
  rw [h.persist_eq]
  exact ⟨fun _ => rfl, fun _ p => by cases p <;> rfl⟩

/-- The Persist Engine before it takes the first clean-up job at the end of the scan (R172). -/
def NvArray.scannedPersist (nv : NvArray) : Persist :=
  ⟨((cleanupSlots nv.scan).take Config.scanCleanups).map cleanupJob, .idle, 0, .all none⟩

/-- At the end of the scan the engine takes the first clean-up job, where there is one (R172). -/
theorem State.finishScan_persist (s : State) : s.finishScan.persist = s.nv.scannedPersist.takeHead s.nv := by
  simp only [State.finishScan, State.goOn, NvArray.scannedPersist]

theorem Persist.engineWf_takeHead (nv : NvArray) (pe : Persist) : (pe.takeHead nv).engineWf := by
  unfold Persist.takeHead
  split
  · next h => exact ⟨fun _ => h, nofun⟩
  · exact ⟨nofun, nofun⟩

theorem State.finishScan_engineWf (s : State) : s.finishScan.engineWf := by
  unfold State.engineWf
  rw [State.finishScan_persist]
  exact Persist.engineWf_takeHead _ _

/-! ## The apply number (R61) -/

theorem State.runEntries_applyNumber (mode : Persistence) (es : List Entry) (s : State) :
    (es.foldl (State.runEntry mode) s).applyNumber = s.applyNumber := by
  refine State.runEntries_keeps (P := fun u => u.applyNumber = s.applyNumber) (fun he h => ?_) es rfl
  cases he <;> exact h

theorem State.runApply_applyNumber (s : State) (mode : Persistence) (es : List Entry) :
    (s.runApply mode es).applyNumber = s.applyNumber + 1 := by
  unfold State.runApply
  rw [State.remark_eq]
  exact State.runEntries_applyNumber mode es _

theorem Move.applyNumberWf {s t : State} (h : Move s t) (hs : s.applyNumberWf) : t.applyNumberWf := by
  cases h with
  | apply p mode es hc =>
    have hwhole := (State.applyCheck_none hc).2
    unfold State.wholeCheck at hwhole
    unfold State.applyNumberWf
    rw [State.runApply_applyNumber]
    split at hwhole
    · cases hwhole
    · split at hwhole
      · cases hwhole
      · split at hwhole
        · cases hwhole
        · omega
  | _ => exact hs

theorem State.isCleared.applyNumber_eq {s : State} (h : s.isCleared) : s.applyNumber = 0 := h.2.2.2.2.2.2.1

/-! ## The durable mark (R159) -/

/-- The first apply numbers of the jobs (R140). -/
def Persist.firsts (pe : Persist) : List Nat := pe.jobs.filterMap Job.firstApply

/-- The mark is below a bound where there is a first apply number not above it, and otherwise is the apply number. -/
theorem markOf_cases (jobs : List Job) (n : Nat) :
    (jobs.filterMap Job.firstApply = [] ∧ markOf jobs n = n) ∨
      ∃ m ∈ jobs.filterMap Job.firstApply, (∀ x ∈ jobs.filterMap Job.firstApply, m ≤ x) ∧ markOf jobs n = m - 1 := by
  unfold markOf
  cases h : (jobs.filterMap Job.firstApply).min? with
  | none => exact .inl ⟨List.min?_eq_none_iff.mp h, rfl⟩
  | some m =>
    obtain ⟨hm, hle⟩ := List.min?_eq_some_iff.mp h
    exact .inr ⟨m, hm, hle, rfl⟩

/-- The mark is given by which first apply numbers there are. -/
theorem markOf_congr {jobs jobs' : List Job} (n : Nat)
    (h : ∀ m, m ∈ jobs.filterMap Job.firstApply ↔ m ∈ jobs'.filterMap Job.firstApply) : markOf jobs n = markOf jobs' n := by
  obtain ⟨he, h1⟩ | ⟨m, hm, hle, h1⟩ := markOf_cases jobs n <;>
    obtain ⟨he', h2⟩ | ⟨m', hm', hle', h2⟩ := markOf_cases jobs' n <;> rw [h1, h2]
  · rw [← h, he] at hm'; cases hm'
  · rw [h, he'] at hm; cases hm
  · rw [Nat.le_antisymm (hle m' ((h m').mpr hm')) (hle' m ((h m).mp hm))]

theorem State.markWf.mark_lt {s : State} (h : s.markWf) : s.persist.mark ≤ s.applyNumber ∧
    ∀ n ∈ s.persist.firsts, s.persist.mark < n := by
  obtain ⟨hm, hr⟩ := h
  obtain ⟨he, h1⟩ | ⟨m, hmem, hle, h1⟩ := markOf_cases s.persist.jobs s.applyNumber
  · exact ⟨by omega, fun n hn => by unfold Persist.firsts at hn; rw [he] at hn; cases hn⟩
  · obtain ⟨h2, h3⟩ := hr m hmem
    exact ⟨by omega, fun n hn => by have := hle n hn; omega⟩

/-- The mark and the apply number do not go back. -/
def State.MarkStep (s t : State) : Prop :=
  s.markWf → t.markWf ∧ s.persist.mark ≤ t.persist.mark ∧ s.applyNumber ≤ t.applyNumber

/-- The mark recomputed over jobs of which none has a first apply number that is not above the old mark (R159). -/
theorem State.markStep_of_remarked {s t : State} (hn : s.applyNumber ≤ t.applyNumber)
    (hm : t.persist.mark = markOf t.persist.jobs t.applyNumber)
    (hf : ∀ n ∈ t.persist.firsts, n ∈ s.persist.firsts ∨ s.applyNumber < n ∧ n ≤ t.applyNumber) : s.MarkStep t := by
  intro hs
  obtain ⟨hmark, hlt⟩ := hs.mark_lt
  refine ⟨⟨hm, fun n hnm => ?_⟩, ?_, hn⟩
  · obtain h | h := hf n hnm
    · have := hs.2 n h; omega
    · omega
  · rw [hm]
    obtain ⟨-, h1⟩ | ⟨m, hmem, -, h1⟩ := markOf_cases t.persist.jobs t.applyNumber
    · omega
    · obtain h | h := hf m hmem
      · have := hlt m h; omega
      · omega

/-- The mark left as it is over jobs with the same first apply numbers. -/
theorem State.markStep_of_same {s t : State} (hn : t.applyNumber = s.applyNumber) (hm : t.persist.mark = s.persist.mark)
    (hf : ∀ n, n ∈ t.persist.firsts ↔ n ∈ s.persist.firsts) : s.MarkStep t := by
  intro hs
  refine ⟨⟨?_, fun n h => ?_⟩, by omega, by omega⟩
  · rw [hm, hn, hs.1]
    exact markOf_congr _ fun n => (hf n).symm
  · rw [hn]
    exact hs.2 n ((hf n).mp h)

theorem Persist.mem_firsts_of_perm {pe pe' : Persist} (h : pe'.jobs.Perm pe.jobs) (n : Nat) :
    n ∈ pe'.firsts ↔ n ∈ pe.firsts := (h.filterMap _).mem_iff

theorem Persist.mem_firsts {pe : Persist} {n : Nat} : n ∈ pe.firsts ↔ ∃ j ∈ pe.jobs, j.firstApply = some n :=
  List.mem_filterMap

theorem Persist.mem_firsts_enqueue {nv : NvArray} {pe : Persist} {j : Job} {n : Nat} (h : n ∈ (pe.enqueue nv j).firsts) :
    j.firstApply = some n ∨ n ∈ pe.firsts := by
  obtain ⟨j', hj, hn⟩ := Persist.mem_firsts.mp h
  obtain rfl | hj := List.mem_cons.mp ((Persist.enqueue_jobs nv pe j).subset hj)
  · exact .inl hn
  · exact .inr (Persist.mem_firsts.mpr ⟨j', hj, hn⟩)

theorem Persist.firsts_coalesce (pe : Persist) (i : SlotId) (v : Value) (n : Nat) :
    (pe.coalesce i v n).firsts = pe.firsts := by
  have hc : Job.firstApply ∘ Job.coalesce i v n = Job.firstApply :=
    funext fun j => (Job.coalesce_same i v n j).2.2.2.1
  simp only [Persist.firsts, Persist.jobs, Persist.coalesce, List.filterMap_append, List.filterMap_map, hc]

/-- The effect of an entry brings no first apply number but that of its apply (R77). -/
theorem EntryEffect.firsts {mode : Persistence} {s t : State} {e : Entry} (h : EntryEffect mode s e t) {n : Nat}
    (hn : n ∈ t.persist.firsts) : n ∈ s.persist.firsts ∨ n = s.applyNumber := by
  cases h with
  | none => exact .inl hn
  | set k v g i r m =>
    have hn : n ∈ (s.setPersist mode i r v).firsts := hn
    obtain h | ⟨-, h⟩ | ⟨-, h⟩ := s.setPersist_cases mode i r v <;> rw [h] at hn
    · exact .inl hn
    · exact .inl (by rwa [Persist.firsts_coalesce] at hn)
    · obtain hn | hn := Persist.mem_firsts_enqueue hn
      · exact .inr (Option.some.inj hn).symm
      · exact .inl hn
  | create k d v i m =>
    dsimp only at hn
    split at hn
    · obtain hn | hn := Persist.mem_firsts_enqueue hn
      · exact .inr (Option.some.inj hn).symm
      · exact .inl hn
    · exact .inl hn
  | retire k g i r m =>
    dsimp only at hn
    split at hn
    · obtain hn | hn := Persist.mem_firsts_enqueue hn
      · have hn : ((s.persist.queuedWrite i).map WriteJob.first).getD s.applyNumber = n := Option.some.inj hn
        cases hq : s.persist.queuedWrite i with
        | none => rw [hq] at hn; exact .inr hn.symm
        | some w =>
          rw [hq] at hn
          obtain ⟨j, hj, hw⟩ := List.exists_of_findSome?_eq_some hq
          refine .inl (Persist.mem_firsts.mpr ⟨j, ?_, ?_⟩)
          · exact List.mem_append_left _ (List.mem_append_left _ hj)
          · cases j with
            | freeze => cases hw
            | slot j =>
              cases j with
              | erase => cases hw
              | write w' =>
                simp only [Job.writeFor] at hw
                split at hw
                · cases hw; exact congrArg some hn
                · cases hw
      · obtain ⟨j, hj, hj'⟩ := Persist.mem_firsts.mp hn
        exact .inl (Persist.mem_firsts.mpr ⟨j, (Persist.cancelWrite_jobs_sublist _ i).subset hj, hj'⟩)
    · exact .inl hn

theorem State.runEntries_firsts {mode : Persistence} {es : List Entry} {s : State} {n : Nat}
    (hn : n ∈ (es.foldl (State.runEntry mode) s).persist.firsts) : n ∈ s.persist.firsts ∨ n = s.applyNumber := by
  have hkeeps := State.runEntries_keeps (mode := mode)
    (P := fun u => u.applyNumber = s.applyNumber ∧ ∀ n ∈ u.persist.firsts, n ∈ s.persist.firsts ∨ n = s.applyNumber)
    (fun he h => ⟨by cases he <;> exact h.1, fun n hn => (he.firsts hn).elim (h.2 n) fun e => .inr (e.trans h.1)⟩) es
    (s := s) ⟨rfl, fun _ h => .inl h⟩
  exact hkeeps.2 n hn

/-- The first apply numbers when a job has ended are those of the jobs in the queue. -/
theorem State.mem_firsts_jobEnded {s : State} {marks : Bool} {n : Nat} :
    n ∈ (s.jobEnded marks).persist.firsts ↔ ∃ j ∈ s.persist.queue, j.firstApply = some n := by
  rw [Persist.mem_firsts]
  constructor
  · rintro ⟨j, hj, hn⟩
    obtain hj | ⟨i, rfl⟩ := State.mem_queueAfterJob ((s.jobEnded_jobs marks).subset hj)
    · exact ⟨j, hj, hn⟩
    · cases hn
  · rintro ⟨j, hj, hn⟩
    exact ⟨j, (s.jobEnded_jobs marks).symm.subset (List.mem_append_left _ hj), hn⟩

theorem State.jobEnded_markStep {s : State} {marks : Bool} {j : Job} (hj : s.persist.jobs.Perm (j :: s.persist.queue))
    (hm : marks = false → j.firstApply = none) : s.MarkStep (s.jobEnded marks) := by
  cases marks with
  | true =>
    refine State.markStep_of_remarked (Nat.le_refl _) ?_ fun n hn => .inl ?_
    · exact markOf_congr _ fun n => (((s.jobEnded_jobs true).filterMap _).mem_iff).symm
    · obtain ⟨j', hj', hn⟩ := State.mem_firsts_jobEnded.mp hn
      exact Persist.mem_firsts.mpr ⟨j', hj.symm.subset (List.mem_cons_of_mem _ hj'), hn⟩
  | false =>
    refine State.markStep_of_same rfl rfl fun n => ?_
    rw [State.mem_firsts_jobEnded, Persist.mem_firsts]
    constructor
    · rintro ⟨j', hj', hn⟩
      exact ⟨j', hj.symm.subset (List.mem_cons_of_mem _ hj'), hn⟩
    · rintro ⟨j', hj', hn⟩
      obtain rfl | hj' := List.mem_cons.mp (hj.subset hj')
      · rw [hm rfl] at hn; cases hn
      · exact ⟨j', hj', hn⟩

theorem Move.markStep {s t : State} (h : Move s t) : s.MarkStep t := by
  cases h with
  | engine pe h => exact State.markStep_of_same rfl h.mark (Persist.mem_firsts_of_perm h.jobs)
  | writeEnds w hj => exact State.jobEnded_markStep hj nofun
  | eraseEnds e x marks hj hm =>
    exact State.jobEnded_markStep (s := s.setSlot e.slot x) hj fun h => by simp [Job.firstApply, hm h]
  | freezeEnds i d w e hj =>
    exact State.jobEnded_markStep (s := (s.setEntryState i e).setWindow i w) hj fun _ => rfl
  | apply p mode es =>
    have hn := s.runApply_applyNumber mode es
    refine State.markStep_of_remarked (by omega) ?_ fun n h => ?_
    · unfold State.runApply
      rw [State.remark_eq]
      rfl
    · have h : n ∈ (es.foldl (State.runEntry mode) { s with applyNumber := s.applyNumber + 1 }).persist.firsts := by
        unfold State.runApply at h
        rw [State.remark_eq] at h
        exact h
      obtain h | h := State.runEntries_firsts h
      · exact .inl h
      · have h : n = s.applyNumber + 1 := h
        exact .inr (by omega)
  | _ => exact fun h => ⟨h, Nat.le_refl _, Nat.le_refl _⟩

theorem Moves.markStep {s t : State} (h : Moves s t) : s.MarkStep t := by
  induction h with
  | refl => exact fun h => ⟨h, Nat.le_refl _, Nat.le_refl _⟩
  | tail _ hm ih =>
    intro hs
    obtain ⟨h1, h2, h3⟩ := ih hs
    obtain ⟨h4, h5, h6⟩ := hm.markStep h1
    exact ⟨h4, h2.trans h5, h3.trans h6⟩

theorem State.FreezeBegins.markStep {s t : State} (h : s.FreezeBegins t) : s.MarkStep t := by
  obtain ⟨i, d, _, _, _, _, rfl⟩ := h
  refine State.markStep_of_same rfl (Persist.enqueue_mark _ _ _) fun n => ⟨fun h => ?_, fun h => ?_⟩
  · obtain h | h := Persist.mem_firsts_enqueue h
    · cases h
    · exact h
  · obtain ⟨j, hj, hn⟩ := Persist.mem_firsts.mp h
    exact Persist.mem_firsts.mpr ⟨j, (Persist.enqueue_jobs _ _ _).symm.subset (List.mem_cons_of_mem _ hj), hn⟩

theorem State.isCleared.markWf {s : State} (h : s.isCleared) : s.markWf := by
  unfold State.markWf
  rw [h.persist_eq, h.applyNumber_eq]
  exact ⟨rfl, nofun⟩

/-- The jobs at the end of the scan are clean-up jobs, without apply numbers (R172). -/
theorem State.finishScan_jobs (s : State) :
    s.finishScan.persist.jobs.Perm (((cleanupSlots s.nv.scan).take Config.scanCleanups).map cleanupJob) := by
  rw [State.finishScan_persist]
  refine (Persist.takeHead_jobs _ _ rfl).trans ?_
  simp [NvArray.scannedPersist, Persist.jobs, Engine.job, Engine.faultRecord]

theorem State.finishScan_markWf (s : State) : s.finishScan.markWf := by
  have hfirsts : s.finishScan.persist.jobs.filterMap Job.firstApply = [] := by
    rw [List.filterMap_eq_nil_iff]
    intro j hj
    obtain ⟨i, -, rfl⟩ := List.mem_map.mp (s.finishScan_jobs.subset hj)
    rfl
  unfold State.markWf markOf
  rw [hfirsts, s.finishScan_volatile.2.2.2]
  refine ⟨?_, nofun⟩
  rw [State.finishScan_persist]
  unfold Persist.takeHead
  split <;> rfl

/-- What a happening does to the mark and the apply number: they go back only at a start-up. -/
theorem Happens.mark {s t : State} (h : Happens s t) (hs : s.markWf) :
    t.markWf ∧ (s.startup.state = .running → t.startup.state = .running →
      s.persist.mark ≤ t.persist.mark ∧ s.applyNumber ≤ t.applyNumber) := by
  cases h with
  | moves h =>
    obtain ⟨h1, h2⟩ := h.markStep hs
    exact ⟨h1, fun _ _ => h2⟩
  | freeze h p x =>
    obtain ⟨h1, h2⟩ := h.markStep hs
    exact ⟨h1, fun _ _ => h2⟩
  | startup cut hc hr => exact ⟨hc.markWf, fun _ h => absurd h hr⟩
  | scan => exact ⟨hs, fun _ _ => ⟨Nat.le_refl _, Nat.le_refl _⟩⟩
  | ready hscan => exact ⟨s.finishScan_markWf, fun h => by rw [hscan] at h; cases h⟩

/-- Settles O57: the engine and the apply number move by move, and the mark with its order. -/
theorem engineStaysWellFormed : Obligations.EngineStaysWellFormed := by
  unfold Obligations.EngineStaysWellFormed
  intro s t h
  refine ⟨step_keeps_law (fun _ _ h => h) Move.engineWf State.FreezeBegins.engineWf State.isCleared.engineWf
      (fun _ h => h) State.finishScan_engineWf h,
    step_keeps_law (P := State.applyNumberWf) (fun _ _ h => h) Move.applyNumberWf
      (fun hf h => by obtain ⟨_, _, _, _, _, _, rfl⟩ := hf; exact h)
      (fun hc => by unfold State.applyNumberWf; simp [hc.applyNumber_eq]) (fun _ h => h)
      (fun s => by unfold State.applyNumberWf; simp [s.finishScan_volatile.2.2.2]) h, fun hs => ?_⟩
  have hmark := step_keeps (P := fun s t => s.markWf → t.markWf ∧ (s.startup.state = .running →
      t.startup.state = .running → s.persist.mark ≤ t.persist.mark ∧ s.applyNumber ≤ t.applyNumber))
    (fun s h => ⟨h, fun _ _ => ⟨Nat.le_refl _, Nat.le_refl _⟩⟩) (fun _ _ _ h => h) (fun s t h => h.mark) h hs
  exact ⟨hmark.1, hmark.1.mark_lt.1, hmark.2⟩

end Sys2Proof.Machine
end

section
/-! PROOFS. The jobs of the Persist Engine: the 32 places, and the jobs that stand for the slots and the windows. -/

namespace Sys2Proof.Machine

/-! ## The number of jobs that an entry adds (R71, R72) -/

theorem Persist.length_enqueue (nv : NvArray) (pe : Persist) (j : Job) :
    (pe.enqueue nv j).jobs.length = pe.jobs.length + 1 := (Persist.enqueue_jobs nv pe j).length_eq

theorem Persist.length_coalesce (pe : Persist) (i : SlotId) (v : Value) (n : Nat) :
    (pe.coalesce i v n).jobs.length = pe.jobs.length := by
  simp [Persist.jobs, Persist.coalesce]

/-- The cancelling of a waiting WRITE gives its place back (R71). -/
theorem Persist.length_cancelWrite_lt {pe : Persist} {i : SlotId} (h : (pe.queuedWrite i).isSome = true) :
    (pe.cancelWrite i).jobs.length < pe.jobs.length := by
  rw [Persist.queuedWrite_isSome] at h
  obtain ⟨j, hj, hw⟩ := List.any_eq_true.mp h
  have hlt : (pe.queue.filter fun j => (j.writeFor i).isNone).length < pe.queue.length := by
    refine List.length_filter_lt_length_iff_exists.mpr ⟨j, hj, ?_⟩
    unfold Job.isWriteFor at hw
    cases hjw : j.writeFor i <;> simp_all
  simp only [Persist.jobs, Persist.cancelWrite, List.length_append]
  omega

/-- An entry adds no more jobs than are counted for it (R71). -/
theorem EntryEffect.length_jobs {mode : Persistence} {s t : State} {e : Entry} (h : EntryEffect mode s e t) :
    t.persist.jobs.length ≤ s.persist.jobs.length + ((s.jobCount mode e).1 - (s.jobCount mode e).2) := by
  cases h with
  | none => exact Nat.le_add_right _ _
  | set k v g i r m hr =>
    simp only [State.jobCount, hr, State.setPersist]
    cases s.setJob mode i r v with
    | none => simp
    | update => simp [Persist.length_coalesce]
    | queue => simp [Persist.length_enqueue]
  | create k d v i m =>
    simp only [State.jobCount]
    split <;> simp [Persist.length_enqueue]
  | retire k g i r m hr =>
    simp only [State.jobCount, hr]
    split
    · rw [Persist.length_enqueue]
      split
      · next hq => have := Persist.length_cancelWrite_lt hq; omega
      · have := (Persist.cancelWrite_jobs_sublist s.persist i).length_le; omega
    · simp

/-! ## What an entry leaves of the other keys -/

/-- A slot that an entry's effect changes is FREE or holds the key of the entry before, and holds no other key after. -/
theorem EntryEffect.slot_of_holds {mode : Persistence} {s t : State} {e : Entry} (h : EntryEffect mode s e t) {k : Nat}
    (hk : k ≠ e.key) (i : SlotId) : (t.slot i).holds k = (s.slot i).holds k ∧
      ((s.slot i).holds k = true → t.slot i = s.slot i) := by
  cases h with
  | none => exact ⟨rfl, fun _ => rfl⟩
  | set k' v g j r m hr =>
    have hlive := State.slot_eq_live hr
    have hkey := State.liveRecord_key hr
    simp only [State.slot, State.slot_set] at hlive ⊢
    split
    · next hij => subst hij; rw [hlive]; simp [Slot.holds, Record.afterSet, hkey, Ne.symm hk]
    · exact ⟨rfl, fun _ => rfl⟩
  | create k' d v j m hj =>
    simp only [State.slot, State.slot_set] at hj ⊢
    split
    · next hij =>
      subst hij
      cases hs : s.slots[j.val] <;> simp_all [Slot.isFree, Slot.holds, newRecord, Ne.symm hk]
    · exact ⟨rfl, fun _ => rfl⟩
  | retire k' g j r m hr =>
    have hlive := State.slot_eq_live hr
    have hkey := State.liveRecord_key hr
    simp only [State.slot, State.slot_set] at hlive ⊢
    split
    · next hij => subst hij; rw [hlive]; split <;> simp [Slot.holds, hkey, Ne.symm hk]
    · exact ⟨rfl, fun _ => rfl⟩

theorem State.liveRecord_congr {s t : State} {k : Nat} (h : ∀ i : SlotId, (t.slot i).holds k = (s.slot i).holds k ∧
    ((s.slot i).holds k = true → t.slot i = s.slot i)) : t.liveRecord k = s.liveRecord k := by
  have hlow : lowestSlot t.slots (Slot.holds k) = lowestSlot s.slots (Slot.holds k) := by
    apply Option.ext
    intro i
    rw [lowestSlot_eq_some_iff, lowestSlot_eq_some_iff]
    exact and_congr (by rw [show Slot.holds k t.slots[i.val] = _ from (h i).1]; rfl)
      (forall₂_congr fun j _ => by rw [show Slot.holds k t.slots[j.val] = _ from (h j).1]; rfl)
  unfold State.liveRecord
  rw [hlow]
  cases hs : lowestSlot s.slots (Slot.holds k) with
  | none => rfl
  | some i =>
    have := (h i).2 ((lowestSlot_eq_some_iff _ _ _).mp hs).1
    simp [this]

/-- A WRITE of the slot waits in the queue, and one is in flight: what R71 asks of the engine about a slot. -/
def Persist.writes (pe : Persist) (i : SlotId) : Bool × Bool :=
  (pe.queue.any (Job.isWriteFor i), pe.engine.job.toList.any (Job.isWriteFor i))

theorem Persist.writes_enqueue {nv : NvArray} {pe : Persist} {j : Job} {i : SlotId}
    (hi : pe.engine = .idle → pe.queue = []) (hj : j.isWriteFor i = false) :
    (pe.enqueue nv j).writes i = pe.writes i := by
  by_cases he : pe.engine = .idle
  · rw [Persist.enqueue_of_idle nv pe j he (hi he)]
    simp [Persist.writes, he, hi he, Engine.job, startAttempt, hj]
  · rw [Persist.enqueue_of_not_idle nv pe j he]
    simp [Persist.writes, hj]

theorem Persist.writes_coalesce (pe : Persist) (i j : SlotId) (v : Value) (n : Nat) :
    (pe.coalesce j v n).writes i = pe.writes i := by
  have hc : Job.isWriteFor i ∘ Job.coalesce j v n = Job.isWriteFor i :=
    funext fun x => (Job.coalesce_same j v n x).1 i
  simp only [Persist.writes, Persist.coalesce, List.any_map, hc]

theorem Persist.writes_cancelWrite (pe : Persist) {i j : SlotId} (h : j ≠ i) :
    (pe.cancelWrite j).writes i = pe.writes i := by
  have hsame : ∀ x : Job, x.isWriteFor i = true → (x.writeFor j).isNone = true := by
    intro x hx
    cases x with
    | freeze => rfl
    | slot x =>
      cases x with
      | erase => rfl
      | write w =>
        simp only [Job.isWriteFor, Job.writeFor] at hx ⊢
        by_cases hw : w.slot = i
        · rw [if_neg (by rw [hw]; exact Ne.symm h)]; rfl
        · simp [hw] at hx
  simp only [Persist.writes, Persist.cancelWrite, List.any_filter]
  congr 2
  funext x
  cases hx : x.isWriteFor i
  · simp
  · simp [hsame x hx]

/-- The engine's answer about a slot of another key is not changed by an entry (R71). -/
theorem EntryEffect.writes {mode : Persistence} {s t : State} {e : Entry} (h : EntryEffect mode s e t)
    (hidle : s.persist.engine = .idle → s.persist.queue = []) {k : Nat} (hk : k ≠ e.key) {i : SlotId}
    (hi : (s.slot i).holds k = true) : t.persist.writes i = s.persist.writes i := by
  have hnot : ∀ (j : SlotId) (w : WriteJob), w.slot = j → j ≠ i → Job.isWriteFor i (.slot (.write w)) = false := by
    rintro j w rfl hji
    simp [Job.isWriteFor, Job.writeFor, hji]
  cases h with
  | none => rfl
  | set k' v g j r m hr =>
    have hji : j ≠ i := by
      rintro rfl
      rw [State.slot_eq_live hr] at hi
      exact hk ((beq_iff_eq.mp hi).symm.trans (State.liveRecord_key hr))
    show (s.setPersist mode j r v).writes i = _
    obtain h | ⟨-, h⟩ | ⟨-, h⟩ := s.setPersist_cases mode j r v <;> rw [h]
    · exact Persist.writes_coalesce _ _ _ _ _
    · exact Persist.writes_enqueue hidle (hnot j _ rfl hji)
  | create k' d v j m hj =>
    have hji : j ≠ i := by
      rintro rfl
      cases hs : s.slot j <;> simp_all [Slot.isFree, Slot.holds]
    dsimp only
    split
    · exact Persist.writes_enqueue hidle (hnot j _ rfl hji)
    · rfl
  | retire k' g j r m hr =>
    have hji : j ≠ i := by
      rintro rfl
      rw [State.slot_eq_live hr] at hi
      exact hk ((beq_iff_eq.mp hi).symm.trans (State.liveRecord_key hr))
    dsimp only
    split
    · refine (Persist.writes_enqueue (fun he => ?_) rfl).trans (Persist.writes_cancelWrite _ hji)
      have := hidle he
      simp [Persist.cancelWrite, this]
    · rfl

/-- The jobs counted for an entry are not changed by the effect of an entry of another key (R71). -/
theorem EntryEffect.jobCount {mode : Persistence} {s t : State} {e : Entry} (h : EntryEffect mode s e t)
    (hidle : s.persist.engine = .idle → s.persist.queue = []) {x : Entry} (hk : x.key ≠ e.key) :
    t.jobCount mode x = s.jobCount mode x := by
  have hlive := State.liveRecord_congr (h.slot_of_holds hk)
  have hwrites : ∀ {i r}, s.liveRecord x.key = some (i, r) → t.persist.writes i = s.persist.writes i :=
    fun hr => h.writes hidle hk (State.slot_of_liveRecord hr).1
  unfold State.jobCount
  rw [hlive]
  cases x.change with
  | create => rfl
  | set v g =>
    cases hr : s.liveRecord x.key with
    | none => rfl
    | some y =>
      obtain ⟨i, r⟩ := y
      obtain ⟨hq, hf⟩ := Prod.mk.inj (hwrites hr)
      simp only [State.setJob, Persist.queuedWrite_isSome, Persist.writeInFlight_eq, hq, hf]
  | retire g =>
    cases hr : s.liveRecord x.key with
    | none => rfl
    | some y =>
      obtain ⟨i, r⟩ := y
      obtain ⟨hq, -⟩ := Prod.mk.inj (hwrites hr)
      simp only [Persist.queuedWrite_isSome, hq]

/-- The effects of entries with distinct keys add no more jobs than are counted for them before (R72). -/
theorem runEntries_length_jobs (mode : Persistence) (es : List Entry) (s : State) (hn : (es.map Entry.key).Nodup)
    (hs : s.persist.engineWf) :
    (es.foldl (State.runEntry mode) s).persist.jobs.length ≤ s.persist.jobs.length + s.netJobs mode es := by
  induction es generalizing s with
  | nil => exact Nat.le_add_right _ _
  | cons e es ih =>
    rw [List.map_cons, List.nodup_cons] at hn
    have heffect := s.runEntry_effect mode e
    have hrest : (State.runEntry mode s e).netJobs mode es = s.netJobs mode es := by
      unfold State.netJobs
      congr 1
      refine List.map_congr_left fun x hx => ?_
      rw [heffect.jobCount hs.1 fun h => hn.1 (h ▸ List.mem_map_of_mem hx)]
    have h1 := ih _ hn.2 (heffect.engineWf hs)
    have h2 := heffect.length_jobs
    have hsum : s.netJobs mode (e :: es) = ((s.jobCount mode e).1 - (s.jobCount mode e).2) + s.netJobs mode es := by
      simp [State.netJobs]
    rw [List.foldl_cons]
    omega

/-! ## The 32 places (R139) -/

theorem State.length_queueAfterJob_le (s : State) : s.queueAfterJob.length ≤ s.persist.queue.length + 1 := by
  unfold State.queueAfterJob
  cases s.startup.backlog <;> simp

theorem State.jobEnded_placesWf {s : State} {marks : Bool} {j : Job}
    (hj : s.persist.jobs.Perm (j :: s.persist.queue)) (h : s.placesWf) : (s.jobEnded marks).placesWf := by
  have h1 := hj.length_eq
  have h2 := (s.jobEnded_jobs marks).length_eq
  have h3 := s.length_queueAfterJob_le
  unfold State.placesWf at h ⊢
  simp only [List.length_cons] at h1
  omega

theorem Move.placesWf {s t : State} (h : Move s t) (hstaging : s.stagingWf) (hengine : s.engineWf) (hs : s.placesWf) :
    t.placesWf := by
  cases h with
  | engine pe h =>
    unfold State.placesWf
    rw [h.jobs.length_eq]
    exact hs
  | writeEnds w hj => exact State.jobEnded_placesWf hj hs
  | eraseEnds e x marks hj => exact State.jobEnded_placesWf (s := s.setSlot e.slot x) hj hs
  | freezeEnds i d w e hj =>
    exact State.jobEnded_placesWf (s := (s.setEntryState i e).setWindow i w) hj hs
  | apply p mode es hc hes =>
    have hlen := runEntries_length_jobs mode es { s with applyNumber := s.applyNumber + 1 }
      (State.apply_keys_nodup hstaging hes) hengine
    have hwhole := (State.applyCheck_none hc).2
    unfold State.wholeCheck at hwhole
    split at hwhole
    · cases hwhole
    · next hroom =>
      unfold State.placesWf Persist.freePlaces at *
      unfold State.runApply
      rw [State.remark_eq]
      have hnet : State.netJobs { s with applyNumber := s.applyNumber + 1 } mode es = s.netJobs mode es := rfl
      refine hlen.trans ?_
      rw [hnet]
      dsimp only
      omega
  | _ => exact hs

theorem State.finishScan_placesWf (s : State) : s.finishScan.placesWf := by
  unfold State.placesWf
  rw [s.finishScan_jobs.length_eq, List.length_map, List.length_take]
  simp only [Config.scanCleanups, Config.persistPlaces]
  omega

/-- Settles O56: an apply by its count of jobs, a FREEZE by its free place, and every other move adds none. -/
theorem placesStayWithin : Obligations.PlacesStayWithin := by
  unfold Obligations.PlacesStayWithin
  intro s t hp hs he h
  refine (step_keeps_law (P := fun s => s.stagingWf ∧ s.engineWf ∧ s.placesWf) (fun _ _ h => h)
    (fun hm ⟨h1, h2, h3⟩ => ⟨hm.stagingWf h1, hm.engineWf h2, hm.placesWf h1 h2 h3⟩)
    (fun {s t} hf ⟨h1, h2, h3⟩ => ⟨hf.stagingWf h1, hf.engineWf h2, ?_⟩)
    (fun hc => ⟨hc.stagingWf, hc.engineWf, by unfold State.placesWf; rw [hc.persist_eq]; exact Nat.zero_le _⟩)
    (fun _ h => h) (fun s => ⟨s.finishScan_stagingWf, s.finishScan_engineWf, s.finishScan_placesWf⟩) h
    ⟨hs, he, hp⟩).2.2
  obtain ⟨i, d, -, -, hplaces, -, rfl⟩ := hf
  show (Persist.jobs (Persist.enqueue _ _ _)).length ≤ _
  rw [Persist.length_enqueue]
  unfold Persist.freePlaces at hplaces
  show s.persist.jobs.length + 1 ≤ Config.persistPlaces
  omega

/-! ## WRITE jobs and their slots (R76, R139) -/

theorem Slot.SameRecord.holdsLasting {x y : Slot} (h : x.SameRecord y) : y.holdsLasting = x.holdsLasting := by
  obtain rfl | ⟨r, r', rfl, rfl, -, hd, -⟩ := h
  · rfl
  · simp [Slot.holdsLasting, Slot.record, Record.isLasting, hd]

/-- At most one WRITE of a slot waits, and only for a slot with a LASTING record. -/
theorem State.writesWf_of_queue {s t : State} (hs : s.writesWf)
    (hq : ∀ i, t.persist.queue.countP (Job.isWriteFor i) ≤ s.persist.queue.countP (Job.isWriteFor i))
    (hl : ∀ i, t.persist.queue.any (Job.isWriteFor i) = true → (s.slot i).holdsLasting = true →
      (t.slot i).holdsLasting = true) : t.writesWf := by
  intro i
  refine ⟨(hq i).trans (hs i).1, fun h => hl i h ((hs i).2 ?_)⟩
  have hpos := List.countP_pos_iff.mpr (List.any_eq_true.mp h)
  exact List.any_eq_true.mpr (List.countP_pos_iff.mp (hpos.trans_le (hq i)))

/-- A WRITE joins for a slot with a LASTING record that has none waiting; no other slot changes but for the one that the
WRITE is of. -/
theorem State.writesWf_of_enqueue {s t : State} {nv : NvArray} {w : WriteJob} (hs : s.writesWf)
    (hp : t.persist = s.persist.enqueue nv (.slot (.write w)))
    (hnone : s.persist.queue.any (Job.isWriteFor w.slot) = false) (hlasting : (t.slot w.slot).holdsLasting = true)
    (hother : ∀ i, i ≠ w.slot → t.slot i = s.slot i) : t.writesWf := by
  intro i
  have hsub := Persist.enqueue_queue_sublist nv s.persist (.slot (.write w))
  rw [← hp] at hsub
  have hcount := hsub.countP_le (p := Job.isWriteFor i)
  rw [List.countP_append, List.countP_singleton] at hcount
  by_cases hi : i = w.slot
  · subst hi
    have hzero : s.persist.queue.countP (Job.isWriteFor w.slot) = 0 :=
      List.countP_eq_zero.mpr fun j hj => by simpa using List.any_eq_false.mp hnone j hj
    refine ⟨?_, fun _ => hlasting⟩
    split at hcount <;> omega
  · have hnot : Job.isWriteFor i (.slot (.write w)) = false := by
      simp [Job.isWriteFor, Job.writeFor, Ne.symm hi]
    rw [hnot, if_neg (by simp), Nat.add_zero] at hcount
    refine ⟨hcount.trans (hs i).1, fun h => ?_⟩
    rw [hother i hi]
    have hpos := List.countP_pos_iff.mpr (List.any_eq_true.mp h)
    exact (hs i).2 (List.any_eq_true.mpr (List.countP_pos_iff.mp (hpos.trans_le hcount)))

theorem EntryEffect.writesWf {mode : Persistence} {s t : State} {e : Entry} (h : EntryEffect mode s e t)
    (hs : s.writesWf) : t.writesWf := by
  cases h with
  | none => exact hs
  | set k v g i r m hr =>
    have hlive := State.slot_eq_live hr
    have hslot : ∀ j, Slot.holdsLasting ((s.slots.set i.val (.live (r.afterSet mode v)))[j.val]) =
        (s.slot j).holdsLasting := by
      intro j
      rw [State.slot_set]
      split
      · next hij => subst hij; rw [hlive]; rfl
      · rfl
    obtain h | ⟨-, h⟩ | ⟨⟨hl, hnone⟩, h⟩ := s.setPersist_cases mode i r v
    · refine State.writesWf_of_queue hs (fun j => by dsimp only; rw [h]) fun j _ hj => (hslot j).trans hj
    · refine State.writesWf_of_queue hs (fun j => ?_) fun j _ hj => (hslot j).trans hj
      have hc : Job.isWriteFor j ∘ Job.coalesce i v s.applyNumber = Job.isWriteFor j :=
        funext fun x => (Job.coalesce_same i v _ x).1 j
      dsimp only
      rw [h]
      simp only [Persist.coalesce, List.countP_map, hc, Nat.le_refl]
    · refine State.writesWf_of_enqueue hs h hnone ((hslot i).trans ?_) fun j hj => ?_
      · rw [hlive]; exact hl
      · simp [State.slot, State.slot_set, Ne.symm hj]
  | create k d v i m hi =>
    have hfree : (s.slot i).holdsLasting = false := by
      cases hs : s.slot i <;> simp_all [Slot.isFree, Slot.holdsLasting, Slot.record]
    have hnone : s.persist.queue.any (Job.isWriteFor i) = false := by
      rw [← Bool.not_eq_true]
      intro h
      rw [(hs i).2 h] at hfree
      cases hfree
    have hother : ∀ j : SlotId, j ≠ i → (s.slots.set i.val (.live (newRecord k d v)))[j.val] = s.slot j := fun j hj => by
      rw [State.slot_set, if_neg (Ne.symm hj)]; rfl
    by_cases hl : d.persistence = .lasting
    · refine State.writesWf_of_enqueue (w := ⟨i, k, d, v, s.applyNumber, s.applyNumber⟩) hs (if_pos hl) hnone ?_ hother
      simp [State.slot, Slot.holdsLasting, Slot.record, newRecord, Record.isLasting, hl]
    · refine State.writesWf_of_queue hs (fun j => by dsimp only; rw [if_neg hl]) fun j hj hlj => ?_
      have hji : j ≠ i := by
        rintro rfl
        rw [hfree] at hlj
        cases hlj
      simp only [State.slot] at hlj ⊢
      rwa [hother j hji]
  | retire k g i r m hr =>
    have hlive := State.slot_eq_live hr
    have hother : ∀ (x : Slot) (j : SlotId), j ≠ i → (s.slots.set i.val x)[j.val] = s.slot j := fun x j hj => by
      rw [State.slot_set, if_neg (Ne.symm hj)]; rfl
    by_cases hl : r.isLasting = true
    · simp only [hl, if_true]
      have hsub : (((s.persist.cancelWrite i).enqueue s.nv (s.eraseJob i r.key)).queue).Sublist
          ((s.persist.cancelWrite i).queue ++ [s.eraseJob i r.key]) := Persist.enqueue_queue_sublist _ _ _
      have hcount : ∀ j, ((s.persist.cancelWrite i).enqueue s.nv (s.eraseJob i r.key)).queue.countP (Job.isWriteFor j) ≤
          (s.persist.cancelWrite i).queue.countP (Job.isWriteFor j) := fun j => by
        have := hsub.countP_le (p := Job.isWriteFor j)
        rw [List.countP_append, List.countP_singleton, if_neg (by simp [Job.isWriteFor, Job.writeFor, State.eraseJob]),
          Nat.add_zero] at this
        exact this
      refine State.writesWf_of_queue hs (fun j => (hcount j).trans (List.filter_sublist.countP_le)) fun j hj hlj => ?_
      have hji : j ≠ i := by
        rintro rfl
        have hpos := (List.countP_pos_iff.mpr (List.any_eq_true.mp hj)).trans_le (hcount j)
        obtain ⟨x, hx, hw⟩ := List.countP_pos_iff.mp hpos
        have hx := (List.mem_filter.mp hx).2
        simp only [Job.isWriteFor] at hw
        cases hxj : x.writeFor j <;> simp_all
      simp only [State.slot] at hlj ⊢
      rwa [hother _ j hji]
    · simp only [hl]
      refine State.writesWf_of_queue hs (fun j => Nat.le_refl _) fun j hj hlj => ?_
      have hji : j ≠ i := by
        rintro rfl
        rw [hlive] at hlj
        exact hl hlj
      simp only [State.slot] at hlj ⊢
      rwa [hother _ j hji]

theorem State.jobEnded_writesWf {s : State} (marks : Bool) (hs : s.writesWf) : (s.jobEnded marks).writesWf := by
  refine State.writesWf_of_queue hs (fun i => ?_) fun i _ h => h
  refine ((s.jobEnded_queue_sublist marks).countP_le (p := Job.isWriteFor i)).trans (le_of_eq ?_)
  exact State.queueAfterJob_countP fun _ => rfl

theorem Move.writesWf {s t : State} (h : Move s t) (hs : s.writesWf) : t.writesWf := by
  cases h with
  | records v h =>
    exact State.writesWf_of_queue hs (fun _ => Nat.le_refl _) fun i _ hi => (h i).holdsLasting.trans hi
  | engine pe h =>
    exact State.writesWf_of_queue hs (fun i => h.queue.countP_le) fun i _ h => h
  | writeEnds w => exact State.jobEnded_writesWf true hs
  | eraseEnds e x marks _ _ hx =>
    refine State.jobEnded_writesWf marks (State.writesWf_of_queue hs (fun _ => Nat.le_refl _) fun i _ hi => ?_)
    by_cases hie : e.slot = i
    · subst hie
      rw [State.slot_setSlot_self]
      split at hx
      · cases hse : s.slot e.slot <;> simp_all [Slot.isDraining, Slot.holdsLasting, Slot.record]
      · rwa [hx]
    · rwa [State.slot_setSlot_of_ne _ _ hie]
  | freezeEnds i d w e => exact State.jobEnded_writesWf (s := (s.setEntryState i e).setWindow i w) false hs
  | apply p mode es =>
    refine State.runApply_keeps (fun _ _ h => h) EntryEffect.writesWf (fun s h => ?_) mode es hs
    unfold State.writesWf State.slot
    rw [State.remark_eq]
    exact h
  | _ => exact hs

theorem State.FreezeBegins.writesWf {s t : State} (h : s.FreezeBegins t) (hs : s.writesWf) : t.writesWf := by
  obtain ⟨i, d, _, _, _, _, rfl⟩ := h
  refine State.writesWf_of_queue hs (fun j => ?_) fun i _ h => h
  have := (Persist.enqueue_queue_sublist s.nv s.persist (.freeze i d)).countP_le (p := Job.isWriteFor j)
  rw [List.countP_append, List.countP_singleton, if_neg (by simp [Job.isWriteFor, Job.writeFor]), Nat.add_zero] at this
  exact this

theorem State.isCleared.writesWf {s : State} (h : s.isCleared) : s.writesWf := by
  unfold State.writesWf
  rw [h.persist_eq]
  exact fun i => ⟨Nat.zero_le _, nofun⟩

theorem State.finishScan_writesWf (s : State) : s.finishScan.writesWf := by
  intro i
  have hnone : ∀ j ∈ s.finishScan.persist.queue, Job.isWriteFor i j = false := by
    intro j hj
    have hj : j ∈ s.finishScan.persist.jobs := List.mem_append_left _ (List.mem_append_left _ hj)
    obtain ⟨k, -, rfl⟩ := List.mem_map.mp (s.finishScan_jobs.subset hj)
    rfl
  have hzero : s.finishScan.persist.queue.countP (Job.isWriteFor i) = 0 :=
    List.countP_eq_zero.mpr fun j hj => by simp [hnone j hj]
  refine ⟨by rw [hzero]; exact Nat.zero_le _, fun h => ?_⟩
  obtain ⟨j, hj, hw⟩ := List.any_eq_true.mp h
  rw [hnone j hj] at hw
  cases hw

end Sys2Proof.Machine
end

section
/-! PROOFS. The ERASE jobs of the DRAINING slots and the clean-up backlog. -/

namespace Sys2Proof.Machine

/-! ## DRAINING slots and their ERASE jobs (R1, R76, R173) -/

theorem Persist.enqueue_countP (nv : NvArray) (pe : Persist) (j : Job) (f : Job → Bool) :
    (pe.enqueue nv j).jobs.countP f = pe.jobs.countP f + if f j = true then 1 else 0 := by
  rw [(Persist.enqueue_jobs nv pe j).countP_eq, List.countP_cons]

/-- The number of ERASE jobs of a slot, in the engine and in the backlog. -/
def State.eraseCount (s : State) (i : SlotId) : Nat :=
  s.persist.jobs.countP (Job.isEraseFor i) + s.startup.backlog.count i

theorem State.drainingHasJob_iff (s : State) :
    s.drainingHasJob ↔ ∀ i, s.eraseCount i = if (s.slot i).isDraining then 1 else 0 := Iff.rfl

theorem State.drainingHasJob_of_eraseCount {s t : State} (hs : s.drainingHasJob)
    (hc : ∀ i, t.eraseCount i = s.eraseCount i) (hd : ∀ i, (t.slot i).isDraining = (s.slot i).isDraining) :
    t.drainingHasJob := fun i => by
  rw [hd i]
  exact (hc i).trans (hs i)

theorem Slot.SameRecord.isDraining {x y : Slot} (h : x.SameRecord y) : y.isDraining = x.isDraining := by
  obtain rfl | ⟨r, r', rfl, rfl, -⟩ := h <;> rfl

theorem State.setPersist_erases (s : State) (mode : Persistence) (i : SlotId) (r : Record) (v : Value) (j : SlotId) :
    (s.setPersist mode i r v).jobs.countP (Job.isEraseFor j) = s.persist.jobs.countP (Job.isEraseFor j) := by
  obtain h | ⟨-, h⟩ | ⟨-, h⟩ := s.setPersist_cases mode i r v <;> rw [h]
  · exact Persist.coalesce_countP _ _ _ _ _ fun x => (Job.coalesce_same i v _ x).2.1 j
  · rw [Persist.enqueue_countP]; rfl

theorem EntryEffect.drainingHasJob {mode : Persistence} {s t : State} {e : Entry} (h : EntryEffect mode s e t)
    (hs : s.drainingHasJob) : t.drainingHasJob := by
  cases h with
  | none => exact hs
  | set k v g i r m hr =>
    have hlive := State.slot_eq_live hr
    refine State.drainingHasJob_of_eraseCount hs (fun j => ?_) fun j => ?_
    · exact congrArg (· + _) (s.setPersist_erases mode i r v j)
    · simp only [State.slot, State.slot_set] at hlive ⊢
      split
      · next hij => subst hij; rw [hlive]; rfl
      · rfl
  | create k d v i m hi =>
    refine State.drainingHasJob_of_eraseCount hs (fun j => ?_) fun j => ?_
    · refine congrArg (· + _) ?_
      dsimp only
      split
      · rw [Persist.enqueue_countP]; rfl
      · rfl
    · simp only [State.slot, State.slot_set] at hi ⊢
      split
      · next hij => subst hij; cases hs : s.slots[i.val] <;> simp_all [Slot.isFree, Slot.isDraining]
      · rfl
  | retire k g i r m hr =>
    have hlive := State.slot_eq_live hr
    cases hl : r.isLasting with
    | true =>
      simp only [if_true]
      intro j
      have hj := hs j
      rw [Persist.enqueue_countP, Persist.cancelWrite_countP _ _ _ (fun x hx => by
        cases x with
        | freeze => rfl
        | slot x => cases x <;> simp_all [Job.isEraseFor, Job.writeFor])]
      simp only [State.slot, State.slot_set] at hlive hj ⊢
      by_cases hij : i = j
      · subst hij
        simp only [hlive, Slot.isDraining, Bool.false_eq_true, if_false] at hj
        simp only [State.eraseJob, Job.isEraseFor, decide_true, if_true, Slot.isDraining]
        omega
      · simp only [State.eraseJob, Job.isEraseFor, hij, decide_false, Bool.false_eq_true, if_false, Nat.add_zero]
        exact hj
    | false =>
      refine State.drainingHasJob_of_eraseCount hs (fun j => rfl) fun j => ?_
      simp only [State.slot, State.slot_set] at hlive ⊢
      split
      · next hij => subst hij; rw [hlive]; rfl
      · rfl

/-- A job taken from the backlog by the end of another is an ERASE of its slot (R142). -/
theorem State.jobEnded_eraseCount {s : State} {marks : Bool} {j : Job} (hj : s.persist.jobs.Perm (j :: s.persist.queue))
    (i : SlotId) :
    (s.jobEnded marks).eraseCount i + (if j.isEraseFor i = true then 1 else 0) = s.eraseCount i := by
  unfold State.eraseCount
  rw [(s.jobEnded_jobs marks).countP_eq, hj.countP_eq, List.countP_cons]
  show s.queueAfterJob.countP _ + s.startup.backlog.tail.count i + _ = _
  unfold State.queueAfterJob
  cases hb : s.startup.backlog with
  | nil => simp
  | cons b rest =>
    simp only [List.head?_cons, Option.map_some, Option.toList_some, List.tail_cons, List.countP_append,
      List.countP_singleton, List.count_cons, cleanupJob, Job.isEraseFor, decide_eq_true_eq, beq_iff_eq]
    omega

/-- The job of a slot that ends takes the one ERASE that stands for it, and so the slot is DRAINING no more. -/
theorem State.eraseEnds_drainingHasJob {s : State} {e : EraseJob} {x : Slot} {marks : Bool}
    (hj : s.persist.jobs.Perm (.slot (.erase e) :: s.persist.queue))
    (hx : if (s.slot e.slot).isDraining then x = .free ∨ x = .broken else x = s.slot e.slot) (hs : s.drainingHasJob) :
    ((s.setSlot e.slot x).jobEnded marks).drainingHasJob := by
  intro i
  have hcount := State.jobEnded_eraseCount (s := s.setSlot e.slot x) (marks := marks) hj i
  have hi := hs i
  show ((s.setSlot e.slot x).jobEnded marks).eraseCount i = if ((s.setSlot e.slot x).slot i).isDraining then 1 else 0
  change _ = s.persist.jobs.countP _ + s.startup.backlog.count i at hcount
  rw [hi] at hcount
  simp only [Job.isEraseFor, decide_eq_true_eq] at hcount
  by_cases hie : e.slot = i
  · subst hie
    rw [State.slot_setSlot_self]
    simp only [if_true] at hcount
    cases hd : (s.slot e.slot).isDraining with
    | true =>
      simp only [hd, if_true] at hx hcount
      have : x.isDraining = false := by obtain rfl | rfl := hx <;> rfl
      simp only [this, Bool.false_eq_true, if_false]
      omega
    | false =>
      simp only [hd, Bool.false_eq_true, if_false] at hcount
      omega
  · rw [State.slot_setSlot_of_ne _ _ hie]
    simp only [hie, if_false] at hcount
    exact hcount

/-- The end of a job that is no ERASE leaves each DRAINING slot its ERASE. -/
theorem State.jobEnded_drainingHasJob {s : State} {marks : Bool} {j : Job}
    (hj : s.persist.jobs.Perm (j :: s.persist.queue)) (hnot : ∀ i, j.isEraseFor i = false) (hs : s.drainingHasJob) :
    (s.jobEnded marks).drainingHasJob := by
  refine State.drainingHasJob_of_eraseCount hs (fun i => ?_) fun _ => rfl
  have := State.jobEnded_eraseCount (marks := marks) hj i
  rwa [hnot i, if_neg (by simp), Nat.add_zero] at this

theorem Move.drainingHasJob {s t : State} (h : Move s t) (hs : s.drainingHasJob) : t.drainingHasJob := by
  cases h with
  | records v h => exact State.drainingHasJob_of_eraseCount hs (fun _ => rfl) fun i => (h i).isDraining
  | engine pe h =>
    exact State.drainingHasJob_of_eraseCount hs (fun i => congrArg (· + _) (h.jobs.countP_eq _)) fun _ => rfl
  | writeEnds w hj => exact State.jobEnded_drainingHasJob hj (fun _ => rfl) hs
  | eraseEnds e x marks hj _ hx => exact State.eraseEnds_drainingHasJob hj hx hs
  | freezeEnds i d w e hj =>
    exact State.jobEnded_drainingHasJob (s := (s.setEntryState i e).setWindow i w) hj (fun _ => rfl) hs
  | apply p mode es =>
    refine State.runApply_keeps (fun _ _ h => h) EntryEffect.drainingHasJob (fun s h => ?_) mode es hs
    unfold State.drainingHasJob State.slot
    rw [State.remark_eq]
    exact h
  | _ => exact hs

theorem State.FreezeBegins.drainingHasJob {s t : State} (h : s.FreezeBegins t) (hs : s.drainingHasJob) :
    t.drainingHasJob := by
  obtain ⟨j, d, _, _, _, _, rfl⟩ := h
  refine State.drainingHasJob_of_eraseCount hs (fun i => congrArg (· + _) ?_) fun _ => rfl
  exact Persist.enqueue_countP s.nv s.persist (.freeze j d) (Job.isEraseFor i)

theorem State.isCleared.drainingHasJob {s : State} (h : s.isCleared) : s.drainingHasJob := by
  unfold State.drainingHasJob
  rw [h.persist_eq]
  obtain ⟨-, hslot, -, hb, -⟩ := h
  intro i
  rw [hslot i, hb]
  rfl

/-- The clean-up jobs of some slots hold an ERASE for each time that a slot stands there. -/
theorem countP_cleanupJobs (l : List SlotId) (i : SlotId) :
    (l.map cleanupJob).countP (Job.isEraseFor i) = l.count i := by
  rw [List.countP_map, List.count_eq_countP]
  congr 1

theorem State.finishScan_drainingHasJob (s : State) : s.finishScan.drainingHasJob := by
  intro i
  rw [s.finishScan_jobs.countP_eq, countP_cleanupJobs, s.finishScan_frame.2.2.2.2.2.1, ← List.count_append,
    List.take_append_drop, State.slot, s.finishScan_frame.1]
  have hnodup : (cleanupSlots s.nv.scan).Nodup :=
    (cleanupSlots_pairwise s.nv.scan).imp fun h => ne_of_lt h
  rw [hnodup.count]
  simp only [mem_cleanupSlots]

/-! ## The backlog (R142, R173) -/

/-- The backlog stays ascending and of DRAINING slots where it loses slots and those that stay in it keep their state. -/
theorem State.backlogWf_of_slots {s t : State} (hs : s.backlogWf) (hb : t.startup.backlog.Sublist s.startup.backlog)
    (hslot : ∀ i ∈ t.startup.backlog, s.slot i = .draining none → t.slot i = .draining none) : t.backlogWf :=
  ⟨hs.1.sublist hb, fun i hi => hslot i hi (hs.2 i (hb.subset hi))⟩

theorem EntryEffect.backlogWf {mode : Persistence} {s t : State} {e : Entry} (h : EntryEffect mode s e t)
    (hs : s.backlogWf) : t.backlogWf := by
  cases h with
  | none => exact hs
  | set k v g i r m hr =>
    have hlive := State.slot_eq_live hr
    refine State.backlogWf_of_slots hs (.refl _) fun j _ hj => ?_
    simp only [State.slot, State.slot_set] at hlive hj ⊢
    rwa [if_neg (by rintro rfl; rw [hlive] at hj; cases hj)]
  | create k d v i m hi =>
    refine State.backlogWf_of_slots hs (.refl _) fun j _ hj => ?_
    simp only [State.slot, State.slot_set] at hi hj ⊢
    rwa [if_neg (by rintro rfl; rw [hj] at hi; cases hi)]
  | retire k g i r m hr =>
    have hlive := State.slot_eq_live hr
    refine State.backlogWf_of_slots hs (.refl _) fun j _ hj => ?_
    simp only [State.slot, State.slot_set] at hlive hj ⊢
    rwa [if_neg (by rintro rfl; rw [hlive] at hj; cases hj)]

theorem State.jobEnded_backlogWf {s : State} {marks : Bool} (hs : s.backlogWf) : (s.jobEnded marks).backlogWf :=
  State.backlogWf_of_slots hs (List.tail_sublist _) fun _ _ h => h

/-- A slot of an ERASE job of the engine does not stand in the backlog (R1). -/
theorem State.not_mem_backlog {s : State} {e : EraseJob} (hs : s.drainingHasJob)
    (he : .slot (.erase e) ∈ s.persist.jobs) : e.slot ∉ s.startup.backlog := by
  intro hb
  have hjob : 0 < s.persist.jobs.countP (Job.isEraseFor e.slot) :=
    List.countP_pos_iff.mpr ⟨_, he, by simp [Job.isEraseFor]⟩
  have hback := List.count_pos_iff.mpr hb
  have := hs e.slot
  split at this <;> omega

theorem Move.backlogWf {s t : State} (h : Move s t) (hd : s.drainingHasJob) (hs : s.backlogWf) : t.backlogWf := by
  cases h with
  | records v h =>
    refine State.backlogWf_of_slots hs (.refl _) fun i _ hi => ?_
    obtain he | ⟨r, -, hr, -⟩ := h i
    · exact he.trans hi
    · rw [hr] at hi; cases hi
  | writeEnds w => exact State.jobEnded_backlogWf hs
  | eraseEnds e x marks hj =>
    have hnot := State.not_mem_backlog hd (hj.symm.subset List.mem_cons_self)
    refine State.jobEnded_backlogWf (State.backlogWf_of_slots hs (.refl _) fun i hi h => ?_)
    rwa [State.slot_setSlot_of_ne]
    rintro rfl
    exact hnot hi
  | freezeEnds i d w e => exact State.jobEnded_backlogWf (s := (s.setEntryState i e).setWindow i w) hs
  | apply p mode es =>
    refine State.runApply_keeps (fun _ _ h => h) EntryEffect.backlogWf (fun s h => ?_) mode es hs
    unfold State.backlogWf State.slot
    rw [State.remark_eq]
    exact h
  | _ => exact hs

theorem State.FreezeBegins.backlogWf {s t : State} (h : s.FreezeBegins t) (hs : s.backlogWf) : t.backlogWf := by
  obtain ⟨_, _, _, _, _, _, rfl⟩ := h
  exact hs

theorem State.isCleared.backlogWf {s : State} (h : s.isCleared) : s.backlogWf := by
  obtain ⟨-, -, -, hb, -⟩ := h
  unfold State.backlogWf
  simp [hb]

/-- A slot that the scan leaves DRAINING has no key (R169). -/
theorem NvArray.scannedSlot_of_isDraining {nv : NvArray} {i : SlotId} (h : (nv.scannedSlot i).isDraining = true) :
    nv.scannedSlot i = .draining none := by
  cases hs : nv.scannedSlot i with
  | draining k =>
    cases k with
    | none => rfl
    | some k => exact absurd (by rw [hs]; simp [Slot.drains]) (Bool.eq_false_iff.mp (nv.scannedSlot_drains i k))
  | _ => rw [hs] at h; cases h

theorem State.finishScan_backlogWf (s : State) : s.finishScan.backlogWf := by
  have hb : s.finishScan.startup.backlog = (cleanupSlots s.nv.scan).drop Config.scanCleanups := by
    rw [s.finishScan_frame.2.2.2.2.2.1]
  refine ⟨hb ▸ (cleanupSlots_pairwise s.nv.scan).sublist (List.drop_sublist _ _), fun i hi => ?_⟩
  rw [hb] at hi
  have hd := (mem_cleanupSlots _ _).mp ((List.drop_sublist _ _).subset hi)
  rw [NvArray.scan_slot] at hd
  rw [State.finishScan_slot]
  exact NvArray.scannedSlot_of_isDraining hd

/-- Settles O58: the WRITE jobs, the ERASE jobs and the backlog, move by move. -/
theorem jobsMatchSlots : Obligations.JobsMatchSlots := by
  unfold Obligations.JobsMatchSlots
  intro s t h
  refine ⟨step_keeps_law (fun _ _ h => h) Move.writesWf State.FreezeBegins.writesWf State.isCleared.writesWf
      (fun _ h => h) State.finishScan_writesWf h,
    step_keeps_law (fun _ _ h => h) Move.drainingHasJob State.FreezeBegins.drainingHasJob State.isCleared.drainingHasJob
      (fun _ h => h) State.finishScan_drainingHasJob h, fun hd hb => ?_⟩
  exact (step_keeps_law (P := fun s => s.drainingHasJob ∧ s.backlogWf) (fun _ _ h => h)
    (fun hm h => ⟨hm.drainingHasJob h.1, hm.backlogWf h.1 h.2⟩)
    (fun hf h => ⟨hf.drainingHasJob h.1, hf.backlogWf h.2⟩) (fun hc => ⟨hc.drainingHasJob, hc.backlogWf⟩)
    (fun _ h => h) (fun s => ⟨s.finishScan_drainingHasJob, s.finishScan_backlogWf⟩) h ⟨hd, hb⟩).2

end Sys2Proof.Machine
end

section
/-! PROOFS. Rights, windows and one-time entries: what every happening leaves of them. -/

namespace Sys2Proof.Machine

/-! ## P0 stays ADMIN (R101) -/

theorem State.remark_rights (s : State) : s.remark.rights = s.rights := by rw [State.remark_eq]

theorem State.remark_nv (s : State) : s.remark.nv = s.nv := by rw [State.remark_eq]

theorem EntryEffect.rights_nv {mode : Persistence} {s t : State} {e : Entry} (h : EntryEffect mode s e t) :
    t.rights = s.rights ∧ t.nv = s.nv := by
  cases h <;> exact ⟨rfl, rfl⟩

/-- An apply leaves the Rights Unit and the NV Array. -/
theorem State.runApply_rights_nv (s : State) (mode : Persistence) (es : List Entry) :
    (s.runApply mode es).rights = s.rights ∧ (s.runApply mode es).nv = s.nv :=
  State.runApply_keeps (P := fun t => t.rights = s.rights ∧ t.nv = s.nv) (fun _ _ h => h)
    (fun he h => ⟨he.rights_nv.1.trans h.1, he.rights_nv.2.trans h.2⟩)
    (fun t h => ⟨t.remark_rights.trans h.1, t.remark_nv.trans h.2⟩) mode es ⟨rfl, rfl⟩

theorem Move.p0IsAdmin {s t : State} (h : Move s t) (hs : s.p0IsAdmin) : t.p0IsAdmin := by
  cases h with
  | roles roles h => exact h.trans hs
  | apply p mode es =>
    unfold State.p0IsAdmin
    rw [(s.runApply_rights_nv mode es).1]
    exact hs
  | _ => exact hs

theorem State.isCleared.rights_eq {s : State} (h : s.isCleared) : s.rights = Rights.initial := h.2.2.2.2.2.2.2

theorem State.isCleared.p0IsAdmin {s : State} (h : s.isCleared) : s.p0IsAdmin := by
  unfold State.p0IsAdmin
  rw [h.rights_eq]
  rfl

theorem State.finishScan_p0IsAdmin (s : State) : s.finishScan.p0IsAdmin := by
  unfold State.p0IsAdmin
  rw [s.finishScan_frame.2.2.1]
  rfl

/-! ## Windows and entries under an update of one -/

theorem State.window_setWindow (s : State) (i j : WindowId) (w : Window) :
    (s.setWindow i w).rights.windows[j.val] = if i = j then w else s.rights.windows[j.val] := by
  simp only [State.setWindow, Vector.getElem_set, Fin.ext_iff]

theorem State.entries_setEntryState (s : State) (i j : WindowId) (e : EntryState) :
    (s.setEntryState i e).rights.entries[j.val] = if i = j then e else s.rights.entries[j.val] := by
  simp only [State.setEntryState, Vector.getElem_set, Fin.ext_iff]

theorem NvArray.entry_setEntry (nv : NvArray) (i j : WindowId) (x : OneTime) :
    (nv.setEntry i x).entry j = if i = j then x else nv.entry j := by
  simp only [NvArray.setEntry, NvArray.entry, Vector.getElem_set, Fin.ext_iff]

/-! ## The FREEZE jobs of the engine -/

/-- The engine has the same FREEZE jobs: every count of jobs that no job of a slot enters is the same. -/
def Persist.SameFreezes (pe pe' : Persist) : Prop :=
  ∀ f : Job → Bool, (∀ j : SlotJob, f (.slot j) = false) → pe'.jobs.countP f = pe.jobs.countP f

theorem Persist.SameFreezes.refl (pe : Persist) : pe.SameFreezes pe := fun _ _ => rfl

theorem Persist.SameFreezes.trans {pe pe' pe'' : Persist} (h : pe.SameFreezes pe') (h' : pe'.SameFreezes pe'') :
    pe.SameFreezes pe'' := fun f hf => (h' f hf).trans (h f hf)

theorem Persist.SameFreezes.mem_iff {pe pe' : Persist} (h : pe.SameFreezes pe') (i : WindowId) (d : WindowDef) :
    .freeze i d ∈ pe'.jobs ↔ .freeze i d ∈ pe.jobs := by
  have := h (fun j => decide (j = .freeze i d)) fun _ => rfl
  have hmem : ∀ l : List Job, .freeze i d ∈ l ↔ 0 < l.countP fun j => decide (j = .freeze i d) := fun l => by
    simp [List.countP_pos_iff]
  rw [hmem, hmem, this]

theorem Persist.SameFreezes.enqueue (nv : NvArray) (pe : Persist) (j : SlotJob) :
    pe.SameFreezes (pe.enqueue nv (.slot j)) := fun f hf => by
  rw [Persist.enqueue_countP, hf j]
  rfl

theorem Persist.SameFreezes.coalesce (pe : Persist) (i : SlotId) (v : Value) (n : Nat) :
    pe.SameFreezes (pe.coalesce i v n) := fun f hf => Persist.coalesce_countP _ _ _ _ _ fun j => by
  cases j with
  | freeze => rfl
  | slot j =>
    cases j with
    | erase => rfl
    | write w =>
      by_cases hw : w.slot = i
      · simp [Job.coalesce, hw, hf]
      · simp [Job.coalesce, hw]

theorem Persist.SameFreezes.cancelWrite (pe : Persist) (i : SlotId) : pe.SameFreezes (pe.cancelWrite i) := fun f hf =>
  Persist.cancelWrite_countP _ _ _ fun j hj => by
    cases j with
    | freeze => rfl
    | slot j => rw [hf j] at hj; cases hj

/-- The end of a job of a slot leaves the FREEZE jobs (R142). -/
theorem State.jobEnded_sameFreezes {s : State} {marks : Bool} {j : SlotJob}
    (hj : s.persist.jobs.Perm (.slot j :: s.persist.queue)) : s.persist.SameFreezes (s.jobEnded marks).persist :=
  fun f hf => by
    rw [(s.jobEnded_jobs marks).countP_eq, State.queueAfterJob_countP fun i => hf _, hj.countP_eq, List.countP_cons, hf j]
    rfl

theorem EntryEffect.sameFreezes {mode : Persistence} {s t : State} {e : Entry} (h : EntryEffect mode s e t) :
    s.persist.SameFreezes t.persist := by
  cases h with
  | none => exact .refl _
  | set k v g i r m =>
    show s.persist.SameFreezes (s.setPersist mode i r v)
    obtain h | ⟨-, h⟩ | ⟨-, h⟩ := s.setPersist_cases mode i r v <;> rw [h]
    · exact .refl _
    · exact .coalesce _ _ _ _
    · exact .enqueue _ _ _
  | create k d v i m =>
    dsimp only
    split
    · exact .enqueue _ _ _
    · exact .refl _
  | retire k g i r m =>
    dsimp only
    split
    · exact (Persist.SameFreezes.cancelWrite _ i).trans (.enqueue _ _ _)
    · exact .refl _

theorem State.runApply_sameFreezes (s : State) (mode : Persistence) (es : List Entry) :
    s.persist.SameFreezes (s.runApply mode es).persist := by
  refine State.runApply_keeps (P := fun t => s.persist.SameFreezes t.persist) (fun _ _ h => h)
    (fun he h => h.trans he.sameFreezes) (fun t h => ?_) mode es (.refl _)
  rw [State.remark_eq]
  exact h

/-! ## What stands of a window and its entry (R111 to R114) -/

/-- Where the window has no FREEZE job it gets none, its one-time entry stays, and where it is FROZEN it stays so. -/
def State.WindowKept (i : WindowId) (s t : State) : Prop :=
  (∀ d, .freeze i d ∉ s.persist.jobs) → (∀ d, .freeze i d ∉ t.persist.jobs) ∧ t.nv.entry i = s.nv.entry i ∧
    ∀ d, s.rights.windows[i.val] = .frozen d → t.rights.windows[i.val] = .frozen d

theorem State.WindowKept.refl (i : WindowId) (s : State) : s.WindowKept i s := fun h => ⟨h, rfl, fun _ h => h⟩

theorem State.WindowKept.trans {i : WindowId} {s t u : State} (h : s.WindowKept i t) (h' : t.WindowKept i u) :
    s.WindowKept i u := fun hs => by
  obtain ⟨ht, hent, hwin⟩ := h hs
  obtain ⟨hu, hent', hwin'⟩ := h' ht
  exact ⟨hu, hent'.trans hent, fun d hd => hwin' d (hwin d hd)⟩

theorem Persist.SameFreezes.not_mem {pe pe' : Persist} (h : pe.SameFreezes pe') {i : WindowId}
    (hi : ∀ d, .freeze i d ∉ pe.jobs) : ∀ d, .freeze i d ∉ pe'.jobs := fun d hd => hi d ((h.mem_iff i d).mp hd)

theorem State.windowKept_of_sameFreezes {i : WindowId} {s t : State} (hf : s.persist.SameFreezes t.persist)
    (hn : t.nv = s.nv) (hr : t.rights = s.rights) : s.WindowKept i t := fun h =>
  ⟨hf.not_mem h, by rw [hn], fun d hd => by rwa [hr]⟩

theorem Move.windowKept {s t : State} (h : Move s t) (i : WindowId) : s.WindowKept i t := by
  cases h with
  | window j w hold hw =>
    refine fun hi => ⟨hi, rfl, fun d hd => ?_⟩
    rw [State.window_setWindow]
    split
    · next hij => subst hij; exact absurd hd (hold.2 d)
    · exact hd
  | nv nv h =>
    refine fun hi => ⟨hi, ?_, fun _ h => h⟩
    obtain h | ⟨-, d, hd⟩ := h i
    · exact h
    · exact absurd hd (hi d)
  | engine pe h => exact State.windowKept_of_sameFreezes (fun f _ => h.jobs.countP_eq f) rfl rfl
  | writeEnds w hj => exact State.windowKept_of_sameFreezes (State.jobEnded_sameFreezes hj) rfl rfl
  | eraseEnds e x marks hj =>
    exact State.windowKept_of_sameFreezes (State.jobEnded_sameFreezes (s := s.setSlot e.slot x) hj) rfl rfl
  | freezeEnds j d w e hj =>
    intro hi
    have hji : j ≠ i := by
      rintro rfl
      exact hi d (hj.symm.subset List.mem_cons_self)
    refine ⟨fun d' hd' => ?_, rfl, fun d' hd' => ?_⟩
    · have hd' := (State.jobEnded_jobs _ _).subset hd'
      obtain hd' | ⟨k, hk⟩ := State.mem_queueAfterJob hd'
      · exact hi d' (hj.symm.subset (List.mem_cons_of_mem _ hd'))
      · cases hk
    · show ((s.setEntryState j e).setWindow j w).rights.windows[i.val] = _
      rw [State.window_setWindow, if_neg hji]
      exact hd'
  | apply p mode es =>
    obtain ⟨hr, hn⟩ := s.runApply_rights_nv mode es
    exact State.windowKept_of_sameFreezes (s.runApply_sameFreezes mode es) hn hr
  | _ => exact .refl i s

theorem Moves.windowKept {s t : State} (h : Moves s t) (i : WindowId) : s.WindowKept i t := by
  induction h with
  | refl => exact .refl i s
  | tail _ hm ih => exact ih.trans (hm.windowKept i)

/-- A FREEZE begins at an ACTIVE window, and leaves every FROZEN one and every entry of the NV Array. -/
theorem State.FreezeBegins.frozen {s t : State} (h : s.FreezeBegins t) (i : WindowId) :
    t.nv = s.nv ∧ ∀ d, s.rights.windows[i.val] = .frozen d → t.rights.windows[i.val] = .frozen d := by
  obtain ⟨j, d, hj, _, _, _, rfl⟩ := h
  refine ⟨rfl, fun d' hd' => ?_⟩
  show (s.setWindow j (.freezing d)).rights.windows[i.val] = _
  rw [State.window_setWindow]
  split
  · next hij => subst hij; exact absurd (hd'.symm.trans hj) nofun
  · exact hd'

/-- A cut changes the one-time entry of a FREEZE job in flight and no other (R138). -/
theorem State.entry_cutNv (s : State) (cut : NvResult) (i : WindowId) :
    (s.cutNv cut).entry i = s.nv.entry i ∨
      ∃ d r, .freeze i d ∈ s.persist.jobs ∧ (s.cutNv cut).entry i = cutEntry (s.nv.entry i) r := by
  unfold State.cutNv
  split
  · exact .inl rfl
  · next f hf =>
    unfold NvArray.cutPhase
    split <;> try exact .inl rfl
    next j d hjob _ =>
    rw [NvArray.entry_setEntry]
    split
    · next hij =>
      subst hij
      exact .inr ⟨d, cut, (Persist.jobs_of_running hf).symm.subset (by simp [hjob]), rfl⟩
    · exact .inl rfl

/-- What a happening leaves of a window without a FREEZE job, and of its entry. -/
theorem Happens.window {s t : State} (h : Happens s t) {i : WindowId} (hi : ∀ d, .freeze i d ∉ s.persist.jobs) :
    t.nv.entry i = s.nv.entry i ∧ (∀ d, s.rights.windows[i.val] = .frozen d → s.startup.state = .running →
      t.startup.state = .running → t.rights.windows[i.val] = .frozen d) := by
  cases h with
  | moves h =>
    obtain ⟨-, hent, hwin⟩ := h.windowKept i hi
    exact ⟨hent, fun d hd _ _ => hwin d hd⟩
  | freeze h p x =>
    obtain ⟨hnv, hwin⟩ := h.frozen i
    exact ⟨congrArg (NvArray.entry · i) hnv, fun d hd _ _ => hwin d hd⟩
  | startup cut hc hr hn =>
    refine ⟨?_, fun _ _ _ ht => absurd ht hr⟩
    rw [hn]
    obtain h | ⟨d, -, hd, -⟩ := s.entry_cutNv cut i
    · exact h
    · exact absurd hd (hi d)
  | scan => exact ⟨rfl, fun _ hd _ _ => hd⟩
  | ready hs =>
    exact ⟨by rw [s.finishScan_frame.2.2.2.1], fun _ _ h => by rw [hs] at h; cases h⟩

/-! ## An entry is written once (R111) -/

theorem Move.entry_written {s t : State} (h : Move s t) (i : WindowId) (hs : s.nv.entry i ≠ .unwritten) :
    t.nv.entry i ≠ .unwritten := by
  cases h with
  | nv nv h =>
    obtain h | ⟨h, -⟩ := h i
    · rw [h]; exact hs
    · exact h
  | apply p mode es => rw [(s.runApply_rights_nv mode es).2]; exact hs
  | _ => exact hs

theorem Happens.entry_written {s t : State} (h : Happens s t) (i : WindowId) (hs : s.nv.entry i ≠ .unwritten) :
    t.nv.entry i ≠ .unwritten := by
  cases h with
  | moves h => exact h.keeps (P := fun s => s.nv.entry i ≠ .unwritten) (fun hm => hm.entry_written i) hs
  | freeze h p x => exact (h.frozen i).1.symm ▸ hs
  | startup cut hc hr hn =>
    rw [hn]
    obtain h | ⟨d, r, -, h⟩ := s.entry_cutNv cut i
    · rw [h]; exact hs
    · rw [h]; cases r <;> simp [cutEntry, hs]
  | scan => exact hs
  | ready => rw [s.finishScan_frame.2.2.2.1]; exact hs

/-! ## FREEZING windows and FREEZE jobs (R112 to R114) -/

/-- The law of the windows for one of them. -/
def State.freezeWf (s : State) (i : WindowId) : Prop :=
  (s.persist.jobs.countP (Job.isFreezeFor i) = match s.rights.windows[i.val] with | .freezing _ => 1 | _ => 0) ∧
    (∀ d, .freeze i d ∈ s.persist.jobs → s.rights.windows[i.val] = .freezing d) ∧
    ∀ d, s.rights.windows[i.val] = .frozen d → s.rights.entries[i.val] = .valid ∧ s.nv.entry i = .valid d

theorem State.freezesWf_iff (s : State) : s.freezesWf ↔ ∀ i, s.freezeWf i := Iff.rfl

theorem State.freezeWf_of_sameFreezes {s t : State} {i : WindowId} (hs : s.freezeWf i)
    (hf : s.persist.SameFreezes t.persist) (hn : t.nv.entry i = s.nv.entry i)
    (hw : t.rights.windows[i.val] = s.rights.windows[i.val]) (he : t.rights.entries[i.val] = s.rights.entries[i.val]) :
    t.freezeWf i := by
  obtain ⟨hc, hm, hv⟩ := hs
  unfold State.freezeWf
  rw [hf _ fun _ => rfl, hw, he, hn]
  exact ⟨hc, fun d hd => hm d ((hf.mem_iff i d).mp hd), hv⟩

/-- The FREEZE job of a window ends: it has no other, and the window is FREEZING no more (R113, R114). -/
theorem State.freezeEnds_freezeWf {s : State} {i : WindowId} {d : WindowDef} {w : Window} {e : EntryState}
    (hj : s.persist.jobs.Perm (.freeze i d :: s.persist.queue))
    (hw : w = .frozen d ∧ e = .valid ∧ s.nv.entry i = .valid d ∨ w = (s.rights.window i).unfreeze ∧ e = .spoiled)
    (hs : s.freezesWf) : (((s.setEntryState i e).setWindow i w).jobEnded false).freezesWf := by
  intro j
  have hjobs := ((s.setEntryState i e).setWindow i w).jobEnded_jobs false
  have hcount : ((((s.setEntryState i e).setWindow i w).jobEnded false).persist.jobs.countP (Job.isFreezeFor j)) +
      (if i = j then 1 else 0) = s.persist.jobs.countP (Job.isFreezeFor j) := by
    rw [hjobs.countP_eq, State.queueAfterJob_countP fun _ => rfl, hj.countP_eq, List.countP_cons]
    simp only [Job.isFreezeFor, decide_eq_true_eq]
    rfl
  have hmem : ∀ d', .freeze j d' ∈ (((s.setEntryState i e).setWindow i w).jobEnded false).persist.jobs →
      .freeze j d' ∈ s.persist.queue := fun d' hd' => by
    obtain h | ⟨k, hk⟩ := State.mem_queueAfterJob (hjobs.subset hd')
    · exact h
    · cases hk
  obtain ⟨hc, hm, hv⟩ := hs j
  have hwin : (((s.setEntryState i e).setWindow i w).jobEnded false).rights.windows[j.val] =
      if i = j then w else s.rights.windows[j.val] := State.window_setWindow (s.setEntryState i e) i j w
  have hent : (((s.setEntryState i e).setWindow i w).jobEnded false).rights.entries[j.val] =
      if i = j then e else s.rights.entries[j.val] := State.entries_setEntryState s i j e
  rw [hwin, hent]
  by_cases hij : i = j
  · subst hij
    have hfreezing := hm d (hj.symm.subset List.mem_cons_self)
    rw [hfreezing] at hc
    simp only [if_true] at hcount ⊢
    have hzero : ((((s.setEntryState i e).setWindow i w).jobEnded false).persist.jobs.countP (Job.isFreezeFor i)) = 0 := by
      simp only [hc] at hcount
      omega
    have hnone : ∀ d', .freeze i d' ∉ (((s.setEntryState i e).setWindow i w).jobEnded false).persist.jobs := fun d' hd' =>
      absurd (List.countP_eq_zero.mp hzero _ hd') (by simp [Job.isFreezeFor])
    refine ⟨?_, fun d' hd' => absurd hd' (hnone d'), fun d' hd' => ?_⟩
    · rw [hzero]
      obtain ⟨rfl, -⟩ | ⟨rfl, -⟩ := hw
      · rfl
      · simp only [Rights.window, hfreezing, Window.unfreeze]
    · obtain ⟨rfl, rfl, hval⟩ | ⟨rfl, -⟩ := hw
      · obtain ⟨rfl⟩ := hd'
        exact ⟨rfl, hval⟩
      · simp only [Rights.window, hfreezing, Window.unfreeze] at hd'
        cases hd'
  · simp only [hij, if_false, Nat.add_zero] at hcount ⊢
    rw [hcount]
    exact ⟨hc, fun d' hd' => hm d' (hj.symm.subset (List.mem_cons_of_mem _ (hmem d' hd'))), hv⟩

theorem Move.freezesWf {s t : State} (h : Move s t) (hs : s.freezesWf) : t.freezesWf := by
  cases h with
  | window j w hold hw =>
    intro i
    obtain ⟨hc, hm, hv⟩ := hs i
    rw [State.window_setWindow]
    by_cases hij : j = i
    · subst hij
      rw [if_pos rfl]
      have hnone : ∀ d, .freeze j d ∉ s.persist.jobs := fun d hd => hold.1 d (hm d hd)
      refine ⟨?_, fun d hd => absurd hd (hnone d), fun d hd => absurd hd (hw.2 d)⟩
      show s.persist.jobs.countP _ = _
      rw [hc]
      obtain ⟨hf, hz⟩ := hold
      unfold Rights.window at hf
      cases ho : s.rights.windows[j.val] with
      | freezing d => exact absurd ho (hf d)
      | _ => cases w <;> simp_all
    · rw [if_neg hij]
      exact ⟨hc, hm, hv⟩
  | nv nv h =>
    intro i
    obtain ⟨hc, hm, hv⟩ := hs i
    refine ⟨hc, hm, fun d hd => ⟨(hv d hd).1, ?_⟩⟩
    obtain h | ⟨-, d', hd'⟩ := h i
    · exact h.trans (hv d hd).2
    · exact absurd (hd.symm.trans (hm d' hd')) nofun
  | engine pe h =>
    exact fun i => State.freezeWf_of_sameFreezes (hs i) (fun f _ => h.jobs.countP_eq f) rfl rfl rfl
  | writeEnds w hj => exact fun i => State.freezeWf_of_sameFreezes (hs i) (State.jobEnded_sameFreezes hj) rfl rfl rfl
  | eraseEnds e x marks hj =>
    exact fun i => State.freezeWf_of_sameFreezes (hs i) (State.jobEnded_sameFreezes (s := s.setSlot e.slot x) hj) rfl rfl rfl
  | freezeEnds i d w e hj hw => exact State.freezeEnds_freezeWf hj hw hs
  | apply p mode es =>
    obtain ⟨hr, hn⟩ := s.runApply_rights_nv mode es
    exact fun i => State.freezeWf_of_sameFreezes (hs i) (s.runApply_sameFreezes mode es) (by rw [hn]) (by rw [hr])
      (by rw [hr])
  | _ => exact hs

theorem State.FreezeBegins.freezesWf {s t : State} (h : s.FreezeBegins t) (hs : s.freezesWf) : t.freezesWf := by
  obtain ⟨i, d, hi, _, _, _, rfl⟩ := h
  unfold Rights.window at hi
  intro j
  obtain ⟨hc, hm, hv⟩ := hs j
  have hcount := Persist.enqueue_countP s.nv s.persist (.freeze i d) (Job.isFreezeFor j)
  have hjobs := Persist.enqueue_jobs s.nv s.persist (.freeze i d)
  simp only [Job.isFreezeFor, decide_eq_true_eq] at hcount
  show (Persist.jobs _).countP _ = _ ∧ (∀ d', .freeze j d' ∈ Persist.jobs _ → _) ∧ _
  rw [State.window_setWindow s i j (.freezing d)]
  rw [hcount]
  by_cases hij : i = j
  · subst hij
    rw [hi] at hc
    refine ⟨by simp [hc], fun d' hd' => ?_, fun d' hd' => by simp at hd'⟩
    obtain he | hd' := List.mem_cons.mp (hjobs.subset hd')
    · cases he
      simp
    · exact absurd (hi.symm.trans (hm d' hd')) nofun
  · simp only [hij, if_false, Nat.add_zero]
    refine ⟨hc, fun d' hd' => ?_, hv⟩
    obtain he | hd' := List.mem_cons.mp (hjobs.subset hd')
    · cases he
      exact absurd rfl hij
    · exact hm d' hd'

theorem State.isCleared.freezesWf {s : State} (h : s.isCleared) : s.freezesWf := by
  have hw : ∀ i : WindowId, s.rights.windows[i.val] = .unused := fun i => by
    rw [h.rights_eq]
    simp [Rights.initial]
  intro i
  rw [h.persist_eq, hw i]
  exact ⟨rfl, nofun, nofun⟩

/-- The windows at READY are those of the VALID entries, which are FROZEN (R107, R172). -/
theorem State.finishScan_freezesWf (s : State) : s.finishScan.freezesWf := by
  intro i
  have hnone : ∀ j ∈ s.finishScan.persist.jobs, ∃ k, j = cleanupJob k := fun j hj => by
    obtain ⟨k, -, rfl⟩ := List.mem_map.mp (s.finishScan_jobs.subset hj)
    exact ⟨k, rfl⟩
  have hzero : s.finishScan.persist.jobs.countP (Job.isFreezeFor i) = 0 := List.countP_eq_zero.mpr fun j hj => by
    obtain ⟨k, rfl⟩ := hnone j hj
    simp [cleanupJob, Job.isFreezeFor]
  have hw : s.finishScan.rights.windows[i.val] = (s.nv.entry i).window := by
    rw [s.finishScan_frame.2.2.1]; simp [NvArray.scannedRights]
  have he : s.finishScan.rights.entries[i.val] = (s.nv.entry i).state := by
    rw [s.finishScan_frame.2.2.1]; simp [NvArray.scannedRights]
  rw [hzero, hw, he, s.finishScan_frame.2.2.2.1]
  refine ⟨by cases s.nv.entry i <;> rfl, fun d hd => ?_, fun d hd => ?_⟩
  · obtain ⟨k, hk⟩ := hnone _ hd
    cases hk
  · cases h : s.nv.entry i <;> rw [h] at hd <;> cases hd
    exact ⟨rfl, rfl⟩

/-- Settles O53: a window without a FREEZE job keeps its entry and stays FROZEN, and the jobs stand for FREEZING windows. -/
theorem rightsStayGuarded : Obligations.RightsStayGuarded := by
  unfold Obligations.RightsStayGuarded
  intro s t h
  have hwindow := step_keeps (P := fun s t => ∀ i : WindowId, (∀ d : WindowDef, .freeze i d ∉ s.persist.jobs) →
      t.nv.entry i = s.nv.entry i ∧ (∀ d : WindowDef, s.rights.windows[i.val] = .frozen d → s.startup.state = .running →
        t.startup.state = .running → t.rights.windows[i.val] = .frozen d))
    (fun _ _ _ => ⟨rfl, fun _ h _ _ => h⟩) (fun _ _ _ h => h) (fun _ _ h _ hi => h.window hi) h
  refine ⟨step_keeps_law (fun _ _ h => h) Move.p0IsAdmin
      (fun hf h => by obtain ⟨_, _, _, _, _, _, rfl⟩ := hf; exact h) State.isCleared.p0IsAdmin (fun _ h => h)
      State.finishScan_p0IsAdmin h,
    step_keeps (P := fun s t => ∀ i : WindowId, s.nv.entry i ≠ .unwritten → t.nv.entry i ≠ .unwritten)
      (fun _ _ h => h) (fun _ _ _ h => h) (fun _ _ h i => h.entry_written i) h, hwindow, fun hs => ?_⟩
  refine ⟨step_keeps_law (fun _ _ h => h) Move.freezesWf State.FreezeBegins.freezesWf State.isCleared.freezesWf
    (fun _ h => h) State.finishScan_freezesWf h hs, fun i d hd hr ht => ?_⟩
  obtain ⟨-, hm, hv⟩ := hs i
  obtain ⟨hent, hwin⟩ := hwindow i fun d' hd' => absurd (hd.symm.trans (hm d' hd')) nofun
  exact ⟨hwin d hd hr ht, hent.trans (hv d hd).2⟩

end Sys2Proof.Machine
end

section
/-! PROOFS. The part while it is not RUNNING, and the laws at reset. -/

namespace Sys2Proof.Machine

/-! ## Nothing volatile stands until READY (R166, R168) -/

/-- A RUNNING part stays so through every move: only a start-up ends it. -/
theorem EntryEffect.startup_eq {mode : Persistence} {s t : State} {e : Entry} (h : EntryEffect mode s e t) :
    t.startup = s.startup := by
  cases h <;> rfl

theorem Move.startup_state {s t : State} (h : Move s t) : t.startup.state = s.startup.state := by
  cases h with
  | apply p mode es =>
    exact State.runApply_keeps (P := fun t => t.startup.state = s.startup.state) (fun _ _ h => h)
      (fun he h => by rw [he.startup_eq]; exact h) (fun t h => by rw [State.remark_eq]; exact h) mode es rfl
  | _ => rfl

theorem Moves.startup_state {s t : State} (h : Moves s t) : t.startup.state = s.startup.state :=
  h.keeps (P := fun t => t.startup.state = s.startup.state) (fun hm ht => hm.startup_state.trans ht) rfl

/-- Every happening at a RUNNING part leaves it RUNNING or clears it. -/
theorem Happens.clearedWf_of_running {s t : State} (h : Happens s t) (hs : s.startup.state = .running) : t.clearedWf := by
  have hrunning : t.startup.state = .running → t.clearedWf := fun ht hr => by
    rw [← Bool.not_eq_true, State.running_iff] at hr
    exact absurd ht hr
  cases h with
  | moves h => exact hrunning (h.startup_state.trans hs)
  | freeze h p x =>
    obtain ⟨_, _, _, _, _, _, rfl⟩ := h
    exact hrunning hs
  | startup cut hc => exact fun _ => hc
  | scan h => rw [h] at hs; cases hs
  | ready h => rw [h] at hs; cases hs

section
variable {s : State} (h : s.isCleared)
include h

theorem State.isCleared.idle (p : Port) : (s.port p).command = .idle := (h.1 p).1

theorem State.isCleared.serve (p : Port) (code : Byte) (act : List Byte → State × Reply) :
    (s.serve p code act).isCleared := by
  rw [State.serve_of_not_working fun tag params hw => by
    rw [State.isWorkingOn, h.idle p] at hw
    cases hw]
  exact h

/-- Another line, other bytes on SDO and another FRAME_ERR or REFUSED leave the port IDLE with STARTED. -/
theorem State.isCleared.setPort {p : Port} {x : PortState} (hc : x.command = .idle) (hx : x.started = true) :
    (s.setPort p x).isCleared := by
  obtain ⟨hport, hrest⟩ := h
  refine ⟨fun q => ?_, hrest⟩
  by_cases hq : q = p
  · subst hq
    rw [State.port_setPort_self]
    exact ⟨hc, hx, (hport q).2.2⟩
  · rw [State.port_setPort_of_ne _ _ hq]
    exact hport q

theorem State.isCleared.csFall (p : Port) : (s.csFall p).isCleared := h.setPort (h.idle p) (h.1 p).2.1

theorem State.isCleared.clockBytes (p : Port) (bytes : List Byte) : (s.clockBytes p bytes).isCleared := by
  obtain ⟨l, o, heq, -⟩ := s.clockBytes_eq p bytes
  rw [heq]
  exact h.setPort (h.idle p) (h.1 p).2.1

/-- A part that is not RUNNING takes no command (R183). -/
theorem State.isCleared.judgeFrame (hr : s.running = false) (p : Port) (l : Line) (extra : Bool) :
    (s.judgeFrame p l extra).command = .idle ∧ (s.judgeFrame p l extra).started = true := by
  have hport : (s.port p).command = .idle ∧ (s.port p).started = true := ⟨h.idle p, (h.1 p).2.1⟩
  have hcommand : (s.judgeCommand p l extra).command = .idle ∧ (s.judgeCommand p l extra).started = true := by
    unfold State.judgeCommand
    split
    · exact hport
    · rw [if_pos (by simp [State.refusesFrame, hr])]
      exact hport
  unfold State.judgeFrame
  split
  · exact hport
  · split
    · exact hport
    · split
      · split
        · exact ⟨by simp [h.idle p, CommandState.markFetched], hport.2⟩
        · exact hport
      · exact hcommand

theorem State.isCleared.csRise (hr : s.running = false) (p : Port) (extra : Bool) : (s.csRise p extra).isCleared := by
  unfold State.csRise
  split
  · exact h
  · next l _ => exact h.setPort (h.judgeFrame hr p l extra).1 (h.judgeFrame hr p l extra).2

theorem State.isCleared.frame (hr : s.running = false) (p : Port) (code : List Byte) (part : FramePart) :
    (s.frame p code part).isCleared := by
  have hrise : ∀ {t : State} (bytes : List Byte) (extra : Bool), t.isCleared → t.running = false →
      ((t.clockBytes p bytes).csRise p extra).isCleared := fun {t} bytes extra ht htr => by
    refine (ht.clockBytes p bytes).csRise ?_ p extra
    obtain ⟨x, hx⟩ := t.clockBytes_eq_setPort p bytes
    rw [hx]
    exact htr
  unfold State.frame
  split
  · obtain ⟨l, o, heq⟩ := s.frameUnpowered_eq p part
    rw [heq]
    exact h.setPort (h.idle p) (h.1 p).2.1
  · split
    · exact hrise _ _ (h.csFall p) hr
    · exact (h.csFall p).clockBytes p _
    · split
      · exact h.clockBytes p _
      · exact h
    · split
      · exact hrise _ _ h hr
      · exact h
    · exact h

theorem State.isCleared.running_none : s.persist.engine.running = none := by rw [h.persist_eq]; rfl

theorem State.isCleared.pause_none : s.persist.engine.pause = none := by rw [h.persist_eq]; rfl

theorem State.isCleared.claims_eq : s.claims = [] := h.2.2.2.2.1

theorem State.isCleared.claimOn_eq (k : Nat) : s.claimOn k = none := by
  rw [State.claimOn_eq_none_iff, h.claims_eq]
  exact nofun

theorem State.isCleared.tickClaim (k : Nat) : (s.tickClaim k).isCleared := by
  unfold State.tickClaim
  rw [h.claimOn_eq k]
  exact h

theorem State.isCleared.tickPause : s.tickPause.isCleared := by
  unfold State.tickPause
  rw [h.pause_none]
  exact h

theorem State.isCleared.tickAll : (s.claims.map ClaimEntry.key |>.foldl State.tickClaim s).tickPause.isCleared := by
  rw [h.claims_eq]
  exact h.tickPause

end

section
variable {s t : State} (hs : s.isCleared)
include hs

theorem execBadCommand_isCleared {p : Port} (h : execBadCommand p s = .next t) : t.isCleared := by
  unfold execBadCommand at h
  rw [hs.idle p] at h
  cases h; exact hs

theorem execRestart_isCleared {p : Port} {cut : NvResult} (h : execRestart p cut s = .next t) : t.isCleared := by
  unfold execRestart at h
  rw [hs.idle p] at h
  cases h; exact hs

theorem execClaimExpiry_isCleared {k : Nat} (h : execClaimExpiry k s = .next t) : t.isCleared := by
  unfold execClaimExpiry at h
  rw [hs.claimOn_eq k] at h
  cases h; exact hs

theorem execPauseLimitExpiry_isCleared (h : execPauseLimitExpiry s = .next t) : t.isCleared := by
  unfold execPauseLimitExpiry at h
  rw [hs.pause_none] at h
  cases h; exact hs

theorem execPhaseEnd_isCleared {r : NvResult} (h : execPhaseEnd r s = .next t) : t.isCleared := by
  unfold execPhaseEnd at h
  rw [hs.running_none] at h
  cases h; exact hs

theorem execWriteCompletion_isCleared (h : execWriteCompletion s = .next t) : t.isCleared := by
  unfold execWriteCompletion at h
  rw [hs.running_none] at h
  cases h; exact hs

theorem execEraseCompletion_isCleared (h : execEraseCompletion s = .next t) : t.isCleared := by
  unfold execEraseCompletion at h
  rw [hs.running_none] at h
  cases h; exact hs

theorem execFreezeJobEnd_isCleared (h : execFreezeJobEnd s = .next t) : t.isCleared := by
  unfold execFreezeJobEnd at h
  rw [hs.running_none] at h
  cases h; exact hs

theorem execVerifyMismatch_isCleared (h : execVerifyMismatch s = .next t) : t.isCleared := by
  unfold execVerifyMismatch at h
  rw [hs.running_none] at h
  cases h; exact hs

omit hs in
theorem exec_powerUp_isCleared {cut : NvResult} (h : exec (.powerUp cut) s = .next t) : t.isCleared := by
  rw [exec_powerUp] at h
  cases h
  exact State.isCleared_framesRestarted (s.isCleared_begun _ _ _)

theorem execPowerLoss_isCleared {cut : NvResult} (h : execPowerLoss cut s = .next t) : t.isCleared := by
  unfold execPowerLoss at h
  split at h
  · cases h
    rw [State.losePower_eq]
    exact State.isCleared_framesRestarted (s.isCleared_begun s.startup.cause .held cut)
  · cases h; exact hs

theorem exec_resetnAssert_isCleared {cut : NvResult} (h : exec (.resetnAssert cut) s = .next t) : t.isCleared := by
  rw [exec_resetnAssert] at h
  cases h
  split
  · exact hs
  · split
    · exact s.isCleared_begun .pin .held cut
    · exact hs

theorem execResetnRelease_isCleared (h : execResetnRelease s = .next t) : t.isCleared := by
  unfold execResetnRelease at h
  split at h <;> cases h <;> exact hs

theorem execReady_clearedWf (h : execReady s = .next t) : t.clearedWf := by
  unfold execReady at h
  split at h
  · cases h
    intro hr
    rw [State.running, s.finishScan_frame.2.2.2.2.2.1] at hr
    cases hr
  · cases h; exact fun _ => hs

end

/-- Whatever happens at a part that is not RUNNING and holds nothing volatile, it holds nothing volatile until READY. -/
theorem exec_clearedWf {s t : State} (hr : s.running = false) (hs : s.isCleared) :
    ∀ {i : Instr}, exec i s = .next t → t.clearedWf
  | .poll _ _, rfl | .fetch _ _, rfl | .commandFrame _ _, rfl => fun _ => hs.frame hr _ _ _
  | .badCommand _, h => fun _ => execBadCommand_isCleared hs h
  | .restart _ _, h => fun _ => execRestart_isCleared hs h
  | .ident _, rfl | .status _, rfl | .ack _, rfl | .detach _, rfl | .get _, rfl | .getdef _, rfl | .find _, rfl
  | .claiminfo _, rfl | .windowinfo _, rfl | .beginChangeset _, rfl | .set _, rfl | .create _, rfl | .retire _, rfl
  | .default _, rfl | .revert _, rfl | .commit _, rfl | .abandon _, rfl | .claim _, rfl | .release _, rfl
  | .watch _, rfl | .unwatch _, rfl | .watchclass _, rfl | .unwatchclass _, rfl | .nextnotice _, rfl | .sync _, rfl
  | .pause _, rfl | .resume _, rfl | .clearfault _, rfl | .setquota _, rfl | .setrole _, rfl | .window _, rfl
  | .unwindow _, rfl | .freeze _, rfl => fun _ => hs.serve _ _ _
  | .tick .all, rfl => fun _ => hs.tickAll
  | .tick (.claim k), rfl => fun _ => hs.tickClaim k
  | .tick .pauseLimit, rfl => fun _ => hs.tickPause
  | .claimExpiry _, h => fun _ => execClaimExpiry_isCleared hs h
  | .pauseLimitExpiry, h => fun _ => execPauseLimitExpiry_isCleared hs h
  | .phaseEnd _, h => fun _ => execPhaseEnd_isCleared hs h
  | .writeCompletion, h => fun _ => execWriteCompletion_isCleared hs h
  | .eraseCompletion, h => fun _ => execEraseCompletion_isCleared hs h
  | .freezeJobEnd, h => fun _ => execFreezeJobEnd_isCleared hs h
  | .verifyMismatch, h => fun _ => execVerifyMismatch_isCleared hs h
  | .powerUp _, h => fun _ => exec_powerUp_isCleared h
  | .powerLoss _, h => fun _ => execPowerLoss_isCleared hs h
  | .resetnAssert _, h => fun _ => exec_resetnAssert_isCleared hs h
  | .resetnRelease, h => fun _ => execResetnRelease_isCleared hs h
  | .ready, h => execReady_clearedWf hs h

/-- Settles O59: a RUNNING part stays so or is cleared, and at any other every port is IDLE, so that no command is taken. -/
theorem clearedUntilReady : Obligations.ClearedUntilReady := by
  unfold Obligations.ClearedUntilReady
  intro s t hs h
  unfold step at h
  split at h
  · cases h; exact hs
  · next c rest _ =>
    cases hr : s.running with
    | true => exact (exec_happens h).clearedWf_of_running ((State.running_iff _).mp hr)
    | false => exact exec_clearedWf (s := { s with pending := rest }) hr (hs hr) h

/-! ## The laws at reset -/

/-- Reset is the state of a part that holds nothing volatile, but that it is RUNNING. -/
theorem State.isCleared_reset : State.reset.isCleared :=
  ⟨fun p => by cases p <;> exact ⟨rfl, rfl, rfl, rfl⟩, fun i => by simp [State.reset, State.slot],
    fun c => by simp [State.reset, State.classDesc]; rfl, rfl, rfl, rfl, rfl, rfl⟩

/-- The state that READY finds when power rises on a blank NV Array. -/
def State.blankScanning : State :=
  { (State.reset.begun .power .scanning .asMeant).framesRestarted with vdd := true }

theorem State.blankScanning_nv : State.blankScanning.nv = .blank := rfl

theorem NvArray.blank_scan : NvArray.blank.scan = Vector.replicate _ .free := by
  refine Vector.ext fun i hi => ?_
  rw [Vector.getElem_replicate]
  refine (NvArray.scan_slot _ ⟨i, hi⟩).trans ?_
  have hpair : NvArray.blank.pair ⟨i, hi⟩ = ⟨.erased, .erased⟩ := by simp [NvArray.blank, NvArray.pair]
  have hfree : (NvArray.blank.pair ⟨i, hi⟩).provisional = .free := by rw [hpair]; rfl
  unfold NvArray.scannedSlot
  rw [hfree]

theorem cleanupSlots_free : cleanupSlots (Vector.replicate _ .free) = [] := by
  unfold cleanupSlots
  rw [List.filter_eq_nil_iff]
  intro i _
  rw [Vector.getElem_replicate]
  simp [Slot.isDraining]

theorem scannedClasses_free : scannedClasses (Vector.replicate _ .free) = Vector.replicate _ .initial := by
  refine Vector.ext fun i hi => ?_
  have hzero : (Vector.replicate Config.slotCount Slot.free).toList.countP (Slot.inClass ⟨i, hi⟩) = 0 := by
    rw [List.countP_eq_zero]
    intro x hx
    rw [Vector.toList_replicate] at hx
    rw [(List.mem_replicate.mp hx).2]
    simp [Slot.inClass]
  rw [Vector.getElem_replicate]
  simp only [scannedClasses, Vector.getElem_ofFn, hzero]
  rfl

theorem NvArray.blank_scannedRights : NvArray.blank.scannedRights = .initial := by
  have hentry : ∀ i : WindowId, NvArray.blank.entry i = .unwritten := fun i => by simp [NvArray.blank, NvArray.entry]
  have hw : Vector.ofFn (fun i => (NvArray.blank.entry i).window) = Vector.replicate _ .unused :=
    Vector.ext fun i hi => by rw [Vector.getElem_ofFn, Vector.getElem_replicate, hentry]; rfl
  have he : Vector.ofFn (fun i => (NvArray.blank.entry i).state) = Vector.replicate _ .unwritten :=
    Vector.ext fun i hi => by rw [Vector.getElem_ofFn, Vector.getElem_replicate, hentry]; rfl
  rw [NvArray.scannedRights, hw, he, Rights.initial]

/-- The end of a scan that leaves nothing to clean up (R172, R176). -/
theorem State.finishScan_of_clean {s : State} (h : cleanupSlots s.nv.scan = []) : s.finishScan = { s with
    slots := s.nv.scan
    classes := scannedClasses s.nv.scan
    staged := .all []
    applyNumber := 0
    claims := []
    rights := s.nv.scannedRights
    notices := .all (.normal [])
    persist := .initial
    startup := ⟨.running, s.startup.cause, []⟩ } := by
  simp only [State.finishScan, h, List.take_nil, List.map_nil, List.drop_nil, State.goOn, Persist.takeHead]
  rfl

theorem State.finishScan_blankScanning : State.blankScanning.finishScan = State.reset := by
  have hclean : cleanupSlots State.blankScanning.nv.scan = [] := by
    rw [State.blankScanning_nv, NvArray.blank_scan, cleanupSlots_free]
  rw [State.finishScan_of_clean hclean, State.blankScanning_nv, NvArray.blank_scan, scannedClasses_free,
    NvArray.blank_scannedRights]
  rfl

/-- Settles O60: at reset nothing volatile stands, and so every law holds; the scan of a blank NV Array leads there. -/
theorem lawsHoldAtReset : Obligations.LawsHoldAtReset := by
  unfold Obligations.LawsHoldAtReset
  have h := State.isCleared_reset
  refine ⟨h.noticesWf, h.claimsWf, h.claimsLive, h.countsRight, h.generationsWf, h.stagingWf, h.keysUnique, ?_,
    h.engineWf, ?_, h.markWf, h.writesWf, h.drainingHasJob, h.backlogWf, fun _ => h, h.p0IsAdmin, h.freezesWf,
    State.blankScanning, ?_, ?_⟩
  · unfold State.placesWf
    rw [h.persist_eq]
    exact Nat.zero_le _
  · unfold State.applyNumberWf
    rw [h.applyNumber_eq]
    exact Nat.zero_le _
  · exact exec_powerUp State.reset .asMeant
  · show execReady State.blankScanning = _
    have hscanning : (State.blankScanning.vdd && State.blankScanning.startup.state == .scanning) = true := rfl
    rw [execReady, if_pos hscanning, State.finishScan_blankScanning]

end Sys2Proof.Machine
end

section
/-! PROOFS. Frames (R179 to R188): a frame reaches its own port alone, in pieces as whole, and what a FETCH sends. -/

namespace Sys2Proof.Machine

/-! ## What a frame does to its port -/

/-- Nothing of the port has changed but the line and the bytes that SDO carried. -/
def PortState.OnLine (x y : PortState) : Prop := ∃ line sdo, y = { x with line := line, sdo := sdo }

section
variable {s : State} {p : Port} {l : Line} {code : List Byte} {extra : Bool}

/-- The bytes of a frame are received on its line. -/
theorem State.clockBytes_line (s : State) (p : Port) {l : Line} (hl : (s.port p).line = some l) (bytes : List Byte) :
    ∃ l' sdo, s.clockBytes p bytes = s.setPort p { s.port p with line := some l', sdo := sdo } ∧
      l'.received = l.received ++ bytes := by
  induction bytes generalizing s l with
  | nil =>
    refine ⟨l, (s.port p).sdo, ?_, (List.append_nil _).symm⟩
    rw [← hl]
    exact (s.setPort_port p).symm
  | cons b rest ih =>
    obtain ⟨l1, o1, h1, hr1⟩ : ∃ l' sdo, s.clockByte p b = s.setPort p { s.port p with line := some l', sdo := sdo } ∧
        l'.received = l.received ++ [b] := by
      unfold State.clockByte
      rw [hl]
      exact ⟨_, _, rfl, rfl⟩
    obtain ⟨l2, o2, h2, hr2⟩ := ih (s.clockByte p b) (l := l1) (by rw [h1, State.port_setPort_self])
    refine ⟨l2, o2, ?_, by rw [hr2, hr1, List.append_assoc]; rfl⟩
    show (s.clockByte p b).clockBytes p rest = _
    rw [h2, h1, State.port_setPort_self, State.setPort_setPort]

theorem State.clockBytes_append (s : State) (p : Port) (a b : List Byte) :
    s.clockBytes p (a ++ b) = (s.clockBytes p a).clockBytes p b := List.foldl_append

theorem State.clockBytes_nil (s : State) (p : Port) : s.clockBytes p [] = s := rfl

/-- The line of a frame that has begun, with the bytes received until then. -/
theorem State.csFall_clockBytes (s : State) (p : Port) (bytes : List Byte) :
    ∃ l sdo, (s.csFall p).clockBytes p bytes = s.setPort p { s.port p with line := some l, sdo := sdo } ∧
      l.received = bytes := by
  have hport : (s.csFall p).port p =
      { s.port p with line := some (.opened (s.statusByte p) false), sdo := [] } := State.port_setPort_self _ _ _
  obtain ⟨l, o, h, hr⟩ := (s.csFall p).clockBytes_line p (by rw [hport]) bytes
  refine ⟨l, o, ?_, hr⟩
  rw [h, hport]
  exact State.setPort_setPort _ _ _ _

/-- The first byte of a frame that its row goes on with. -/
theorem Line.head?_of_kindIs {c : Byte} (h : l.kindIs [c] = true) : l.received.head? = some c := by
  simpa [Line.kindIs] using h

/-- A frame, or a part of one, changes the line and the bytes on SDO, and is judged at the rise of CSn with VDD. -/
theorem State.frame_cases (s : State) (p : Port) (code : List Byte) (part : FramePart) :
    ∃ y, (s.port p).OnLine y ∧ (s.frame p code part = s.setPort p y ∨ ∃ l extra,
      (∀ c, code = [c] → l.received.head? = some c) ∧
        s.frame p code part = s.setPort p { (s.setPort p y).judgeFrame p l extra with line := none }) := by
  have hself : (s.port p).OnLine (s.port p) := ⟨_, _, rfl⟩
  have hnone : ∃ y, (s.port p).OnLine y ∧ (s = s.setPort p y ∨ ∃ l extra,
      (∀ c, code = [c] → l.received.head? = some c) ∧
        s = s.setPort p { (s.setPort p y).judgeFrame p l extra with line := none }) :=
    ⟨s.port p, hself, .inl (s.setPort_port p).symm⟩
  unfold State.frame
  split
  · obtain ⟨line, sdo, h⟩ := s.frameUnpowered_eq p part
    exact ⟨_, ⟨line, sdo, rfl⟩, .inl h⟩
  · split
    · next bytes extra _ =>
      obtain ⟨l, o, h, hr⟩ := s.csFall_clockBytes p (code ++ bytes)
      refine ⟨_, ⟨some l, o, rfl⟩, .inr ⟨l, extra, by rintro c rfl; rw [hr]; rfl, ?_⟩⟩
      rw [h, State.csRise_of_line (l := l) (by rw [State.port_setPort_self]), State.setPort_setPort]
    · next bytes _ =>
      obtain ⟨l, o, h, -⟩ := s.csFall_clockBytes p (code ++ bytes)
      exact ⟨_, ⟨some l, o, rfl⟩, .inl h⟩
    · next l bytes hl =>
      split
      · obtain ⟨l', o, h, -⟩ := s.clockBytes_line p hl bytes
        exact ⟨_, ⟨some l', o, rfl⟩, .inl h⟩
      · exact hnone
    · next l bytes extra hl =>
      split
      · next hk =>
        obtain ⟨l', o, h, hr⟩ := s.clockBytes_line p hl bytes
        refine ⟨_, ⟨some l', o, rfl⟩, .inr ⟨l', extra, ?_, ?_⟩⟩
        · rintro c rfl
          rw [hr, List.head?_append, Line.head?_of_kindIs hk]
          rfl
        · rw [h, State.csRise_of_line (l := l') (by rw [State.port_setPort_self]), State.setPort_setPort]
      · exact hnone
    · exact hnone

/-- No judgement of a frame changes STARTED. -/
theorem State.judgeFrame_started (s : State) (p : Port) (l : Line) (extra : Bool) :
    (s.judgeFrame p l extra).started = (s.port p).started := by
  unfold State.judgeFrame State.judgeCommand
  repeat' split
  all_goals rfl

/-- A FETCH is judged by its content alone (R187). -/
theorem State.judgeFrame_of_fetch (h : l.received.head? = some 0x05#8) : s.judgeFrame p l extra =
    { s.port p with
      command := if l.completes then (s.port p).command.markFetched else (s.port p).command } := by
  unfold State.judgeFrame
  cases hr : l.received with
  | nil => rw [hr] at h; exact absurd h nofun
  | cons c rest =>
    rw [hr, List.head?_cons, Option.some.injEq] at h
    subst h
    simp only [if_true]
    rw [if_neg (by decide)]
    split <;> rfl

end

/-! ## The rows of a frame -/

/-- The code byte that a row of a frame brings itself (R186, R187). -/
def rowCode (row : FramePart → Instr) (p : Port) (code : List Byte) : Prop :=
  ∀ part s, exec (row part) s = .next (s.frame p code part)

theorem rowCode_poll (p : Port) : rowCode (.poll p) p [0x00#8] := fun _ _ => rfl
theorem rowCode_fetch (p : Port) : rowCode (.fetch p) p [0x05#8] := fun _ _ => rfl
theorem rowCode_commandFrame (p : Port) : rowCode (.commandFrame p) p [] := fun _ _ => rfl

section
variable {s : State} {p : Port} {l : Line} {code : List Byte}

theorem State.frame_next_of_line (hl : (s.port p).line = some l) (b : List Byte) : s.frame p code (.next b) =
    if s.vdd = false then s else if l.kindIs code then s.clockBytes p b else s := by
  unfold State.frame State.frameUnpowered
  rw [hl]

theorem State.frame_last_of_line (hl : (s.port p).line = some l) (b : List Byte) (extra : Bool) :
    s.frame p code (.last b extra) = if s.vdd = false then s.setPort p { s.port p with line := none }
      else if l.kindIs code then (s.clockBytes p b).csRise p extra else s := by
  unfold State.frame State.frameUnpowered
  rw [hl]

theorem State.frame_first_of_none (hl : (s.port p).line = none) (b : List Byte) : s.frame p code (.first b) =
    if s.vdd = false then s.csFall p else (s.csFall p).clockBytes p (code ++ b) := by
  unfold State.frame State.frameUnpowered
  rw [hl]

theorem State.frame_whole_of_none (hl : (s.port p).line = none) (b : List Byte) (extra : Bool) :
    s.frame p code (.whole b extra) = if s.vdd = false then s.setPort p { s.port p with sdo := [] }
      else ((s.csFall p).clockBytes p (code ++ b)).csRise p extra := by
  unfold State.frame State.frameUnpowered
  rw [hl]

theorem State.csFall_line (s : State) (p : Port) :
    ((s.csFall p).port p).line = some (.opened (s.statusByte p) false) := by
  rw [State.csFall, State.port_setPort_self]

/-- Whether a row goes on with a frame is said by the bytes received so far. -/
theorem Line.kindIs_append {l' : Line} {a : List Byte} (hr : l.received ≠ []) (h : l'.received = l.received ++ a) :
    l'.kindIs code = l.kindIs code := by
  obtain ⟨c, rest, hc⟩ := List.exists_cons_of_ne_nil hr
  unfold Line.kindIs
  rw [h, hc]
  cases code <;> rfl

/-- A frame begun goes on as if it had begun with all its bytes, and ends as if it had been sent whole (R180). -/
theorem State.frame_first_pieces (hl : (s.port p).line = none) {a : List Byte}
    (hk : ∀ l : Line, l.received = code ++ a → l.kindIs code = true) (b : List Byte) (extra : Bool) :
    s.frame p code (.first (a ++ b)) = (s.frame p code (.first a)).frame p code (.next b) ∧
      s.frame p code (.whole a extra) = (s.frame p code (.first a)).frame p code (.last [] extra) := by
  rw [State.frame_first_of_none hl, State.frame_first_of_none hl, State.frame_whole_of_none hl]
  by_cases hv : s.vdd = false
  · simp only [hv, if_true]
    rw [State.frame_next_of_line (s.csFall_line p), State.frame_last_of_line (s.csFall_line p),
      if_pos (show (s.csFall p).vdd = false from hv), if_pos (show (s.csFall p).vdd = false from hv)]
    refine ⟨rfl, ?_⟩
    simp only [State.csFall, State.port_setPort_self, State.setPort_setPort, ← hl]
  · obtain ⟨l, o, h, hr⟩ := s.csFall_clockBytes p (code ++ a)
    have hl' : (((s.csFall p).clockBytes p (code ++ a)).port p).line = some l := by rw [h, State.port_setPort_self]
    have hv' : ¬ ((s.csFall p).clockBytes p (code ++ a)).vdd = false := by rw [h]; exact hv
    simp only [hv, Bool.true_eq_false, if_false]
    rw [State.frame_next_of_line hl', State.frame_last_of_line hl', if_neg hv', if_neg hv', if_pos (hk l hr),
      if_pos (hk l hr), ← State.clockBytes_append, List.append_assoc, State.clockBytes_nil]
    exact ⟨rfl, rfl⟩

/-- A frame on which bytes were received goes on in pieces as with all of them at once (R180). -/
theorem State.frame_next_pieces (hl : (s.port p).line = some l) (hr : l.received ≠ []) (a b : List Byte) (extra : Bool) :
    s.frame p code (.next (a ++ b)) = (s.frame p code (.next a)).frame p code (.next b) ∧
      s.frame p code (.last a extra) = (s.frame p code (.next a)).frame p code (.last [] extra) := by
  rw [State.frame_next_of_line hl, State.frame_next_of_line hl, State.frame_last_of_line hl]
  by_cases hv : s.vdd = false
  · simp only [hv, if_true]
    rw [State.frame_next_of_line hl, State.frame_last_of_line hl, if_pos hv, if_pos hv]
    exact ⟨rfl, rfl⟩
  · simp only [hv, Bool.true_eq_false, if_false]
    by_cases hk : l.kindIs code = true
    · obtain ⟨l', o, h, hr'⟩ := s.clockBytes_line p hl a
      have hl' : ((s.clockBytes p a).port p).line = some l' := by rw [h, State.port_setPort_self]
      have hv' : ¬ (s.clockBytes p a).vdd = false := by rw [h]; exact hv
      have hk' : l'.kindIs code = true := (Line.kindIs_append hr hr').trans hk
      simp only [hk, if_true]
      rw [State.frame_next_of_line hl', State.frame_last_of_line hl', if_neg hv', if_neg hv', if_pos hk', if_pos hk',
        ← State.clockBytes_append, State.clockBytes_nil]
      exact ⟨rfl, rfl⟩
    · simp only [hk, if_false, Bool.false_eq_true]
      rw [State.frame_next_of_line hl, State.frame_last_of_line hl, if_neg hv, if_neg hv, if_neg hk, if_neg hk]
      exact ⟨rfl, rfl⟩

/-- Without VDD a frame follows CSn alone (R179). -/
theorem State.frame_without_vdd (hv : s.vdd = false) (bytes : List Byte) (extra : Bool) :
    ((s.port p).line = none →
      s.frame p code (.whole bytes extra) = s.setPort p { s.port p with sdo := [] } ∧
      ∃ l : Line, l.received = [] ∧
        s.frame p code (.first bytes) = s.setPort p { s.port p with line := some l, sdo := [] }) ∧
    ∀ l : Line, (s.port p).line = some l → s.frame p code (.next bytes) = s ∧
      s.frame p code (.last bytes extra) = s.setPort p { s.port p with line := none } := by
  refine ⟨fun hl => ?_, fun l hl => ?_⟩
  · rw [State.frame_whole_of_none hl, State.frame_first_of_none hl, if_pos hv, if_pos hv]
    exact ⟨rfl, _, rfl, rfl⟩
  · rw [State.frame_next_of_line hl, State.frame_last_of_line hl, if_pos hv, if_pos hv]
    exact ⟨rfl, rfl⟩

end

/-- The rows of a frame, with the code byte that each brings. -/
theorem rowCode_of_mem {row : FramePart → Instr} {p : Port}
    (h : row ∈ [Instr.poll p, Instr.fetch p, Instr.commandFrame p]) :
    ∃ code, rowCode row p code ∧ (∀ a (l : Line), l.received = code ++ a →
      (row = Instr.commandFrame p → a.head? ≠ some 0x00#8 ∧ a.head? ≠ some 0x05#8) → l.kindIs code = true) := by
  simp only [List.mem_cons, List.not_mem_nil, or_false] at h
  obtain rfl | rfl | rfl := h
  · exact ⟨_, rowCode_poll p, fun a l hl _ => Line.kindIs_cons (by rw [hl]; rfl)⟩
  · exact ⟨_, rowCode_fetch p, fun a l hl _ => Line.kindIs_cons (by rw [hl]; rfl)⟩
  · exact ⟨_, rowCode_commandFrame p, fun a l hl ha => Line.kindIs_nil (by rw [hl]; exact (ha rfl).1)
      (by rw [hl]; exact (ha rfl).2)⟩

/-- Settles O8: what a frame does to its port, and its pieces. -/
theorem frameTouchesOnlyItsPort : Obligations.FrameTouchesOnlyItsPort := by
  unfold Obligations.FrameTouchesOnlyItsPort
  intro s p part
  refine ⟨?_, ?_, ?_, fun row a b extra t hrow => ?_, fun hv row hrow => ?_⟩
  · obtain ⟨y, ⟨line, sdo, rfl⟩, h | ⟨l, extra, -, h⟩⟩ := s.frame_cases p [] part
    · exact ⟨_, congrArg Host.Outcome.next h, rfl⟩
    · exact ⟨_, congrArg Host.Outcome.next h, by
        simp only [State.judgeFrame_started, State.port_setPort_self]⟩
  · obtain ⟨y, ⟨line, sdo, rfl⟩, h | ⟨l, extra, hc, h⟩⟩ := s.frame_cases p [0x05#8] part
    · exact ⟨_, congrArg Host.Outcome.next h, rfl, rfl, rfl⟩
    · rw [State.judgeFrame_of_fetch (hc _ rfl), State.port_setPort_self] at h
      exact ⟨_, congrArg Host.Outcome.next h, rfl, rfl, rfl⟩
  · obtain ⟨y, ⟨line, sdo, rfl⟩, h | ⟨l, extra, hc, h⟩⟩ := s.frame_cases p [0x00#8] part
    · exact ⟨_, _, congrArg Host.Outcome.next h⟩
    · rw [State.judgeFrame_of_poll (hc _ rfl), State.port_setPort_self] at h
      exact ⟨_, _, congrArg Host.Outcome.next h⟩
  · obtain ⟨code, hcode, hk⟩ := rowCode_of_mem hrow
    refine ⟨fun hl ha ht => ?_, fun l hl hr ht => ?_⟩
    · rw [hcode] at ht
      cases ht
      obtain ⟨h1, h2⟩ := State.frame_first_pieces hl (fun l h => hk a l h ha) b extra
      rw [hcode, hcode, hcode, hcode, h1, h2]
      exact ⟨rfl, rfl⟩
    · rw [hcode] at ht
      cases ht
      obtain ⟨h1, h2⟩ := State.frame_next_pieces (code := code) hl hr a b extra
      rw [hcode, hcode, hcode, hcode, h1, h2]
      exact ⟨rfl, rfl⟩
  · obtain ⟨code, hcode, -⟩ := rowCode_of_mem hrow
    refine ⟨fun bytes extra hl => ?_, fun l bytes extra hl => ?_⟩
    · obtain ⟨h1, l, hr, h2⟩ := (State.frame_without_vdd (code := code) hv bytes extra).1 hl
      rw [hcode, hcode, h1, h2]
      exact ⟨rfl, l, hr, rfl⟩
    · obtain ⟨h1, h2⟩ := (State.frame_without_vdd (code := code) hv bytes extra).2 l hl
      rw [hcode, hcode, h1, h2]
      exact ⟨rfl, rfl⟩

/-! ## FETCH (R187) -/

/-- The bytes that go out in a frame after its byte 0, from the index `n` on: the content, and then status bytes. -/
def sentBytes (content : FetchContent) (status : Byte) (n count : Nat) : List Byte :=
  (List.range' n count).map fun i => content.bytes.getD i status

theorem sentBytes_zero (content : FetchContent) (status : Byte) (count : Nat) :
    sentBytes content status 0 count = (content.bytes ++ List.replicate count status).take count := by
  refine List.ext_getElem (by simp [sentBytes]) fun i h1 h2 => ?_
  simp only [sentBytes, List.length_map, List.length_range'] at h1
  simp only [sentBytes, List.getElem_map, List.getElem_range', Nat.zero_add, Nat.one_mul, List.getElem_take]
  rw [List.getElem_append]
  split
  · next h => rw [List.getD_eq_getElem _ _ h]
  · next h => rw [List.getElem_replicate, List.getD_eq_default _ _ (Nat.le_of_not_lt h)]

section
variable {s : State} {p : Port} {l : Line} {content : FetchContent}

/-- A byte of a FETCH whose content is fixed: the next byte comes from the content, and after it is a status byte. -/
theorem State.clockByte_of_content (hl : (s.port p).line = some l) (hr : l.received ≠ []) (hc : l.content = some content)
    (b : Byte) : s.clockByte p b = s.setPort p { s.port p with
      line := some { l with
        received := l.received ++ [b]
        sending := content.bytes.getD l.received.length (s.statusByte p) }
      sdo := (s.port p).sdo ++ [l.sending] } := by
  simp only [State.clockByte, hl, Line.contentAfter, hr, if_false, hc, outgoing, Nat.add_sub_cancel]

/-- The bytes of a FETCH whose content is fixed. -/
theorem State.clockBytes_of_content (bytes : List Byte) (hl : (s.port p).line = some l) {n : Nat}
    (hr : l.received.length = n + 1) (hc : l.content = some content)
    (hs : l.sending = content.bytes.getD n (s.statusByte p)) :
    s.clockBytes p bytes = s.setPort p { s.port p with
      line := some { l with
        received := l.received ++ bytes
        sending := content.bytes.getD (n + bytes.length) (s.statusByte p) }
      sdo := (s.port p).sdo ++ sentBytes content (s.statusByte p) n bytes.length } := by
  induction bytes generalizing s l n with
  | nil =>
    simp only [sentBytes, List.length_nil, List.range'_zero, List.map_nil, List.append_nil, Nat.add_zero, ← hs]
    exact hl ▸ (s.setPort_port p).symm
  | cons b rest ih =>
    have hne : l.received ≠ [] := fun h => by rw [h] at hr; cases hr
    have hstatus : (s.clockByte p b).statusByte p = s.statusByte p := by
      rw [State.clockByte_of_content hl hne hc]
      exact s.statusByte_setPort p _ _
    have hport : (s.clockByte p b).port p = { s.port p with
        line := some { l with
          received := l.received ++ [b]
          sending := content.bytes.getD (n + 1) (s.statusByte p) }
        sdo := (s.port p).sdo ++ [l.sending] } := by
      rw [State.clockByte_of_content hl hne hc, State.port_setPort_self, hr]
    show (s.clockByte p b).clockBytes p rest = _
    rw [ih (s := s.clockByte p b) (n := n + 1) (congrArg PortState.line hport) (by simp [hr]) hc (by rw [hstatus]), hstatus,
      hport, State.clockByte_of_content hl hne hc, State.setPort_setPort]
    simp only [sentBytes, List.length_cons, List.range'_succ, List.map_cons, List.append_assoc, List.singleton_append, hs,
      Nat.add_assoc, Nat.add_comm 1]

/-- Byte 0 of a FETCH fixes the content (R187). -/
theorem State.clockByte_fetch (hl : (s.port p).line = some l) (hr : l.received = []) :
    s.clockByte p 0x05#8 = s.setPort p { s.port p with
      line := some ⟨[0x05#8], (s.port p).command.fetchContent.bytes.getD 0 (s.statusByte p),
        some (s.port p).command.fetchContent, l.startup⟩
      sdo := (s.port p).sdo ++ [l.sending] } := by
  simp only [State.clockByte, hl, Line.contentAfter, hr, if_true, outgoing, List.nil_append, List.length_nil]

/-- The port that the fall of CSn leaves. -/
theorem State.port_csFall (s : State) (p : Port) : (s.csFall p).port p =
    { s.port p with line := some (.opened (s.statusByte p) false), sdo := [] } := State.port_setPort_self _ _ _

/-- The first byte of a FETCH frame. -/
theorem State.csFall_clockByte_fetch (s : State) (p : Port) :
    (s.csFall p).clockByte p 0x05#8 = s.setPort p { s.port p with
      line := some ⟨[0x05#8], (s.port p).command.fetchContent.bytes.getD 0 (s.statusByte p),
        some (s.port p).command.fetchContent, false⟩
      sdo := [s.statusByte p] } := by
  have hstatus : (s.csFall p).statusByte p = s.statusByte p := s.statusByte_setPort p _ _
  rw [State.clockByte_fetch (s.csFall_line p) rfl, hstatus, s.port_csFall p]
  exact State.setPort_setPort _ _ _ _

/-- A FETCH frame sent whole: its bytes, and the fetched flag (R187). -/
theorem State.frame_fetch_whole (hv : s.vdd = true) (hl : (s.port p).line = none) (bytes : List Byte) (extra : Bool) :
    s.frame p [0x05#8] (.whole bytes extra) = s.setPort p { s.port p with
      command := if (s.port p).command.fetchContent.isAnswer &&
          decide ((s.port p).command.fetchContent.bytes.length + 1 ≤ bytes.length + 1) then
        (s.port p).command.markFetched else (s.port p).command
      sdo := s.statusByte p :: sentBytes (s.port p).command.fetchContent (s.statusByte p) 0 bytes.length } := by
  have hstatus : ∀ line sdo, (s.setPort p { s.port p with line := line, sdo := sdo }).statusByte p = s.statusByte p :=
    s.statusByte_setPort p
  rw [State.frame_whole_of_none hl, if_neg (by rw [hv]; exact nofun)]
  show (((s.csFall p).clockByte p 0x05#8).clockBytes p bytes).csRise p extra = _
  rw [State.csFall_clockByte_fetch, State.clockBytes_of_content (n := 0) bytes (by rw [State.port_setPort_self]) rfl rfl
    (by rw [hstatus]), hstatus, State.setPort_setPort, State.port_setPort_self,
    State.csRise_of_line (by rw [State.port_setPort_self]), State.judgeFrame_of_fetch rfl, State.port_setPort_self,
    State.setPort_setPort]
  simp only [Line.completes, List.length_cons, List.singleton_append, ← hl]
  rfl

theorem CommandState.fetchContent_of_not_answered {c : CommandState} (h : ∀ tag r fetched, c ≠ .answered tag r fetched) :
    c.fetchContent = ⟨[0x00#8, 0x03#8, 0x00#8, 0x14#8], false⟩ := by
  have hbytes : fetchBytes 0x00#8 (.bare .noResponse) = [0x00#8, 0x03#8, 0x00#8, 0x14#8] := by decide +kernel
  unfold CommandState.fetchContent
  split
  · next tag r fetched => exact absurd rfl (h tag r fetched)
  · rw [hbytes]

theorem length_fetchBytes (tag : Byte) (r : Reply) : (fetchBytes tag r).length = r.data.length + 4 := by
  simp only [fetchBytes, List.length_append, List.length_cons, length_enc8, List.length_nil]
  omega

end

/-- The content and the first byte of it that a FETCH sends, by the command state (R187). -/
theorem CommandState.fetchContent_cases {c : CommandState} {content : FetchContent} {sending status : Byte}
    (h : (∃ tag r fetched, c = .answered tag r fetched ∧ content = ⟨fetchBytes tag r, true⟩ ∧ sending = tag) ∨
      (∀ tag r fetched, c ≠ .answered tag r fetched) ∧
        content = ⟨[0x00#8, 0x03#8, 0x00#8, 0x14#8], false⟩ ∧ sending = 0x00#8) :
    c.fetchContent = content ∧ content.bytes.getD 0 status = sending := by
  obtain ⟨tag, r, fetched, rfl, rfl, rfl⟩ | ⟨hc, rfl, rfl⟩ := h
  · exact ⟨rfl, rfl⟩
  · exact ⟨CommandState.fetchContent_of_not_answered hc, rfl⟩

/-- Settles O4: the content is fixed at byte 0, each later byte comes from it, and the rise of CSn sets the flag by it. -/
theorem fetchSendsAnswer : Obligations.FetchSendsAnswer := by
  unfold Obligations.FetchSendsAnswer
  refine ⟨rfl, crc8_eq, fun s p bytes extra hv => ?_⟩
  intro answer
  have hanswer : answer = fetchBytes := rfl
  have hv' : ¬ s.vdd = false := by rw [hv]; exact nofun
  refine ⟨fun hl => ⟨fun tag r fetched hc => ?_, fun hc => ?_⟩, fun content sending h => ⟨fun hl => ?_, fun l hl hr => ?_⟩,
    fun l content hl hhead hcontent => ⟨fun b => ?_, ?_⟩⟩
  · have hmark : (if decide (r.data.length + 5 ≤ bytes.length + 1) = true then CommandState.answered tag r true
        else .answered tag r fetched) = .answered tag r (fetched || decide (r.data.length + 5 ≤ bytes.length + 1)) := by
      split <;> simp_all
    rw [rowCode_fetch, State.frame_fetch_whole hv hl, sentBytes_zero, hc, hanswer]
    simp only [CommandState.fetchContent, CommandState.markFetched, length_fetchBytes, Bool.true_and, hmark]
  · rw [rowCode_fetch, State.frame_fetch_whole hv hl, sentBytes_zero, CommandState.fetchContent_of_not_answered hc]
    rfl
  · obtain ⟨h1, h2⟩ := CommandState.fetchContent_cases (status := s.statusByte p) h
    rw [rowCode_fetch, State.frame_first_of_none hl, if_neg hv']
    show Host.Outcome.next ((s.csFall p).clockByte p 0x05#8) = _
    rw [State.csFall_clockByte_fetch, h1, h2]
  · obtain ⟨h1, h2⟩ := CommandState.fetchContent_cases (status := s.statusByte p) h
    rw [rowCode_commandFrame, State.frame_next_of_line hl, if_neg hv', if_pos (Line.kindIs_nil (by simp [hr]) (by simp [hr]))]
    show Host.Outcome.next (s.clockByte p 0x05#8) = _
    rw [State.clockByte_fetch hl hr, h1, h2]
  · rw [rowCode_fetch, State.frame_next_of_line hl, if_neg hv', if_pos (Line.kindIs_cons hhead)]
    show Host.Outcome.next (s.clockByte p b) = _
    rw [State.clockByte_of_content hl (fun h => by rw [h] at hhead; cases hhead) hcontent]
  · rw [rowCode_fetch, State.frame_last_of_line hl, if_neg hv', if_pos (Line.kindIs_cons hhead), State.clockBytes_nil,
      State.csRise_of_line hl, State.judgeFrame_of_fetch hhead]
    simp only [Line.completes, hcontent]
    congr 2
    cases hc : (s.port p).command with
    | answered tag r fetched =>
      simp only [CommandState.markFetched]
      split <;> simp_all
    | _ => simp only [CommandState.markFetched, ite_self]

end Sys2Proof.Machine
end

section
/-! PROOFS. What the taking of a command leaves: an answered command reaches no port but its own, and a refused one nothing. -/

namespace Sys2Proof.Machine

/-! ## What no command changes, and what a refused one does not -/

/-- The ports, the queue, the pins, the NV Array and the start-up state are as they were. -/
def State.SameOutside (s t : State) : Prop :=
  t.ports = s.ports ∧ t.pending = s.pending ∧ t.vdd = s.vdd ∧ t.resetnLow = s.resetnLow ∧ t.nv = s.nv ∧
    t.startup.state = s.startup.state ∧ t.startup.cause = s.startup.cause

theorem State.SameOutside.refl (s : State) : s.SameOutside s := ⟨rfl, rfl, rfl, rfl, rfl, rfl, rfl⟩

theorem State.SameOutside.trans {s t u : State} (h : s.SameOutside t) (h' : t.SameOutside u) : s.SameOutside u := by
  obtain ⟨h1, h2, h3, h4, h5, h6, h7⟩ := h
  obtain ⟨k1, k2, k3, k4, k5, k6, k7⟩ := h'
  exact ⟨k1.trans h1, k2.trans h2, k3.trans h3, k4.trans h4, k5.trans h5, k6.trans h6, k7.trans h7⟩

/-- The effect and answer of a command: the ports and what lies outside the blocks are as they were, and with an answer other
than OK and WAITING everything is. -/
structure State.Taken (s : State) (x : State × Reply) : Prop where
  outside : s.SameOutside x.1
  refused : x.2.result ≠ .ok → x.2.result ≠ .waiting → x.1 = s

section
variable {s t : State} {p : Port} {params : List Byte}

theorem State.Taken.unchanged {r : Reply} : s.Taken (s, r) := ⟨.refl s, fun _ _ => rfl⟩

theorem State.Taken.ok {data : List Byte} (h : s.SameOutside t) : s.Taken (t, .ok data) := ⟨h, fun h => absurd rfl h⟩

theorem State.Taken.waiting {data : List Byte} (h : s.SameOutside t) : s.Taken (t, ⟨.waiting, data⟩) :=
  ⟨h, fun _ h => absurd rfl h⟩

theorem State.Taken.bareCommand {act : State × Reply} (h : s.Taken act) : s.Taken (s.bareCommand params act) := by
  unfold State.bareCommand
  split
  · exact h
  · exact .unchanged

theorem State.Taken.adminOnly {act : State × Reply} (h : s.Taken act) : s.Taken (s.adminOnly p act) := by
  unfold State.adminOnly
  split
  · exact h
  · exact .unchanged

/-! ## The effects, block by block -/

theorem State.sameOutside_handOn (s : State) (e : ClaimEntry) : s.SameOutside (s.handOn e) := by
  rw [State.handOn_eq]
  exact .refl s

theorem State.sameOutside_runApply (s : State) (mode : Persistence) (es : List Entry) :
    s.SameOutside (s.runApply mode es) :=
  State.runApply_keeps (P := s.SameOutside) (fun _ _ h => h)
    (fun he h => h.trans (by cases he <;> exact .refl _)) (fun t h => by rw [State.remark_eq]; exact h) mode es (.refl s)

theorem State.sameOutside_detach (s : State) (p : Port) : s.SameOutside (s.detach p) := by
  obtain ⟨c, m, heq, -⟩ := State.foldl_detachClaim_frame p s.claims (s.setStack p [])
  have hclaims : (s.setStack p []).detachClaims p = { s.setStack p [] with claims := c, notices := m } := heq
  unfold State.detach State.detachEngine
  rw [hclaims]
  dsimp only
  split <;> exact .refl s

theorem State.claim_taken : s.Taken (s.claim p params) := by
  unfold State.claim State.claimHeld
  repeat' split
  all_goals first | exact .unchanged | exact .ok (.refl s) | exact .waiting (.refl s)

theorem State.release_taken : s.Taken (s.release p params) := by
  unfold State.release
  repeat' split
  all_goals first | exact .unchanged | exact .ok (.refl s) | exact .ok (s.sameOutside_handOn _)

theorem State.watchCommand_taken {act : SlotId → Record → State × Reply} (h : ∀ i r, s.Taken (act i r)) :
    s.Taken (s.watchCommand p params act) := by
  unfold State.watchCommand
  repeat' split
  all_goals first | exact .unchanged | exact h _ _

theorem State.watchClass_taken {member : Bool} : s.Taken (s.watchClass p member params) := by
  unfold State.watchClass
  split
  · exact .unchanged
  · exact .ok (.refl s)

theorem State.nextNotice_taken : s.Taken (s.nextNotice p) := by
  unfold State.nextNotice
  split
  · exact .unchanged
  · exact .ok (.refl s)

theorem State.sync_taken : s.Taken (s.sync p params) := by
  unfold State.sync
  repeat' split
  all_goals first | exact .unchanged | exact .waiting (.refl s)

theorem State.pauseEngine_taken : s.Taken (s.pauseEngine p params) := by
  unfold State.pauseEngine
  repeat' split
  all_goals first | exact .unchanged | exact .ok (.refl s)

theorem State.resumeEngine_taken : s.Taken (s.resumeEngine p) := by
  unfold State.resumeEngine
  split
  · exact .ok (.refl s)
  · exact .unchanged

theorem State.clearFault_taken : s.Taken s.clearFault := by
  by_cases hf : s.persist.engine.isFaulted = false
  · rw [State.clearFault_of_not_faulted hf]
    exact .unchanged
  · obtain ⟨j, hj⟩ : ∃ j, s.persist.engine = .faulted j := by
      cases he : s.persist.engine <;> simp_all [Engine.isFaulted, Engine.faultRecord]
    cases j with
    | write w => rw [State.clearFault_of_write hj]; exact .ok (.refl s)
    | erase e => rw [State.clearFault_of_erase hj]; exact .ok (.refl s)

theorem State.setQuota_taken : s.Taken (s.setQuota params) := by
  unfold State.setQuota
  repeat' split
  all_goals first | exact .unchanged | exact .ok (.refl s)

theorem State.setRole_taken : s.Taken (s.setRole params) := by
  unfold State.setRole
  split
  · exact .unchanged
  · exact .ok (.refl s)

theorem State.defineWindow_taken : s.Taken (s.defineWindow params) := by
  unfold State.defineWindow
  repeat' split
  all_goals first | exact .unchanged | exact .ok (.refl s)

theorem State.removeWindow_taken : s.Taken (s.removeWindow params) := by
  unfold State.removeWindow
  repeat' split
  all_goals first | exact .unchanged | exact .ok (.refl s)

theorem State.freezeWindow_taken : s.Taken (s.freezeWindow params) := by
  unfold State.freezeWindow
  repeat' split
  all_goals first | exact .unchanged | exact .ok (.refl s)

theorem State.begin_taken : s.Taken (s.begin p) := by
  unfold State.begin
  split
  · exact .unchanged
  · exact .ok (.refl s)

theorem State.abandon_taken : s.Taken (s.abandon p) := by
  unfold State.abandon
  split
  · exact .unchanged
  · exact .ok (.refl s)

theorem State.commit_taken : s.Taken (s.commit p params) := by
  unfold State.commit State.commitOutermost
  repeat' split
  all_goals first | exact .unchanged | exact .ok (s.sameOutside_runApply _ _) | exact .ok (.refl s)

theorem State.direct_taken {k : Nat} {ch : Change} : s.Taken (s.direct p k ch) := by
  unfold State.direct State.apply
  split
  · exact .unchanged
  · exact .ok (s.sameOutside_runApply _ _)

variable {top : Changeset} {lower : Stack}

theorem State.stage_taken {k : Nat} {ch : Change} {resolved : List Byte} :
    s.Taken (s.stage p top lower k ch resolved) := by
  unfold State.stage
  split
  · exact .unchanged
  · exact .ok (.refl s)

theorem State.stageSet_taken : s.Taken (s.stageSet p top lower params) := by
  unfold State.stageSet
  repeat' split
  all_goals first | exact .unchanged | exact State.stage_taken

theorem State.directSet_taken : s.Taken (s.directSet p params) := by
  unfold State.directSet
  repeat' split
  all_goals first | exact .unchanged | exact State.direct_taken

theorem State.stageCreate_taken : s.Taken (s.stageCreate p top lower params) := by
  unfold State.stageCreate
  repeat' split
  all_goals first | exact .unchanged | exact State.stage_taken

theorem State.directCreate_taken : s.Taken (s.directCreate p params) := by
  unfold State.directCreate
  repeat' split
  all_goals first | exact .unchanged | exact State.direct_taken

theorem State.stageRetire_taken : s.Taken (s.stageRetire p top lower params) := by
  unfold State.stageRetire
  repeat' split
  all_goals first | exact .unchanged | exact State.stage_taken

theorem State.directRetire_taken : s.Taken (s.directRetire p params) := by
  unfold State.directRetire
  repeat' split
  all_goals first | exact .unchanged | exact State.direct_taken

theorem State.stageDefault_taken : s.Taken (s.stageDefault p top lower params) := by
  unfold State.stageDefault State.stageResolved
  repeat' split
  all_goals first | exact .unchanged | exact State.stage_taken

theorem State.directDefault_taken : s.Taken (s.directDefault p params) := by
  unfold State.directDefault
  repeat' split
  all_goals first | exact .unchanged | exact State.direct_taken

theorem State.stageRevert_taken : s.Taken (s.stageRevert p top lower params) := by
  unfold State.stageRevert State.stageResolved
  repeat' split
  all_goals first | exact .unchanged | exact State.stage_taken

theorem State.directRevert_taken : s.Taken (s.directRevert p params) := by
  unfold State.directRevert
  repeat' split
  all_goals first | exact .unchanged | exact State.direct_taken

/-- A staging command at the depth of its port. -/
theorem State.byDepth_taken {direct : State × Reply} {staged : Changeset → Stack → State × Reply}
    (hd : s.Taken direct) (hs : ∀ top lower, s.Taken (staged top lower)) :
    s.Taken (match s.stack p with | [] => direct | top :: lower => staged top lower) := by
  split
  · exact hd
  · exact hs _ _

end

/-! ## The commands, row by row -/

/-- How the command with a code is taken: ACK, RESTART, or one that reaches no port. -/
inductive CommandServed (c : Instr) (p : Port) (code : Byte) : Prop
  | served (act : State → List Byte → State × Reply) (hcode : code ≠ 0x03#8)
      (hexec : ∀ s, exec c s = .next (s.serve p code (act s))) (hact : ∀ (s : State) params, s.Taken (act s params))
  | ack (hc : c = .ack p) (hcode : code = 0x03#8)
  | restart (cut : NvResult) (hc : c = .restart p cut) (hcode : code = 0x6F#8)

theorem commandServed_of_takenFrom :
    ∀ {c : Instr} {p : Port} {code : Byte}, c.takenFrom = some (p, code) → CommandServed c p code
  | .ack _, _, _, rfl => .ack rfl rfl
  | .restart _ cut, _, _, rfl => .restart cut rfl rfl
  | .ident _, _, _, rfl | .status _, _, _, rfl =>
    .served _ (by decide) (fun _ => rfl) fun _ _ => .bareCommand .unchanged
  | .detach p, _, _, rfl =>
    .served _ (by decide) (fun _ => rfl) fun s _ => .bareCommand (.ok (s.sameOutside_detach p))
  | .get _, _, _, rfl | .getdef _, _, _, rfl | .find _, _, _, rfl | .claiminfo _, _, _, rfl | .windowinfo _, _, _, rfl =>
    .served _ (by decide) (fun _ => rfl) fun _ _ => .unchanged
  | .beginChangeset _, _, _, rfl => .served _ (by decide) (fun _ => rfl) fun _ _ => State.begin_taken.bareCommand
  | .set _, _, _, rfl => .served _ (by decide) (fun _ => rfl) fun _ _ =>
    State.byDepth_taken State.directSet_taken fun _ _ => State.stageSet_taken
  | .create _, _, _, rfl => .served _ (by decide) (fun _ => rfl) fun _ _ =>
    State.byDepth_taken State.directCreate_taken fun _ _ => State.stageCreate_taken
  | .retire _, _, _, rfl => .served _ (by decide) (fun _ => rfl) fun _ _ =>
    State.byDepth_taken State.directRetire_taken fun _ _ => State.stageRetire_taken
  | .default _, _, _, rfl => .served _ (by decide) (fun _ => rfl) fun _ _ =>
    State.byDepth_taken State.directDefault_taken fun _ _ => State.stageDefault_taken
  | .revert _, _, _, rfl => .served _ (by decide) (fun _ => rfl) fun _ _ =>
    State.byDepth_taken State.directRevert_taken fun _ _ => State.stageRevert_taken
  | .commit _, _, _, rfl => .served _ (by decide) (fun _ => rfl) fun _ _ => State.commit_taken
  | .abandon _, _, _, rfl => .served _ (by decide) (fun _ => rfl) fun _ _ => State.abandon_taken.bareCommand
  | .claim _, _, _, rfl => .served _ (by decide) (fun _ => rfl) fun _ _ => State.claim_taken
  | .release _, _, _, rfl => .served _ (by decide) (fun _ => rfl) fun _ _ => State.release_taken
  | .watch _, _, _, rfl | .unwatch _, _, _, rfl => .served _ (by decide) (fun _ => rfl) fun s _ =>
    State.watchCommand_taken fun _ _ => .ok (.refl s)
  | .watchclass _, _, _, rfl | .unwatchclass _, _, _, rfl =>
    .served _ (by decide) (fun _ => rfl) fun _ _ => State.watchClass_taken
  | .nextnotice _, _, _, rfl => .served _ (by decide) (fun _ => rfl) fun _ _ => State.nextNotice_taken.bareCommand
  | .sync _, _, _, rfl => .served _ (by decide) (fun _ => rfl) fun _ _ => State.sync_taken
  | .pause _, _, _, rfl => .served _ (by decide) (fun _ => rfl) fun _ _ => State.pauseEngine_taken.adminOnly
  | .resume _, _, _, rfl =>
    .served _ (by decide) (fun _ => rfl) fun _ _ => State.resumeEngine_taken.bareCommand.adminOnly
  | .clearfault _, _, _, rfl =>
    .served _ (by decide) (fun _ => rfl) fun _ _ => State.clearFault_taken.bareCommand.adminOnly
  | .setquota _, _, _, rfl => .served _ (by decide) (fun _ => rfl) fun _ _ => State.setQuota_taken.adminOnly
  | .setrole _, _, _, rfl => .served _ (by decide) (fun _ => rfl) fun _ _ => State.setRole_taken.adminOnly
  | .window _, _, _, rfl => .served _ (by decide) (fun _ => rfl) fun _ _ => State.defineWindow_taken.adminOnly
  | .unwindow _, _, _, rfl => .served _ (by decide) (fun _ => rfl) fun _ _ => State.removeWindow_taken.adminOnly
  | .freeze _, _, _, rfl => .served _ (by decide) (fun _ => rfl) fun _ _ => State.freezeWindow_taken.adminOnly

/-- ACK clears STARTED, and with parameters is BAD_PARAM (R190). -/
theorem exec_ack_of_working {s : State} {p : Port} {tag : Byte} {params : List Byte}
    (h : s.isWorkingOn p tag 0x03#8 params) : exec (.ack p) s = .next (if params = [] then
      (s.setPort p { s.port p with started := false }).answers p tag .ok [] else s.answers p tag .badParam []) := by
  have hexec : exec (.ack p) s = .next (s.serve p 0x03#8 fun params =>
      s.bareCommand params (s.setPort p { s.port p with started := false }, .ok [])) := rfl
  rw [hexec, State.serve_of_working h]
  unfold State.bareCommand
  split <;> rfl

/-- Settles O9: the port of each command is answered on a state whose ports are as they were. -/
theorem commandAnswersItsPort : Obligations.CommandAnswersItsPort := by
  unfold Obligations.CommandAnswersItsPort
  intro s c p code hc hcode
  cases commandServed_of_takenFrom hc with
  | served act hack hexec hact =>
    refine ⟨fun tag params h => ⟨_, (act s params).2, by rw [hexec, State.serve_of_working h], ?_⟩, fun h => ?_⟩
    · obtain ⟨hp, hrest⟩ := (hact s params).outside
      refine ⟨?_, hrest⟩
      rw [if_neg fun h => hack h.1]
      simp only [State.answers, hp]
      rfl
    · rw [hexec, State.serve_of_not_working h]
  | ack hc hk =>
    subst hc hk
    refine ⟨fun tag params h => ?_, fun h => congrArg Host.Outcome.next (State.serve_of_not_working h _)⟩
    rw [exec_ack_of_working h]
    by_cases hp : params = []
    · refine ⟨_, .ok [], rfl, ?_⟩
      rw [if_pos hp, if_pos ⟨rfl, hp⟩]
      refine ⟨?_, rfl, rfl, rfl, rfl, rfl, rfl⟩
      simp only [State.answers, State.setPort, PortMap.get_set_self, PortMap.set_set]
      rfl
    · refine ⟨_, .bare .badParam, rfl, ?_⟩
      rw [if_neg hp, if_neg fun h => hp h.2]
      exact ⟨rfl, rfl, rfl, rfl, rfl, rfl, rfl⟩
  | restart cut hc hk => exact absurd hk hcode

/-- Settles O10: a command's effect other than with OK or WAITING is none; a RESTART that passes leaves its port IDLE. -/
theorem refusalChangesNothing : Obligations.RefusalChangesNothing := by
  unfold Obligations.RefusalChangesNothing
  intro s t c p code tag params r hc h ht hr hok hwaiting
  cases commandServed_of_takenFrom hc with
  | served act hack hexec hact =>
    rw [hexec, State.serve_of_working h] at ht
    cases ht
    rw [State.answers_port] at hr
    obtain ⟨-, rfl, -⟩ := CommandState.answered.inj hr
    rw [(hact s params).refused hok hwaiting]
  | ack hc hk =>
    subst hc hk
    rw [exec_ack_of_working h] at ht
    cases ht
    split at hr
    · rw [State.answers_port] at hr
      obtain ⟨-, rfl, -⟩ := CommandState.answered.inj hr
      exact absurd rfl hok
    · next hp =>
      rw [State.answers_port] at hr
      obtain ⟨-, rfl, -⟩ := CommandState.answered.inj hr
      rw [if_neg hp]
  | restart cut hc hk =>
    subst hc hk
    by_cases hrole : s.rights.roles.get p = .admin
    · rw [exec_restart_of_admin h hrole] at ht
      cases ht
      split at hr
      · next hp =>
        rw [State.answers_port] at hr
        obtain ⟨-, rfl, -⟩ := CommandState.answered.inj hr
        rw [if_pos hp]
      · rw [State.beginStartup_eq, ((s.isCleared_begun _ _ _).1 p).1] at hr
        cases hr
    · rw [exec_restart_of_not_admin h hrole] at ht
      cases ht
      rw [State.answers_port] at hr
      obtain ⟨-, rfl, -⟩ := CommandState.answered.inj hr
      rfl

end Sys2Proof.Machine
end

section
/-! PROOFS. The commands of the port (chapter 10): IDENT, ACK, an unknown code, the form of the parameters, and DETACH. -/

namespace Sys2Proof.Machine

/-! ## The form of the parameters (R194) -/

section
variable {s : State} {p : Port} {code tag : Byte} {params : List Byte}

/-- A command that its block has taken is answered on the state that its effect leaves (R185). -/
theorem exec_of_served {c : Instr} {act : List Byte → State × Reply} {t : State} {r : Result} {data : List Byte}
    (hc : exec c s = .next (s.serve p code act)) (h : s.isWorkingOn p tag code params)
    (ha : act params = (t, ⟨r, data⟩)) : exec c s = .next (t.answers p tag r data) := by
  rw [hc, State.serve_of_working h, ha]

/-- An admin-only command from an ADMIN port. -/
theorem State.adminOnly_eq {act x : State × Reply} (hrole : s.rights.roles.get p = .admin) (ha : act = x) :
    s.adminOnly p act = x := (State.adminOnly_of_admin hrole act).trans ha

theorem State.getReply_of_badForm (h : ¬ isGetForm params) : s.getReply p params = .bare .badParam := by
  rw [State.getReply, (readGet_eq_none_iff params).mpr h]

theorem State.getdefReply_of_badForm (h : ¬ isKeyForm params) : s.getdefReply p params = .bare .badParam := by
  rw [State.getdefReply, (readKeyAlone_eq_none_iff params).mpr h]

theorem State.findReply_of_badForm (h : ¬ isFindForm params) : s.findReply p params = .bare .badParam := by
  rw [State.findReply, (readFind_eq_none_iff params).mpr h]

theorem State.claiminfoReply_of_badForm (h : ¬ isKeyForm params) : s.claiminfoReply p params = .bare .badParam := by
  rw [State.claiminfoReply, (readKeyAlone_eq_none_iff params).mpr h]

theorem State.windowinfoReply_of_badForm (h : ¬ isIndexForm params) : s.windowinfoReply params = .bare .badParam := by
  rw [State.windowinfoReply, (readWindowAlone_eq_none_iff params).mpr h]

theorem State.commit_of_badForm (h : ¬ isCommitForm params) : s.commit p params = (s, .bare .badParam) := by
  rw [State.commit, (readCommit_eq_none_iff params).mpr h]

theorem State.claim_of_badForm (h : ¬ isClaimForm params) : s.claim p params = (s, .bare .badParam) := by
  rw [State.claim, (readClaim_eq_none_iff params).mpr h]

theorem State.release_of_badForm (h : ¬ isKeyForm params) : s.release p params = (s, .bare .badParam) := by
  rw [State.release, (readKeyAlone_eq_none_iff params).mpr h]

theorem State.watchCommand_of_badForm (h : ¬ isKeyForm params) (act : SlotId → Record → State × Reply) :
    s.watchCommand p params act = (s, .bare .badParam) := by
  rw [State.watchCommand, (readKeyAlone_eq_none_iff params).mpr h]

theorem State.watchClass_of_badForm (h : ¬ isClassForm params) (member : Bool) :
    s.watchClass p member params = (s, .bare .badParam) := by
  rw [State.watchClass, (readClassAlone_eq_none_iff params).mpr h]

theorem State.sync_of_badForm (h : ¬ isSyncForm params) : s.sync p params = (s, .bare .badParam) := by
  rw [State.sync, (readSync_eq_none_iff params).mpr h]

theorem State.pauseEngine_of_badForm (h : ¬ isPauseForm params) : s.pauseEngine p params = (s, .bare .badParam) := by
  rw [State.pauseEngine, (readPause_eq_none_iff params).mpr h]

theorem State.setQuota_of_badForm (h : ¬ isQuotaForm params) : s.setQuota params = (s, .bare .badParam) := by
  rw [State.setQuota, (readQuota_eq_none_iff params).mpr h]

theorem State.setRole_of_badForm (h : ¬ isRoleForm params) : s.setRole params = (s, .bare .badParam) := by
  rw [State.setRole, (readSetrole_eq_none_iff params).mpr h]

theorem State.defineWindow_of_badForm (h : ¬ isWindowForm params) : s.defineWindow params = (s, .bare .badParam) := by
  rw [State.defineWindow, (readWindowDef_eq_none_iff params).mpr h]

theorem State.removeWindow_of_badForm (h : ¬ isIndexForm params) : s.removeWindow params = (s, .bare .badParam) := by
  rw [State.removeWindow, (readWindowAlone_eq_none_iff params).mpr h]

theorem State.freezeWindow_of_badForm (h : ¬ isIndexForm params) : s.freezeWindow params = (s, .bare .badParam) := by
  rw [State.freezeWindow, (readWindowAlone_eq_none_iff params).mpr h]

/-- A staging command whose form is refused, at both depths (R43 step 1, R56). -/
theorem State.byDepth_of_badForm {direct : State × Reply} {staged : Changeset → Stack → State × Reply}
    (hd : direct = (s, .refusedAt .badParam 0)) (hs : ∀ top lower, staged top lower = (s, .bare .badParam)) :
    (s.stack p ≠ [] → (match s.stack p with | [] => direct | top :: lower => staged top lower) = (s, .bare .badParam)) ∧
      (s.stack p = [] → (match s.stack p with | [] => direct | top :: lower => staged top lower) =
        (s, .refusedAt .badParam 0)) := by
  cases s.stack p with
  | nil => exact ⟨fun h => absurd rfl h, fun _ => hd⟩
  | cons top lower => exact ⟨fun _ => hs top lower, nofun⟩

end

/-! ## IDENT, ACK, an unknown code (R185, R190, R192) -/

/-- Every command code is that of a POLL or FETCH frame or of a row that takes it. -/
theorem commandCodes_taken (p : Port) : ∀ code ∈ commandCodes,
    code = 0x00#8 ∨ code = 0x05#8 ∨ ∃ i : Instr, i.takenFrom = some (p, code) := by
  have row : ∀ (i : Instr) {code : Byte}, i.takenFrom = some (p, code) →
      code = 0x00#8 ∨ code = 0x05#8 ∨ ∃ i : Instr, i.takenFrom = some (p, code) := fun i _ h => .inr (.inr ⟨i, h⟩)
  simp only [commandCodes, List.forall_mem_cons]
  exact ⟨.inl trivial, row (.ident p) rfl, row (.status p) rfl, row (.ack p) rfl, row (.detach p) rfl, .inr (.inl trivial),
    row (.get p) rfl, row (.getdef p) rfl, row (.find p) rfl, row (.claiminfo p) rfl, row (.beginChangeset p) rfl,
    row (.set p) rfl, row (.create p) rfl, row (.retire p) rfl, row (.default p) rfl, row (.revert p) rfl,
    row (.commit p) rfl, row (.abandon p) rfl, row (.claim p) rfl, row (.release p) rfl, row (.watch p) rfl,
    row (.unwatch p) rfl, row (.watchclass p) rfl, row (.unwatchclass p) rfl, row (.nextnotice p) rfl, row (.sync p) rfl,
    row (.pause p) rfl, row (.resume p) rfl, row (.clearfault p) rfl, row (.setquota p) rfl, row (.setrole p) rfl,
    row (.window p) rfl, row (.unwindow p) rfl, row (.freeze p) rfl, row (.windowinfo p) rfl,
    row (.restart p .asMeant) rfl, nofun⟩

theorem exec_badCommand_of_unknown {s : State} {p : Port} {tag code : Byte} {params : List Byte}
    (hc : ∀ i : Instr, i.takenFrom ≠ some (p, code)) (h0 : code ≠ 0x00#8) (h5 : code ≠ 0x05#8)
    (h : s.isWorkingOn p tag code params) : exec (.badCommand p) s = .next (s.answers p tag .badCommand []) := by
  have hcode : code ∉ commandCodes := fun hm => by
    obtain h | h | ⟨i, h⟩ := commandCodes_taken p code hm
    · exact h0 h
    · exact h5 h
    · exact hc i h
  unfold State.isWorkingOn at h
  show execBadCommand p s = _
  simp only [execBadCommand, h, hcode, if_false]
  rfl

section
variable {s : State} {p : Port} {tag : Byte} {params : List Byte}

/-- A command other than a staging one whose parameters have not its form is BAD_PARAM (R194). -/
theorem exec_of_badForm {cut : NvResult} {c : Instr} {code : Byte} {form : List Byte → Prop} (hrow : (c, code, form) ∈ [
      (.ident p, 0x01#8, isEmptyForm), (.status p, 0x02#8, isEmptyForm), (.ack p, 0x03#8, isEmptyForm),
      (.detach p, 0x04#8, isEmptyForm), (.get p, 0x10#8, isGetForm), (.getdef p, 0x11#8, isKeyForm),
      (.find p, 0x12#8, isFindForm), (.claiminfo p, 0x13#8, isKeyForm), (.beginChangeset p, 0x20#8, isEmptyForm),
      (.commit p, 0x26#8, isCommitForm), (.abandon p, 0x27#8, isEmptyForm), (.claim p, 0x30#8, isClaimForm),
      (.release p, 0x31#8, isKeyForm), (.watch p, 0x40#8, isKeyForm), (.unwatch p, 0x41#8, isKeyForm),
      (.watchclass p, 0x42#8, isClassForm), (.unwatchclass p, 0x43#8, isClassForm),
      (.nextnotice p, 0x44#8, isEmptyForm), (.sync p, 0x50#8, isSyncForm), (.pause p, 0x51#8, isPauseForm),
      (.resume p, 0x52#8, isEmptyForm), (.clearfault p, 0x53#8, isEmptyForm), (.setquota p, 0x60#8, isQuotaForm),
      (.setrole p, 0x61#8, isRoleForm), (.window p, 0x62#8, isWindowForm), (.unwindow p, 0x63#8, isIndexForm),
      (.freeze p, 0x64#8, isIndexForm), (.windowinfo p, 0x65#8, isIndexForm), (.restart p cut, 0x6F#8, isEmptyForm)])
    (h : s.isWorkingOn p tag code params) (hadmin : code ∈ adminCodes → s.rights.roles.get p = .admin)
    (hform : ¬ form params) : exec c s = .next (s.answers p tag .badParam []) := by
  simp only [List.mem_cons, Prod.mk.injEq, List.not_mem_nil, or_false] at hrow
  obtain hr | hr | hr | hr | hr | hr | hr | hr | hr | hr | hr | hr | hr | hr | hr | hr | hr | hr | hr | hr | hr | hr | hr |
    hr | hr | hr | hr | hr | hr := hrow <;> obtain ⟨rfl, rfl, rfl⟩ := hr
  · exact exec_of_served rfl h (State.bareCommand_of_params hform _ _)
  · exact exec_of_served rfl h (State.bareCommand_of_params hform _ _)
  · exact exec_of_served rfl h (State.bareCommand_of_params hform _ _)
  · exact exec_of_served rfl h (State.bareCommand_of_params hform _ _)
  · exact exec_of_served rfl h (congrArg (Prod.mk s) (State.getReply_of_badForm hform))
  · exact exec_of_served rfl h (congrArg (Prod.mk s) (State.getdefReply_of_badForm hform))
  · exact exec_of_served rfl h (congrArg (Prod.mk s) (State.findReply_of_badForm hform))
  · exact exec_of_served rfl h (congrArg (Prod.mk s) (State.claiminfoReply_of_badForm hform))
  · exact exec_of_served rfl h (State.bareCommand_of_params hform _ _)
  · exact exec_of_served rfl h (State.commit_of_badForm hform)
  · exact exec_of_served rfl h (State.bareCommand_of_params hform _ _)
  · exact exec_of_served rfl h (State.claim_of_badForm hform)
  · exact exec_of_served rfl h (State.release_of_badForm hform)
  · exact exec_of_served rfl h (State.watchCommand_of_badForm hform _)
  · exact exec_of_served rfl h (State.watchCommand_of_badForm hform _)
  · exact exec_of_served rfl h (State.watchClass_of_badForm hform _)
  · exact exec_of_served rfl h (State.watchClass_of_badForm hform _)
  · exact exec_of_served rfl h (State.bareCommand_of_params hform _ _)
  · exact exec_of_served rfl h (State.sync_of_badForm hform)
  · exact exec_of_served rfl h (State.adminOnly_eq (hadmin (by decide)) (State.pauseEngine_of_badForm hform))
  · exact exec_of_served rfl h (State.adminOnly_eq (hadmin (by decide)) (State.bareCommand_of_params hform _ _))
  · exact exec_of_served rfl h (State.adminOnly_eq (hadmin (by decide)) (State.bareCommand_of_params hform _ _))
  · exact exec_of_served rfl h (State.adminOnly_eq (hadmin (by decide)) (State.setQuota_of_badForm hform))
  · exact exec_of_served rfl h (State.adminOnly_eq (hadmin (by decide)) (State.setRole_of_badForm hform))
  · exact exec_of_served rfl h (State.adminOnly_eq (hadmin (by decide)) (State.defineWindow_of_badForm hform))
  · exact exec_of_served rfl h (State.adminOnly_eq (hadmin (by decide)) (State.removeWindow_of_badForm hform))
  · exact exec_of_served rfl h (State.adminOnly_eq (hadmin (by decide)) (State.freezeWindow_of_badForm hform))
  · exact exec_of_served rfl h (congrArg (Prod.mk s) (State.windowinfoReply_of_badForm hform))
  · exact exec_restart_of_params h (hadmin (by decide)) hform

/-- The form step of a staging command answers by the depth of its port (R43 step 1, R56). -/
theorem exec_staging_of_badForm {c : Instr} {code : Byte} {form : List Byte → Prop} (hrow : (c, code, form) ∈ [
      (.set p, 0x21#8, isSetForm), (.create p, 0x22#8, isCreateForm), (.retire p, 0x23#8, isRetireForm),
      (.default p, 0x24#8, isKeyForm), (.revert p, 0x25#8, isKeyForm)])
    (h : s.isWorkingOn p tag code params) (hform : ¬ form params) :
    (s.stack p ≠ [] → exec c s = .next (s.answers p tag .badParam [])) ∧
      (s.stack p = [] → exec c s = .next (s.answers p tag .badParam [0x00#8])) := by
  simp only [List.mem_cons, Prod.mk.injEq, List.not_mem_nil, or_false] at hrow
  obtain hr | hr | hr | hr | hr := hrow <;> obtain ⟨rfl, rfl, rfl⟩ := hr
  · have hread := (readSet_eq_none_iff params).mpr hform
    have hd := State.byDepth_of_badForm (s := s) (p := p) (direct := s.directSet p params)
      (staged := fun top lower => s.stageSet p top lower params) (by rw [State.directSet, hread])
      fun _ _ => by rw [State.stageSet, hread]
    exact ⟨fun hs => exec_of_served rfl h (hd.1 hs), fun hs => exec_of_served rfl h (hd.2 hs)⟩
  · have hread := (readCreate_eq_none_iff params).mpr hform
    have hd := State.byDepth_of_badForm (s := s) (p := p) (direct := s.directCreate p params)
      (staged := fun top lower => s.stageCreate p top lower params) (by rw [State.directCreate, hread])
      fun _ _ => by rw [State.stageCreate, hread]
    exact ⟨fun hs => exec_of_served rfl h (hd.1 hs), fun hs => exec_of_served rfl h (hd.2 hs)⟩
  · have hread := (readRetire_eq_none_iff params).mpr hform
    have hd := State.byDepth_of_badForm (s := s) (p := p) (direct := s.directRetire p params)
      (staged := fun top lower => s.stageRetire p top lower params) (by rw [State.directRetire, hread])
      fun _ _ => by rw [State.stageRetire, hread]
    exact ⟨fun hs => exec_of_served rfl h (hd.1 hs), fun hs => exec_of_served rfl h (hd.2 hs)⟩
  · have hread := (readKeyAlone_eq_none_iff params).mpr hform
    have hd := State.byDepth_of_badForm (s := s) (p := p) (direct := s.directDefault p params)
      (staged := fun top lower => s.stageDefault p top lower params) (by rw [State.directDefault, hread])
      fun _ _ => by rw [State.stageDefault, hread]
    exact ⟨fun hs => exec_of_served rfl h (hd.1 hs), fun hs => exec_of_served rfl h (hd.2 hs)⟩
  · have hread := (readKeyAlone_eq_none_iff params).mpr hform
    have hd := State.byDepth_of_badForm (s := s) (p := p) (direct := s.directRevert p params)
      (staged := fun top lower => s.stageRevert p top lower params) (by rw [State.directRevert, hread])
      fun _ _ => by rw [State.stageRevert, hread]
    exact ⟨fun hs => exec_of_served rfl h (hd.1 hs), fun hs => exec_of_served rfl h (hd.2 hs)⟩

end

/-! ## Numbers in bytes (R194) -/

theorem toNat_byte (n : Nat) : (BitVec.ofNat 8 n).toNat = n % 256 := BitVec.toNat_ofNat n 8

theorem enc_bigEndian (n : Nat) :
    (n ≤ 255 → ∃ b : Byte, enc8 n = [b] ∧ b.toNat = n) ∧
    (n ≤ 65535 → ∃ b1 b0 : Byte, enc16 n = [b1, b0] ∧ b1.toNat * 256 + b0.toNat = n) ∧
    (n ≤ 4294967295 → ∃ b3 b2 b1 b0 : Byte, enc32 n = [b3, b2, b1, b0] ∧
      ((b3.toNat * 256 + b2.toNat) * 256 + b1.toNat) * 256 + b0.toNat = n) := by
  refine ⟨fun h => ⟨_, rfl, ?_⟩, fun h => ⟨_, _, rfl, ?_⟩, fun h => ⟨_, _, _, _, enc32_eq n, ?_⟩⟩ <;>
    simp only [toNat_byte] <;> omega

/-- Settles O11: the port commands by their own rules, and the form of each command by its reader. -/
theorem portCommandsAnswered : Obligations.PortCommandsAnswered := by
  unfold Obligations.PortCommandsAnswered
  intro s p tag params
  refine ⟨fun h => ⟨fun hp => ?_, fun hp => ?_⟩, fun h => ⟨fun hp => ?_, fun hp => ?_⟩,
    fun code hc h0 h5 h => exec_badCommand_of_unknown hc h0 h5 h,
    fun cut c code form hrow h hadmin hform => exec_of_badForm hrow h hadmin hform,
    fun c code form hrow h hform => exec_staging_of_badForm hrow h hform, enc_bigEndian, rfl, rfl, rfl, rfl,
    fun _ _ _ _ _ => ⟨rfl, rfl⟩⟩
  · exact exec_of_served rfl h (State.bareCommand_of_none hp _ _)
  · exact exec_of_served rfl h (State.bareCommand_of_params hp _ _)
  · rw [exec_ack_of_working h, if_pos hp]
  · rw [exec_ack_of_working h, if_neg hp]

/-! ## DETACH (R191) -/

/-- DETACH's part in the Claim Table, with the postings of the entries that are handed on (R98). -/
theorem State.detachQueue_foldl (s : State) (p q : Port) (l : List ClaimEntry) (queue : NoticeQueue) :
    l.foldl (s.detachQueue p q) queue = (l.filter fun e => decide (e.holder = p) &&
      (e.waiters.head?.map Waiter.port == some q) && s.rights.allows q e.key .read).foldl
        (fun n e => n.post (.claimGranted e.key)) queue := by
  rw [List.foldl_filter]
  congr 1
  funext n e
  simp only [State.detachQueue, NoticeQueue.postIf, Bool.and_eq_true, decide_eq_true_eq, beq_iff_eq, and_assoc]

/-- The Persist Engine's part in a DETACH (R163). -/
theorem State.detachEngine_eq (s : State) (p : Port) : s.detachEngine p = { s with
    persist :=
      let pe := { s.persist with requests := s.persist.requests.set p none }
      if s.persist.engine.pause.map Pause.holder = some p then pe.endPause s.nv else pe } := by
  unfold State.detachEngine State.holdsPause
  simp only [beq_iff_eq]
  split <;> rfl

/-- DETACH at every block together, where the Claim Table is well formed (R191). -/
theorem State.detach_eq {s : State} (p : Port) (h : s.claimsWf) : s.detach p = { s with
    staged := s.staged.set p []
    claims := s.claims.filterMap (ClaimEntry.detached p)
    slots := s.slots.map (Slot.unwatch p)
    classes := s.classes.map (ClassDesc.unwatch p)
    notices := .build fun q =>
      if q = p then .normal []
      else
        (s.claims.filter fun e => decide (e.holder = p) &&
            (e.waiters.head?.map Waiter.port == some q) && s.rights.allows q e.key .read).foldl
          (fun n e => n.post (.claimGranted e.key)) (s.notices.get q)
    persist :=
      let pe := { s.persist with requests := s.persist.requests.set p none }
      if s.persist.engine.pause.map Pause.holder = some p then pe.endPause s.nv else pe } := by
  have hclaims := State.detachClaims_eq (s := s.setStack p []) p h
  have hnotices : (PortMap.build fun q => s.claims.foldl ((s.setStack p []).detachQueue p q) (s.notices.get q)).set p
      (.normal []) = .build fun q => if q = p then .normal [] else
        (s.claims.filter fun e => decide (e.holder = p) && (e.waiters.head?.map Waiter.port == some q) &&
          s.rights.allows q e.key .read).foldl (fun n e => n.post (.claimGranted e.key)) (s.notices.get q) := by
    refine PortMap.ext_get fun q => ?_
    rw [PortMap.get_build]
    by_cases hq : q = p
    · subst hq; rw [PortMap.get_set_self, if_pos rfl]
    · rw [PortMap.get_set_of_ne _ _ hq, PortMap.get_build, if_neg hq, State.detachQueue_foldl]
      rfl
  rw [← hnotices]
  unfold State.detach
  rw [hclaims, State.detachEngine_eq]
  rfl

/-- Settles O13: the parts of the blocks, one after the other, each on fields of its own but for the queues. -/
theorem detachReturnsPort : Obligations.DetachReturnsPort := by
  unfold Obligations.DetachReturnsPort
  intro s p tag
  refine ⟨fun params hp h => exec_of_served rfl h (State.bareCommand_of_params hp _ _), fun hwf h => ?_⟩
  refine exec_of_served rfl h ((State.bareCommand_of_none rfl _ _).trans (congrArg (·, Reply.ok []) ?_))
  have hentries : ClaimEntry.detached p = fun e => if e.holder = p then
      match e.waiters with
      | [] => none
      | w :: rest => some ⟨e.key, w.port, w.lease, rest⟩
    else some { e with waiters := e.waiters.filter fun w => w.port != p } := by
    funext e
    unfold ClaimEntry.detached ClaimEntry.handOn
    cases e.waiters <;> rfl
  have hslots : Slot.unwatch p = fun x => match x with
      | .live r => .live { r with watchers := r.watchers.set p false }
      | y => y := by
    funext x
    cases x <;> rfl
  rw [State.detach_eq p hwf, hentries, hslots]
  rfl

end Sys2Proof.Machine
end

section
/-! PROOFS. Staging at depth 1 to 4 (R43 to R51): placing and combining entries, and the effects of the staging commands. -/

namespace Sys2Proof.Machine

/-! ## Placing an entry (R50, R51) -/

/-- A changeset holds no entry for a key, or has a first one. -/
theorem Changeset.absent_or_split (c : Changeset) (k : Nat) : (∀ e ∈ c, e.key ≠ k) ∨
    ∃ (a b : Changeset) (x : Entry), c = a ++ x :: b ∧ x.key = k ∧ ∀ e ∈ a, e.key ≠ k := by
  induction c with
  | nil => exact .inl nofun
  | cons y c ih =>
    by_cases hy : y.key = k
    · exact .inr ⟨[], c, y, rfl, hy, nofun⟩
    · obtain h | ⟨a, b, x, rfl, hx, ha⟩ := ih
      · exact .inl (List.forall_mem_cons.mpr ⟨hy, h⟩)
      · exact .inr ⟨y :: a, b, x, rfl, hx, List.forall_mem_cons.mpr ⟨hy, ha⟩⟩

section
variable {a b : Changeset} {x : Entry} {k : Nat}

theorem findIdx?_of_absent {c : Changeset} (h : ∀ e ∈ c, e.key ≠ k) :
    List.findIdx? (fun e : Entry => e.key == k) c = none := by
  rw [List.findIdx?_eq_none_iff]
  exact fun e he => by simpa using h e he

theorem findIdx?_of_split (hx : x.key = k) (ha : ∀ e ∈ a, e.key ≠ k) :
    List.findIdx? (fun e : Entry => e.key == k) (a ++ x :: b) = some a.length := by
  rw [List.findIdx?_append, findIdx?_of_absent ha, List.findIdx?_cons]
  simp [hx]

theorem entryFor_of_split (hx : x.key = k) (ha : ∀ e ∈ a, e.key ≠ k) :
    Changeset.entryFor (a ++ x :: b) k = some x := by
  unfold Changeset.entryFor
  rw [List.find?_append, List.find?_eq_none.mpr fun e he => by simpa using ha e he, List.find?_cons_of_pos (by simpa using hx)]
  rfl

theorem modify_of_split (f : Entry → Entry) : (a ++ x :: b).modify a.length f = a ++ f x :: b := by
  induction a with
  | nil => rfl
  | cons y a ih => exact congrArg (y :: ·) ih

theorem entryIndex_of_absent {c : Changeset} (h : ∀ e ∈ c, e.key ≠ k) : entryIndex c k = 255 := by
  rw [entryIndex, findIdx?_of_absent h]
  rfl

theorem entryIndex_of_split (hx : x.key = k) (ha : ∀ e ∈ a, e.key ≠ k) : entryIndex (a ++ x :: b) k = a.length := by
  rw [entryIndex, findIdx?_of_split hx ha]

end

theorem earlierExpect_eq_or (g g' : Option Nat) : earlierExpect g g' = g.or g' := by
  cases g <;> rfl

/-- A SET placed, with its entry index, as R50 and R51 put it. -/
theorem placeEntry_set (c : Changeset) (k : Nat) (v : Value) (expect : Option Nat) :
    (placeEntry c ⟨k, .set v expect⟩, entryIndex (placeEntry c ⟨k, .set v expect⟩) k) = c.placedSet k v expect := by
  unfold Changeset.placedSet
  obtain h | ⟨a, b, x, rfl, hx, ha⟩ := c.absent_or_split k
  · rw [findIdx?_of_absent h, placeEntry_of_absent c _ h, entryIndex_of_split rfl h]
  · rw [findIdx?_of_split hx ha, placeEntry_of_split a b x _ hx ha, hx]
    dsimp only
    rw [modify_of_split]
    cases hch : x.change with
    | create d w => simp only [combine, entryIndex_of_split (x := ⟨k, .create d v⟩) rfl ha]
    | retire g => simp only [combine, entryIndex_of_split (x := ⟨k, .set v expect⟩) rfl ha]
    | set w g =>
      cases g <;> simp only [combine, earlierExpect, entryIndex_of_split (x := ⟨k, .set v _⟩) rfl ha]

/-- A RETIRE placed in a changeset with one entry for a key, with its entry index, as R50 and R51 put it. -/
theorem placeEntry_retire {c : Changeset} (hc : Changeset.wf c) (k : Nat) (expect : Option Nat) :
    (placeEntry c ⟨k, .retire expect⟩, entryIndex (placeEntry c ⟨k, .retire expect⟩) k) = c.placedRetire k expect := by
  unfold Changeset.placedRetire
  obtain h | ⟨a, b, x, rfl, hx, ha⟩ := c.absent_or_split k
  · rw [findIdx?_of_absent h, placeEntry_of_absent c _ h, entryIndex_of_split rfl h]
  · have hset : ∀ y : Entry, List.set (a ++ x :: b) a.length y = a ++ y :: b := fun y => by
      rw [List.set_append_right _ _ (Nat.le_refl _), Nat.sub_self]; rfl
    rw [findIdx?_of_split hx ha, placeEntry_of_split a b x _ hx ha, entryFor_of_split hx ha, hx]
    cases hch : x.change with
    | create d w =>
      have hb : ∀ e ∈ b, e.key ≠ k := by
        have hc : ((a ++ x :: b).map Entry.key).Nodup := hc
        rw [List.map_append, List.map_cons, List.nodup_append, List.nodup_cons] at hc
        obtain ⟨-, ⟨hxb, -⟩, -⟩ := hc
        exact fun e he hk => hxb (hx.trans hk.symm ▸ List.mem_map_of_mem he)
      have hab : ∀ e ∈ a ++ b, e.key ≠ k := fun e he => (List.mem_append.mp he).elim (ha e) (hb e)
      simp only [combine, Option.map_some, hch, entryIndex_of_absent hab]
      rw [List.eraseIdx_append_of_length_le (Nat.le_refl _), Nat.sub_self]
      rfl
    | retire g =>
      simp only [combine, Option.map_some, hch, entryIndex_of_split (x := ⟨k, .retire expect⟩) rfl ha, hset]
    | set w g =>
      cases g <;>
        simp only [combine, earlierExpect, Option.map_some, hch, entryIndex_of_split (x := ⟨k, .retire _⟩) rfl ha, hset]

/-! ## Room in the pool (R43 step 6) -/

section
variable {s : State} {p : Port} {k : Nat} {top : Changeset} {lower : Stack}

theorem State.stage_eq (hs : s.stack p = top :: lower) (hroom : (∃ e ∈ top, e.key = k) ∨ s.heldEntries < 64) (ch : Change)
    (resolved : List Byte) : s.stage p top lower k ch resolved =
      ({ s with staged := s.staged.set p (placeEntry top ⟨k, ch⟩ :: lower) },
        ⟨.ok, enc8 (lower.length + 1) ++ enc8 (entryIndex (placeEntry top ⟨k, ch⟩) k) ++
          enc8 (64 - (s.heldEntries + (placeEntry top ⟨k, ch⟩).length - top.length)) ++ resolved⟩) := by
  have hnot : ¬ ((Changeset.entryFor top k).isNone && s.freeEntries == 0) = true := by
    simp only [Bool.and_eq_true, Option.isNone_iff_eq_none, Changeset.entryFor_eq_none_iff, beq_iff_eq, State.freeEntries,
      Config.poolSize]
    rintro ⟨hnone, hfull⟩
    obtain ⟨e, he, hk⟩ | hlt := hroom
    · exact hnone e he hk
    · omega
  have hheld : (s.setStack p (placeEntry top ⟨k, ch⟩ :: lower)).heldEntries =
      s.heldEntries + (placeEntry top ⟨k, ch⟩).length - top.length := by
    have := s.setStack_heldEntries p (placeEntry top ⟨k, ch⟩ :: lower)
    rw [hs, stackEntries_cons, stackEntries_cons] at this
    omega
  rw [State.stage, if_neg hnot]
  simp only [State.depth, State.setStack_stack_self, List.length_cons, State.freeEntries, hheld, Config.poolSize]
  rfl

theorem State.stage_of_full (hfull : (∀ e ∈ top, e.key ≠ k) ∧ 64 ≤ s.heldEntries) (ch : Change) (resolved : List Byte) :
    s.stage p top lower k ch resolved = (s, .bare .stageFull) := by
  have hnone := (Changeset.entryFor_eq_none_iff top k).mpr hfull.1
  have hfree : s.freeEntries = 0 := Nat.sub_eq_zero_of_le hfull.2
  rw [State.stage, hnone, hfree]
  rfl

/-! ## The staging commands at depth 1 to 4 -/

variable {params data : List Byte} {tag : Byte} {t : State} {r : Result}

theorem exec_set_of_staged (h : s.isWorkingOn p tag 0x21#8 params) (hs : s.stack p = top :: lower)
    (ha : s.stageSet p top lower params = (t, ⟨r, data⟩)) : exec (.set p) s = .next (t.answers p tag r data) :=
  exec_of_served rfl h (by simp only [hs, ha])

theorem exec_create_of_staged (h : s.isWorkingOn p tag 0x22#8 params) (hs : s.stack p = top :: lower)
    (ha : s.stageCreate p top lower params = (t, ⟨r, data⟩)) : exec (.create p) s = .next (t.answers p tag r data) :=
  exec_of_served rfl h (by simp only [hs, ha])

theorem exec_retire_of_staged (h : s.isWorkingOn p tag 0x23#8 params) (hs : s.stack p = top :: lower)
    (ha : s.stageRetire p top lower params = (t, ⟨r, data⟩)) : exec (.retire p) s = .next (t.answers p tag r data) :=
  exec_of_served rfl h (by simp only [hs, ha])

theorem exec_default_of_staged (h : s.isWorkingOn p tag 0x24#8 params) (hs : s.stack p = top :: lower)
    (ha : s.stageDefault p top lower params = (t, ⟨r, data⟩)) : exec (.default p) s = .next (t.answers p tag r data) :=
  exec_of_served rfl h (by simp only [hs, ha])

theorem exec_revert_of_staged (h : s.isWorkingOn p tag 0x25#8 params) (hs : s.stack p = top :: lower)
    (ha : s.stageRevert p top lower params = (t, ⟨r, data⟩)) : exec (.revert p) s = .next (t.answers p tag r data) :=
  exec_of_served rfl h (by simp only [hs, ha])

/-- The definition and the reference value of a SET at staging: of the LIVE record or of the staged CREATE that the port sees
(R29, R45). -/
def View.refers : View → Definition → Value → Prop
  | .live _ x _, d, reference => x.defn = d ∧ x.live = reference
  | .staged d' w, d, reference => d' = d ∧ w = reference
  | _, _, _ => False

theorem View.refers_of_live {w : View} {i : SlotId} {x : Record} {v : Value} (h : w = .live i x v) :
    w.refers x.defn x.live := h ▸ ⟨rfl, rfl⟩

theorem View.refers_of_staged {w : View} {d : Definition} {v : Value} (h : w = .staged d v) : w.refers d v :=
  h ▸ ⟨rfl, rfl⟩

/-- The port sees a staged CREATE. -/
def View.isStaged : View → Bool
  | .staged _ _ => true
  | _ => false

theorem View.present_of_refers {w : View} {d : Definition} {reference : Value} (h : w.refers d reference) :
    ∃ record, w.present = .ok (d, reference, record) ∧ record.isNone = w.isStaged := by
  cases w with
  | live i x v => obtain ⟨rfl, rfl⟩ := h; exact ⟨_, rfl, rfl⟩
  | staged d v => obtain ⟨rfl, rfl⟩ := h; exact ⟨_, rfl, rfl⟩
  | _ => exact h.elim

/-- A SET behind its form, its right and the key in the view (R45). -/
theorem State.stageSet_eq {d : Definition} {reference : Value} {expect : Option Nat} {offered : Option Value}
    (hread : readSet params = some ⟨k, expect, offered⟩) (hright : s.rights.allows p k .stage = true)
    (hview : (s.view p k).refers d reference) : s.stageSet p top lower params =
      if expect.isSome && (s.view p k).isStaged then (s, .bare .badParam) else
        match offered with
        | none => (s, .bare .type)
        | some v =>
          match checkValue d.constraints reference v with
          | some r => (s, .bare r)
          | none => s.stage p top lower k (.set v expect) [] := by
  obtain ⟨record, hp, hr⟩ := View.present_of_refers hview
  unfold State.stageSet
  simp only [hread, hright, Bool.true_eq_false, if_false, hp, hr] <;> rfl

/-- A DEFAULT behind its form, its right and the key in the view (R46). -/
theorem State.stageDefault_eq {d : Definition} {reference : Value} (hk : validKey k = true)
    (hright : s.rights.allows p k .stage = true) (hview : (s.view p k).refers d reference) :
    s.stageDefault p top lower (enc16 k) =
      match d.default with
      | none => (s, .bare .noDefault)
      | some v => s.stageResolved p top lower k d reference v := by
  obtain ⟨record, hp, -⟩ := View.present_of_refers hview
  unfold State.stageDefault
  simp only [readKeyAlone_enc16 (validKey_le hk), hk, if_true, hright, Bool.true_eq_false, if_false, hp] <;>
    rfl

/-- A REVERT behind its form, its right and the key in the view (R47). -/
theorem State.stageRevert_eq_of_live {i : SlotId} {x : Record} {w : Value} (hk : validKey k = true)
    (hright : s.rights.allows p k .stage = true) (hview : s.view p k = .live i x w) :
    s.stageRevert p top lower (enc16 k) =
      match x.revertValue with
      | none => (s, .bare .noStored)
      | some v => s.stageResolved p top lower k x.defn x.live v := by
  unfold State.stageRevert
  simp only [readKeyAlone_enc16 (validKey_le hk), hk, if_true, hright, Bool.true_eq_false, if_false, hview, View.present,
    Option.bind_some] <;> rfl

theorem State.stageResolved_of_passed {d : Definition} {reference v : Value}
    (hv : checkValue d.constraints reference v = none) : s.stageResolved p top lower k d reference v =
      s.stage p top lower k (.set v none) (v.type.code :: v.encode) := by
  rw [State.stageResolved, hv]
  rfl

end

/-- Settles O20: each command comes down to the placing of a SET whose value has passed. -/
theorem stagedSetPlaced : Obligations.StagedSetPlaced := by
  unfold Obligations.StagedSetPlaced
  intro s p tag k top lower hk hs hright hroom placed
  have hstage : ∀ v expect resolved, s.stage p top lower k (.set v expect) resolved =
      ({ s with staged := s.staged.set p ((Changeset.placedSet top k v expect).1 :: lower) },
        ⟨.ok, enc8 (lower.length + 1) ++ enc8 (Changeset.placedSet top k v expect).2 ++
          enc8 (64 - (s.heldEntries + (Changeset.placedSet top k v expect).1.length - top.length)) ++ resolved⟩) := by
    intro v expect resolved
    rw [State.stage_eq hs hroom, ← placeEntry_set]
  refine ⟨fun v expect hexpect hfits h hview => ?_, fun v h hview => ?_, fun v i x w h hview hl hst hv => ?_⟩
  · obtain ⟨d, reference, hrefers, hv, hno⟩ : ∃ d reference, (s.view p k).refers d reference ∧
        checkValue d.constraints reference v = none ∧ ¬ (expect.isSome && (s.view p k).isStaged) = true := by
      obtain ⟨i, x, w, hw, hv⟩ | ⟨d, w, hw, rfl, hv⟩ := hview
      · exact ⟨_, _, View.refers_of_live hw, hv, by rw [hw]; simp [View.isStaged]⟩
      · exact ⟨_, _, View.refers_of_staged hw, hv, nofun⟩
    refine exec_set_of_staged h hs ?_
    rw [State.stageSet_eq (readSet_setParams hk hexpect hfits) hright hrefers, if_neg hno]
    simp only [hv]
    exact hstage v expect []
  · obtain ⟨d, reference, hrefers, hd, hv⟩ : ∃ d reference, (s.view p k).refers d reference ∧ d.default = some v ∧
        checkValue d.constraints reference v = none := by
      obtain ⟨i, x, w, hw, hd, hv⟩ | ⟨d, w, hw, hd, hv⟩ := hview
      · exact ⟨_, _, View.refers_of_live hw, hd, hv⟩
      · exact ⟨_, _, View.refers_of_staged hw, hd, hv⟩
    refine exec_default_of_staged h hs ?_
    rw [State.stageDefault_eq hk hright hrefers, hd]
    exact (State.stageResolved_of_passed hv).trans (hstage v none _)
  · have hrevert : x.revertValue = some v := by simp [Record.revertValue, Record.isLasting, hl, hst]
    refine exec_revert_of_staged h hs ?_
    rw [State.stageRevert_eq_of_live hk hright hview, hrevert]
    exact (State.stageResolved_of_passed hv).trans (hstage v none _)

/-! ## CREATE and RETIRE at depth 1 to 4 (R48, R49) -/

theorem checkValue_fits {c : Constraints} {reference v : Value} (h : checkValue c reference v = none) (hc : c.fits) :
    v.fits ∧ v.type = c.type := by
  have htype : v.type = c.type := by
    by_contra hne
    rw [checkValue_of_type_ne reference hne] at h
    cases h
  refine ⟨?_, htype⟩
  cases v with
  | text bytes =>
    cases c with
    | text n =>
      have hn : n ≤ 255 := hc
      have h : (if bytes.length ≤ n then none else some Result.tooLong) = none := h
      by_contra hlong
      rw [if_neg fun hle => hlong (Nat.le_trans hle hn)] at h
      cases h
    | _ => cases htype
  | _ => trivial

/-- A consistent definition is one that the layout of a CREATE can carry where its constraints are (R32). -/
theorem Definition.fits_of_consistent {d : Definition} (h : d.consistent = true) (hc : d.constraints.fits) : d.fits := by
  refine ⟨hc, fun v hv => ?_⟩
  unfold Definition.consistent at h
  rw [hv] at h
  exact checkValue_fits (beq_iff_eq.mp (Bool.and_eq_true_iff.mp h).2) hc

theorem Definition.check_default {d : Definition} (h : d.consistent = true) {v : Value} (hv : d.default = some v) :
    checkValue d.constraints v v = none := by
  unfold Definition.consistent at h
  rw [hv] at h
  exact beq_iff_eq.mp (Bool.and_eq_true_iff.mp h).2

section
variable {s : State} {p : Port} {k : Nat} {top : Changeset} {lower : Stack}

/-- The port sees nothing of a key only where its changesets hold no entry for it (R40). -/
theorem State.not_mem_of_view_absent (hs : s.stack p = top :: lower) (hview : s.view p k = .absent) :
    ∀ e ∈ top, e.key ≠ k := by
  rw [← Changeset.entryFor_eq_none_iff]
  by_contra hne
  obtain ⟨e, he⟩ := Option.ne_none_iff_exists'.mp hne
  have htop : topmost (s.stack p) k = some (e.change, lower) := by
    rw [hs]
    exact topmost_of_split (above := []) nofun he
  unfold State.view at hview
  rw [htop] at hview
  cases hc : e.change <;> rw [hc] at hview
  case set v g =>
    dsimp only at hview
    split at hview
    · cases hview
    · split at hview <;> cases hview
  all_goals cases hview

/-- A CREATE behind its form, its right, the key and the consistency of its definition (R48). -/
theorem State.stageCreate_eq {d : Definition} {initial : Option (List Byte)} (hk : validKey k = true) (hd : d.fits)
    (hright : s.rights.allows p k .full = true) (hrefusal : s.createRefusal p k = none) (hc : d.consistent = true) :
    s.stageCreate p top lower (createBytes k d initial) =
      match CreateParams.choice ⟨k, d, initial⟩ with
      | none => (s, .bare .noDefault)
      | some none => (s, .bare .type)
      | some (some v) =>
        match checkValue d.constraints (d.default.getD v) v with
        | some r => (s, .bare r)
        | none => s.stage p top lower k (.create d v) [] := by
  unfold State.stageCreate
  simp only [readCreate_createBytes hk hd, hright, hrefusal, hc, Bool.true_eq_false, if_false, Definition.reference] <;> rfl

/-- A RETIRE behind its form, its right and the key in the view (R49). -/
theorem State.stageRetire_eq {expect : Option Nat} {d : Definition} {reference : Value} (hk : validKey k = true)
    (hg : validExpect expect) (hright : s.rights.allows p k .full = true) (hview : (s.view p k).refers d reference) :
    s.stageRetire p top lower (enc16 k ++ expectBytes expect) =
      if expect.isSome && (s.view p k).isStaged then (s, .bare .badParam)
      else s.stage p top lower k (.retire expect) [] := by
  obtain ⟨record, hp, hr⟩ := View.present_of_refers hview
  unfold State.stageRetire
  simp only [readRetire_params hk hg, hright, Bool.true_eq_false, if_false, hp, hr]

end

/-- Settles O21: a CREATE is placed at the end, as its key is in no entry of the top changeset, and a RETIRE is combined. -/
theorem stagedCreateAndRetirePlaced : Obligations.StagedCreateAndRetirePlaced := by
  unfold Obligations.StagedCreateAndRetirePlaced
  intro s p tag k top lower hk hs hright hwf hroom
  refine ⟨fun d initial v h hview hdraining hc hfits hv => ?_, fun expect hg h hview => ?_⟩
  · have habsent := State.not_mem_of_view_absent hs hview
    have hrefusal : s.createRefusal p k = none := by simp [State.createRefusal, hview, hdraining]
    have hchoice : CreateParams.choice ⟨k, d, initial.map Value.encode⟩ = some (some v) ∧
        checkValue d.constraints (d.default.getD v) v = none := by
      obtain ⟨rfl, hvf, hcheck⟩ | ⟨rfl, hd⟩ := hv
      · refine ⟨?_, hcheck⟩
        have htype := (checkValue_fits hcheck hfits).2
        simp only [CreateParams.choice, Option.map_some, ← htype, decodeValue_encode hvf]
      · exact ⟨by simp [CreateParams.choice, hd], by rw [hd]; exact Definition.check_default hc hd⟩
    refine exec_create_of_staged h hs ?_
    rw [createParams, State.stageCreate_eq hk (Definition.fits_of_consistent hc hfits) hright hrefusal hc, hchoice.1]
    simp only [hchoice.2]
    rw [State.stage_eq hs hroom, placeEntry_of_absent top _ habsent, entryIndex_of_split rfl habsent, List.length_append,
      List.length_singleton, List.append_nil,
      show s.heldEntries + (top.length + 1) - top.length = s.heldEntries + 1 by omega]
  · obtain ⟨d, reference, hrefers, hno⟩ : ∃ d reference, (s.view p k).refers d reference ∧
        ¬ (expect.isSome && (s.view p k).isStaged) = true := by
      obtain ⟨i, x, w, hw⟩ | ⟨d, w, hw, rfl⟩ := hview
      · exact ⟨_, _, View.refers_of_live hw, by rw [hw]; simp [View.isStaged]⟩
      · exact ⟨_, _, View.refers_of_staged hw, nofun⟩
    refine exec_retire_of_staged h hs ?_
    rw [State.stageRetire_eq hk hg hright hrefers, if_neg hno, State.stage_eq hs hroom, ← placeEntry_retire hwf,
      List.append_nil]

end Sys2Proof.Machine
end

section
/-! PROOFS. The refusals of the staging commands in their order, staged and direct (R43 to R49, R56). -/

namespace Sys2Proof.Machine

/-! ## The right, and the key in the view (R43, R44) -/

section
variable {s : State} {p : Port} {k : Nat} {top : Changeset} {lower : Stack}

/-- What a staging command answers to a port without the right, and to a key that the port does not see. -/
def State.RefusesUnseen (s : State) (p : Port) (k : Nat) (need : Right) (staged : State × Reply) : Prop :=
  (s.rights.allows p k need = false → staged = (s, .bare .denied)) ∧
    (s.rights.allows p k need = true → ∀ r, (s.view p k).present = .error r → staged = (s, .bare r))

theorem State.stageSet_refusesUnseen {expect : Option Nat} (ty : ValueType) (encoding : List Byte) (hk : validKey k = true)
    (hg : validExpect expect) : s.RefusesUnseen p k .stage (s.stageSet p top lower (setBytes k expect ty encoding)) := by
  unfold State.stageSet
  simp only [readSet_setBytes ty encoding hk hg]
  exact ⟨fun h => if_pos h, fun h r hr => by rw [if_neg (by rw [h]; exact nofun), hr]⟩

theorem State.stageDefault_refusesUnseen (hk : validKey k = true) :
    s.RefusesUnseen p k .stage (s.stageDefault p top lower (enc16 k)) := by
  unfold State.stageDefault
  simp only [readKeyAlone_enc16 (validKey_le hk), hk, if_true]
  exact ⟨fun h => if_pos h, fun h r hr => by rw [if_neg (by rw [h]; exact nofun), hr]⟩

theorem State.stageRevert_refusesUnseen (hk : validKey k = true) :
    s.RefusesUnseen p k .stage (s.stageRevert p top lower (enc16 k)) := by
  unfold State.stageRevert
  simp only [readKeyAlone_enc16 (validKey_le hk), hk, if_true]
  exact ⟨fun h => if_pos h, fun h r hr => by rw [if_neg (by rw [h]; exact nofun), hr]⟩

theorem State.stageRetire_refusesUnseen {expect : Option Nat} (hk : validKey k = true) (hg : validExpect expect) :
    s.RefusesUnseen p k .full (s.stageRetire p top lower (enc16 k ++ expectBytes expect)) := by
  unfold State.stageRetire
  simp only [readRetire_params hk hg]
  exact ⟨fun h => if_pos h, fun h r hr => by rw [if_neg (by rw [h]; exact nofun), hr]⟩

/-- The refusals of a command to a port without the right, and to a key that the port does not see. -/
theorem State.RefusesUnseen.exec {need : Right} {staged : State × Reply} {tag : Byte} {c : Instr}
    (h : s.RefusesUnseen p k need staged)
    (hexec : ∀ {t r data}, staged = (t, ⟨r, data⟩) → exec c s = .next (t.answers p tag r data)) :
    (s.rights.allows p k need = false → exec c s = .next (s.answers p tag .denied [])) ∧
      (s.rights.allows p k need = true →
        (s.view p k = .retired → exec c s = .next (s.answers p tag .keyPending [])) ∧
          (s.view p k = .absent ∨ s.view p k = .stale → exec c s = .next (s.answers p tag .notFound []))) := by
  obtain ⟨hdenied, hunseen⟩ := h
  refine ⟨fun h => hexec (hdenied h), fun h => ⟨fun hv => hexec (hunseen h _ (by rw [hv]; rfl)), fun hv => ?_⟩⟩
  obtain hv | hv := hv <;> exact hexec (hunseen h _ (by rw [hv]; rfl))

/-! ## The checks of each command behind them (R45 to R48) -/

/-- No entry of the top changeset has the key, and the pool has no free entry (R43 step 6). -/
def State.noRoom (s : State) (top : Changeset) (k : Nat) : Prop := (∀ e ∈ top, e.key ≠ k) ∧ 64 ≤ s.heldEntries

/-- The refusals of a command by the check of its value, and by the room in the pool. -/
def State.RefusesValue (s : State) (top : Changeset) (k : Nat) (check : Option Result) (staged : State × Reply) : Prop :=
  (∀ r, check = some r → staged = (s, .bare r)) ∧ (check = none → s.noRoom top k → staged = (s, .bare .stageFull))

theorem State.RefusesValue.exec {check : Option Result} {staged : State × Reply} {tag : Byte} {c : Instr}
    (h : s.RefusesValue top k check staged)
    (hexec : ∀ {t r data}, staged = (t, ⟨r, data⟩) → exec c s = .next (t.answers p tag r data)) :
    (∀ r, check = some r → exec c s = .next (s.answers p tag r [])) ∧
      (check = none → s.noRoom top k → exec c s = .next (s.answers p tag .stageFull [])) :=
  ⟨fun r hr => hexec (h.1 r hr), fun hn hfull => hexec (h.2 hn hfull)⟩

/-- A value check followed by the placing of a change. -/
theorem State.refusesValue_of_stage (ch : Change) (resolved : List Byte) (check : Option Result) :
    s.RefusesValue top k check (match check with
      | some r => (s, .bare r)
      | none => s.stage p top lower k ch resolved) := by
  refine ⟨fun r hr => by rw [hr], fun hn hfull => ?_⟩
  rw [hn]
  exact State.stage_of_full hfull ch resolved

theorem State.stageResolved_refuses (d : Definition) (reference v : Value) :
    s.RefusesValue top k (checkValue d.constraints reference v) (s.stageResolved p top lower k d reference v) := by
  unfold State.stageResolved
  exact State.refusesValue_of_stage _ _ _

/-- A SET behind its form, its right and the key in the view: a staged CREATE has no generation to expect, and then the
value (R45). -/
theorem State.stageSet_refuses {d : Definition} {reference : Value} {expect : Option Nat} {ty : ValueType}
    {encoding : List Byte} (hk : validKey k = true) (hg : validExpect expect) (hright : s.rights.allows p k .stage = true)
    (hview : (s.view p k).refers d reference) :
    ((expect.isSome && (s.view p k).isStaged) = true →
      s.stageSet p top lower (setBytes k expect ty encoding) = (s, .bare .badParam)) ∧
    ((expect.isSome && (s.view p k).isStaged) = false →
      (decodeValue ty encoding = none → s.stageSet p top lower (setBytes k expect ty encoding) = (s, .bare .type)) ∧
      ∀ v, decodeValue ty encoding = some v → s.RefusesValue top k (checkValue d.constraints reference v)
        (s.stageSet p top lower (setBytes k expect ty encoding))) := by
  rw [State.stageSet_eq (readSet_setBytes ty encoding hk hg) hright hview]
  refine ⟨fun h => if_pos h, fun h => ?_⟩
  rw [if_neg (by rw [h]; exact nofun)]
  refine ⟨fun hn => by rw [hn], fun v hv => ?_⟩
  rw [hv]
  exact State.refusesValue_of_stage _ _ _

theorem State.stageRevert_of_staged {d : Definition} {w : Value} (hk : validKey k = true)
    (hright : s.rights.allows p k .stage = true) (hview : s.view p k = .staged d w) :
    s.stageRevert p top lower (enc16 k) = (s, .bare .noStored) := by
  unfold State.stageRevert
  simp only [readKeyAlone_enc16 (validKey_le hk), hk, if_true, hright, Bool.true_eq_false, if_false, hview, View.present,
    Option.bind_none]

theorem Record.revertValue_eq_none {x : Record} (h : x.defn.persistence = .transient ∨ x.stored = none) :
    x.revertValue = none := by
  unfold Record.revertValue Record.isLasting
  obtain h | h := h <;> simp [h]

theorem Record.revertValue_eq_some {x : Record} {v : Value} (h : x.defn.persistence = .lasting) (hv : x.stored = some v) :
    x.revertValue = some v := by
  simp [Record.revertValue, Record.isLasting, h, hv]

/-- A CREATE behind its form, its right and its key (R48). -/
theorem State.stageCreate_refuses {d : Definition} {initial : Option (List Byte)} (hk : validKey k = true) (hd : d.fits)
    (hright : s.rights.allows p k .full = true) :
    (∀ r, s.createRefusal p k = some r → s.stageCreate p top lower (createBytes k d initial) = (s, .bare r)) ∧
    (s.createRefusal p k = none → d.consistent = false →
      s.stageCreate p top lower (createBytes k d initial) = (s, .bare .badDefinition)) := by
  unfold State.stageCreate
  simp only [readCreate_createBytes hk hd, hright, Bool.true_eq_false, if_false]
  exact ⟨fun r hr => by rw [hr], fun hn hc => by rw [hn]; exact if_pos hc⟩

theorem State.stageCreate_of_denied {d : Definition} {initial : Option (List Byte)} (hk : validKey k = true) (hd : d.fits)
    (hright : s.rights.allows p k .full = false) :
    s.stageCreate p top lower (createBytes k d initial) = (s, .bare .denied) := by
  unfold State.stageCreate
  simp only [readCreate_createBytes hk hd, hright, if_true]

/-- The value of a CREATE: the initial value read in the type of the definition, and otherwise the default (R33). -/
theorem CreateParams.choice_eq_some {d : Definition} {initial : Option (List Byte)} {v : Value}
    (h : initial = none ∧ d.default = some v ∨
      ∃ bytes, initial = some bytes ∧ decodeValue d.constraints.type bytes = some v) :
    CreateParams.choice ⟨k, d, initial⟩ = some (some v) := by
  obtain ⟨rfl, hd⟩ | ⟨bytes, rfl, hd⟩ := h <;> simp [CreateParams.choice, hd]

theorem State.createRefusal_of_seen (h : (∃ i x w, s.view p k = .live i x w) ∨ ∃ d w, s.view p k = .staged d w) :
    s.createRefusal p k = some .alreadyExists := by
  unfold State.createRefusal
  obtain ⟨i, x, w, h⟩ | ⟨d, w, h⟩ := h <;> rw [h]

theorem State.createRefusal_of_pending (h : s.view p k = .retired ∨ s.view p k = .stale) :
    s.createRefusal p k = some .keyPending := by
  unfold State.createRefusal
  obtain h | h := h <;> rw [h]

theorem State.createRefusal_of_absent (h : s.view p k = .absent) :
    s.createRefusal p k = if s.keyDraining k then some .keyDraining else none := by
  unfold State.createRefusal
  rw [h]

/-- A CREATE of a key that the port does not see, with a consistent definition: the value (R48). -/
theorem State.stageCreate_refusesValue {d : Definition} {initial : Option (List Byte)} (hk : validKey k = true)
    (hd : d.fits) (hright : s.rights.allows p k .full = true) (hrefusal : s.createRefusal p k = none)
    (hc : d.consistent = true) :
    (initial = none → d.default = none → s.stageCreate p top lower (createBytes k d initial) = (s, .bare .noDefault)) ∧
    (∀ bytes, initial = some bytes → decodeValue d.constraints.type bytes = none →
      s.stageCreate p top lower (createBytes k d initial) = (s, .bare .type)) ∧
    ∀ v, CreateParams.choice ⟨k, d, initial⟩ = some (some v) →
      s.RefusesValue top k (checkValue d.constraints (d.default.getD v) v)
        (s.stageCreate p top lower (createBytes k d initial)) := by
  rw [State.stageCreate_eq hk hd hright hrefusal hc]
  refine ⟨?_, ?_, fun v hv => ?_⟩
  · rintro rfl hn
    simp only [CreateParams.choice, hn, Option.map_none]
  · rintro bytes rfl hn
    simp only [CreateParams.choice, hn]
  · rw [hv]
    exact State.refusesValue_of_stage _ _ _

end

/-! ## The direct commands (R56) -/

section
variable {s : State} {p : Port} {k : Nat} {tag : Byte} {params data : List Byte} {t : State} {r : Result}

theorem exec_set_of_direct (h : s.isWorkingOn p tag 0x21#8 params) (hs : s.stack p = [])
    (ha : s.directSet p params = (t, ⟨r, data⟩)) : exec (.set p) s = .next (t.answers p tag r data) :=
  exec_of_served rfl h (by simp only [hs, ha])

theorem exec_create_of_direct (h : s.isWorkingOn p tag 0x22#8 params) (hs : s.stack p = [])
    (ha : s.directCreate p params = (t, ⟨r, data⟩)) : exec (.create p) s = .next (t.answers p tag r data) :=
  exec_of_served rfl h (by simp only [hs, ha])

theorem exec_retire_of_direct (h : s.isWorkingOn p tag 0x23#8 params) (hs : s.stack p = [])
    (ha : s.directRetire p params = (t, ⟨r, data⟩)) : exec (.retire p) s = .next (t.answers p tag r data) :=
  exec_of_served rfl h (by simp only [hs, ha])

theorem exec_default_of_direct (h : s.isWorkingOn p tag 0x24#8 params) (hs : s.stack p = [])
    (ha : s.directDefault p params = (t, ⟨r, data⟩)) : exec (.default p) s = .next (t.answers p tag r data) :=
  exec_of_served rfl h (by simp only [hs, ha])

theorem exec_revert_of_direct (h : s.isWorkingOn p tag 0x25#8 params) (hs : s.stack p = [])
    (ha : s.directRevert p params = (t, ⟨r, data⟩)) : exec (.revert p) s = .next (t.answers p tag r data) :=
  exec_of_served rfl h (by simp only [hs, ha])

/-- A SET at depth 0 behind its form (R56). -/
theorem State.directSet_eq {expect : Option Nat} (ty : ValueType) (encoding : List Byte) (hk : validKey k = true)
    (hg : validExpect expect) : s.directSet p (setBytes k expect ty encoding) =
      if s.rights.allows p k .stage = false then (s, .refusedAt .denied 0)
      else
        match decodeValue ty encoding with
        | none => (s, s.directMisencoded p k false expect)
        | some v => s.direct p k (.set v expect) := by
  unfold State.directSet
  simp only [readSet_setBytes ty encoding hk hg] <;> rfl

theorem State.directRetire_eq {expect : Option Nat} (hk : validKey k = true) (hg : validExpect expect) :
    s.directRetire p (enc16 k ++ expectBytes expect) =
      if s.rights.allows p k .full = false then (s, .refusedAt .denied 0) else s.direct p k (.retire expect) := by
  unfold State.directRetire
  simp only [readRetire_params hk hg]

/-- A CREATE at depth 0 behind its form (R56). -/
theorem State.directCreate_eq {d : Definition} (initial : Option (List Byte)) (hk : validKey k = true) (hd : d.fits) :
    s.directCreate p (createBytes k d initial) =
      if s.rights.allows p k .full = false then (s, .refusedAt .denied 0)
      else if d.consistent = false then (s, .refusedAt .badDefinition 0)
      else
        match CreateParams.choice ⟨k, d, initial⟩ with
        | none => (s, .refusedAt .noDefault 0)
        | some none => (s, s.directMisencoded p k true none)
        | some (some v) => s.direct p k (.create d v) := by
  unfold State.directCreate
  simp only [readCreate_createBytes hk hd] <;> rfl

/-- A direct command whose apply is refused (R56). -/
theorem State.direct_of_refused {ch : Change} {index : Nat} (h : s.applyCheck p .lasting [⟨k, ch⟩] = some (r, index)) :
    s.direct p k ch = (s, ⟨r, enc8 index⟩) := State.apply_of_refused h

theorem State.direct_of_denied {ch : Change} (h : s.rights.allows p k ch.need = false) :
    s.direct p k ch = (s, .refusedAt .denied 0) := by
  refine State.direct_of_refused ?_
  have hcheck : s.entryCheck p .lasting [] ⟨k, ch⟩ = some .denied := by
    unfold State.entryCheck firstFailure State.rightCheck
    rw [if_neg (by rw [h]; exact nofun)]
    rfl
  unfold State.applyCheck State.entriesCheck
  rw [hcheck]

/-- A direct command's own check of the right is the first check of its apply (R56, R64). -/
theorem State.direct_of_right {ch : Change} {need : Right} (hn : ch.need = need) :
    (if s.rights.allows p k need = false then (s, Reply.refusedAt .denied 0) else s.direct p k ch) = s.direct p k ch := by
  subst hn
  split
  · next h => exact (State.direct_of_denied h).symm
  · rfl

/-- A direct value of the wrong size is refused by the checks that come before the value check, and then as TYPE (log
entry 24). -/
theorem State.directMisencoded_set (hright : s.rights.allows p k .stage = true) (expect : Option Nat) :
    s.directMisencoded p k false expect =
      ⟨(firstFailing (s.earlyChecks p .stage k expect)).getD .type, enc8 0⟩ := by
  have hfailure : firstFailure [s.presentCheck k, s.generationCheck k expect,
      if s.claimedByOther p k then some .claimed else none] = firstFailing (s.earlyChecks p .stage k expect) := by
    unfold firstFailure firstFailing State.earlyChecks State.presentCheck State.generationCheck State.unexpected
    rw [State.claimedByOther_eq]
    cases hl : s.liveRecord k with
    | none => simp [hright]
    | some x =>
      cases expect with
      | none => cases hc : s.heldByOther p k <;> simp [hright]
      | some g =>
        by_cases hg : g = x.2.generation <;> cases hc : s.heldByOther p k <;> simp [hright, hg]
  unfold State.directMisencoded
  simp only [Bool.false_eq_true, if_false, hfailure]
  rfl

theorem State.directMisencoded_create : s.directMisencoded p k true none = ⟨(s.absentCheck k).getD .type, enc8 0⟩ := by
  unfold State.directMisencoded firstFailure
  cases s.absentCheck k <;> rfl

end

/-- Settles O22: each command by its own checks, in their order, at both depths. -/
theorem stagingRefusalsInOrder : Obligations.StagingRefusalsInOrder := by
  unfold Obligations.StagingRefusalsInOrder
  intro s p tag k hk full refused refusedAt
  refine ⟨fun c code need params hc h hs => ?unseen, fun top lower hs hright => ⟨fun expect ty encoding hg h => ?set,
      fun d reference hview h => ?default, fun h => ?revert⟩,
    fun top lower hs => ⟨fun expect hg h hright => ?retire, fun d initial hd h => ?create⟩,
    fun hs => ⟨fun expect ty encoding hg h => ?directSet, fun expect hg h => ?directRetire,
      fun d initial hd h => ?directCreate⟩⟩
  case unseen =>
    obtain ⟨top, lower, hs⟩ := List.exists_cons_of_ne_nil hs
    obtain ⟨hc, expect, ty, encoding, hg, rfl⟩ | ⟨hc, rfl⟩ | ⟨hc, expect, hg, rfl⟩ := hc
    · cases hc
      exact (State.stageSet_refusesUnseen ty encoding hk hg).exec fun ha => exec_set_of_staged h hs ha
    · simp only [List.mem_cons, List.not_mem_nil, or_false] at hc
      obtain hc | hc := hc <;> cases hc
      · exact (State.stageDefault_refusesUnseen hk).exec fun ha => exec_default_of_staged h hs ha
      · exact (State.stageRevert_refusesUnseen hk).exec fun ha => exec_revert_of_staged h hs ha
    · cases hc
      exact (State.stageRetire_refusesUnseen hk hg).exec fun ha => exec_retire_of_staged h hs ha
  case set =>
    have hexec : ∀ {t r data}, s.stageSet p top lower (setBytes k expect ty encoding) = (t, ⟨r, data⟩) →
        exec (.set p) s = .next (t.answers p tag r data) := fun ha => exec_set_of_staged h hs ha
    refine ⟨fun d w hview => ?_, fun i x w hview => ?_⟩
    · obtain ⟨hbad, hok⟩ := State.stageSet_refuses (top := top) (lower := lower) (ty := ty) (encoding := encoding) hk hg
        hright (View.refers_of_staged hview)
      rw [hview, View.isStaged, Bool.and_true] at hbad hok
      refine ⟨fun hne => hexec (hbad (Option.isSome_iff_ne_none.mpr hne)), ?_⟩
      rintro rfl
      obtain ⟨htype, hvalue⟩ := hok rfl
      exact ⟨fun hn => hexec (htype hn), fun v hv => (hvalue v hv).exec hexec⟩
    · obtain ⟨-, hok⟩ := State.stageSet_refuses (top := top) (lower := lower) (ty := ty) (encoding := encoding) hk hg
        hright (View.refers_of_live hview)
      obtain ⟨htype, hvalue⟩ := hok (by rw [hview]; exact Bool.and_false _)
      exact ⟨fun hn => hexec (htype hn), fun v hv => (hvalue v hv).exec hexec⟩
  case default =>
    have hrefers : (s.view p k).refers d reference := by
      obtain hv | ⟨i, x, w, hv, rfl, rfl⟩ := hview
      · exact View.refers_of_staged hv
      · exact View.refers_of_live hv
    have hexec : ∀ {t r data}, s.stageDefault p top lower (enc16 k) = (t, ⟨r, data⟩) →
        exec (.default p) s = .next (t.answers p tag r data) := fun ha => exec_default_of_staged h hs ha
    rw [State.stageDefault_eq hk hright hrefers] at hexec
    refine ⟨fun hn => hexec (by rw [hn]; rfl), fun v hv => ?_⟩
    rw [hv] at hexec
    exact (State.stageResolved_refuses d reference v).exec hexec
  case revert =>
    refine ⟨fun d w hview => exec_revert_of_staged h hs (State.stageRevert_of_staged hk hright hview),
      fun i x w hview => ?_⟩
    have hexec : ∀ {t r data}, s.stageRevert p top lower (enc16 k) = (t, ⟨r, data⟩) →
        exec (.revert p) s = .next (t.answers p tag r data) := fun ha => exec_revert_of_staged h hs ha
    rw [State.stageRevert_eq_of_live hk hright hview] at hexec
    refine ⟨fun hn => hexec (by rw [Record.revertValue_eq_none hn]; rfl), fun v hl hv => ?_⟩
    rw [Record.revertValue_eq_some hl hv] at hexec
    exact (State.stageResolved_refuses x.defn x.live v).exec hexec
  case retire =>
    refine ⟨fun d w hview => ⟨fun hne => ?_, ?_⟩, fun i x w hview hfull => ?_⟩
    · refine exec_retire_of_staged h hs ((State.stageRetire_eq hk hg hright (View.refers_of_staged hview)).trans (if_pos ?_))
      rw [hview, View.isStaged, Bool.and_true]
      exact Option.isSome_iff_ne_none.mpr hne
    · rintro rfl hfull
      exact exec_retire_of_staged h hs ((State.stageRetire_eq hk hg hright (View.refers_of_staged hview)).trans
        ((if_neg nofun).trans (State.stage_of_full hfull _ _)))
    · refine exec_retire_of_staged h hs ((State.stageRetire_eq hk hg hright (View.refers_of_live hview)).trans
        ((if_neg ?_).trans (State.stage_of_full hfull _ _)))
      rw [hview]
      simp [View.isStaged]
  case create =>
    have hexec : ∀ {t r data}, s.stageCreate p top lower (createBytes k d initial) = (t, ⟨r, data⟩) →
        exec (.create p) s = .next (t.answers p tag r data) := fun ha => exec_create_of_staged h hs ha
    refine ⟨fun hright => hexec (State.stageCreate_of_denied hk hd hright), fun hright => ?_⟩
    obtain ⟨hkey, hdefn⟩ := State.stageCreate_refuses (s := s) (p := p) (top := top) (lower := lower)
      (initial := initial) hk hd hright
    refine ⟨fun hseen => hexec (hkey _ (State.createRefusal_of_seen hseen)),
      fun hpending => hexec (hkey _ (State.createRefusal_of_pending hpending)), fun habsent => ?_⟩
    have hrefusal := State.createRefusal_of_absent habsent
    refine ⟨fun hdraining => hexec (hkey _ (hrefusal.trans (if_pos hdraining))), fun hdraining => ?_⟩
    have hnone : s.createRefusal p k = none := hrefusal.trans (if_neg (by rw [hdraining]; exact nofun))
    refine ⟨fun hc => hexec (hdefn hnone hc), fun hc => ?_⟩
    obtain ⟨hdefault, htype, hvalue⟩ := State.stageCreate_refusesValue (top := top) (lower := lower) (initial := initial)
      hk hd hright hnone hc
    exact ⟨fun h1 h2 => hexec (hdefault h1 h2), fun bytes h1 h2 => hexec (htype bytes h1 h2),
      fun v hv => (hvalue v (CreateParams.choice_eq_some hv)).exec hexec⟩
  case directSet =>
    have hexec : ∀ {t r data}, s.directSet p (setBytes k expect ty encoding) = (t, ⟨r, data⟩) →
        exec (.set p) s = .next (t.answers p tag r data) := fun ha => exec_set_of_direct h hs ha
    rw [State.directSet_eq ty encoding hk hg] at hexec
    refine ⟨fun hright => hexec (if_pos hright), fun hright hn => hexec ?_, fun v r index hv hcheck => hexec ?_⟩
    · rw [if_neg (by rw [hright]; exact nofun), hn]
      exact congrArg (Prod.mk s) (State.directMisencoded_set hright expect)
    · rw [hv]
      exact (State.direct_of_right rfl).trans (State.direct_of_refused hcheck)
  case directRetire =>
    have hexec : ∀ {t r data}, s.directRetire p (enc16 k ++ expectBytes expect) = (t, ⟨r, data⟩) →
        exec (.retire p) s = .next (t.answers p tag r data) := fun ha => exec_retire_of_direct h hs ha
    rw [State.directRetire_eq hk hg] at hexec
    exact ⟨fun hright => hexec (if_pos hright), fun r index hcheck =>
      hexec ((State.direct_of_right rfl).trans (State.direct_of_refused hcheck))⟩
  case directCreate =>
    have hexec : ∀ {t r data}, s.directCreate p (createBytes k d initial) = (t, ⟨r, data⟩) →
        exec (.create p) s = .next (t.answers p tag r data) := fun ha => exec_create_of_direct h hs ha
    rw [State.directCreate_eq initial hk hd] at hexec
    refine ⟨fun hright => hexec (if_pos hright), fun hright => ?_⟩
    rw [if_neg (by rw [hright]; exact nofun)] at hexec
    refine ⟨fun hc => hexec (if_pos hc), fun hc => ?_⟩
    rw [if_neg (by rw [hc]; exact nofun)] at hexec
    refine ⟨?_, ?_, fun v r index hv hcheck => hexec ?_⟩
    · rintro rfl hn
      exact hexec (by simp only [CreateParams.choice, hn, Option.map_none]; rfl)
    · rintro bytes rfl hn
      have hmis : exec (.create p) s = .next (s.answers p tag ((s.absentCheck k).getD .type) (enc8 0)) :=
        hexec (by simp only [CreateParams.choice, hn]; exact congrArg (Prod.mk s) State.directMisencoded_create)
      unfold State.absentCheck at hmis
      refine ⟨fun hl => ?_, fun hl hdr => ?_, fun hl hdr => ?_⟩
      · obtain ⟨x, hx⟩ := Option.ne_none_iff_exists'.mp hl
        rwa [hx] at hmis
      · rwa [hl, hdr] at hmis
      · rwa [hl, hdr] at hmis
    · rw [CreateParams.choice_eq_some hv]
      exact State.direct_of_refused hcheck

end Sys2Proof.Machine
end

section
/-! PROOFS. COMMIT (R52 to R55): the merge, and the outermost COMMIT as an apply of the changeset. -/

namespace Sys2Proof.Machine

/-! ## The merge (R53) -/

/-- What a merge leaves of a lower entry (R51, R53). -/
def mergedEntry (top : Changeset) (e : Entry) : Option Entry :=
  match Changeset.entryFor top e.key with
  | none => some e
  | some x => (combine e.change x.change).map (Entry.mk e.key)

theorem mergedChangeset_eq (top below : Changeset) : mergedChangeset top below =
    below.filterMap (mergedEntry top) ++ top.filter fun x => (Changeset.entryFor below x.key).isNone := by
  have hentry : mergedEntry top = fun e =>
      match Changeset.entryFor top e.key with
      | none => some e
      | some x =>
        match e.change, x.change with
        | .set _ g, .set v g' => some ⟨e.key, .set v (g.or g')⟩
        | .create d _, .set v _ => some ⟨e.key, .create d v⟩
        | .set _ g, .retire g' => some ⟨e.key, .retire (g.or g')⟩
        | .create _ _, .retire _ => none
        | _, new => some ⟨e.key, new⟩ := by
    funext e
    unfold mergedEntry
    cases Changeset.entryFor top e.key with
    | none => rfl
    | some x =>
      dsimp only
      cases e.change <;> cases x.change <;> simp [combine, earlierExpect_eq_or]
  rw [hentry]
  rfl

theorem entryFor_cons_of_ne {x : Entry} {c : Changeset} {k : Nat} (h : x.key ≠ k) :
    Changeset.entryFor (x :: c) k = Changeset.entryFor c k := List.find?_cons_of_neg (by simpa using h)

theorem entryFor_cons_self {x : Entry} {c : Changeset} {k : Nat} (h : x.key = k) :
    Changeset.entryFor (x :: c) k = some x := List.find?_cons_of_pos (by simpa using h)

theorem mergedEntry_cons_of_ne {x e : Entry} {top : Changeset} (h : x.key ≠ e.key) :
    mergedEntry (x :: top) e = mergedEntry top e := by
  unfold mergedEntry
  rw [entryFor_cons_of_ne h]

theorem mergedEntry_cons_self {x e : Entry} {top : Changeset} (h : x.key = e.key) :
    mergedEntry (x :: top) e = (combine e.change x.change).map (Entry.mk e.key) := by
  unfold mergedEntry
  rw [entryFor_cons_self h]

theorem mergedEntry_of_absent {e : Entry} {top : Changeset} (h : ∀ x ∈ top, x.key ≠ e.key) : mergedEntry top e = some e := by
  unfold mergedEntry
  rw [(Changeset.entryFor_eq_none_iff _ _).mpr h]

theorem filterMap_mergedEntry_cons {x : Entry} {top l : Changeset} (h : ∀ e ∈ l, e.key ≠ x.key) :
    l.filterMap (mergedEntry (x :: top)) = l.filterMap (mergedEntry top) :=
  List.filterMap_congr fun e he => mergedEntry_cons_of_ne (Ne.symm (h e he))

/-- The top entries that are new to a lower changeset, where it comes to hold another key that is none of theirs. -/
theorem filter_new_congr {top c c' : Changeset} (h : ∀ x ∈ top, (∀ e ∈ c', e.key ≠ x.key) ↔ ∀ e ∈ c, e.key ≠ x.key) :
    (top.filter fun x => (Changeset.entryFor c' x.key).isNone) = top.filter fun x => (Changeset.entryFor c x.key).isNone :=
  List.filter_congr fun x hx => by
    rw [Bool.eq_iff_iff, Option.isNone_iff_eq_none, Option.isNone_iff_eq_none, Changeset.entryFor_eq_none_iff,
      Changeset.entryFor_eq_none_iff]
    exact h x hx

/-- A merge of the top entries after one of them is placed is the merge of all of them (R53). -/
theorem mergedChangeset_cons {x : Entry} {top below : Changeset} (hx : ∀ e ∈ top, e.key ≠ x.key)
    (hbelow : Changeset.wf below) : mergedChangeset (x :: top) below = mergedChangeset top (placeEntry below x) := by
  rw [mergedChangeset_eq, mergedChangeset_eq]
  obtain h | ⟨a, b, y, rfl, hy, ha⟩ := below.absent_or_split x.key
  · have hnone : (Changeset.entryFor below x.key).isNone = true := by
      rw [(Changeset.entryFor_eq_none_iff _ _).mpr h]
      rfl
    rw [placeEntry_of_absent below x h, List.filterMap_append, filterMap_mergedEntry_cons h,
      List.filter_cons_of_pos (p := fun e : Entry => (Changeset.entryFor below e.key).isNone) hnone, List.append_assoc]
    have hlast : List.filterMap (mergedEntry top) [x] = [x] := by
      rw [List.filterMap_cons_some (mergedEntry_of_absent hx)]; rfl
    rw [hlast, filter_new_congr (c := below) (c' := below ++ [x])]
    · rfl
    · intro e he
      simp only [List.mem_append, List.mem_singleton]
      exact ⟨fun h e' he' => h e' (.inl he'), fun h e' he' => he'.elim (h e') fun h => h ▸ Ne.symm (hx e he)⟩
  · have hb : ∀ e ∈ b, e.key ≠ x.key := by
      have hc : ((a ++ y :: b).map Entry.key).Nodup := hbelow
      rw [List.map_append, List.map_cons, List.nodup_append, List.nodup_cons] at hc
      obtain ⟨-, ⟨hyb, -⟩, -⟩ := hc
      exact fun e he hk => hyb (hy.trans hk.symm ▸ List.mem_map_of_mem he)
    have hsome : ¬ (Changeset.entryFor (a ++ y :: b) x.key).isNone = true := by
      rw [entryFor_of_split hy ha]
      exact nofun
    have hself : mergedEntry (x :: top) y = (combine y.change x.change).map (Entry.mk y.key) :=
      mergedEntry_cons_self hy.symm
    rw [placeEntry_of_split a b y x hy ha,
      List.filter_cons_of_neg (p := fun e : Entry => (Changeset.entryFor (a ++ y :: b) e.key).isNone) hsome,
      List.filterMap_append,
      filterMap_mergedEntry_cons ha]
    cases hc : combine y.change x.change with
    | none =>
      rw [hc] at hself
      dsimp only
      rw [List.filterMap_cons_none hself, filterMap_mergedEntry_cons hb, List.filterMap_append,
        filter_new_congr (c := a ++ b) (c' := a ++ y :: b)]
      intro e he
      have hye : y.key ≠ e.key := hy ▸ Ne.symm (hx e he)
      simp only [List.mem_append, List.mem_cons]
      exact ⟨fun h e' he' => h e' (he'.imp_right .inr),
        fun h e' he' => he'.elim (fun h' => h e' (.inl h')) fun h' => h'.elim (fun h' => h' ▸ hye) fun h' => h e' (.inr h')⟩
    | some ch =>
      rw [hc] at hself
      dsimp only
      have hplaced : mergedEntry top ⟨y.key, ch⟩ = some ⟨y.key, ch⟩ := mergedEntry_of_absent fun e he => by
        rw [hy]; exact hx e he
      rw [List.filterMap_cons_some hself, filterMap_mergedEntry_cons hb, List.filterMap_append,
        List.filterMap_cons_some hplaced, filter_new_congr (c := a ++ ⟨y.key, ch⟩ :: b) (c' := a ++ y :: b)]
      intro e he
      simp only [List.forall_mem_append, List.forall_mem_cons]

/-- The merge, entry by entry, leaves the merged changeset (R53). -/
theorem mergeInto_eq {top below : Changeset} (htop : Changeset.wf top) (hbelow : Changeset.wf below) :
    mergeInto top below = mergedChangeset top below := by
  induction top generalizing below with
  | nil =>
    rw [mergedChangeset_eq, List.filter_nil, List.append_nil]
    exact (List.filterMap_some).symm
  | cons x top ih =>
    have htop : (x.key :: top.map Entry.key).Nodup := htop
    rw [List.nodup_cons] at htop
    have hx : ∀ e ∈ top, e.key ≠ x.key := fun e he hk => htop.1 (hk ▸ List.mem_map_of_mem he)
    rw [mergedChangeset_cons hx hbelow]
    exact ih htop.2 (placeEntry_wf x hbelow)

/-! ## COMMIT by the depth of the port (R52) -/

section
variable {s t : State} {p : Port} {tag : Byte} {params data : List Byte} {r : Result}

theorem exec_commit_of_working (h : s.isWorkingOn p tag 0x26#8 params) (ha : s.commit p params = (t, ⟨r, data⟩)) :
    exec (.commit p) s = .next (t.answers p tag r data) := exec_of_served rfl h ha

/-- A COMMIT names a mode by its parameters (R52). -/
theorem readCommit_of_form (h : params ∈ [[], [0x01#8], [0x02#8]]) : ∃ mode, readCommit params = some mode := by
  simp only [List.mem_cons, List.not_mem_nil, or_false] at h
  obtain rfl | rfl | rfl := h
  · exact ⟨_, rfl⟩
  · exact ⟨.lasting, by decide⟩
  · exact ⟨.transient, by decide⟩

theorem readCommit_of_mode {mode : Persistence} (h : params = [] ∧ mode = .lasting ∨ params = [mode.code]) :
    readCommit params = some mode := by
  obtain ⟨rfl, rfl⟩ | rfl := h
  · rfl
  · cases mode <;> decide

end

/-- Settles O23: the top entries are placed one after the other, and the stack has one changeset less. -/
theorem mergePlacesEntries : Obligations.MergePlacesEntries := by
  unfold Obligations.MergePlacesEntries
  intro s p tag params top below lower h hparams hs htop hbelow
  obtain ⟨mode, hread⟩ := readCommit_of_form hparams
  refine exec_commit_of_working h ?_
  simp only [State.commit, hread, hs, State.merge, mergeReturns, mergeInto_eq htop hbelow, State.depth,
    State.setStack_stack_self, List.length_cons]
  rfl

/-! ## The apply of a changeset (R73 to R79) -/

theorem State.remark_eq_marked (s : State) : s.remark = s.marked := State.remark_eq s

theorem EntryEffect.claimsWf {mode : Persistence} {s t : State} {e : Entry} (h : EntryEffect mode s e t)
    (hs : s.claimsWf) : t.claimsWf := by
  cases h with
  | retire k => exact State.replaceClaim_none_claimsWf k hs
  | _ => exact hs

theorem State.runEntry_eq (mode : Persistence) {s : State} (h : s.claimsWf) (e : Entry) :
    State.runEntry mode s e = State.appliedEntry mode s e := by
  unfold State.runEntry State.appliedEntry
  cases e.change with
  | set v g => exact State.runSet_eq s mode e.key v
  | create d v => exact State.runCreate_eq s e.key d v
  | retire g => exact s.runRetire_eq e.key h

theorem foldl_runEntry_eq (mode : Persistence) (es : List Entry) {s : State} (h : s.claimsWf) :
    es.foldl (State.runEntry mode) s = es.foldl (State.appliedEntry mode) s := by
  induction es generalizing s with
  | nil => rfl
  | cons e es ih =>
    rw [List.foldl_cons, List.foldl_cons, ih ((s.runEntry_effect mode e).claimsWf h), State.runEntry_eq mode h]

/-- The apply of a changeset, as chapter 4 puts it (R73). -/
theorem State.runApply_eq {s : State} (h : s.claimsWf) (mode : Persistence) (es : List Entry) :
    s.runApply mode es = s.applied mode es := by
  have h' : State.claimsWf { s with applyNumber := s.applyNumber + 1 } := h
  unfold State.runApply State.applied
  rw [State.remark_eq_marked, foldl_runEntry_eq mode es h']

/-- Settles O24: the depth decides, and at depth 1 the checks of the apply. -/
theorem outermostCommitApplies : Obligations.OutermostCommitApplies := by
  unfold Obligations.OutermostCommitApplies
  intro s p tag params h
  refine ⟨fun hform => exec_commit_of_working h (State.commit_of_badForm hform), fun hform hs => ?_,
    fun mode c hmode hs => ?_, fun hwf mode es => State.runApply_eq hwf mode es⟩
  · obtain ⟨mode, hread⟩ := readCommit_of_form hform
    exact exec_commit_of_working h (by simp only [State.commit, hread, hs]; rfl)
  · have hcommit : s.commit p params = s.commitOutermost p mode c := by
      simp only [State.commit, readCommit_of_mode hmode, hs]
    refine ⟨fun hc => exec_commit_of_working h ?_, fun r index hc => exec_commit_of_working h ?_⟩
    · rw [hcommit, State.commitOutermost, hc]
      rfl
    · rw [hcommit, State.commitOutermost, hc]
      rfl

end Sys2Proof.Machine
end

section
/-! PROOFS. The checks of an apply (O25). -/

namespace Sys2Proof.Machine

/-! ## The first check that fails -/

theorem firstFailing_nil : firstFailing [] = none := rfl

theorem firstFailing_cons (b : Bool) (r : Result) (checks : List (Bool × Result)) :
    firstFailing ((b, r) :: checks) = if b then some r else firstFailing checks := by
  cases b <;> rfl

theorem firstFailing_eq_none_iff (checks : List (Bool × Result)) :
    firstFailing checks = none ↔ ∀ x ∈ checks, x.1 = false := by
  simp [firstFailing]

theorem valueFailing_passes_iff (check : Option Result) :
    (∀ x ∈ valueFailing check, x.1 = false) ↔ check = none := by
  cases check <;> simp [valueFailing]

/-- The checks of a SET or RETIRE before its value check all pass (R64 to R67). -/
theorem State.earlyChecks_pass_iff (s : State) (p : Port) (need : Right) (k : Nat) (g : Option Nat) :
    (∀ x ∈ s.earlyChecks p need k g, x.1 = false) ↔
      s.rights.allows p k need = true ∧ s.heldByOther p k = false ∧
        ∃ (i : SlotId) (r : Record), s.liveRecord k = some (i, r) ∧ ∀ n, g = some n → n = r.generation := by
  unfold State.earlyChecks State.unexpected
  cases hl : s.liveRecord k with
  | none => simp
  | some x =>
    obtain ⟨i, r⟩ := x
    cases g with
    | none => simp
    | some n => simpa using and_congr_right fun _ => And.comm

/-- A SET entry passes its checks (R64 to R70). -/
theorem State.entryFailure_set_eq_none_iff (s : State) (p : Port) (mode : Persistence) (before : List Entry) (k : Nat)
    (v : Value) (g : Option Nat) :
    s.entryFailure p mode before ⟨k, .set v g⟩ = none ↔
      s.rights.allows p k .stage = true ∧ s.heldByOther p k = false ∧
        ∃ (i : SlotId) (r : Record), s.liveRecord k = some (i, r) ∧ (∀ n, g = some n → n = r.generation) ∧
          checkValue r.defn.constraints r.live v = none := by
  unfold State.entryFailure
  simp only [firstFailing_eq_none_iff, List.forall_mem_append, State.earlyChecks_pass_iff, valueFailing_passes_iff]
  cases hl : s.liveRecord k with
  | none => simp
  | some x =>
    obtain ⟨i, r⟩ := x
    simp [and_assoc]

/-- A RETIRE entry passes its checks (R64 to R67, R70). -/
theorem State.entryFailure_retire_eq_none_iff (s : State) (p : Port) (mode : Persistence) (before : List Entry) (k : Nat)
    (g : Option Nat) :
    s.entryFailure p mode before ⟨k, .retire g⟩ = none ↔
      s.rights.allows p k .full = true ∧ s.heldByOther p k = false ∧ mode = .lasting ∧
        ∃ (i : SlotId) (r : Record), s.liveRecord k = some (i, r) ∧ ∀ n, g = some n → n = r.generation := by
  unfold State.entryFailure
  simp only [firstFailing_eq_none_iff, List.forall_mem_append, State.earlyChecks_pass_iff, List.forall_mem_singleton]
  cases mode <;> simp

/-- A CREATE entry passes its checks (R64, R65, R68 to R70). -/
theorem State.entryFailure_create_eq_none_iff (s : State) (p : Port) (mode : Persistence) (before : List Entry) (k : Nat)
    (d : Definition) (v : Value) :
    s.entryFailure p mode before ⟨k, .create d v⟩ = none ↔
      s.rights.allows p k .full = true ∧ s.liveRecord k = none ∧ s.keyDraining k = false ∧ mode = .lasting ∧
        checkValue d.constraints (d.default.getD v) v = none ∧
        (s.classDesc d.cls).count + createsOf d.cls before < (s.classDesc d.cls).quota ∧
        creates before + 1 ≤ s.countSlots Slot.isFree := by
  unfold State.entryFailure
  simp only [firstFailing_eq_none_iff, List.forall_mem_append, valueFailing_passes_iff, List.forall_mem_cons,
    Bool.not_eq_false', Option.isSome_eq_false_iff, Option.isNone_iff_eq_none, decide_eq_false_iff_not, Nat.not_lt]
  cases mode <;> simp only [beq_self_eq_true, reduceCtorEq, beq_eq_false_iff_ne, ne_eq, not_false_eq_true,
    List.not_mem_nil, IsEmpty.forall_iff, implies_true, and_true, false_and, and_false, true_and]
  constructor
  · rintro ⟨⟨⟨hr, hl, hd⟩, hv⟩, hq, hf⟩
    exact ⟨hr, hl, hd, hv, hq, hf⟩
  · rintro ⟨hr, hl, hd, hv, hq, hf⟩
    exact ⟨⟨⟨hr, hl, hd⟩, hv⟩, hq, hf⟩

/-! ## The running totals (R69) -/

theorem creates_concat (before : List Entry) (e : Entry) : creates (before ++ [e]) = creates before + creates [e] :=
  List.countP_append

theorem createsOf_concat (c : ClassId) (before : List Entry) (e : Entry) :
    createsOf c (before ++ [e]) = createsOf c before + createsOf c [e] := List.countP_append

/-- The classes of the CREATEs that passed are the running totals of the entries before (R69). -/
def PassedOf (before : List Entry) (passed : List ClassId) : Prop :=
  passed.length = creates before ∧ ∀ c, passed.count c = createsOf c before

theorem passedOf_nil : PassedOf [] [] := ⟨rfl, fun _ => rfl⟩

theorem PassedOf.concat {before : List Entry} {passed : List ClassId} (h : PassedOf before passed) (e : Entry) :
    PassedOf (before ++ [e]) (e.change.addPassed passed) := by
  obtain ⟨hlength, hcount⟩ := h
  obtain ⟨k, ch⟩ := e
  refine ⟨?_, fun c => ?_⟩
  · rw [creates_concat, ← hlength]
    cases ch <;> rfl
  · rw [createsOf_concat, ← hcount c]
    cases ch with
    | create d v => simp [Change.addPassed, createsOf, List.count_cons, List.countP_cons]
    | _ => rfl

/-! ## The entries and the changeset as a whole (R63, R72) -/

/-- The refusals of the entries, each with its index: the first of them is the answer (R63). -/
def State.entryFailures (s : State) (p : Port) (mode : Persistence) (before es : List Entry) : List (Result × Nat) :=
  (es.zipIdx before.length).filterMap fun x =>
    (s.entryFailure p mode ((before ++ es).take x.2) x.1).map fun r => (r, x.2)

theorem State.entryFailures_cons (s : State) (p : Port) (mode : Persistence) (before : List Entry) (e : Entry)
    (es : List Entry) :
    s.entryFailures p mode before (e :: es) =
      ((s.entryFailure p mode before e).map fun r => (r, before.length)).toList ++
        s.entryFailures p mode (before ++ [e]) es := by
  unfold State.entryFailures
  rw [List.zipIdx_cons, List.length_append, List.length_singleton, List.append_assoc, List.singleton_append]
  cases h : s.entryFailure p mode before e with
  | none => rw [List.filterMap_cons_none (by simp [h])]; rfl
  | some r => rw [List.filterMap_cons_some (b := (r, before.length)) (by simp [h])]; rfl

theorem State.entriesCheck_eq {s : State} {p : Port} {mode : Persistence} {es before : List Entry}
    {passed : List ClassId} (h : PassedOf before passed) :
    s.entriesCheck p mode before.length passed es = (s.entryFailures p mode before es).head? := by
  induction es generalizing before passed with
  | nil => rfl
  | cons e es ih =>
    rw [State.entryFailures_cons, State.entriesCheck, State.entryCheck_eq s p mode passed before e h.1 h.2]
    cases s.entryFailure p mode before e with
    | some r => rfl
    | none => exact (congrArg (fun n => s.entriesCheck p mode n _ es) (by simp)).trans (ih (h.concat e))

theorem State.entriesCheck_eq_none_iff {s : State} {p : Port} {mode : Persistence} {es before : List Entry} {n : Nat}
    {passed : List ClassId} (h : PassedOf before passed) :
    s.entriesCheck p mode n passed es = none ↔
      ∀ (a b : List Entry) (e : Entry), es = a ++ e :: b → s.entryFailure p mode (before ++ a) e = none := by
  induction es generalizing before passed n with
  | nil => exact ⟨fun _ a b e he => absurd he (by simp), fun _ => rfl⟩
  | cons x es ih =>
    rw [State.entriesCheck, State.entryCheck_eq s p mode passed before x h.1 h.2]
    cases hx : s.entryFailure p mode before x with
    | some r => exact ⟨nofun, fun h => absurd (h [] es x rfl) (by simp [hx])⟩
    | none =>
      dsimp only
      rw [ih (h.concat x)]
      constructor
      · intro hes a b e he
        cases a with
        | nil => obtain ⟨rfl, rfl⟩ := List.cons.inj he; simpa using hx
        | cons y a =>
          obtain ⟨rfl, rfl⟩ := List.cons.inj he
          simpa using hes a b e rfl
      · intro hes a b e he
        simpa using hes (x :: a) b e (by rw [he]; rfl)

theorem State.wholeCheck_eq (s : State) (mode : Persistence) (es : List Entry) :
    s.wholeCheck mode es = firstFailing
      [(decide (32 - s.persist.jobs.length < (es.map fun e => (s.jobCount mode e).1 - (s.jobCount mode e).2).sum),
        .persistFull),
        (s.persist.engine.isFaulted && es.any (fun e => (s.jobCount mode e).1 != 0), .persistFault),
        (decide (4294967295 ≤ s.applyNumber), .tableFull)] := by
  simp only [firstFailing_cons, firstFailing_nil, decide_eq_true_eq]
  rfl

theorem State.applyFailure_eq (s : State) (p : Port) (mode : Persistence) (es : List Entry) :
    s.applyFailure p mode es =
      match s.entryFailures p mode [] es with
      | x :: _ => some x
      | [] => (s.wholeCheck mode es).map fun r => (r, 255) := by
  rw [State.wholeCheck_eq]
  simp only [State.applyFailure, State.entryFailures, List.nil_append, List.length_nil] <;> rfl

/-- An apply is refused with the code and index of its first failing check (R62, R63, R72). -/
theorem State.applyCheck_eq (s : State) (p : Port) (mode : Persistence) (es : List Entry) :
    s.applyCheck p mode es = s.applyFailure p mode es := by
  have hentries : s.entriesCheck p mode 0 [] es = (s.entryFailures p mode [] es).head? :=
    State.entriesCheck_eq passedOf_nil
  rw [State.applyFailure_eq, State.applyCheck, hentries]
  cases s.entryFailures p mode [] es <;> rfl

theorem State.applyCheck_eq_none_iff (s : State) (p : Port) (mode : Persistence) (es : List Entry) :
    s.applyCheck p mode es = none ↔ s.entriesCheck p mode 0 [] es = none ∧ s.wholeCheck mode es = none := by
  refine ⟨State.applyCheck_none, fun ⟨he, hw⟩ => ?_⟩
  unfold State.applyCheck
  rw [he, hw]
  rfl

/-- Room, engine and apply number (R72). -/
theorem State.wholeCheck_eq_none_iff (s : State) (mode : Persistence) (es : List Entry) :
    s.wholeCheck mode es = none ↔
      (es.map fun e => (s.jobCount mode e).1 - (s.jobCount mode e).2).sum ≤ 32 - s.persist.jobs.length ∧
      (s.persist.engine.isFaulted = true → ∀ e ∈ es, (s.jobCount mode e).1 = 0) ∧ s.applyNumber < 4294967295 := by
  rw [State.wholeCheck_eq, firstFailing_eq_none_iff]
  simp

/-! ## The jobs of an entry (R71) -/

theorem State.jobCount_set {s : State} {k : Nat} {i : SlotId} {r : Record} (h : s.liveRecord k = some (i, r))
    (mode : Persistence) (v : Value) (g : Option Nat) :
    s.jobCount mode ⟨k, .set v g⟩ =
      if mode = .transient ∨ r.defn.persistence = .transient ∨ s.persist.queue.any (Job.isWriteFor i) = true ∨
          (s.persist.engine.job.toList.any (Job.isWriteFor i) = false ∧ r.stored = some v)
      then (0, 0) else (1, 0) := by
  simp only [State.jobCount, h, State.setJob, Persist.queuedWrite_isSome, Persist.writeInFlight_eq]
  have hl := r.isLasting_iff
  cases mode <;> cases hp : r.defn.persistence <;>
    cases hq : s.persist.queue.any (Job.isWriteFor i) <;>
    cases hf : s.persist.engine.job.toList.any (Job.isWriteFor i) <;> simp_all

theorem State.jobCount_retire {s : State} {k : Nat} {i : SlotId} {r : Record} (h : s.liveRecord k = some (i, r))
    (mode : Persistence) (g : Option Nat) :
    s.jobCount mode ⟨k, .retire g⟩ =
      if r.defn.persistence = .transient then (0, 0)
      else if s.persist.queue.any (Job.isWriteFor i) then (1, 1) else (1, 0) := by
  simp only [State.jobCount, h, Persist.queuedWrite_isSome]
  have hl := r.isLasting_iff
  cases hp : r.defn.persistence with
  | transient => rw [if_neg (mt hl.mp (by simp [hp])), if_pos rfl]
  | lasting =>
    rw [if_pos (hl.mpr hp)]
    cases s.persist.queue.any (Job.isWriteFor i) <;> rfl

/-- Settles O25: each check by the facts about it, the running totals being the CREATEs before the entry. -/
theorem applyPassesExactlyWhen : Obligations.ApplyPassesExactlyWhen := by
  unfold Obligations.ApplyPassesExactlyWhen
  intro s p mode es
  refine ⟨?_, s.applyCheck_eq p mode es, fun e => ?_⟩
  · rw [State.applyCheck_eq_none_iff, State.entriesCheck_eq_none_iff passedOf_nil, State.wholeCheck_eq_none_iff]
    refine and_congr_left fun _ => forall_congr' fun a => forall_congr' fun b => forall_congr' fun e =>
      imp_congr_right fun _ => ?_
    obtain ⟨k, ch⟩ := e
    cases ch with
    | set v g => exact s.entryFailure_set_eq_none_iff p mode _ k v g
    | create d v => exact s.entryFailure_create_eq_none_iff p mode _ k d v
    | retire g => exact s.entryFailure_retire_eq_none_iff p mode _ k g
  · obtain ⟨k, ch⟩ := e
    refine ⟨fun v g i r hc hl => ?_, fun d v hc => ?_, fun g i r hc hl => ?_⟩
    all_goals obtain rfl : ch = _ := hc
    · exact State.jobCount_set hl mode v g
    · rfl
    · exact State.jobCount_retire hl mode g

end Sys2Proof.Machine
end

section
/-! PROOFS. The direct commands that pass (O26 to O29). -/

namespace Sys2Proof.Machine

/-! ## The mark of an apply (R78, R159) -/

/-- The mark recomputed in a state whose durability requests are still those of `s`. -/
theorem State.marked_eq {s t : State} (h : t.persist.requests = s.persist.requests) :
    t.marked = { t with
      persist := { t.persist with
        mark := markOf t.persist.jobs t.applyNumber
        requests := s.requestsLeft (markOf t.persist.jobs t.applyNumber) }
      notices := .build fun q =>
        (t.notices.get q).postIf (s.reached (markOf t.persist.jobs t.applyNumber) q = true)
          (.durable (markOf t.persist.jobs t.applyNumber)) } := by
  have hreached : ∀ mark q, t.reached mark q = s.reached mark q := fun mark q => by
    unfold State.reached
    rw [h]
  have hleft : ∀ mark, t.requestsLeft mark = s.requestsLeft mark := fun mark => by
    unfold State.requestsLeft
    simp only [hreached, h]
  unfold State.marked
  simp only [hreached, hleft]

theorem Persist.withJob_requests (nv : NvArray) (pe : Persist) (j : Job) : (pe.withJob nv j).requests = pe.requests := by
  rw [← Persist.enqueue_eq]
  exact Persist.enqueue_requests nv pe j

theorem State.runApply_single (s : State) (mode : Persistence) (e : Entry) :
    s.runApply mode [e] = (State.runEntry mode { s with applyNumber := s.applyNumber + 1 } e).marked := by
  unfold State.runApply
  rw [State.remark_eq_marked]
  rfl

/-! ## A single SET (R74) -/

/-- The persist block after a LASTING SET of a record, with the apply number already risen (R71, R77). -/
def State.persistAfterSet (s : State) (n k : Nat) (i : SlotId) (r : Record) (v : Value) : Persist :=
  if r.defn.persistence = .transient then s.persist
  else if s.persist.queue.any (Job.isWriteFor i) then
    { s.persist with queue := s.persist.queue.map fun j =>
        match j with
        | .slot (.write w) => if w.slot = i then .slot (.write { w with value := v, last := n }) else j
        | _ => j }
  else if s.persist.engine.job.toList.any (Job.isWriteFor i) = false ∧ r.stored = some v then s.persist
  else s.persist.withJob s.nv (.slot (.write ⟨i, k, r.defn, v, n, n⟩))

theorem State.persistAfterSet_requests (s : State) (n k : Nat) (i : SlotId) (r : Record) (v : Value) :
    (s.persistAfterSet n k i r v).requests = s.persist.requests := by
  unfold State.persistAfterSet
  split
  · rfl
  · split
    · rfl
    · split
      · rfl
      · exact Persist.withJob_requests _ _ _

section
variable {s : State} {p : Port} {tag : Byte} {k : Nat} {i : SlotId} {r : Record}

/-- The part after the LASTING apply of a single SET (R74, R78). -/
theorem State.runApply_set (h : s.liveRecord k = some (i, r)) (v : Value) (g : Option Nat) :
    s.runApply .lasting [⟨k, .set v g⟩] =
      let n := s.applyNumber + 1
      let gen := if r.generation = 65535 then 1 else r.generation + 1
      let pe := s.persistAfterSet n k i r v
      let mark := markOf pe.jobs n
      { s with
        slots := s.slots.set i.val (.live { r with live := v, generation := gen, overridden := false })
        applyNumber := n
        persist := { pe with mark := mark, requests := s.requestsLeft mark }
        notices := .build fun q =>
          ((s.notices.get q).postIf (r.watchers.get q = true ∧ s.rights.allows q k .read = true)
            (.changed k gen)).postIf (s.reached mark q = true) (.durable mark) } := by
  have hset : State.runEntry .lasting { s with applyNumber := s.applyNumber + 1 } ⟨k, .set v g⟩ = { s with
      slots := s.slots.set i.val (.live { r with
        live := v, generation := if r.generation = 65535 then 1 else r.generation + 1, overridden := false })
      applyNumber := s.applyNumber + 1
      persist := s.persistAfterSet (s.applyNumber + 1) k i r v
      notices := s.posted r.watchers.get k (.changed k (if r.generation = 65535 then 1 else r.generation + 1)) } := by
    refine (State.runSet_eq _ .lasting k v).trans ?_
    have hl : State.liveRecord { s with applyNumber := s.applyNumber + 1 } k = some (i, r) := h
    unfold State.appliedSet
    rw [hl]
    simp only [State.persistAfterSet, reduceCtorEq, false_or, and_false, decide_false]
    rfl
  rw [State.runApply_single, hset, State.marked_eq (s := s) (s.persistAfterSet_requests _ k i r v)]
  simp only [State.posted, PortMap.get_build]

theorem State.direct_of_passed {ch : Change} (h : s.applyCheck p .lasting [⟨k, ch⟩] = none) :
    s.direct p k ch = (s.runApply .lasting [⟨k, ch⟩], ⟨.ok, enc32 (s.applyNumber + 1)⟩) := State.apply_of_passed h

/-- The port has the right that an entry needs, where the entry passes (R64). -/
theorem State.allows_of_passed {ch : Change} (h : s.applyCheck p .lasting [⟨k, ch⟩] = none) {need : Right}
    (hn : ch.need = need) : s.rights.allows p k need = true := by
  obtain ⟨passed, hcheck⟩ := State.entriesCheck_none (State.applyCheck_none h).1 ⟨k, ch⟩ (List.mem_singleton_self _)
  obtain ⟨hright, -⟩ := State.entryCheck_none hcheck
  unfold State.rightCheck at hright
  split at hright
  · next hallows => exact hn ▸ hallows
  · cases hright

/-- A SET at depth 0 that passes its checks (R56). -/
theorem exec_set_of_passed {expect : Option Nat} {v : Value} (hk : validKey k = true) (hg : validExpect expect)
    (hv : v.fits) (hs : s.stack p = []) (h : s.isWorkingOn p tag 0x21#8 (setParams k expect v))
    (hc : s.applyCheck p .lasting [⟨k, .set v expect⟩] = none) :
    exec (.set p) s =
      .next ((s.runApply .lasting [⟨k, .set v expect⟩]).answers p tag .ok (enc32 (s.applyNumber + 1))) := by
  refine exec_set_of_direct h hs ?_
  rw [setParams, State.directSet_eq _ _ hk hg, decodeValue_encode hv]
  exact (State.direct_of_right rfl).trans (State.direct_of_passed hc)

end

/-- Settles O26: the SET is applied as the only entry of an apply. -/
theorem directSetApplied : Obligations.DirectSetApplied := by
  unfold Obligations.DirectSetApplied
  intro s p tag k expect v i r hk hg hv hs h hl hc n g pe mark
  rw [exec_set_of_passed hk hg hv hs h hc, State.runApply_set hl v expect]
  rfl

/-! ## A single CREATE (R75) -/

section
variable {s : State} {p : Port} {tag : Byte} {k : Nat} {i : SlotId} {r : Record}

/-- The persist block after a CREATE in a slot, with the apply number already risen (R71, R77). -/
def State.persistAfterCreate (s : State) (n k : Nat) (i : SlotId) (d : Definition) (v : Value) : Persist :=
  if d.persistence = .lasting then s.persist.withJob s.nv (.slot (.write ⟨i, k, d, v, n, n⟩)) else s.persist

theorem State.persistAfterCreate_requests (s : State) (n k : Nat) (i : SlotId) (d : Definition) (v : Value) :
    (s.persistAfterCreate n k i d v).requests = s.persist.requests := by
  unfold State.persistAfterCreate
  split
  · exact Persist.withJob_requests _ _ _
  · rfl

theorem State.lowestFree_eq {s : State} {i : SlotId} (h : s.slot i = .free) (hlow : ∀ j : SlotId, j < i → s.slot j ≠ .free) :
    ((List.finRange 384).find? fun i => (s.slot i).isFree) = some i := by
  rw [← lowestSlot_eq_find?, lowestSlot_eq_some_iff]
  refine ⟨congrArg Slot.isFree h, fun j hj => ?_⟩
  have hne : s.slot j ≠ .free := hlow j hj
  show (s.slot j).isFree = false
  cases hj : s.slot j with
  | free => exact absurd hj hne
  | _ => rfl

/-- The part after the apply of a single CREATE (R75, R78). -/
theorem State.runApply_create (h : ((List.finRange 384).find? fun i => (s.slot i).isFree) = some i) (d : Definition)
    (v : Value) :
    s.runApply .lasting [⟨k, .create d v⟩] =
      let n := s.applyNumber + 1
      let c := s.classDesc d.cls
      let pe := s.persistAfterCreate n k i d v
      let mark := markOf pe.jobs n
      { s with
        slots := s.slots.set i.val (.live ⟨k, d, v, none, 1, false, false, ⟨false, false, false⟩⟩)
        classes := s.classes.set d.cls.val { c with count := c.count + 1 }
        applyNumber := n
        persist := { pe with mark := mark, requests := s.requestsLeft mark }
        notices := .build fun q =>
          ((s.notices.get q).postIf (c.watchers.get q = true ∧ s.rights.allows q k .read = true)
            (.created k)).postIf (s.reached mark q = true) (.durable mark) } := by
  have hcreate : State.runEntry .lasting { s with applyNumber := s.applyNumber + 1 } ⟨k, .create d v⟩ = { s with
      slots := s.slots.set i.val (.live ⟨k, d, v, none, 1, false, false, ⟨false, false, false⟩⟩)
      classes := s.classes.set d.cls.val { s.classDesc d.cls with count := (s.classDesc d.cls).count + 1 }
      applyNumber := s.applyNumber + 1
      persist := s.persistAfterCreate (s.applyNumber + 1) k i d v
      notices := s.posted (s.classDesc d.cls).watchers.get k (.created k) } := by
    refine (State.runCreate_eq _ k d v).trans ?_
    have hl : ((List.finRange 384).find? fun i => (State.slot { s with applyNumber := s.applyNumber + 1 } i).isFree) =
        some i := h
    unfold State.appliedCreate
    rw [hl]
    rfl
  rw [State.runApply_single, hcreate, State.marked_eq (s := s) (s.persistAfterCreate_requests _ k i d v)]
  simp only [State.posted, PortMap.get_build]

end

/-- Settles O27: the CREATE is applied as the only entry of an apply. -/
theorem directCreateApplied : Obligations.DirectCreateApplied := by
  unfold Obligations.DirectCreateApplied
  intro s p tag k d initial v i hk hd hfits hs h hinitial hfree hlow hc n c pe mark
  have hchoice : CreateParams.choice ⟨k, d, initial.map Value.encode⟩ = some (some v) := by
    refine CreateParams.choice_eq_some ?_
    obtain ⟨rfl, hv, ht⟩ | ⟨rfl, hdefault⟩ := hinitial
    · exact .inr ⟨_, rfl, ht ▸ decodeValue_encode hv⟩
    · exact .inl ⟨rfl, hdefault⟩
  have hright : ¬ s.rights.allows p k .full = false := fun hr => by
    rw [State.allows_of_passed hc (need := .full) rfl] at hr
    cases hr
  refine (exec_create_of_direct h hs (t := s.runApply .lasting [⟨k, .create d v⟩]) (r := .ok)
    (data := enc32 (s.applyNumber + 1)) ?_).trans ?_
  · rw [createParams, State.directCreate_eq _ hk (Definition.fits_of_consistent hd hfits), if_neg hright,
      if_neg (by rw [hd]; exact nofun), hchoice]
    exact State.direct_of_passed hc
  · rw [State.runApply_create (State.lowestFree_eq hfree hlow) d v]
    rfl

/-! ## A single RETIRE (R76) -/

section
variable {s : State} {p : Port} {tag : Byte} {k : Nat} {i : SlotId} {r : Record}

/-- The persist block after the RETIRE of a record, with the apply number already risen (R71, R77). -/
def State.persistAfterRetire (s : State) (n k : Nat) (i : SlotId) (r : Record) : Persist :=
  let first := match s.persist.queuedWrite i with | some w => w.first | none => n
  if r.defn.persistence = .lasting then
    ({ s.persist with queue := s.persist.queue.filter fun j => !j.isWriteFor i }).withJob s.nv
      (.slot (.erase ⟨i, some k, some (first, n)⟩))
  else s.persist

theorem State.persistAfterRetire_requests (s : State) (n k : Nat) (i : SlotId) (r : Record) :
    (s.persistAfterRetire n k i r).requests = s.persist.requests := by
  unfold State.persistAfterRetire
  by_cases h : r.defn.persistence = .lasting
  · simp only [h, if_true]
    exact Persist.withJob_requests _ _ _
  · simp only [h, if_false]

/-- The part after the apply of a single RETIRE (R76, R78, R93). -/
theorem State.runApply_retire (hwf : s.claimsWf) (h : s.liveRecord k = some (i, r)) (g : Option Nat) :
    s.runApply .lasting [⟨k, .retire g⟩] =
      let n := s.applyNumber + 1
      let c := s.classDesc r.defn.cls
      let pe := s.persistAfterRetire n k i r
      let mark := markOf pe.jobs n
      { s with
        slots := s.slots.set i.val (if r.defn.persistence = .lasting then .draining (some k) else .free)
        classes := s.classes.set r.defn.cls.val { c with count := c.count - 1 }
        claims := s.claims.filter fun e => e.key != k
        applyNumber := n
        persist := { pe with mark := mark, requests := s.requestsLeft mark }
        notices := .build fun q =>
          (((s.notices.get q).postIf ((∃ e ∈ s.claims, e.key = k ∧ (e.holder = q ∨ q ∈ e.waiters.map Waiter.port)) ∧
              s.rights.allows q k .read = true) (.claimVoid k)).postIf
            ((r.watchers.get q = true ∨ c.watchers.get q = true) ∧ s.rights.allows q k .read = true)
            (.retired k)).postIf (s.reached mark q = true) (.durable mark) } := by
  have hl : State.liveRecord { s with applyNumber := s.applyNumber + 1 } k = some (i, r) := h
  have hretire : State.runEntry .lasting { s with applyNumber := s.applyNumber + 1 } ⟨k, .retire g⟩ =
      State.appliedRetire { s with applyNumber := s.applyNumber + 1 } k := State.runRetire_eq _ k hwf
  have hpersist : (State.appliedRetire { s with applyNumber := s.applyNumber + 1 } k).persist =
      s.persistAfterRetire (s.applyNumber + 1) k i r := by
    unfold State.appliedRetire
    rw [hl]
    rfl
  have hclaim : ∀ q, (s.claims.any fun e => e.key == k && (e.holder == q || e.waiters.any fun w => w.port == q)) = true ↔
      ∃ e ∈ s.claims, e.key = k ∧ (e.holder = q ∨ q ∈ e.waiters.map Waiter.port) := fun q => by
    simp only [List.any_eq_true, Bool.and_eq_true, Bool.or_eq_true, beq_iff_eq, List.mem_map]
  rw [State.runApply_single, hretire, State.marked_eq (s := s)
    (by rw [hpersist]; exact s.persistAfterRetire_requests _ k i r), hpersist]
  unfold State.appliedRetire
  rw [hl]
  simp only [State.posted, PortMap.get_build, Bool.or_eq_true, hclaim]
  rfl

end

/-- Settles O28: the RETIRE is applied as the only entry of an apply. -/
theorem directRetireApplied : Obligations.DirectRetireApplied := by
  unfold Obligations.DirectRetireApplied
  intro s p tag k expect i r hwf hk hg hs h hl hc n c first pe mark
  refine (exec_retire_of_direct h hs ((State.directRetire_eq hk hg).trans
    ((State.direct_of_right rfl).trans (State.direct_of_passed hc)))).trans ?_
  rw [State.runApply_retire hwf hl expect]
  rfl

/-! ## DEFAULT and REVERT (R57) -/

section
variable {s : State} {p : Port} {tag : Byte} {k : Nat} {i : SlotId} {r : Record}

/-- The answer takes the place of the command, whatever the command was (R185). -/
theorem State.answers_setPort (s : State) (p : Port) (c : CommandState) (tag : Byte) (x : Result) (data : List Byte) :
    (s.setPort p { s.port p with command := c }).answers p tag x data = s.answers p tag x data := by
  unfold State.answers State.setPort State.port
  simp only [PortMap.get_set_self, PortMap.set_set]

/-- An apply does not read the ports (R73). -/
theorem State.runApply_set_setPort (h : s.liveRecord k = some (i, r)) (v : Value) (g : Option Nat) (x : PortState) :
    (s.setPort p x).runApply .lasting [⟨k, .set v g⟩] = (s.runApply .lasting [⟨k, .set v g⟩]).setPort p x := by
  have hport : (s.setPort p x).liveRecord k = some (i, r) := h
  rw [State.runApply_set h, State.runApply_set hport]
  rfl

theorem State.runApply_set_port (h : s.liveRecord k = some (i, r)) (v : Value) (g : Option Nat) :
    (s.runApply .lasting [⟨k, .set v g⟩]).port p = s.port p := by
  rw [State.runApply_set h]
  rfl

theorem State.directDefault_eq (hk : validKey k = true) (hright : s.rights.allows p k .stage = true) :
    s.directDefault p (enc16 k) =
      match s.liveRecord k with
      | none => (s, .refusedAt .notFound 0)
      | some (_, r) =>
        match r.defn.default with
        | none => (s, .refusedAt .noDefault 0)
        | some v => s.direct p k (.set v none) := by
  unfold State.directDefault
  simp only [readKeyAlone_enc16 (validKey_le hk), hk, if_true, hright, Bool.true_eq_false, if_false] <;> rfl

theorem State.directRevert_eq (hk : validKey k = true) (hright : s.rights.allows p k .stage = true) :
    s.directRevert p (enc16 k) =
      match s.liveRecord k with
      | none => (s, .refusedAt .notFound 0)
      | some (_, r) =>
        match r.revertValue with
        | none => (s, .refusedAt .noStored 0)
        | some v => s.direct p k (.set v none) := by
  unfold State.directRevert
  simp only [readKeyAlone_enc16 (validKey_le hk), hk, if_true, hright, Bool.true_eq_false, if_false] <;> rfl

theorem State.directDefault_of_denied (hk : validKey k = true) (hright : s.rights.allows p k .stage = false) :
    s.directDefault p (enc16 k) = (s, .refusedAt .denied 0) := by
  unfold State.directDefault
  simp only [readKeyAlone_enc16 (validKey_le hk), hk, if_true, hright]

theorem State.directRevert_of_denied (hk : validKey k = true) (hright : s.rights.allows p k .stage = false) :
    s.directRevert p (enc16 k) = (s, .refusedAt .denied 0) := by
  unfold State.directRevert
  simp only [readKeyAlone_enc16 (validKey_le hk), hk, if_true, hright]

end

/-- Settles O29: the value that a DEFAULT or REVERT is resolved into is applied as a SET of it (R57). -/
theorem directDefaultRevertApplied : Obligations.DirectDefaultRevertApplied := by
  unfold Obligations.DirectDefaultRevertApplied
  intro s p tag k hk hs
  refine ⟨fun v i r hv hl hc => ?applied, fun c code hcode h => ?unseen, fun hright i r hl => ?refused⟩
  case applied =>
    intro asSet t
    have hright := State.allows_of_passed hc (need := .stage) rfl
    have hdirect := State.direct_of_passed hc
    refine ⟨?_, fun h hd => exec_default_of_direct h hs ?_, fun h hlasting hstored => exec_revert_of_direct h hs ?_⟩
    · have hworking : asSet.isWorkingOn p tag 0x21#8 (setParams k none v) :=
        congrArg PortState.command (PortMap.get_set_self _ _ _)
      rw [exec_set_of_passed (s := asSet) (expect := none) hk trivial hv hs hworking hc, State.runApply_set_setPort hl,
        ← State.runApply_set_port hl v none, State.answers_setPort]
      rfl
    · rw [State.directDefault_eq hk hright, hl]
      simp only [hd, hdirect]
    · rw [State.directRevert_eq hk hright, hl]
      simp only [Record.revertValue_eq_some hlasting hstored, hdirect]
  case unseen =>
    simp only [List.mem_cons, List.not_mem_nil, or_false] at hcode
    obtain hcode | hcode := hcode <;> cases hcode
    · refine ⟨fun hright => exec_default_of_direct h hs (State.directDefault_of_denied hk hright),
        fun hright hl => exec_default_of_direct h hs ?_⟩
      rw [State.directDefault_eq hk hright, hl]
      rfl
    · refine ⟨fun hright => exec_revert_of_direct h hs (State.directRevert_of_denied hk hright),
        fun hright hl => exec_revert_of_direct h hs ?_⟩
      rw [State.directRevert_eq hk hright, hl]
      rfl
  case refused =>
    have hdefault := State.directDefault_eq hk hright
    have hrevert := State.directRevert_eq hk hright
    rw [hl] at hdefault hrevert
    refine ⟨fun h hd => exec_default_of_direct h hs ?_, fun h hn => exec_revert_of_direct h hs ?_,
      fun v code index hc => ⟨fun h hd => exec_default_of_direct h hs ?_,
        fun h hlasting hstored => exec_revert_of_direct h hs ?_⟩⟩
    · simp only [hdefault, hd]
      rfl
    · simp only [hrevert, Record.revertValue_eq_none hn]
      rfl
    · simp only [hdefault, hd, State.direct_of_refused hc]
    · simp only [hrevert, Record.revertValue_eq_some hlasting hstored, State.direct_of_refused hc]

end Sys2Proof.Machine
end

section
/-! PROOFS. The leases and the pause (O32, O39). -/

namespace Sys2Proof.Machine

/-! ## A tick at a claim (R85, R90) -/

section
variable {s : State} {k : Nat} {a b : List ClaimEntry} {e : ClaimEntry}

theorem State.tickClaim_of_absent (h : ∀ e ∈ s.claims, e.key ≠ k) : s.tickClaim k = s := by
  unfold State.tickClaim
  rw [(s.claimOn_eq_none_iff k).mpr h]

/-- A lease above 1 falls by 1 (R85). -/
theorem State.tickClaim_of_running (hs : s.claims = a ++ e :: b) (hk : e.key = k) (ho : ∀ x ∈ a ++ b, x.key ≠ k)
    (h1 : e.remaining ≠ 1) :
    s.tickClaim k = { s with claims := a ++ { e with remaining := e.remaining - 1 } :: b } := by
  unfold State.tickClaim
  rw [State.claimOn_of_split hs hk fun x hx => ho x (List.mem_append_left _ hx)]
  dsimp only
  rw [if_neg h1, State.setClaim_of_split hs hk ho, Option.toList_some, List.append_assoc]
  rfl

/-- A lease of 1 runs out, at the tick and at the expiry alike (R85, R90). -/
theorem exec_expiry_of_claimOn (h : s.claimOn k = some e) (h1 : e.remaining = 1) {t : State} (ht : s.expireClaim e = t) :
    exec (.tick (.claim k)) s = .next t ∧ exec (.claimExpiry k) s = .next t := by
  subst ht
  refine ⟨congrArg Host.Outcome.next ?_, ?_⟩
  · unfold State.tickClaim
    rw [h]
    exact if_pos h1
  · show execClaimExpiry k s = _
    unfold execClaimExpiry
    rw [h]
    exact if_pos h1

end

/-- A tick at every claim and then at the pause limit, where no key stands twice (R83). -/
theorem State.tickAll_eq {s : State} (h : s.claimsWf) :
    (s.claims.map ClaimEntry.key).foldl State.tickClaim s = { s with
      claims := s.claims.filterMap ClaimEntry.ticked
      notices := .build fun q => s.claims.foldl (s.tickQueue q) (s.notices.get q) } :=
  State.foldl_tickClaim_eq s.claims s [] rfl h.2.1

/-- Settles O32: an entry under its key alone, and the whole list by the fold of its entries. -/
theorem leaseCountsAndExpires : Obligations.LeaseCountsAndExpires := by
  unfold Obligations.LeaseCountsAndExpires
  intro s k
  refine ⟨fun hno => congrArg Host.Outcome.next (State.tickClaim_of_absent hno), fun a b e hs hk ho => ?_, fun hwf => ?_⟩
  · have hclaim : s.claimOn k = some e := State.claimOn_of_split hs hk fun x hx => ho x (List.mem_append_left _ hx)
    refine ⟨fun hlease => congrArg Host.Outcome.next (State.tickClaim_of_running hs hk ho (Nat.ne_of_gt hlease)),
      fun h1 hw => exec_expiry_of_claimOn hclaim h1 ?_, fun w rest h1 hw hne => exec_expiry_of_claimOn hclaim h1 ?_⟩
    · subst hk
      exact (s.expireClaim_eq e).trans (State.handOn_of_no_waiter hs ho hw)
    · subst hk
      have hhanded := State.handOn_of_waiter (s := { s with
        notices := s.notices.set e.holder ((s.notices.get e.holder).postIf
          (s.rights.allows e.holder e.key .read = true) (.claimExpired e.key)) }) hs ho hw
      simp only [PortMap.get_set_of_ne _ _ hne] at hhanded
      exact (s.expireClaim_eq e).trans hhanded
  · refine congrArg Host.Outcome.next ?_
    rw [State.tickAll_eq hwf, State.tickPause_eq]
    simp only [PortMap.get_build]
    rfl

/-! ## The end of a pause (R154, R155) -/

section
variable {s : State} {p : Port} {tag : Byte} {pz : Pause}

theorem exec_resume_of_working {t : State} {data : List Byte} {r : Result} (h : s.isWorkingOn p tag 0x52#8 [])
    (ht : s.adminOnly p (s.resumeEngine p) = (t, ⟨r, data⟩)) : exec (.resume p) s = .next (t.answers p tag r data) :=
  congrArg Host.Outcome.next
    (State.serve_eq_answers h ((congrArg (s.adminOnly p) (State.bareCommand_of_none rfl s _)).trans ht))

theorem State.resumeEngine_of_holder (h : s.persist.engine.pause.map Pause.holder = some p) :
    s.resumeEngine p = ({ s with persist := s.persist.endPause s.nv }, ⟨.ok, [(s.persist.endPause s.nv).engine.code]⟩) :=
  if_pos (beq_iff_eq.mpr h)

theorem State.resumeEngine_of_other (h : s.persist.engine.pause.map Pause.holder ≠ some p) :
    s.resumeEngine p = (s, ⟨.notPaused, []⟩) := if_neg fun hp => h (beq_iff_eq.mp hp)

/-- RESUME by the holder ends the pause as `endPause` does (R154). -/
theorem exec_resume_of_holder (h : s.isWorkingOn p tag 0x52#8 []) (hrole : s.rights.roles.get p = .admin)
    (hp : s.persist.engine.pause = some pz) (hholder : pz.holder = p) {pe : Persist} (hpe : s.persist.endPause s.nv = pe) :
    exec (.resume p) s = .next (State.answers { s with persist := pe } p tag .ok [pe.engine.code]) := by
  subst hpe
  refine exec_resume_of_working h (State.adminOnly_eq hrole (State.resumeEngine_of_holder ?_))
  rw [hp, Option.map_some, hholder]

/-- A limit of 1 runs out, at the tick and at the expiry alike (R155). -/
theorem exec_pauseExpiry (hp : s.persist.engine.pause = some pz) (h1 : pz.limit = 1) :
    let t := { s with
      persist := s.persist.endPause s.nv
      notices := s.notices.set pz.holder ((s.notices.get pz.holder).post (.pauseEnded .limit)) }
    exec (.tick .pauseLimit) s = .next t ∧ exec .pauseLimitExpiry s = .next t := by
  have hended : s.endPause.deliver pz.holder (.pauseEnded .limit) = { s with
      persist := s.persist.endPause s.nv
      notices := s.notices.set pz.holder ((s.notices.get pz.holder).post (.pauseEnded .limit)) } := by
    rw [State.deliver_eq]
    rfl
  refine ⟨congrArg Host.Outcome.next ?_, ?_⟩
  · unfold State.tickPause
    rw [hp]
    exact (if_pos h1).trans hended
  · show execPauseLimitExpiry s = _
    unfold execPauseLimitExpiry
    rw [hp]
    exact (if_pos h1).trans (congrArg Host.Outcome.next hended)

theorem State.tickPause_of_none (hp : s.persist.engine.pause = none) : s.tickPause = s := by
  unfold State.tickPause
  rw [hp]

/-- A limit above 1 falls by 1 (R155). -/
theorem State.tickPause_of_running (hp : s.persist.engine.pause = some pz) (h1 : pz.limit ≠ 1) :
    s.tickPause = { s with persist := { s.persist with engine := s.persist.engine.setLimit (pz.limit - 1) } } := by
  unfold State.tickPause
  rw [hp]
  exact if_neg h1

end

/-- Settles O39: each state of the engine by what `endPause` makes of it. -/
theorem pauseEnds : Obligations.PauseEnds := by
  unfold Obligations.PauseEnds
  intro s
  refine ⟨fun p tag hrole h => exec_resume_of_working h (State.adminOnly_of_not_admin hrole _), fun p tag hrole h => ?_,
    fun hp => congrArg Host.Outcome.next (State.tickPause_of_none hp), fun pz hp => ⟨fun h1 => exec_pauseExpiry hp h1,
      fun h1 => congrArg Host.Outcome.next ?_⟩⟩
  · have hends : ∀ {e : Engine} {pz : Pause} {pe : Persist}, s.persist.engine = e → e.pause = some pz → pz.holder = p →
        s.persist.endPause s.nv = pe →
        exec (.resume p) s = .next (State.answers { s with persist := pe } p tag .ok [pe.engine.code]) :=
      fun he hp hholder hpe => exec_resume_of_holder h hrole (he ▸ hp) hholder hpe
    intro goes
    refine ⟨fun hother => exec_resume_of_working h (State.adminOnly_eq hrole (State.resumeEngine_of_other hother)),
      fun f pz he hholder => hends he rfl hholder ?_, fun j attempt ph pz hholder he => hends he rfl hholder ?_,
      fun j attempt pz hholder he => hends he rfl hholder ?_, fun j rest pz hholder he hq => hends he rfl hholder ?_,
      fun pz hholder he hq => hends he rfl hholder ?_, fun hholder =>
        exec_resume_of_working h (State.adminOnly_eq hrole (State.resumeEngine_of_holder hholder))⟩
    all_goals simp only [Persist.endPause, he, Waiting.resume, Persist.takeHead]
    all_goals rw [hq]
  · rw [State.tickPause_of_running hp (Nat.ne_of_gt h1)]
    cases he : s.persist.engine <;> rw [he] at hp <;> cases hp <;> rfl

end Sys2Proof.Machine
end

section
/-! PROOFS. Attempts and their phases (O41, O42). -/

namespace Sys2Proof.Machine

/-! ## The newest valid copy (R136) -/

theorem Cell.validCopy_eq_some_iff (c : Cell) (x : CellCopy) : c.validCopy = some x ↔ c = .written false x := by
  cases c with
  | written m y => cases m <;> simp [Cell.validCopy]
  | _ => simp [Cell.validCopy]

theorem Cell.validCopy_eq_none_iff (c : Cell) : c.validCopy = none ↔ ∀ x, c ≠ .written false x := by
  rw [Option.eq_none_iff_forall_ne_some]
  exact forall_congr' fun x => not_congr (c.validCopy_eq_some_iff x)

section
variable {pr : CellPair} {x y : CellCopy}

theorem CellPair.newest_of_none (ha : pr.a.validCopy = none) (hb : pr.b.validCopy = none) : pr.newest = none := by
  simp only [CellPair.newest, ha, hb]

theorem CellPair.newest_of_a (ha : pr.a.validCopy = some x) (hb : pr.b.validCopy = none) : pr.newest = some (.a, x) := by
  simp only [CellPair.newest, ha, hb]

theorem CellPair.newest_of_b (ha : pr.a.validCopy = none) (hb : pr.b.validCopy = some y) : pr.newest = some (.b, y) := by
  simp only [CellPair.newest, ha, hb]

/-- Of two valid cells, B is the newer where its sequence number follows that of A (R136). -/
theorem CellPair.newest_of_both (ha : pr.a.validCopy = some x) (hb : pr.b.validCopy = some y) :
    pr.newest = if y.seq = successor x.seq then some (.b, y) else some (.a, x) := by
  simp only [CellPair.newest, ha, hb]

theorem CellPair.writeTarget_eq {c : CellName} (h : pr.newest = some (c, x)) :
    pr.writeTarget = (c.other, successor x.seq) := by
  rw [CellPair.writeTarget, h]

theorem CellPair.writeTarget_of_none (h : pr.newest = none) : pr.writeTarget = (.a, 1) := by
  rw [CellPair.writeTarget, h]

theorem CellPair.marks_of_none (h : pr.newest = none) : pr.marks = [] := by
  rw [CellPair.marks, h]

theorem CellPair.marks_of_one {c : CellName} (h : pr.newest = some (c, x)) (ho : (pr.get c.other).validCopy = none) :
    pr.marks = [c] := by
  simp only [CellPair.marks, h, ho, Option.isSome_none, Bool.false_eq_true, if_false]

theorem CellPair.marks_of_both {c : CellName} (h : pr.newest = some (c, x)) (ho : (pr.get c.other).validCopy = some y) :
    pr.marks = [c.other, c] := by
  simp only [CellPair.marks, h, ho, Option.isSome_some, if_true]

end

theorem startAttempt_write {nv : NvArray} {w : WriteJob} {c : CellName} {seq : Nat}
    (h : (nv.pair w.slot).writeTarget = (c, seq)) (attempt : Nat) :
    startAttempt nv (.slot (.write w)) attempt = ⟨.slot (.write w), attempt, .eraseTarget c seq⟩ := by
  rw [startAttempt, firstPhase, h]

theorem startAttempt_erase_of_marks {nv : NvArray} {e : EraseJob} {c : CellName} {later : List CellName}
    (h : (nv.pair e.slot).marks = c :: later) (attempt : Nat) :
    startAttempt nv (.slot (.erase e)) attempt = ⟨.slot (.erase e), attempt, .mark c later⟩ := by
  simp only [startAttempt, firstPhase, h]

theorem startAttempt_erase_of_no_mark {nv : NvArray} {e : EraseJob} (h : (nv.pair e.slot).marks = []) (attempt : Nat) :
    startAttempt nv (.slot (.erase e)) attempt = ⟨.slot (.erase e), attempt, .eraseA⟩ := by
  simp only [startAttempt, firstPhase, h]

/-- Settles O41: which cells of the pair are valid decides the target of a WRITE and the marks of an ERASE. -/
theorem attemptBegins : Obligations.AttemptBegins := by
  unfold Obligations.AttemptBegins
  intro nv attempt w e next writes erases valid notValid
  have copy : ∀ {i c x}, valid i c x → ((nv.pair i).get c).validCopy = some x := fun h =>
    (Cell.validCopy_eq_some_iff _ _).mpr h
  have noCopy : ∀ {i c}, notValid i c → ((nv.pair i).get c).validCopy = none := fun h =>
    (Cell.validCopy_eq_none_iff _).mpr h
  have newestB : ∀ {i : SlotId} {x y : CellCopy}, valid i .a x → valid i .b y → y.seq = next x.seq →
      (nv.pair i).newest = some (.b, y) := fun hx hy hs =>
    (CellPair.newest_of_both (copy hx) (copy hy)).trans (if_pos hs)
  have newestA : ∀ {i : SlotId} {x y : CellCopy}, valid i .a x → valid i .b y → y.seq ≠ next x.seq →
      (nv.pair i).newest = some (.a, x) := fun hx hy hs =>
    (CellPair.newest_of_both (copy hx) (copy hy)).trans (if_neg hs)
  refine ⟨fun ha hb => ?_, fun x ha hb => ?_, fun y ha hb => ?_, fun x y ha hb => ⟨fun hs => ?_, fun hs => ?_⟩,
    fun ha hb => ?_, fun x ha hb => ?_, fun y ha hb => ?_, fun x y ha hb => ⟨fun hs => ?_, fun hs => ?_⟩, fun i d => rfl⟩
  · exact startAttempt_write (CellPair.writeTarget_of_none (CellPair.newest_of_none (noCopy ha) (noCopy hb))) attempt
  · exact startAttempt_write (CellPair.writeTarget_eq (CellPair.newest_of_a (copy ha) (noCopy hb))) attempt
  · exact startAttempt_write (CellPair.writeTarget_eq (CellPair.newest_of_b (noCopy ha) (copy hb))) attempt
  · exact startAttempt_write (CellPair.writeTarget_eq (newestB ha hb hs)) attempt
  · exact startAttempt_write (CellPair.writeTarget_eq (newestA ha hb hs)) attempt
  · exact startAttempt_erase_of_no_mark (CellPair.marks_of_none (CellPair.newest_of_none (noCopy ha) (noCopy hb))) attempt
  · exact startAttempt_erase_of_marks
      (CellPair.marks_of_one (CellPair.newest_of_a (copy ha) (noCopy hb)) (noCopy hb)) attempt
  · exact startAttempt_erase_of_marks
      (CellPair.marks_of_one (CellPair.newest_of_b (noCopy ha) (copy hb)) (noCopy ha)) attempt
  · exact startAttempt_erase_of_marks (CellPair.marks_of_both (newestB ha hb hs) (copy ha)) attempt
  · exact startAttempt_erase_of_marks (CellPair.marks_of_both (newestA ha hb hs) (copy hb)) attempt

/-! ## What a phase leaves (R137, R138) -/

theorem erasedCell_mem (old : Cell) (r : NvResult) : erasedCell old r ∈ [.erased, old, .corrupt] := by
  cases r <;> simp [erasedCell]

theorem exists_erasedCell {old x : Cell} (h : x ∈ [.erased, old, .corrupt]) : ∃ r, erasedCell old r = x := by
  simp only [List.mem_cons, List.not_mem_nil, or_false] at h
  obtain rfl | rfl | rfl := h
  exacts [⟨.asMeant, rfl⟩, ⟨.asBefore, rfl⟩, ⟨.corrupt, rfl⟩]

theorem programmedCell_of_written {old : Cell} (h : old ≠ .erased) (copy : CellCopy) (r : NvResult) :
    programmedCell old copy r = .corrupt := by
  cases old with
  | erased => exact absurd rfl h
  | _ => rfl

theorem programmedCell_of_failed {r : NvResult} (h : r ≠ .asMeant) (copy : CellCopy) :
    programmedCell .erased copy r ∈ [.erased, .corrupt] := by
  cases r <;> simp_all [programmedCell]

theorem cutProgram_mem (r : NvResult) : cutProgram r ∈ [.erased, .corrupt] := by
  cases r <;> simp [cutProgram]

theorem markedCell_of_failed {r : NvResult} (h : r ≠ .asMeant) (c : Cell) : markedCell c r = c := by
  cases r with
  | asMeant => exact absurd rfl h
  | _ => rfl

theorem cutMark_written (m : Bool) (x : CellCopy) (r : NvResult) :
    cutMark (.written m x) r = .written (if r = .asMeant then true else m) x := by
  cases r <;> rfl

theorem programmedEntry_of_failed {e : OneTime} {r : NvResult} (h : r ≠ .asMeant ∨ e ≠ .unwritten) (d : WindowDef) :
    programmedEntry e d r = .spoiled := by
  cases e <;> cases r <;> simp_all [programmedEntry]

theorem cutEntry_mem (e : OneTime) (r : NvResult) : cutEntry e r ∈ [e, .spoiled] := by
  cases r <;> simp [cutEntry]

theorem exists_cutEntry {e x : OneTime} (h : x ∈ [e, .spoiled]) : ∃ r, cutEntry e r = x := by
  simp only [List.mem_cons, List.not_mem_nil, or_false] at h
  obtain rfl | rfl := h
  exacts [⟨.asBefore, rfl⟩, ⟨.corrupt, rfl⟩]

/-- A cell set to what it holds (R137). -/
theorem NvArray.setCell_self (nv : NvArray) (i : SlotId) (c : CellName) : nv.setCell i c ((nv.pair i).get c) = nv := by
  have hpair : (nv.pair i).set c ((nv.pair i).get c) = nv.pair i := by cases c <;> rfl
  unfold NvArray.setCell
  rw [hpair]
  exact congrArg (fun cells => { nv with cells := cells }) (Vector.set_getElem_self _)

section
variable {s : State} {f : Flight} {i : SlotId} {c : CellName}

/-- The phases that erase a cell (R145, R146). -/
def Flight.erases (f : Flight) (i : SlotId) (c : CellName) : Prop :=
  (∃ w : WriteJob, f.job = .slot (.write w) ∧ w.slot = i ∧ ∃ seq : Nat, f.phase = .eraseTarget c seq) ∨
    ∃ e : EraseJob, f.job = .slot (.erase e) ∧ e.slot = i ∧ (c = .a ∧ f.phase = .eraseA ∨ c = .b ∧ f.phase = .eraseB)

/-- An ERASE of a cell, ended or cut, acts on that cell alone (R137, R138). -/
theorem Flight.erases.results (h : f.erases i c) (nv : NvArray) (r : NvResult) :
    nv.endPhase f r = nv.setCell i c (erasedCell ((nv.pair i).get c) r) ∧
      nv.cutPhase f r = nv.setCell i c (erasedCell ((nv.pair i).get c) r) := by
  unfold NvArray.endPhase NvArray.cutPhase
  obtain ⟨w, hj, rfl, seq, hp⟩ | ⟨e, hj, rfl, ⟨rfl, hp⟩ | ⟨rfl, hp⟩⟩ := h <;>
    rw [hj, hp] <;> exact ⟨rfl, rfl⟩

theorem NvArray.endPhase_program {w : WriteJob} {seq : Nat} (hj : f.job = .slot (.write w)) (hp : f.phase = .program c seq)
    (nv : NvArray) (r : NvResult) :
    nv.endPhase f r = nv.setCell w.slot c (programmedCell ((nv.pair w.slot).get c) (w.copy seq) r) ∧
      nv.cutPhase f r = nv.setCell w.slot c (cutProgram r) := by
  unfold NvArray.endPhase NvArray.cutPhase
  rw [hj, hp]
  exact ⟨rfl, rfl⟩

theorem NvArray.endPhase_mark {e : EraseJob} {later : List CellName} (hj : f.job = .slot (.erase e))
    (hp : f.phase = .mark c later) (nv : NvArray) (r : NvResult) :
    nv.endPhase f r = nv.setCell e.slot c (markedCell ((nv.pair e.slot).get c) r) ∧
      nv.cutPhase f r = nv.setCell e.slot c (cutMark ((nv.pair e.slot).get c) r) := by
  unfold NvArray.endPhase NvArray.cutPhase
  rw [hj, hp]
  exact ⟨rfl, rfl⟩

theorem NvArray.endPhase_programEntry {i : WindowId} {d : WindowDef} (hj : f.job = .freeze i d)
    (hp : f.phase = .programEntry) (nv : NvArray) (r : NvResult) :
    nv.endPhase f r = nv.setEntry i (programmedEntry (nv.entry i) d r) ∧
      nv.cutPhase f r = nv.setEntry i (cutEntry (nv.entry i) r) := by
  unfold NvArray.endPhase NvArray.cutPhase
  rw [hj, hp]
  exact ⟨rfl, rfl⟩

/-- A cut VERIFY leaves everything (R138). -/
theorem NvArray.cutPhase_verify (h : (∃ (c : CellName) (seq : Nat), f.phase = .verify c seq) ∨ f.phase = .verifyErased ∨
    f.phase = .verifyEntry) (nv : NvArray) (r : NvResult) : nv.cutPhase f r = nv := by
  unfold NvArray.cutPhase
  obtain ⟨c, seq, hp⟩ | hp | hp := h <;> rw [hp] <;> split <;> simp_all

/-- A phase that another follows ends (R148). -/
theorem exec_phaseEnd_of_next {ph : Phase} (h : f.phase.next = some ph) (result : NvResult) :
    (s.persist.engine = .busy f → exec (.phaseEnd result) s = .next { s with
      nv := s.nv.endPhase f result
      persist := { s.persist with engine := .busy ⟨f.job, f.attempt, ph⟩ } }) ∧
    (∀ pz : Pause, s.persist.engine = .pausing f pz → exec (.phaseEnd result) s = .next { s with
      nv := s.nv.endPhase f result
      persist := { s.persist with engine := .paused (some ⟨f.job, f.attempt, .phase ph⟩) pz } }) := by
  have hexec : exec (.phaseEnd result) s = execPhaseEnd result s := rfl
  refine ⟨fun he => ?_, fun pz he => ?_⟩
  all_goals
    rw [hexec, execPhaseEnd, he]
    simp only [Engine.running, h]
    rfl

end

/-- Settles O42: the order of the phases, and then each kind of phase by the cell or entry that it acts on. -/
theorem phaseEndBeginsNext : Obligations.PhaseEndBeginsNext := by
  unfold Obligations.PhaseEndBeginsNext
  intro s f result
  refine ⟨fun ph h => exec_phaseEnd_of_next ?_ result, fun i c => ?cells, fun h => NvArray.cutPhase_verify h _ _,
    fun i d hj hp => ?entry⟩
  · obtain ⟨c, seq, hp, rfl⟩ | ⟨c, seq, hp, rfl⟩ | ⟨c, later, rest, hp, rfl⟩ | ⟨c, hp, rfl⟩ | ⟨hp, rfl⟩ | ⟨hp, rfl⟩ |
      ⟨hp, rfl⟩ := h <;> rw [hp] <;> rfl
  case cells =>
    intro old
    refine ⟨fun h => ?erase, fun w seq hj hw hp => ?program, fun e later m x hj he hp hold => ?mark⟩
    case erase =>
      have hresults := Flight.erases.results (f := f) (i := i) (c := c) h s.nv
      refine ⟨?_, ⟨_, erasedCell_mem old result, (hresults result).1⟩, ⟨_, erasedCell_mem old result, (hresults result).2⟩,
        fun x hx => ?_⟩
      · rintro rfl
        exact (hresults .asMeant).1
      · obtain ⟨r, rfl⟩ := exists_erasedCell hx
        exact ⟨r, r, hresults r⟩
    case program =>
      subst hw
      have hresults := NvArray.endPhase_program hj hp s.nv
      refine ⟨?_, fun hr hold => ?_, fun hold => ?_, ⟨_, cutProgram_mem result, (hresults result).2⟩, fun x hx => ?_⟩
      · rintro rfl hold
        rw [(hresults .asMeant).1, show (s.nv.pair w.slot).get c = .erased from hold]
        rfl
      · exact ⟨_, hold ▸ programmedCell_of_failed hr (w.copy seq), (hresults result).1⟩
      · rw [(hresults result).1, programmedCell_of_written hold]
      · simp only [List.mem_cons, List.not_mem_nil, or_false] at hx
        obtain rfl | rfl := hx
        · refine ⟨.erased, .erased, nofun, fun hold => ?_, (hresults .erased).2⟩
          rw [(hresults .erased).1, show (s.nv.pair w.slot).get c = .erased from hold]
          rfl
        · refine ⟨.corrupt, .corrupt, nofun, fun hold => ?_, (hresults .corrupt).2⟩
          rw [(hresults .corrupt).1, show (s.nv.pair w.slot).get c = .erased from hold]
          rfl
    case mark =>
      subst he
      have hcell : (s.nv.pair e.slot).get c = .written m x := hold
      have hresults := NvArray.endPhase_mark hj hp s.nv
      have hcut : ∀ r, s.nv.cutPhase f r = s.nv.setCell e.slot c (.written (if r = .asMeant then true else m) x) :=
        fun r => by rw [(hresults r).2, hcell, cutMark_written]
      refine ⟨?_, fun hr => ?_, ⟨_, ?_, hcut result⟩, fun m' hm => ?_⟩
      · rintro rfl
        rw [(hresults .asMeant).1, hcell]
        rfl
      · rw [(hresults result).1, markedCell_of_failed hr, NvArray.setCell_self]
      · by_cases hr : result = .asMeant <;> simp [hr]
      · simp only [List.mem_cons, List.not_mem_nil, or_false] at hm
        obtain rfl | rfl := hm
        · exact ⟨.asBefore, hcut .asBefore⟩
        · exact ⟨.asMeant, hcut .asMeant⟩
  case entry =>
    have hresults := NvArray.endPhase_programEntry hj hp s.nv
    refine ⟨?_, fun h => ?_, ⟨_, cutEntry_mem _ result, (hresults result).2⟩, fun x hx => ?_⟩
    · rintro rfl hold
      rw [(hresults .asMeant).1, hold]
      rfl
    · rw [(hresults result).1, programmedEntry_of_failed h]
    · obtain ⟨r, rfl⟩ := exists_cutEntry hx
      exact ⟨r, (hresults r).2⟩

end Sys2Proof.Machine
end

section
/-! PROOFS. The scan (O51). -/

namespace Sys2Proof.Machine

section
variable {nv : NvArray} {i : SlotId} {c : CellName} {x : CellCopy}

theorem CellPair.provisional_of_newest {pr : CellPair} (h : pr.newest = some (c, x)) :
    pr.provisional = .live x.restored := by
  simp only [CellPair.provisional, h]

theorem CellPair.provisional_of_none {pr : CellPair} (h : pr.newest = none) :
    pr.provisional = if pr = ⟨.erased, .erased⟩ then .free else .draining none := by
  obtain ⟨a, b⟩ := pr
  simp only [CellPair.provisional, h, CellPair.mk.injEq]

/-- A pair is provisionally LIVE with the key of its newest valid copy (R169). -/
theorem CellPair.provisional_holds_iff (pr : CellPair) (k : Nat) :
    pr.provisional.holds k = true ↔ ∃ (c : CellName) (y : CellCopy), pr.newest = some (c, y) ∧ y.key = k := by
  cases hn : pr.newest with
  | none =>
    rw [CellPair.provisional_of_none hn]
    refine ⟨fun h => ?_, nofun⟩
    split at h <;> cases h
  | some z =>
    obtain ⟨c, y⟩ := z
    rw [CellPair.provisional_of_newest hn]
    simp [Slot.holds, CellCopy.restored]

theorem NvArray.heldBelow_iff (nv : NvArray) (i : SlotId) (k : Nat) :
    nv.heldBelow i k = true ↔
      ∃ (j : SlotId) (c : CellName) (y : CellCopy), j < i ∧ (nv.pair j).newest = some (c, y) ∧ y.key = k := by
  unfold NvArray.heldBelow
  simp only [List.any_eq_true, List.mem_finRange, true_and, Bool.and_eq_true, decide_eq_true_eq,
    CellPair.provisional_holds_iff, Fin.lt_def]
  constructor
  · rintro ⟨j, hj, c, y, hy, hk⟩
    exact ⟨j, c, y, hj, hy, hk⟩
  · rintro ⟨j, c, y, hj, hy, hk⟩
    exact ⟨j, hj, c, y, hy, hk⟩

/-- The slot of a pair with a valid copy (R169, R171). -/
theorem NvArray.scannedSlot_of_newest (h : (nv.pair i).newest = some (c, x)) :
    nv.scannedSlot i = if nv.heldBelow i x.key then .draining none else .live x.restored := by
  unfold NvArray.scannedSlot
  rw [CellPair.provisional_of_newest h]
  rfl

theorem NvArray.scannedSlot_of_none (h : (nv.pair i).newest = none) :
    nv.scannedSlot i = if nv.pair i = ⟨.erased, .erased⟩ then .free else .draining none := by
  unfold NvArray.scannedSlot
  rw [CellPair.provisional_of_none h]
  by_cases he : nv.pair i = ⟨.erased, .erased⟩
  · rw [if_pos he]
  · rw [if_neg he]

end

section
variable {s : State}

/-- The slots that need clean-up are those that the scan leaves DRAINING (R172). -/
theorem State.finishScan_cleanupSlots (s : State) :
    cleanupSlots s.nv.scan = (List.finRange 384).filter fun i => (s.finishScan.slot i).isDraining := by
  unfold cleanupSlots State.slot
  rw [s.finishScan_frame.1]

theorem NvArray.scannedPersist_eq (nv : NvArray) : nv.scannedPersist =
    ⟨((cleanupSlots nv.scan).take 24).map cleanupJob, .idle, 0, ⟨none, none, none⟩⟩ := rfl

/-- The windows and entries at READY (R116, R176). -/
theorem State.finishScan_rights (s : State) : s.finishScan.rights.roles = ⟨.admin, .editor, .editor⟩ ∧
    ∀ i : WindowId, s.finishScan.rights.windows[i.val] = (s.nv.entry i).window ∧
      s.finishScan.rights.entries[i.val] = (s.nv.entry i).state := by
  rw [s.finishScan_frame.2.2.1]
  simp [NvArray.scannedRights]

/-- What the end of the scan leaves as it was of the supply and the pins. -/
theorem State.finishScan_levels (s : State) :
    s.finishScan.vdd = s.vdd ∧ s.finishScan.resetnLow = s.resetnLow := by
  simp [State.finishScan, State.goOn]

end

/-- Settles O51: each slot by its newest valid copy, and the blocks as the end of the scan sets them. -/
theorem readyRebuilds : Obligations.ReadyRebuilds := by
  unfold Obligations.ReadyRebuilds
  intro s hvdd hscan
  have hready : exec .ready s = .next s.finishScan := if_pos (by rw [hvdd, hscan]; rfl)
  obtain ⟨-, -, -, hnv, hports, hstartup, hpending⟩ := s.finishScan_frame
  obtain ⟨hnotices, hclaims, hstaged, happly⟩ := s.finishScan_volatile
  obtain ⟨hroles, hwindows⟩ := s.finishScan_rights
  obtain ⟨hvdd', hresetn⟩ := s.finishScan_levels
  refine ⟨s.finishScan, hready, fun i => ⟨fun c x hx => ⟨fun hlow => ?_, fun hlow => ?_⟩, fun hn he => ?_, fun hn he => ?_⟩,
    s.finishScan_classDesc, hroles, fun i => ⟨fun d hd => ?_, fun hd => ?_, fun hd => ?_⟩, fun need hneed => ⟨?_, ?_⟩,
    hstaged, happly, hclaims, hnotices, hnv, hports, hvdd', hresetn, hpending⟩
  · rw [State.finishScan_slot, NvArray.scannedSlot_of_newest hx, if_pos ((s.nv.heldBelow_iff i x.key).mpr hlow)]
  · rw [State.finishScan_slot, NvArray.scannedSlot_of_newest hx, if_neg]
    · rfl
    · rw [NvArray.heldBelow_iff]
      rintro ⟨j, c', y, hj, hy, hk⟩
      exact hlow j c' y hj hy hk
  · rw [State.finishScan_slot, NvArray.scannedSlot_of_none hn, if_pos he]
  · rw [State.finishScan_slot, NvArray.scannedSlot_of_none hn, if_neg he]
  · rw [(hwindows i).1, (hwindows i).2, hd]
    exact ⟨rfl, rfl⟩
  · rw [(hwindows i).1, (hwindows i).2, hd]
    exact ⟨rfl, rfl⟩
  · rw [(hwindows i).1, (hwindows i).2, hd]
    exact ⟨rfl, rfl⟩
  · rw [hstartup, hneed, State.finishScan_cleanupSlots]
  · rw [State.finishScan_persist, NvArray.scannedPersist_eq, hneed, ← State.finishScan_cleanupSlots]
    generalize (cleanupSlots s.nv.scan).take 24 = cleaned
    cases cleaned <;> rfl

end Sys2Proof.Machine
end
